-- ==== Sys2Proof/Word.lean ====
section
/-! DEFINITION. The word types of the FXB (R8, R9, R52). A register or command word has 32 bits; a sample is an int24,
kept as its 24 bits and read with `toInt`; a count, gain fraction or coefficient of 24 bits is kept as its bits and read
with `toNat`. Every rule computes with mathematical integers (R9, R262), so arithmetic is done on `Int` and `Nat` and
only the stored result is a bit vector. -/

namespace Sys2Proof

/-- A 32-bit register, command or parameter word (R9, R122). -/
abbrev Word := BitVec 32

/-- An int24 sample or table entry (R9, R261). -/
abbrev Sample := BitVec 24

/-- A 24-bit unsigned stored value: a counter, a length, a U1.23 gain or a U0.24 coefficient (R62). -/
abbrev U24 := BitVec 24

end Sys2Proof
end

