-- ==== Sys2Proof/Syntax.lean ====
section
/-! DEFINITION. The commands of the FXB (R160, R161), one constructor per row of the opcode table. Every bit of a header
outside the opcode is an operand, the reserved fields too, because a command first checks that its reserved bits are zero
and raises RESERVED otherwise (R164, R205): a header is never lost, and no header reads as another command. -/

namespace Sys2Proof

/-- A command (R161). Operand order is the header's, from bit 27 down. -/
inductive Instr where
  /-- NOP (R211): reserved 27:0. -/
  | nop (rsv : BitVec 28)
  /-- SETP (R210): reserved 27:12, PID 11:0, and the payload word VALUE. -/
  | setp (rsv : BitVec 16) (pid : BitVec 12) (value : Word)
  /-- NOTE_ON (R212): reserved 27:12, TECH 11:8, STR 7:4, SLOT 3:0. -/
  | noteOn (rsv : BitVec 16) (tech str slot : BitVec 4)
  /-- RELEASE (R214): reserved 27:9, BYSLOT 8, reserved 7:4, TGT 3:0. -/
  | release (rsvHi : BitVec 19) (bySlot : BitVec 1) (rsvLo : BitVec 4) (tgt : BitVec 4)
  /-- SWAP (R213): reserved 27:5, MASK 4:0. -/
  | swap (rsv : BitVec 23) (mask : BitVec 5)
  /-- WAIT (R215): reserved 27:24, COUNT 23:0. -/
  | wait (rsv : BitVec 4) (count : U24)
  /-- SYNC (R216): reserved 27:3, LMASK 2:0. -/
  | sync (rsv : BitVec 25) (lmask : BitVec 3)
  /-- Opcode 0x7, illegal (R217): bits 27:0 are any value. -/
  | illegal7 (rest : BitVec 28)
  /-- Opcodes 0x8 to 0xF, illegal (R217): bit 31 is 1, bits 30:0 are any value. -/
  | illegalHi (rest : BitVec 31)
  deriving DecidableEq, Repr

end Sys2Proof
end

