-- ==== Sys2Proof/WellFormed.lean ====
section
/-! DEFINITION. Well-formed commands: those whose header selects its row of the opcode map, `(h & mask) = match` (R163),
that is, whose reserved fields are zero (R164). Whether the operand values are legal (R162) is no matter of form: a valid
form with a bad operand is executed and records its error (Machine/Operands.lean). -/

namespace Sys2Proof

/-- The reserved fields are zero (R163, R164). Opcodes 0x7 to 0xF have no reserved field. -/
def Instr.wellFormed : Instr → Bool
  | .nop rsv => rsv == 0
  | .setp rsv _ _ => rsv == 0
  | .noteOn rsv _ _ _ => rsv == 0
  | .release rsvHi _ rsvLo _ => rsvHi == 0 && rsvLo == 0
  | .swap rsv _ => rsv == 0
  | .wait rsv _ => rsv == 0
  | .sync rsv _ => rsv == 0
  | .illegal7 _ => true
  | .illegalHi _ => true

end Sys2Proof
end

