-- ==== Sys2Proof/Decode.lean ====
section
/-! DEFINITION. Reading a command from a list of FIFO words, and writing one (R160 to R163). The FIFO holds 32-bit words;
the FXB never splits a word into bytes (R122), so the decoder reads words. -/

namespace Sys2Proof

/-- Why no command can be read from the words. -/
inductive DecodeError where
  /-- There is no word. -/
  | noWord
  /-- The first word is a SETP header and its payload has not been pushed (R202). -/
  | payloadMissing
  deriving DecidableEq, Repr

/-- The opcode, header bits 31:28 (R160). -/
def opcodeOf (h : Word) : BitVec 4 := h.extractLsb' 28 4

/-- The opcode of SETP, the only command with a payload word (R160). -/
abbrev opcodeSetp : BitVec 4 := 0x1#4

/-- The command of a header whose opcode is not SETP's; the length is one word (R160, R161, R162). -/
def decodeOneWord (h : Word) : Instr :=
  match (opcodeOf h).toNat with
  | 0 => .nop (h.extractLsb' 0 28)
  | 2 => .noteOn (h.extractLsb' 12 16) (h.extractLsb' 8 4) (h.extractLsb' 4 4) (h.extractLsb' 0 4)
  | 3 => .release (h.extractLsb' 9 19) (h.extractLsb' 8 1) (h.extractLsb' 4 4) (h.extractLsb' 0 4)
  | 4 => .swap (h.extractLsb' 5 23) (h.extractLsb' 0 5)
  | 5 => .wait (h.extractLsb' 24 4) (h.extractLsb' 0 24)
  | 6 => .sync (h.extractLsb' 3 25) (h.extractLsb' 0 3)
  | 7 => .illegal7 (h.extractLsb' 0 28)
  | _ => .illegalHi (h.extractLsb' 0 31)

/-- The command of a SETP header and its payload word (R160, R161). -/
def decodeSetp (h value : Word) : Instr :=
  .setp (h.extractLsb' 12 16) (h.extractLsb' 0 12) value

/-- The command at the head of the words, and the words after it (R160, R204). The payload word of a SETP is never
decoded as a header. -/
def decode : List Word → Except DecodeError (Instr × List Word)
  | [] => .error .noWord
  | h :: rest =>
    if opcodeOf h = opcodeSetp then
      match rest with
      | [] => .error .payloadMissing
      | value :: rest' => .ok (decodeSetp h value, rest')
    else .ok (decodeOneWord h, rest)

/-- The header word of a command (R161). -/
def headerOf : Instr → Word
  | .nop rsv => 0x0#4 ++ rsv
  | .setp rsv pid _ => opcodeSetp ++ rsv ++ pid
  | .noteOn rsv tech str slot => 0x2#4 ++ rsv ++ tech ++ str ++ slot
  | .release rsvHi bySlot rsvLo tgt => 0x3#4 ++ rsvHi ++ bySlot ++ rsvLo ++ tgt
  | .swap rsv mask => 0x4#4 ++ rsv ++ mask
  | .wait rsv count => 0x5#4 ++ rsv ++ count
  | .sync rsv lmask => 0x6#4 ++ rsv ++ lmask
  | .illegal7 rest => 0x7#4 ++ rest
  | .illegalHi rest => 0x1#1 ++ rest

/-- The words of a command: the header, and for SETP the payload (R160). -/
def encode (i : Instr) : List Word :=
  match i with
  | .setp _ _ value => [headerOf i, value]
  | _ => [headerOf i]

/-- The words of an instruction whose bits are `w`, the first word in bits 31:0 and the second in bits 63:32; bits at or
above `nbits` are 0. Two words only where the header is SETP's (R160; log 14). -/
def wordsOfTable (nbits w : Nat) : List Word :=
  let bits := w % 2 ^ nbits
  let h : Word := BitVec.ofNat 32 bits
  if opcodeOf h = opcodeSetp then [h, BitVec.ofNat 32 (bits / 2 ^ 32)] else [h]

/-- The instruction the decoder reads from an instruction whose bits are `w` (R160, R163; log 14). -/
def decodeTableWord (nbits w : Nat) : Option Instr :=
  match decode (wordsOfTable nbits w) with
  | .ok (i, _) => some i
  | .error _ => none

end Sys2Proof
end

