-- ==== Sys2Proof/Config.lean ====
section
/-! DEFINITION. What an implementation of the FXB fixes: the parameters of R6 with the values the spec gives, the OPEN
parameters of 92_eei_decisions.md as constants without a value, and the free values (R126, and the bus read while RST is
asserted). A constant without a body can be neither evaluated nor proved equal to any number. -/

namespace Sys2Proof.Config

/-- N_EG, envelope slots (R6). -/
abbrev N_EG : Nat := 8

/-- N_STRING, string indices 0 to 3 (R6). -/
abbrev N_STRING : Nat := 4

/-- N_TECH, techniques (R6). -/
abbrev N_TECH : Nat := 5

/-- N_STAGE, stages with enable and mix (R6). -/
abbrev N_STAGE : Nat := 10

/-- N_BQ, plain filter sections (R6). -/
abbrev N_BQ : Nat := 21

/-- N_MBQ, modulated sections (R6). -/
abbrev N_MBQ : Nat := 5

/-- N_LFO, oscillators (R6). -/
abbrev N_LFO : Nat := 3

/-- N_DL, delay lines (R6). -/
abbrev N_DL : Nat := 4

/-- CURVE_LEN, entries per curve table bank (R6). -/
abbrev CURVE_LEN : Nat := 1025

/-- IR_MAX_LEN, entries per impulse channel bank and length of the convolution history (R6). -/
abbrev IR_MAX_LEN : Nat := 131072

/-- WAVE_LEN, entries of the LFO wavetable (R6). -/
abbrev WAVE_LEN : Nat := 256

/-- CMD_FIFO_DEPTH, words of the command FIFO (R6). -/
abbrev CMD_FIFO_DEPTH : Nat := 256

/-- CMD_BURST, most commands executed per tick (R6). -/
abbrev CMD_BURST : Nat := 16

/-- FB_MAX, the largest feedback gain, U1.23 (R6). -/
abbrev FB_MAX : Int := 7969178

/-- DL_LEN of the CHORUS line (R6, R410). -/
abbrev DL_LEN_CHORUS : Nat := 4096

/-- DL_LEN of the DELAY line (R6, R410). -/
abbrev DL_LEN_DELAY : Nat := 131072

/-- DL_LEN of the REVPRE line (R6, R410). -/
abbrev DL_LEN_REVPRE : Nat := 8192

/-- DL_LEN of the TAPE line (R6, R410). -/
abbrev DL_LEN_TAPE : Nat := 131072

/-- The identification word, ASCII BASS (R1, R32). -/
abbrev ID_WORD : Word := 0x42415353#32

/-- The configuration word (R45). -/
abbrev CONFIG_WORD : Word := 0x10081108#32

/-- FS, the sample rate in Hz: an OPEN parameter, no rule's result depends on it (R6; log 12). -/
opaque FS : Nat

/-- The host address of register offset 0x00 divided by 256: FXB_BASE is an OPEN parameter, any 256-byte-aligned
address (R129; log 12). -/
opaque FXB_PAGE : Nat

/-- HOST_BYTE_ORDER, whether the lowest host byte address of a register reaches bits 7:0: an OPEN parameter that changes
no rule (R122; log 12). -/
opaque HOST_LITTLE_ENDIAN : Bool

/-- The value of each table entry after power-on, by its table address: drawn once and kept until written (R126).
A FREE VALUE: it has no body, so every statement holds for every drawing (log 2). -/
opaque powerOnEntry : Nat → Sample

/-- What a bus read returns while RST is asserted; the spec says only that accesses are accepted after RST is released
(R540). A FREE VALUE, a fresh one at each such read (log 6). -/
opaque busReadInReset : Nat → Word

end Sys2Proof.Config
end

