-- ==== Sys2Proof/Machine/Arith.lean ====
section
/-! DEFINITION. The arithmetic primitives of 41_arith.md, on mathematical integers (R9, R10, R260 to R264, R270, R275 to
R277), and the conversions between stored bits and integers. -/

namespace Sys2Proof.Machine

/-- Arithmetic right shift, the floor of `a / 2^s` (R10). -/
def asr (a : Int) (s : Nat) : Int := a / ((2 ^ s : Nat) : Int)

/-- `rnd(v, s)`: round `v / 2^s` to nearest, ties toward plus infinity; `rnd(v, 0) = v` (R260). -/
def rnd (v : Int) (s : Nat) : Int :=
  match s with
  | 0 => v
  | s' + 1 => asr (v + ((2 ^ s' : Nat) : Int)) (s' + 1)

/-- `clamp(v, lo, hi) = min(max(v, lo), hi)` (R10). -/
def clamp (v lo hi : Int) : Int := min (max v lo) hi

/-- Saturation to int24 (R261). -/
def sat24 (v : Int) : Int := clamp v (-8388608) 8388607

/-- The stored form of an int24 value (R9). -/
def sampleOf (v : Int) : Sample := BitVec.ofInt 24 v

/-- The stored form of a 24-bit unsigned value (R9). -/
def u24Of (v : Int) : U24 := BitVec.ofInt 24 v

/-- A 24-bit unsigned stored value read as an integer (R9). -/
def u24Int (v : U24) : Int := (v.toNat : Int)

/-- `Gain(x, G) = sat24(rnd(x * G, 24))` (R263). -/
def gain (x g : Int) : Int := sat24 (rnd (x * g) 24)

/-- `Mix` of a stage with the given current DRY and WET gains, stage input `x` and processed signal `w` (R275). -/
def mix (dry wet x w : Int) : Int := sat24 (rnd (dry * x + wet * w) 23)

/-- `FbSum(x, v, fb) = sat24(x + rnd(fb * v, 23))` (R276). -/
def fbSum (x v fb : Int) : Int := sat24 (x + rnd (fb * v) 23)

/-- `MulU23(x, m) = rnd(x * m, 23)` (R277). -/
def mulU23 (x m : Int) : Int := rnd (x * m) 23

/-- `SmoothStep(c, t, K)`: one smoothing step from `c` toward `t`, at least 1 unless `c = t` (R270). -/
def smoothStep (c t k : Int) : Int :=
  let d := t - c
  let s := rnd (d * k) 24
  if s = 0 ∧ d ≠ 0 then c + (if d > 0 then 1 else -1) else c + s

/-- Linear interpolation `a + rnd((b - a) * f, s)` between `a` and `b`, the form the LFOs, the curves, the delay taps and the
modulated coefficients share (R341, R371, R391, R411). -/
def lerp (a b f : Int) (s : Nat) : Int := a + rnd ((b - a) * f) s

end Sys2Proof.Machine
end

