-- ==== Sys2Proof/Machine/Names.lean ====
section
/-! DEFINITION. The finite sets of names the spec uses (techniques, stages, filter sections, delay lines,
oscillators, slots, channels, curves), each with its number, and for each set `E` a record `EMap` with one field per
name: a table indexed by the names that is plain data. `get` reads an entry, `set` writes one, `tabulate` makes the
table of a function. Numbers are the spec's own (R44, R57, R58, R76, R360, R370). -/

namespace Sys2Proof.Machine

/-- The five techniques, in the source's order (R6, R57, R162). -/
inductive Tech where
  | finger
  | slap
  | pop
  | mute
  | pick
  deriving DecidableEq, Repr

/-- The number of the name, counting from 0 in the spec's order. -/
def Tech.num : Tech → Nat
  | .finger => 0
  | .slap => 1
  | .pop => 2
  | .mute => 3
  | .pick => 4

/-- The name with a number, if there is one. -/
def Tech.ofNum? : Nat → Option Tech
  | 0 => some .finger
  | 1 => some .slap
  | 2 => some .pop
  | 3 => some .mute
  | 4 => some .pick
  | _ => none

/-- Every name, in order. -/
def Tech.all : List Tech := [.finger, .slap, .pop, .mute, .pick]

/-- One entry for each `Tech`. -/
structure TechMap (α : Type) where
  finger : α
  slap : α
  pop : α
  mute : α
  pick : α
  deriving DecidableEq, Repr

/-- The entry of `k`. -/
def TechMap.get {α : Type} (m : TechMap α) (k : Tech) : α :=
  match k with
  | .finger => m.finger
  | .slap => m.slap
  | .pop => m.pop
  | .mute => m.mute
  | .pick => m.pick

/-- The table with the entry of `k` replaced. -/
def TechMap.set {α : Type} (m : TechMap α) (k : Tech) (v : α) : TechMap α :=
  match k with
  | .finger => { m with finger := v }
  | .slap => { m with slap := v }
  | .pop => { m with pop := v }
  | .mute => { m with mute := v }
  | .pick => { m with pick := v }

/-- The table of a function. -/
def TechMap.tabulate {α : Type} (f : Tech → α) : TechMap α :=
  ⟨f .finger, f .slap, f .pop, f .mute, f .pick⟩

/-- The five fields of a technique's row (R57): A_LEN, D_LEN, DK, SUS, NK. -/
inductive TechField where
  | aLen
  | dLen
  | dk
  | sus
  | nk
  deriving DecidableEq, Repr

/-- The number of the name, counting from 0 in the spec's order. -/
def TechField.num : TechField → Nat
  | .aLen => 0
  | .dLen => 1
  | .dk => 2
  | .sus => 3
  | .nk => 4

/-- The name with a number, if there is one. -/
def TechField.ofNum? : Nat → Option TechField
  | 0 => some .aLen
  | 1 => some .dLen
  | 2 => some .dk
  | 3 => some .sus
  | 4 => some .nk
  | _ => none

/-- Every name, in order. -/
def TechField.all : List TechField := [.aLen, .dLen, .dk, .sus, .nk]

/-- One entry for each `TechField`. -/
structure TechRow (α : Type) where
  aLen : α
  dLen : α
  dk : α
  sus : α
  nk : α
  deriving DecidableEq, Repr

/-- The entry of `k`. -/
def TechRow.get {α : Type} (m : TechRow α) (k : TechField) : α :=
  match k with
  | .aLen => m.aLen
  | .dLen => m.dLen
  | .dk => m.dk
  | .sus => m.sus
  | .nk => m.nk

/-- The table with the entry of `k` replaced. -/
def TechRow.set {α : Type} (m : TechRow α) (k : TechField) (v : α) : TechRow α :=
  match k with
  | .aLen => { m with aLen := v }
  | .dLen => { m with dLen := v }
  | .dk => { m with dk := v }
  | .sus => { m with sus := v }
  | .nk => { m with nk := v }

/-- The table of a function. -/
def TechRow.tabulate {α : Type} (f : TechField → α) : TechRow α :=
  ⟨f .aLen, f .dLen, f .dk, f .sus, f .nk⟩

/-- The ten stages with enable and mix (R58, R451). -/
inductive Stage where
  | autowah
  | fuzz
  | od
  | chorus
  | phaser
  | delay
  | reverb
  | eq5
  | preamp
  | tape
  deriving DecidableEq, Repr

/-- The number of the name, counting from 0 in the spec's order. -/
def Stage.num : Stage → Nat
  | .autowah => 0
  | .fuzz => 1
  | .od => 2
  | .chorus => 3
  | .phaser => 4
  | .delay => 5
  | .reverb => 6
  | .eq5 => 7
  | .preamp => 8
  | .tape => 9

/-- The name with a number, if there is one. -/
def Stage.ofNum? : Nat → Option Stage
  | 0 => some .autowah
  | 1 => some .fuzz
  | 2 => some .od
  | 3 => some .chorus
  | 4 => some .phaser
  | 5 => some .delay
  | 6 => some .reverb
  | 7 => some .eq5
  | 8 => some .preamp
  | 9 => some .tape
  | _ => none

/-- Every name, in order. -/
def Stage.all : List Stage := [.autowah, .fuzz, .od, .chorus, .phaser, .delay, .reverb, .eq5, .preamp, .tape]

/-- One entry for each `Stage`. -/
structure StageMap (α : Type) where
  autowah : α
  fuzz : α
  od : α
  chorus : α
  phaser : α
  delay : α
  reverb : α
  eq5 : α
  preamp : α
  tape : α
  deriving DecidableEq, Repr

/-- The entry of `k`. -/
def StageMap.get {α : Type} (m : StageMap α) (k : Stage) : α :=
  match k with
  | .autowah => m.autowah
  | .fuzz => m.fuzz
  | .od => m.od
  | .chorus => m.chorus
  | .phaser => m.phaser
  | .delay => m.delay
  | .reverb => m.reverb
  | .eq5 => m.eq5
  | .preamp => m.preamp
  | .tape => m.tape

/-- The table with the entry of `k` replaced. -/
def StageMap.set {α : Type} (m : StageMap α) (k : Stage) (v : α) : StageMap α :=
  match k with
  | .autowah => { m with autowah := v }
  | .fuzz => { m with fuzz := v }
  | .od => { m with od := v }
  | .chorus => { m with chorus := v }
  | .phaser => { m with phaser := v }
  | .delay => { m with delay := v }
  | .reverb => { m with reverb := v }
  | .eq5 => { m with eq5 := v }
  | .preamp => { m with preamp := v }
  | .tape => { m with tape := v }

/-- The table of a function. -/
def StageMap.tabulate {α : Type} (f : Stage → α) : StageMap α :=
  ⟨f .autowah, f .fuzz, f .od, f .chorus, f .phaser, f .delay, f .reverb, f .eq5, f .preamp, f .tape⟩

/-- The five coefficients of a second-order section (R74, R75). -/
inductive Coef where
  | b0
  | b1
  | b2
  | a1
  | a2
  deriving DecidableEq, Repr

/-- The number of the name, counting from 0 in the spec's order. -/
def Coef.num : Coef → Nat
  | .b0 => 0
  | .b1 => 1
  | .b2 => 2
  | .a1 => 3
  | .a2 => 4

/-- The name with a number, if there is one. -/
def Coef.ofNum? : Nat → Option Coef
  | 0 => some .b0
  | 1 => some .b1
  | 2 => some .b2
  | 3 => some .a1
  | 4 => some .a2
  | _ => none

/-- Every name, in order. -/
def Coef.all : List Coef := [.b0, .b1, .b2, .a1, .a2]

/-- One entry for each `Coef`. -/
structure CoefMap (α : Type) where
  b0 : α
  b1 : α
  b2 : α
  a1 : α
  a2 : α
  deriving DecidableEq, Repr

/-- The entry of `k`. -/
def CoefMap.get {α : Type} (m : CoefMap α) (k : Coef) : α :=
  match k with
  | .b0 => m.b0
  | .b1 => m.b1
  | .b2 => m.b2
  | .a1 => m.a1
  | .a2 => m.a2

/-- The table with the entry of `k` replaced. -/
def CoefMap.set {α : Type} (m : CoefMap α) (k : Coef) (v : α) : CoefMap α :=
  match k with
  | .b0 => { m with b0 := v }
  | .b1 => { m with b1 := v }
  | .b2 => { m with b2 := v }
  | .a1 => { m with a1 := v }
  | .a2 => { m with a2 := v }

/-- The table of a function. -/
def CoefMap.tabulate {α : Type} (f : Coef → α) : CoefMap α :=
  ⟨f .b0, f .b1, f .b2, f .a1, f .a2⟩

/-- The 21 plain filter sections (R360). -/
inductive Sect where
  | fuzzTone
  | odBass
  | odTreble
  | odTone
  | delayDamp
  | eqLow
  | eqMid1
  | eqMid2
  | eqHigh
  | eqPres
  | preBass
  | preMid
  | preTreble
  | prePres
  | tapeDamp
  | ampContour
  | ampBass
  | ampMid
  | ampTreble
  | ampPres
  | ampCab
  deriving DecidableEq, Repr

/-- The number of the name, counting from 0 in the spec's order. -/
def Sect.num : Sect → Nat
  | .fuzzTone => 0
  | .odBass => 1
  | .odTreble => 2
  | .odTone => 3
  | .delayDamp => 4
  | .eqLow => 5
  | .eqMid1 => 6
  | .eqMid2 => 7
  | .eqHigh => 8
  | .eqPres => 9
  | .preBass => 10
  | .preMid => 11
  | .preTreble => 12
  | .prePres => 13
  | .tapeDamp => 14
  | .ampContour => 15
  | .ampBass => 16
  | .ampMid => 17
  | .ampTreble => 18
  | .ampPres => 19
  | .ampCab => 20

/-- The name with a number, if there is one. -/
def Sect.ofNum? : Nat → Option Sect
  | 0 => some .fuzzTone
  | 1 => some .odBass
  | 2 => some .odTreble
  | 3 => some .odTone
  | 4 => some .delayDamp
  | 5 => some .eqLow
  | 6 => some .eqMid1
  | 7 => some .eqMid2
  | 8 => some .eqHigh
  | 9 => some .eqPres
  | 10 => some .preBass
  | 11 => some .preMid
  | 12 => some .preTreble
  | 13 => some .prePres
  | 14 => some .tapeDamp
  | 15 => some .ampContour
  | 16 => some .ampBass
  | 17 => some .ampMid
  | 18 => some .ampTreble
  | 19 => some .ampPres
  | 20 => some .ampCab
  | _ => none

/-- Every name, in order. -/
def Sect.all : List Sect := [.fuzzTone, .odBass, .odTreble, .odTone, .delayDamp, .eqLow, .eqMid1, .eqMid2, .eqHigh, .eqPres, .preBass, .preMid, .preTreble, .prePres, .tapeDamp, .ampContour, .ampBass, .ampMid, .ampTreble, .ampPres, .ampCab]

/-- One entry for each `Sect`. -/
structure SectMap (α : Type) where
  fuzzTone : α
  odBass : α
  odTreble : α
  odTone : α
  delayDamp : α
  eqLow : α
  eqMid1 : α
  eqMid2 : α
  eqHigh : α
  eqPres : α
  preBass : α
  preMid : α
  preTreble : α
  prePres : α
  tapeDamp : α
  ampContour : α
  ampBass : α
  ampMid : α
  ampTreble : α
  ampPres : α
  ampCab : α
  deriving DecidableEq, Repr

/-- The entry of `k`. -/
def SectMap.get {α : Type} (m : SectMap α) (k : Sect) : α :=
  match k with
  | .fuzzTone => m.fuzzTone
  | .odBass => m.odBass
  | .odTreble => m.odTreble
  | .odTone => m.odTone
  | .delayDamp => m.delayDamp
  | .eqLow => m.eqLow
  | .eqMid1 => m.eqMid1
  | .eqMid2 => m.eqMid2
  | .eqHigh => m.eqHigh
  | .eqPres => m.eqPres
  | .preBass => m.preBass
  | .preMid => m.preMid
  | .preTreble => m.preTreble
  | .prePres => m.prePres
  | .tapeDamp => m.tapeDamp
  | .ampContour => m.ampContour
  | .ampBass => m.ampBass
  | .ampMid => m.ampMid
  | .ampTreble => m.ampTreble
  | .ampPres => m.ampPres
  | .ampCab => m.ampCab

/-- The table with the entry of `k` replaced. -/
def SectMap.set {α : Type} (m : SectMap α) (k : Sect) (v : α) : SectMap α :=
  match k with
  | .fuzzTone => { m with fuzzTone := v }
  | .odBass => { m with odBass := v }
  | .odTreble => { m with odTreble := v }
  | .odTone => { m with odTone := v }
  | .delayDamp => { m with delayDamp := v }
  | .eqLow => { m with eqLow := v }
  | .eqMid1 => { m with eqMid1 := v }
  | .eqMid2 => { m with eqMid2 := v }
  | .eqHigh => { m with eqHigh := v }
  | .eqPres => { m with eqPres := v }
  | .preBass => { m with preBass := v }
  | .preMid => { m with preMid := v }
  | .preTreble => { m with preTreble := v }
  | .prePres => { m with prePres := v }
  | .tapeDamp => { m with tapeDamp := v }
  | .ampContour => { m with ampContour := v }
  | .ampBass => { m with ampBass := v }
  | .ampMid => { m with ampMid := v }
  | .ampTreble => { m with ampTreble := v }
  | .ampPres => { m with ampPres := v }
  | .ampCab => { m with ampCab := v }

/-- The table of a function. -/
def SectMap.tabulate {α : Type} (f : Sect → α) : SectMap α :=
  ⟨f .fuzzTone, f .odBass, f .odTreble, f .odTone, f .delayDamp, f .eqLow, f .eqMid1, f .eqMid2, f .eqHigh, f .eqPres, f .preBass, f .preMid, f .preTreble, f .prePres, f .tapeDamp, f .ampContour, f .ampBass, f .ampMid, f .ampTreble, f .ampPres, f .ampCab⟩

/-- The five modulated sections (R370). -/
inductive MSect where
  | wah
  | ph1
  | ph2
  | ph3
  | ph4
  deriving DecidableEq, Repr

/-- The number of the name, counting from 0 in the spec's order. -/
def MSect.num : MSect → Nat
  | .wah => 0
  | .ph1 => 1
  | .ph2 => 2
  | .ph3 => 3
  | .ph4 => 4

/-- The name with a number, if there is one. -/
def MSect.ofNum? : Nat → Option MSect
  | 0 => some .wah
  | 1 => some .ph1
  | 2 => some .ph2
  | 3 => some .ph3
  | 4 => some .ph4
  | _ => none

/-- Every name, in order. -/
def MSect.all : List MSect := [.wah, .ph1, .ph2, .ph3, .ph4]

/-- One entry for each `MSect`. -/
structure MSectMap (α : Type) where
  wah : α
  ph1 : α
  ph2 : α
  ph3 : α
  ph4 : α
  deriving DecidableEq, Repr

/-- The entry of `k`. -/
def MSectMap.get {α : Type} (m : MSectMap α) (k : MSect) : α :=
  match k with
  | .wah => m.wah
  | .ph1 => m.ph1
  | .ph2 => m.ph2
  | .ph3 => m.ph3
  | .ph4 => m.ph4

/-- The table with the entry of `k` replaced. -/
def MSectMap.set {α : Type} (m : MSectMap α) (k : MSect) (v : α) : MSectMap α :=
  match k with
  | .wah => { m with wah := v }
  | .ph1 => { m with ph1 := v }
  | .ph2 => { m with ph2 := v }
  | .ph3 => { m with ph3 := v }
  | .ph4 => { m with ph4 := v }

/-- The table of a function. -/
def MSectMap.tabulate {α : Type} (f : MSect → α) : MSectMap α :=
  ⟨f .wah, f .ph1, f .ph2, f .ph3, f .ph4⟩

/-- The four delay lines (R76, R410). -/
inductive Line where
  | chorus
  | delay
  | revpre
  | tape
  deriving DecidableEq, Repr

/-- The number of the name, counting from 0 in the spec's order. -/
def Line.num : Line → Nat
  | .chorus => 0
  | .delay => 1
  | .revpre => 2
  | .tape => 3

/-- The name with a number, if there is one. -/
def Line.ofNum? : Nat → Option Line
  | 0 => some .chorus
  | 1 => some .delay
  | 2 => some .revpre
  | 3 => some .tape
  | _ => none

/-- Every name, in order. -/
def Line.all : List Line := [.chorus, .delay, .revpre, .tape]

/-- One entry for each `Line`. -/
structure LineMap (α : Type) where
  chorus : α
  delay : α
  revpre : α
  tape : α
  deriving DecidableEq, Repr

/-- The entry of `k`. -/
def LineMap.get {α : Type} (m : LineMap α) (k : Line) : α :=
  match k with
  | .chorus => m.chorus
  | .delay => m.delay
  | .revpre => m.revpre
  | .tape => m.tape

/-- The table with the entry of `k` replaced. -/
def LineMap.set {α : Type} (m : LineMap α) (k : Line) (v : α) : LineMap α :=
  match k with
  | .chorus => { m with chorus := v }
  | .delay => { m with delay := v }
  | .revpre => { m with revpre := v }
  | .tape => { m with tape := v }

/-- The table of a function. -/
def LineMap.tabulate {α : Type} (f : Line → α) : LineMap α :=
  ⟨f .chorus, f .delay, f .revpre, f .tape⟩

/-- The three delay lines with DEPTH, FB and MODSRC (R76, R345). -/
inductive ModLine where
  | chorus
  | delay
  | tape
  deriving DecidableEq, Repr

/-- The number of the name, counting from 0 in the spec's order. -/
def ModLine.num : ModLine → Nat
  | .chorus => 0
  | .delay => 1
  | .tape => 2

/-- The name with a number, if there is one. -/
def ModLine.ofNum? : Nat → Option ModLine
  | 0 => some .chorus
  | 1 => some .delay
  | 2 => some .tape
  | _ => none

/-- Every name, in order. -/
def ModLine.all : List ModLine := [.chorus, .delay, .tape]

/-- One entry for each `ModLine`. -/
structure ModLineMap (α : Type) where
  chorus : α
  delay : α
  tape : α
  deriving DecidableEq, Repr

/-- The entry of `k`. -/
def ModLineMap.get {α : Type} (m : ModLineMap α) (k : ModLine) : α :=
  match k with
  | .chorus => m.chorus
  | .delay => m.delay
  | .tape => m.tape

/-- The table with the entry of `k` replaced. -/
def ModLineMap.set {α : Type} (m : ModLineMap α) (k : ModLine) (v : α) : ModLineMap α :=
  match k with
  | .chorus => { m with chorus := v }
  | .delay => { m with delay := v }
  | .tape => { m with tape := v }

/-- The table of a function. -/
def ModLineMap.tabulate {α : Type} (f : ModLine → α) : ModLineMap α :=
  ⟨f .chorus, f .delay, f .tape⟩

/-- The three oscillators (R340). -/
inductive Lfo where
  | lfo0
  | lfo1
  | lfo2
  deriving DecidableEq, Repr

/-- The number of the name, counting from 0 in the spec's order. -/
def Lfo.num : Lfo → Nat
  | .lfo0 => 0
  | .lfo1 => 1
  | .lfo2 => 2

/-- The name with a number, if there is one. -/
def Lfo.ofNum? : Nat → Option Lfo
  | 0 => some .lfo0
  | 1 => some .lfo1
  | 2 => some .lfo2
  | _ => none

/-- Every name, in order. -/
def Lfo.all : List Lfo := [.lfo0, .lfo1, .lfo2]

/-- One entry for each `Lfo`. -/
structure LfoMap (α : Type) where
  lfo0 : α
  lfo1 : α
  lfo2 : α
  deriving DecidableEq, Repr

/-- The entry of `k`. -/
def LfoMap.get {α : Type} (m : LfoMap α) (k : Lfo) : α :=
  match k with
  | .lfo0 => m.lfo0
  | .lfo1 => m.lfo1
  | .lfo2 => m.lfo2

/-- The table with the entry of `k` replaced. -/
def LfoMap.set {α : Type} (m : LfoMap α) (k : Lfo) (v : α) : LfoMap α :=
  match k with
  | .lfo0 => { m with lfo0 := v }
  | .lfo1 => { m with lfo1 := v }
  | .lfo2 => { m with lfo2 := v }

/-- The table of a function. -/
def LfoMap.tabulate {α : Type} (f : Lfo → α) : LfoMap α :=
  ⟨f .lfo0, f .lfo1, f .lfo2⟩

/-- The eight envelope slots (R62, R300). -/
inductive SlotId where
  | s0
  | s1
  | s2
  | s3
  | s4
  | s5
  | s6
  | s7
  deriving DecidableEq, Repr

/-- The number of the name, counting from 0 in the spec's order. -/
def SlotId.num : SlotId → Nat
  | .s0 => 0
  | .s1 => 1
  | .s2 => 2
  | .s3 => 3
  | .s4 => 4
  | .s5 => 5
  | .s6 => 6
  | .s7 => 7

/-- The name with a number, if there is one. -/
def SlotId.ofNum? : Nat → Option SlotId
  | 0 => some .s0
  | 1 => some .s1
  | 2 => some .s2
  | 3 => some .s3
  | 4 => some .s4
  | 5 => some .s5
  | 6 => some .s6
  | 7 => some .s7
  | _ => none

/-- Every name, in order. -/
def SlotId.all : List SlotId := [.s0, .s1, .s2, .s3, .s4, .s5, .s6, .s7]

/-- One entry for each `SlotId`. -/
structure SlotMap (α : Type) where
  s0 : α
  s1 : α
  s2 : α
  s3 : α
  s4 : α
  s5 : α
  s6 : α
  s7 : α
  deriving DecidableEq, Repr

/-- The entry of `k`. -/
def SlotMap.get {α : Type} (m : SlotMap α) (k : SlotId) : α :=
  match k with
  | .s0 => m.s0
  | .s1 => m.s1
  | .s2 => m.s2
  | .s3 => m.s3
  | .s4 => m.s4
  | .s5 => m.s5
  | .s6 => m.s6
  | .s7 => m.s7

/-- The table with the entry of `k` replaced. -/
def SlotMap.set {α : Type} (m : SlotMap α) (k : SlotId) (v : α) : SlotMap α :=
  match k with
  | .s0 => { m with s0 := v }
  | .s1 => { m with s1 := v }
  | .s2 => { m with s2 := v }
  | .s3 => { m with s3 := v }
  | .s4 => { m with s4 := v }
  | .s5 => { m with s5 := v }
  | .s6 => { m with s6 := v }
  | .s7 => { m with s7 := v }

/-- The table of a function. -/
def SlotMap.tabulate {α : Type} (f : SlotId → α) : SlotMap α :=
  ⟨f .s0, f .s1, f .s2, f .s3, f .s4, f .s5, f .s6, f .s7⟩

/-- The two channels (R12, R266). -/
inductive Chan where
  | left
  | right
  deriving DecidableEq, Repr

/-- The number of the name, counting from 0 in the spec's order. -/
def Chan.num : Chan → Nat
  | .left => 0
  | .right => 1

/-- The name with a number, if there is one. -/
def Chan.ofNum? : Nat → Option Chan
  | 0 => some .left
  | 1 => some .right
  | _ => none

/-- Every name, in order. -/
def Chan.all : List Chan := [.left, .right]

/-- One entry for each `Chan`. -/
structure ChanMap (α : Type) where
  left : α
  right : α
  deriving DecidableEq, Repr

/-- The entry of `k`. -/
def ChanMap.get {α : Type} (m : ChanMap α) (k : Chan) : α :=
  match k with
  | .left => m.left
  | .right => m.right

/-- The table with the entry of `k` replaced. -/
def ChanMap.set {α : Type} (m : ChanMap α) (k : Chan) (v : α) : ChanMap α :=
  match k with
  | .left => { m with left := v }
  | .right => { m with right := v }

/-- The table of a function. -/
def ChanMap.tabulate {α : Type} (f : Chan → α) : ChanMap α :=
  ⟨f .left, f .right⟩

/-- The four transfer curves (R390). -/
inductive Curve where
  | fuzz
  | od
  | pre
  | tape
  deriving DecidableEq, Repr

/-- The number of the name, counting from 0 in the spec's order. -/
def Curve.num : Curve → Nat
  | .fuzz => 0
  | .od => 1
  | .pre => 2
  | .tape => 3

/-- The name with a number, if there is one. -/
def Curve.ofNum? : Nat → Option Curve
  | 0 => some .fuzz
  | 1 => some .od
  | 2 => some .pre
  | 3 => some .tape
  | _ => none

/-- Every name, in order. -/
def Curve.all : List Curve := [.fuzz, .od, .pre, .tape]

/-- One entry for each `Curve`. -/
structure CurveMap (α : Type) where
  fuzz : α
  od : α
  pre : α
  tape : α
  deriving DecidableEq, Repr

/-- The entry of `k`. -/
def CurveMap.get {α : Type} (m : CurveMap α) (k : Curve) : α :=
  match k with
  | .fuzz => m.fuzz
  | .od => m.od
  | .pre => m.pre
  | .tape => m.tape

/-- The table with the entry of `k` replaced. -/
def CurveMap.set {α : Type} (m : CurveMap α) (k : Curve) (v : α) : CurveMap α :=
  match k with
  | .fuzz => { m with fuzz := v }
  | .od => { m with od := v }
  | .pre => { m with pre := v }
  | .tape => { m with tape := v }

/-- The table of a function. -/
def CurveMap.tabulate {α : Type} (f : Curve → α) : CurveMap α :=
  ⟨f .fuzz, f .od, f .pre, f .tape⟩

end Sys2Proof.Machine
end

