-- ==== Sys2Proof/Machine/Params.lean ====
section
/-! DEFINITION. The parameter file (10_state.md section 2): the 241 parameters, their ids, formats, classes, legal ranges
and reset values (R50 to R59, R74 to R76), and the record that stores one word for each of the 240 stored ones (IR_LEN is
kept per impulse bank instead, R55). -/

namespace Sys2Proof.Machine

/-- A parameter with a stored word (R54, R57, R58, R59, R74, R75, R76), every one but IR_LEN. -/
inductive FileParam where
  | master | smoothK | egCeil | egRelLen | egMarginLen | wahUpLen | wahK | irShift
  | phFb | fuzzIn | odLevel | preDrive | ampIn | ampMaster
  | tech (t : Tech) (f : TechField)
  | en (s : Stage)
  | wet (s : Stage)
  | dry (s : Stage)
  | lfoInc (k : Lfo)
  | bq (q : Sect) (c : Coef)
  | lo (r : MSect) (c : Coef)
  | hi (r : MSect) (c : Coef)
  | base (l : Line)
  | depth (l : ModLine)
  | fb (l : ModLine)
  | modsrc (l : ModLine)
  deriving DecidableEq, Repr

/-- A parameter (R50): IR_LEN, or one with a stored word. -/
inductive Param where
  | irLen
  | file (p : FileParam)
  deriving DecidableEq, Repr

/-- The formats of R52. -/
inductive Format where
  | GAIN | MIX | FB | COEF | DTIME | DDEPTH | K24 | LEN | SEL | INC
  deriving DecidableEq, Repr

/-- The classes of R53: smoothed or immediate. -/
inductive ParamClass where
  | S | I
  deriving DecidableEq, Repr

/-- Length of a delay line's buffers (R6, R410). -/
def Line.len : Line → Nat
  | .chorus => Config.DL_LEN_CHORUS
  | .delay => Config.DL_LEN_DELAY
  | .revpre => Config.DL_LEN_REVPRE
  | .tape => Config.DL_LEN_TAPE

/-- The delay line of a modulated line's name (R76). -/
def ModLine.line : ModLine → Line
  | .chorus => .chorus
  | .delay => .delay
  | .tape => .tape

/-- The largest BASE of a line, `(DL_LEN - 2) * 2^12` (R76). -/
def Line.maxBase (l : Line) : Int := ((l.len : Int) - 2) * 4096

/-- Format of a stored parameter (R54, R57, R58, R59, R74, R75, R76). -/
def FileParam.format : FileParam → Format
  | .master | .fuzzIn | .odLevel | .preDrive | .ampIn | .ampMaster => .GAIN
  | .smoothK | .wahK => .K24
  | .egCeil => .MIX
  | .egRelLen | .egMarginLen | .wahUpLen => .LEN
  | .irShift => .SEL
  | .phFb => .FB
  | .tech _ .aLen | .tech _ .dLen => .LEN
  | .tech _ .dk | .tech _ .nk => .K24
  | .tech _ .sus => .MIX
  | .en _ => .SEL
  | .wet _ | .dry _ => .MIX
  | .lfoInc _ => .INC
  | .bq _ _ | .lo _ _ | .hi _ _ => .COEF
  | .base _ => .DTIME
  | .depth _ => .DDEPTH
  | .fb _ => .FB
  | .modsrc _ => .SEL

/-- Class of a stored parameter (R53, R54, R57, R58, R59, R74, R75, R76). -/
def FileParam.cls : FileParam → ParamClass
  | .master | .phFb | .fuzzIn | .odLevel | .preDrive | .ampIn | .ampMaster => .S
  | .smoothK | .egCeil | .egRelLen | .egMarginLen | .wahUpLen | .wahK | .irShift => .I
  | .tech _ _ => .I
  | .en _ => .I
  | .wet _ | .dry _ => .S
  | .lfoInc _ => .I
  | .bq _ _ | .lo _ _ | .hi _ _ => .S
  | .base _ | .depth _ | .fb _ => .S
  | .modsrc _ => .I

/-- Lower end of the legal range (R54, R57, R58, R59, R74, R75, R76). -/
def FileParam.low : FileParam → Int
  | .smoothK | .egRelLen | .egMarginLen | .wahUpLen => 1
  | .tech _ .aLen | .tech _ .dLen => 1
  | .bq _ _ | .lo _ _ | .hi _ _ => -2147483648
  | .base _ => 4096
  | .depth l => -l.line.maxBase
  | .master | .egCeil | .wahK | .irShift | .phFb | .fuzzIn | .odLevel | .preDrive | .ampIn | .ampMaster => 0
  | .tech _ .dk | .tech _ .nk | .tech _ .sus => 0
  | .en _ | .wet _ | .dry _ | .lfoInc _ | .fb _ | .modsrc _ => 0

/-- Upper end of the legal range (R54, R57, R58, R59, R74, R75, R76). -/
def FileParam.high : FileParam → Int
  | .master | .fuzzIn | .odLevel | .preDrive | .ampIn | .ampMaster => 4294967295
  | .smoothK => 16777216
  | .egCeil => 8388608
  | .egRelLen | .egMarginLen | .wahUpLen | .wahK => 16777215
  | .irShift => 15
  | .phFb => Config.FB_MAX
  | .tech _ .sus => 8388608
  | .tech _ .aLen | .tech _ .dLen | .tech _ .dk | .tech _ .nk => 16777215
  | .en _ => 1
  | .wet _ | .dry _ => 8388608
  | .lfoInc _ => 4294967295
  | .bq _ _ | .lo _ _ | .hi _ _ => 2147483647
  | .base l => l.maxBase
  | .depth l => l.line.maxBase
  | .fb _ => Config.FB_MAX
  | .modsrc _ => 3

/-- Reset value of a technique's field (R57). -/
def techReset (t : Tech) (f : TechField) : Int :=
  match f, t with
  | .aLen, .slap => 96
  | .aLen, _ => 240
  | .dLen, _ => 4800
  | .dk, _ => 16766734
  | .sus, .mute => 0
  | .sus, _ => 5872026
  | .nk, .mute => 16775468
  | .nk, _ => 16776983

/-- Reset value of a coefficient: every section is the identity (R74, R75). -/
def coefReset : Coef → Int
  | .b0 => 268435456
  | .b1 | .b2 | .a1 | .a2 => 0

/-- Reset value of the target and of the current value (R54, R57, R58, R59, R74, R75, R76). -/
def FileParam.resetValue : FileParam → Int
  | .master => 0
  | .smoothK => 6989
  | .egCeil => 8388608
  | .egRelLen => 7200
  | .egMarginLen => 9600
  | .wahUpLen => 1
  | .wahK => 0
  | .irShift => 0
  | .phFb => 0
  | .fuzzIn | .odLevel | .preDrive | .ampIn | .ampMaster => 16777216
  | .tech t f => techReset t f
  | .en _ => 0
  | .wet _ => 0
  | .dry _ => 8388608
  | .lfoInc _ => 0
  | .bq _ c | .lo _ c | .hi _ c => coefReset c
  | .base _ => 4096
  | .depth _ => 0
  | .fb _ => 0
  | .modsrc .chorus => 1
  | .modsrc .delay => 0
  | .modsrc .tape => 3

/-- Format, class and legal range of any parameter; IR_LEN is a LEN of class I from 0 to IR_MAX_LEN (R54, R55). -/
def Param.format : Param → Format
  | .irLen => .LEN
  | .file p => p.format

/-- Class of a parameter (R53). -/
def Param.cls : Param → ParamClass
  | .irLen => .I
  | .file p => p.cls

/-- Lower end of a parameter's legal range. -/
def Param.low : Param → Int
  | .irLen => 0
  | .file p => p.low

/-- Upper end of a parameter's legal range. -/
def Param.high : Param → Int
  | .irLen => (Config.IR_MAX_LEN : Int)
  | .file p => p.high

/-- Whether a format is signed, that is, whether its words are read in two's complement (R52). -/
def Format.signed : Format → Bool
  | .COEF | .DDEPTH => true
  | .GAIN | .MIX | .FB | .DTIME | .K24 | .LEN | .SEL | .INC => false

/-- A word read in a format: `sext_32` for COEF and DDEPTH, `zext_32` otherwise (R52, R210). -/
def Format.read (f : Format) (w : Word) : Int := if f.signed then w.toInt else (w.toNat : Int)

/-- The 32-bit word that stands for a value (R42; two's complement for signed formats). -/
def paramWord (v : Int) : Word := BitVec.ofInt 32 v

/-- The 12-bit id of a parameter (R54, R57, R58, R59, R74, R75, R76). -/
def FileParam.idNum : FileParam → Nat
  | .master => 0x000
  | .smoothK => 0x001
  | .egCeil => 0x002
  | .egRelLen => 0x003
  | .egMarginLen => 0x004
  | .wahUpLen => 0x005
  | .wahK => 0x006
  | .irShift => 0x008
  | .phFb => 0x009
  | .fuzzIn => 0x00A
  | .odLevel => 0x00B
  | .preDrive => 0x00C
  | .ampIn => 0x00D
  | .ampMaster => 0x00E
  | .tech t f => 0x100 + 0x10 * t.num + f.num
  | .en s => 0x200 + 0x10 * s.num
  | .wet s => 0x200 + 0x10 * s.num + 1
  | .dry s => 0x200 + 0x10 * s.num + 2
  | .lfoInc k => 0x300 + k.num
  | .bq q c => 0x400 + 8 * q.num + c.num
  | .lo r c => 0x500 + 0x10 * r.num + c.num
  | .hi r c => 0x500 + 0x10 * r.num + 8 + c.num
  | .base l => 0x600 + 0x10 * l.num
  | .depth l => 0x600 + 0x10 * l.line.num + 1
  | .fb l => 0x600 + 0x10 * l.line.num + 2
  | .modsrc l => 0x600 + 0x10 * l.line.num + 3

/-- The id of any parameter; IR_LEN is 0x007 (R54). -/
def Param.idNum : Param → Nat
  | .irLen => 0x007
  | .file p => p.idNum

/-- The parameter's id as it stands in a SETP header. -/
def Param.id (p : Param) : BitVec 12 := BitVec.ofNat 12 p.idNum

/-- The global parameter with a number below 16 (R54). -/
def globalParam? : Nat → Option Param
  | 0x0 => some (.file .master)
  | 0x1 => some (.file .smoothK)
  | 0x2 => some (.file .egCeil)
  | 0x3 => some (.file .egRelLen)
  | 0x4 => some (.file .egMarginLen)
  | 0x5 => some (.file .wahUpLen)
  | 0x6 => some (.file .wahK)
  | 0x7 => some .irLen
  | 0x8 => some (.file .irShift)
  | 0x9 => some (.file .phFb)
  | 0xA => some (.file .fuzzIn)
  | 0xB => some (.file .odLevel)
  | 0xC => some (.file .preDrive)
  | 0xD => some (.file .ampIn)
  | 0xE => some (.file .ampMaster)
  | _ => none

/-- The parameter of stage `s` with field number `f` (R58). -/
def stageParam? (s : Stage) : Nat → Option Param
  | 0 => some (.file (.en s))
  | 1 => some (.file (.wet s))
  | 2 => some (.file (.dry s))
  | _ => none

/-- The modulated line of a line, if it is one: every line but REVPRE (R76). -/
def Line.modLine? : Line → Option ModLine
  | .chorus => some .chorus
  | .delay => some .delay
  | .revpre => none
  | .tape => some .tape

/-- The parameter of delay line `l` with field number `f`; the pre-delay line has BASE only (R76). -/
def lineParam? (l : Line) (f : Nat) : Option Param :=
  if f = 0 then some (.file (.base l))
  else
    match l.modLine?, f with
    | some m, 1 => some (.file (.depth m))
    | some m, 2 => some (.file (.fb m))
    | some m, 3 => some (.file (.modsrc m))
    | _, _ => none

/-- The parameter of a 12-bit id, if the id is valid (R51). -/
def Param.ofId? (pid : BitVec 12) : Option Param :=
  let n := pid.toNat
  let row := n / 16 % 16
  let col := n % 16
  match n / 256 with
  | 0 => if row = 0 then globalParam? col else none
  | 1 => (Tech.ofNum? row).bind fun t => (TechField.ofNum? col).map fun f => .file (.tech t f)
  | 2 => (Stage.ofNum? row).bind fun s => stageParam? s col
  | 3 => if row = 0 then (Lfo.ofNum? col).map fun k => .file (.lfoInc k) else none
  | 4 => (Sect.ofNum? (n % 256 / 8)).bind fun q => (Coef.ofNum? (n % 8)).map fun c => .file (.bq q c)
  | 5 =>
    (MSect.ofNum? row).bind fun r =>
      if col < 8 then (Coef.ofNum? col).map fun c => .file (.lo r c)
      else (Coef.ofNum? (col - 8)).map fun c => .file (.hi r c)
  | 6 => (Line.ofNum? row).bind fun l => lineParam? l col
  | _ => none

/-- The three gains and the enable of a stage (R58). -/
structure StageRow where
  en : Word
  wet : Word
  dry : Word
  deriving DecidableEq, Repr

/-- One word for each stored parameter (R50). -/
structure ParamFile where
  master : Word
  smoothK : Word
  egCeil : Word
  egRelLen : Word
  egMarginLen : Word
  wahUpLen : Word
  wahK : Word
  irShift : Word
  phFb : Word
  fuzzIn : Word
  odLevel : Word
  preDrive : Word
  ampIn : Word
  ampMaster : Word
  tech : TechMap (TechRow Word)
  stage : StageMap StageRow
  lfoInc : LfoMap Word
  bq : SectMap (CoefMap Word)
  lo : MSectMap (CoefMap Word)
  hi : MSectMap (CoefMap Word)
  base : LineMap Word
  depth : ModLineMap Word
  fb : ModLineMap Word
  modsrc : ModLineMap Word
  deriving DecidableEq, Repr

/-- The word of a parameter. -/
def ParamFile.get (m : ParamFile) : FileParam → Word
  | .master => m.master
  | .smoothK => m.smoothK
  | .egCeil => m.egCeil
  | .egRelLen => m.egRelLen
  | .egMarginLen => m.egMarginLen
  | .wahUpLen => m.wahUpLen
  | .wahK => m.wahK
  | .irShift => m.irShift
  | .phFb => m.phFb
  | .fuzzIn => m.fuzzIn
  | .odLevel => m.odLevel
  | .preDrive => m.preDrive
  | .ampIn => m.ampIn
  | .ampMaster => m.ampMaster
  | .tech t f => (m.tech.get t).get f
  | .en s => (m.stage.get s).en
  | .wet s => (m.stage.get s).wet
  | .dry s => (m.stage.get s).dry
  | .lfoInc k => m.lfoInc.get k
  | .bq q c => (m.bq.get q).get c
  | .lo r c => (m.lo.get r).get c
  | .hi r c => (m.hi.get r).get c
  | .base l => m.base.get l
  | .depth l => m.depth.get l
  | .fb l => m.fb.get l
  | .modsrc l => m.modsrc.get l

/-- The file with the word of one parameter replaced. -/
def ParamFile.set (m : ParamFile) (p : FileParam) (v : Word) : ParamFile :=
  match p with
  | .master => { m with master := v }
  | .smoothK => { m with smoothK := v }
  | .egCeil => { m with egCeil := v }
  | .egRelLen => { m with egRelLen := v }
  | .egMarginLen => { m with egMarginLen := v }
  | .wahUpLen => { m with wahUpLen := v }
  | .wahK => { m with wahK := v }
  | .irShift => { m with irShift := v }
  | .phFb => { m with phFb := v }
  | .fuzzIn => { m with fuzzIn := v }
  | .odLevel => { m with odLevel := v }
  | .preDrive => { m with preDrive := v }
  | .ampIn => { m with ampIn := v }
  | .ampMaster => { m with ampMaster := v }
  | .tech t f => { m with tech := m.tech.set t ((m.tech.get t).set f v) }
  | .en s => { m with stage := m.stage.set s { m.stage.get s with en := v } }
  | .wet s => { m with stage := m.stage.set s { m.stage.get s with wet := v } }
  | .dry s => { m with stage := m.stage.set s { m.stage.get s with dry := v } }
  | .lfoInc k => { m with lfoInc := m.lfoInc.set k v }
  | .bq q c => { m with bq := m.bq.set q ((m.bq.get q).set c v) }
  | .lo r c => { m with lo := m.lo.set r ((m.lo.get r).set c v) }
  | .hi r c => { m with hi := m.hi.set r ((m.hi.get r).set c v) }
  | .base l => { m with base := m.base.set l v }
  | .depth l => { m with depth := m.depth.set l v }
  | .fb l => { m with fb := m.fb.set l v }
  | .modsrc l => { m with modsrc := m.modsrc.set l v }

/-- The file whose word for each parameter is given by a function. -/
def ParamFile.tabulate (f : FileParam → Word) : ParamFile where
  master := f .master
  smoothK := f .smoothK
  egCeil := f .egCeil
  egRelLen := f .egRelLen
  egMarginLen := f .egMarginLen
  wahUpLen := f .wahUpLen
  wahK := f .wahK
  irShift := f .irShift
  phFb := f .phFb
  fuzzIn := f .fuzzIn
  odLevel := f .odLevel
  preDrive := f .preDrive
  ampIn := f .ampIn
  ampMaster := f .ampMaster
  tech := TechMap.tabulate fun t => TechRow.tabulate fun x => f (.tech t x)
  stage := StageMap.tabulate fun s => ⟨f (.en s), f (.wet s), f (.dry s)⟩
  lfoInc := LfoMap.tabulate fun k => f (.lfoInc k)
  bq := SectMap.tabulate fun q => CoefMap.tabulate fun c => f (.bq q c)
  lo := MSectMap.tabulate fun r => CoefMap.tabulate fun c => f (.lo r c)
  hi := MSectMap.tabulate fun r => CoefMap.tabulate fun c => f (.hi r c)
  base := LineMap.tabulate fun l => f (.base l)
  depth := ModLineMap.tabulate fun l => f (.depth l)
  fb := ModLineMap.tabulate fun l => f (.fb l)
  modsrc := ModLineMap.tabulate fun l => f (.modsrc l)

/-- A parameter's word read in its format (R52). -/
def ParamFile.int (m : ParamFile) (p : FileParam) : Int := p.format.read (m.get p)

/-- Every parameter at its reset value (R540). -/
def ParamFile.reset : ParamFile := ParamFile.tabulate fun p => paramWord p.resetValue

end Sys2Proof.Machine
end

