-- ==== Sys2Proof/Machine/State.lean ====
section
/-! DEFINITION. The state of the FXB as plain data (10_state.md), the events by which the outside world acts on it, the
reasons a step can stop, and the state after reset (R540). -/

namespace Sys2Proof.Machine

/-- The faults of the machine: there is none. No error stops the command stream, the datapath or an access (R504, R507):
command and table errors are recorded in the state (`errCode`, `errInfo`, `irqPend`) and the machine goes on. The type is
closed and empty, which is the strongest form of that rule (log 11). Neither safe nor unsafe: nothing raises it. -/
inductive Fault where
  deriving DecidableEq, Repr

/-- The refusals of the machine. -/
inductive Refusal where
  /-- Raised by an arm of `exec` for an instruction without a meaning; no arm of this model does. Safe: the machine stops. -/
  | notModelled (mnemonic : String)
  /-- Raised by `step` for a TICK that arrives while a tick is being processed, which is implementation-defined and to be
  refused, not modelled (R562, 93_implementation_defined.md; log 8). Safe: the machine stops. -/
  | tickOverrun
  deriving DecidableEq, Repr

/-- The error codes of STATUS.ERR_CODE (R500). -/
inductive ErrCode where
  | none | illegalOp | reserved | badParam | badOperand | slotBusy | tblBadAddr | tblActiveWrite
  deriving DecidableEq, Repr

/-- The states of an envelope slot (R44, R300). -/
inductive EnvState where
  | idle | attack | decay | natural | release | tail
  deriving DecidableEq, Repr

/-- An envelope slot (R62). -/
structure Slot where
  st : EnvState
  str : BitVec 2
  tech : Tech
  i : U24
  g : U24
  gf : U24
  ceil : U24
  a : U24
  d : U24
  dk : U24
  s : U24
  nk : U24
  r : U24
  m : U24
  deriving DecidableEq, Repr

/-- The states of the auto-wah sweep (R63). -/
inductive WahState where
  | idle | up | down
  deriving DecidableEq, Repr

/-- The auto-wah sweep (R63). -/
structure Wah where
  wst : WahState
  m : U24
  m0 : U24
  i : U24
  u : U24
  wk : U24
  deriving DecidableEq, Repr

/-- The state of a filter section in one channel: the last two inputs and outputs (R65). -/
structure Biquad where
  x1 : Sample
  x2 : Sample
  y1 : Sample
  y2 : Sample
  deriving DecidableEq, Repr

/-- A sparse memory of int24 entries by address; its operations are in Machine/Ops.lean (log 3). -/
abbrev Cells := List (Nat × Sample)

/-- The datapath state of one channel (R65 to R68). An entry of a delay buffer or of the history that is not listed is 0. -/
structure ChanState where
  sec : SectMap Biquad
  msec : MSectMap Biquad
  phfb : Sample
  buf : LineMap Cells
  hist : Cells
  deriving DecidableEq, Repr

/-- What the outside world does next (R5, R71; log 1). -/
inductive EnvEvent where
  /-- A TICK strobe. -/
  | tick
  /-- A host write to the register at a word address (byte offset bits 7:2, R122). -/
  | busWrite (word : BitVec 6) (data : Word)
  /-- A host read of the register at a word address. -/
  | busRead (word : BitVec 6)
  /-- The level of VOICE_IN[k] from now on (R70). -/
  | driveVoice (k : SlotId) (v : Sample)
  /-- The level of CHAIN_IN from now on (R70). -/
  | driveChain (v : Sample)
  /-- The level of RST from now on (R71, R540). -/
  | driveRst (level : Bool)
  /-- A TICK strobe while the tick before it is still being processed (R562). -/
  | tickOverrun
  deriving DecidableEq, Repr

/-- The state of the FXB (INVENTORY.md lists every field with its rule). -/
structure State where
  run : Bool
  extInsert : Bool
  irqPend : BitVec 5
  irqEn : BitVec 5
  errCode : ErrCode
  errInfo : Word
  sampleCnt : Word
  tblTable : BitVec 3
  tblBankSel : Bool
  tblIndex : BitVec 20
  parSel : BitVec 12
  bank : BitVec 5
  done : BitVec 8
  tgt : ParamFile
  cur : ParamFile
  irLen0 : U24
  irLen1 : U24
  fifo : List Word
  wait : U24
  slots : SlotMap Slot
  wah : Wah
  ph : LfoMap Word
  wlfo : LfoMap Sample
  mPh : U24
  chans : ChanMap ChanState
  wp : LineMap Nat
  tables : Cells
  egOut : Sample
  egGain : SlotMap U24
  outL : Sample
  outR : Sample
  voiceIn : SlotMap Sample
  chainIn : Sample
  rst : Bool
  rdata : Word
  draws : Nat
  env : List EnvEvent
  deriving DecidableEq, Repr

/-- A slot after reset (R62). -/
def Slot.reset : Slot where
  st := .idle
  str := 0
  tech := .finger
  i := 0
  g := 0
  gf := 0
  ceil := 0
  a := 0
  d := 0
  dk := 0
  s := 0
  nk := 0
  r := 0
  m := 0

/-- The sweep after reset (R63). -/
def Wah.reset : Wah where
  wst := .idle
  m := 0
  m0 := 0
  i := 0
  u := 0
  wk := 0

/-- A filter section after reset (R65). -/
def Biquad.reset : Biquad := ⟨0, 0, 0, 0⟩

/-- A channel after reset (R65 to R68). -/
def ChanState.reset : ChanState where
  sec := SectMap.tabulate fun _ => Biquad.reset
  msec := MSectMap.tabulate fun _ => Biquad.reset
  phfb := 0
  buf := LineMap.tabulate fun _ => []
  hist := []

/-- The machine right after power-on and reset, RST released (R540). The fields the spec gives no reset value are the input
ports, the read data and the model's own event list and counter (logs 1, 4, 5, 6); the table RAM lists nothing, so every
entry is its power-on value (R126, log 2). -/
def State.reset : State where
  run := false
  extInsert := false
  irqPend := 0
  irqEn := 0
  errCode := .none
  errInfo := 0
  sampleCnt := 0
  tblTable := 0
  tblBankSel := false
  tblIndex := 0
  parSel := 0
  bank := 0
  done := 0
  tgt := ParamFile.reset
  cur := ParamFile.reset
  irLen0 := 0
  irLen1 := 0
  fifo := []
  wait := 0
  slots := SlotMap.tabulate fun _ => Slot.reset
  wah := Wah.reset
  ph := LfoMap.tabulate fun _ => 0
  wlfo := LfoMap.tabulate fun _ => 0
  mPh := 0
  chans := ChanMap.tabulate fun _ => ChanState.reset
  wp := LineMap.tabulate fun _ => 0
  tables := []
  egOut := 0
  egGain := SlotMap.tabulate fun _ => 0
  outL := 0
  outR := 0
  voiceIn := SlotMap.tabulate fun _ => 0
  chainIn := 0
  rst := false
  rdata := 0
  draws := 0
  env := []

end Sys2Proof.Machine
end

