-- ==== Sys2Proof/Machine/Flags.lean ====
section
/-! DEFINITION. The status and interrupt bits: the pending bits and their numbers (R34, R505), the error code's number
(R500), the live fields of STATUS (R33), the slot codes and SLOT_STATE (R44), and the IRQ and sample output ports as they
read from outside (R35, R73, R466). -/

namespace Sys2Proof.Machine

/-- IRQ_PEND.CMD_ERR, bit 0 (R34). -/
abbrev irqCmdErr : BitVec 5 := 0b00001#5

/-- IRQ_PEND.FIFO_OVF, bit 1 (R34). -/
abbrev irqFifoOvf : BitVec 5 := 0b00010#5

/-- IRQ_PEND.VOICE_DONE, bit 2 (R34). -/
abbrev irqVoiceDone : BitVec 5 := 0b00100#5

/-- IRQ_PEND.TBL_ERR, bit 3 (R34). -/
abbrev irqTblErr : BitVec 5 := 0b01000#5

/-- IRQ_PEND.CLIP, bit 4 (R34). -/
abbrev irqClip : BitVec 5 := 0b10000#5

/-- The code recorded in STATUS.ERR_CODE (R500). -/
def errCodeBits : ErrCode → BitVec 3
  | .none => 0
  | .illegalOp => 1
  | .reserved => 2
  | .badParam => 3
  | .badOperand => 4
  | .slotBusy => 5
  | .tblBadAddr => 6
  | .tblActiveWrite => 7

/-- STATUS.FIFO_LEVEL (R33). -/
def fifoLevel (s : State) : Nat := s.fifo.length

/-- STATUS.CMD_WAITING: the wait counter is nonzero (R33). -/
def cmdWaiting (s : State) : Bool := s.wait != 0

/-- STATUS.CMD_PAYLOAD: the FIFO head is a SETP header whose payload has not been pushed (R33, R202). -/
def cmdPayload (s : State) : Bool :=
  match s.fifo with
  | [h] => opcodeOf h == opcodeSetp
  | _ => false

/-- STATUS.CMD_IDLE: the FIFO is empty and no wait is pending (R33). -/
def cmdIdle (s : State) : Bool := s.fifo.isEmpty && s.wait == 0

/-- STATUS as it reads (R33); bits not named read 0 (R30). -/
def statusWord (s : State) : Word :=
  0#5 ++ errCodeBits s.errCode ++ 0#8 ++ BitVec.ofBool (cmdIdle s) ++ BitVec.ofBool (cmdPayload s)
    ++ BitVec.ofBool (cmdWaiting s) ++ BitVec.ofBool s.run ++ 0#3 ++ BitVec.ofNat 9 (fifoLevel s)

/-- The state code of a slot (R44). -/
def envStateBits : EnvState → BitVec 3
  | .idle => 0
  | .attack => 1
  | .decay => 2
  | .natural => 3
  | .release => 4
  | .tail => 5

/-- SLOT_STATE as it reads (R44). -/
def slotStateWord (s : State) : Word :=
  0#8 ++ envStateBits s.slots.s7.st ++ envStateBits s.slots.s6.st ++ envStateBits s.slots.s5.st
    ++ envStateBits s.slots.s4.st ++ envStateBits s.slots.s3.st ++ envStateBits s.slots.s2.st
    ++ envStateBits s.slots.s1.st ++ envStateBits s.slots.s0.st

/-- The IRQ output: some pending bit is enabled (R35, R505). -/
def irqOut (s : State) : Bool := (s.irqPend &&& s.irqEn) != 0

/-- A sample output port as it reads: the held value, and 0 while CTRL.RUN = 0 (R73, R466; log 7). -/
def portValue (s : State) (held : Sample) : Sample := if s.run then held else 0

/-- The port EG_OUT (R70, R73). -/
def portEgOut (s : State) : Sample := portValue s s.egOut

/-- The port OUT_L (R70, R73). -/
def portOutL (s : State) : Sample := portValue s s.outL

/-- The port OUT_R (R70, R73). -/
def portOutR (s : State) : Sample := portValue s s.outR

/-- The port EG_GAIN[k], which keeps its last value while CTRL.RUN = 0 (R70, R73). -/
def portEgGain (s : State) (k : SlotId) : U24 := s.egGain.get k

end Sys2Proof.Machine
end

