-- ==== Sys2Proof/Machine/Ops.lean ====
section
/-! DEFINITION. The shared operations over the state: sparse memories, the table space (R121 to R125), the parameter file
(R50 to R56), recording an error and ending its handling (R501, R503, R508), the FIFO push and flush (R201, R203), and reset
(R540, R542). -/

namespace Sys2Proof.Machine

/-! ### Sparse memories of int24 entries (log 3) -/

/-- The listed value at an address. -/
def cellFind? : Cells → Nat → Option Sample
  | [], _ => none
  | (k, v) :: m, a => if k = a then some v else cellFind? m a

/-- List a value at an address, keeping the addresses rising. -/
def cellInsert : Cells → Nat → Sample → Cells
  | [], a, v => [(a, v)]
  | (k, w) :: m, a, v =>
    if a < k then (a, v) :: (k, w) :: m
    else if a = k then (a, v) :: m
    else (k, w) :: cellInsert m a v

/-- List nothing at an address. -/
def cellErase (m : Cells) (a : Nat) : Cells := m.filter fun c => c.1 != a

/-- Addresses rise strictly, start at or above `lo` and stay below `bound`. -/
def cellsRising : Nat → Nat → Cells → Bool
  | _, _, [] => true
  | lo, bound, (k, _) :: m => decide (lo ≤ k) && decide (k < bound) && cellsRising (k + 1) bound m

/-- An entry of a memory that reset clears: an unlisted entry reads 0 (R67, R68). -/
def ramRead (m : Cells) (a : Nat) : Sample := (cellFind? m a).getD 0

/-- Write an entry of a memory that reset clears; 0 is written by listing nothing. -/
def ramWrite (m : Cells) (a : Nat) (v : Sample) : Cells := if v = 0 then cellErase m a else cellInsert m a v

/-- The canonical form of a memory that reset clears: rising addresses below `bound`, no listed 0. -/
def ramWf (bound : Nat) (m : Cells) : Bool := cellsRising 0 bound m && m.all fun c => c.2 != 0

/-! ### Tables (R121, R123) -/

/-- The seven tables (R121). -/
inductive TableId where
  | curve (c : Curve)
  | irL
  | irR
  | lfoWave
  deriving DecidableEq, Repr

/-- The table number (R121). -/
def TableId.num : TableId → Nat
  | .curve c => c.num
  | .irL => 4
  | .irR => 5
  | .lfoWave => 6

/-- The table of a number; there is no table 7 (R121). -/
def TableId.ofNum? : Nat → Option TableId
  | 0 => some (.curve .fuzz)
  | 1 => some (.curve .od)
  | 2 => some (.curve .pre)
  | 3 => some (.curve .tape)
  | 4 => some .irL
  | 5 => some .irR
  | 6 => some .lfoWave
  | _ => none

/-- LEN(t), entries per bank (R121). -/
def TableId.len : TableId → Nat
  | .curve _ => Config.CURVE_LEN
  | .irL => Config.IR_MAX_LEN
  | .irR => Config.IR_MAX_LEN
  | .lfoWave => Config.WAVE_LEN

/-- Whether the table has two banks: every table but LFO_WAVE (R121, R123). -/
def TableId.banked : TableId → Bool
  | .lfoWave => false
  | .curve _ => true
  | .irL => true
  | .irR => true

/-- act(t), the active bank: BANK bit t for a curve, bit 4 for the impulse tables; bank 0 for LFO_WAVE (R46, R123). -/
def activeBank (s : State) (t : TableId) : Bool :=
  match t with
  | .curve c => s.bank.getLsbD c.num
  | .irL => s.bank.getLsbD 4
  | .irR => s.bank.getLsbD 4
  | .lfoWave => false

/-- The address of entry `idx` of bank `b` of table `t` in the table RAM: table, then bank, then entry (log 2). -/
def tableAddr (t : TableId) (b : Bool) (idx : Nat) : Nat := (2 * t.num + b.toNat) * Config.IR_MAX_LEN + idx

/-- The end of the table RAM's address space. -/
abbrev tableSpace : Nat := 14 * 131072

/-- `MemRead(t.b : idx, 1)`: an entry never written since power-on reads its power-on value (R124, R126; log 2). -/
def tableRead (s : State) (t : TableId) (b : Bool) (idx : Nat) : Sample :=
  (cellFind? s.tables (tableAddr t b idx)).getD (Config.powerOnEntry (tableAddr t b idx))

/-- `MemWrite(t.b : idx, 1, v)` (R125). -/
def tableWrite (s : State) (t : TableId) (b : Bool) (idx : Nat) (v : Sample) : State :=
  { s with tables := cellInsert s.tables (tableAddr t b idx) v }

/-- The entry the datapath reads: the active bank (R127). -/
def tableActive (s : State) (t : TableId) (idx : Nat) : Int := (tableRead s t (activeBank s t) idx).toInt

/-- The canonical form of every memory of the state: tables, delay buffers, histories. -/
def Memory.chanWf (c : ChanState) : Bool :=
  Line.all.all (fun l => ramWf l.len (c.buf.get l)) && ramWf Config.IR_MAX_LEN c.hist

/-- Every memory of the state is in its canonical form. -/
def Memory.wf (s : State) : Bool :=
  cellsRising 0 tableSpace s.tables && Memory.chanWf s.chans.left && Memory.chanWf s.chans.right

/-! ### Errors: taking one and ending its handling (R501, R503, R507, R508) -/

/-- Record an error: its code, its information word and its pending bit; nothing else changes (R501, R503, R507). -/
def recordError (code : ErrCode) (info : Word) (bit : BitVec 5) (s : State) : State :=
  { s with errCode := code, errInfo := info, irqPend := s.irqPend ||| bit }

/-- `CmdError(code, h)`: the information word is the header (R501). -/
def cmdError (code : ErrCode) (h : Word) (s : State) : State := recordError code h irqCmdErr s

/-- `TblError(code, a)`: the information word is TBL_ADDR as it was at the access (R503). -/
def tblError (code : ErrCode) (a : Word) (s : State) : State := recordError code a irqTblErr s

/-- The host ends its handling by writing 1 to the IRQ_PEND bits it served (R34, R508). -/
def ackIrq (bits : BitVec 5) (s : State) : State := { s with irqPend := s.irqPend &&& ~~~bits }

/-- The host clears DONE bits the same way (R47, R508). -/
def ackDone (bits : BitVec 8) (s : State) : State := { s with done := s.done &&& ~~~bits }

/-! ### Table access by the host (R124, R125) -/

/-- TBL_ADDR as it reads: reserved bits are 0 (R39). -/
def tblAddrWord (s : State) : Word :=
  0#1 ++ s.tblTable ++ BitVec.ofBool s.tblBankSel ++ 0#7 ++ s.tblIndex

/-- Write TBL_ADDR; reserved bits are ignored (R39). -/
def writeTblAddr (v : Word) (s : State) : State :=
  { s with tblTable := v.extractLsb' 28 3, tblBankSel := v.getLsbD 27, tblIndex := v.extractLsb' 0 20 }

/-- INDEX <- (INDEX + 1) mod 2^20 (R40). -/
def advanceIndex (s : State) : State := { s with tblIndex := s.tblIndex + 1 }

/-- The table that TBL_ADDR selects, if TABLE is not 7 and INDEX is below the table's length (R124, R125). -/
def selectedTable? (s : State) : Option TableId :=
  match TableId.ofNum? s.tblTable.toNat with
  | none => none
  | some t => if s.tblIndex.toNat < t.len then some t else none

/-- The bank a TBL_DATA read addresses (R123, R124). -/
def selectedBank (s : State) (t : TableId) : Bool :=
  match t with
  | .lfoWave => false
  | t => if s.tblBankSel then activeBank s t else !(activeBank s t)

/-- TBL_DATA read: the word read, and the state after it (R124). -/
def readTblData (s : State) : Word × State :=
  match selectedTable? s with
  | none => (0, advanceIndex (tblError .tblBadAddr (tblAddrWord s) s))
  | some t => ((tableRead s t (selectedBank s t) s.tblIndex.toNat).signExtend 32, advanceIndex s)

/-- TBL_DATA write: only a shadow bank, or LFO_WAVE, is written (R125). -/
def writeTblData (v : Word) (s : State) : State :=
  match selectedTable? s with
  | none => advanceIndex (tblError .tblBadAddr (tblAddrWord s) s)
  | some t =>
    if t.banked && s.tblBankSel then advanceIndex (tblError .tblActiveWrite (tblAddrWord s) s)
    else advanceIndex (tableWrite s t (selectedBank s t) s.tblIndex.toNat (v.extractLsb' 0 24))

/-! ### Parameters (R50 to R56) -/

/-- The active impulse bank, BANK bit 4 (R46). -/
def irBank (s : State) : Bool := s.bank.getLsbD 4

/-- ir_len[b] (R68). -/
def irLenOf (s : State) (b : Bool) : U24 := if b then s.irLen1 else s.irLen0

/-- ir_len[b] <- v (R55, R68). -/
def setIrLen (b : Bool) (v : U24) (s : State) : State :=
  if b then { s with irLen1 := v } else { s with irLen0 := v }

/-- P.tgt[p] as a 32-bit word; IR_LEN reads the shadow bank's length (R42, R55). -/
def tgtWord (s : State) : Param → Word
  | .irLen => (irLenOf s (!(irBank s))).zeroExtend 32
  | .file p => s.tgt.get p

/-- P.cur[p] as a 32-bit word; IR_LEN reads the active bank's length (R43, R55). -/
def curWord (s : State) : Param → Word
  | .irLen => (irLenOf s (irBank s)).zeroExtend 32
  | .file p => s.cur.get p

/-- P.cur[p] as an integer (R52). -/
def curInt (s : State) (p : FileParam) : Int := s.cur.int p

/-- P.tgt[p] as an integer (R52). -/
def tgtInt (s : State) (p : FileParam) : Int := s.tgt.int p

/-- Store a value, already in the legal range, as a parameter's target, and as its current value too where the class is I;
IR_LEN sets the shadow bank's length (R53, R55, R210). -/
def setParam (p : Param) (v : Int) (s : State) : State :=
  match p with
  | .irLen => setIrLen (!(irBank s)) (u24Of v) s
  | .file q =>
    match q.cls with
    | .S => { s with tgt := s.tgt.set q (paramWord v) }
    | .I => { s with tgt := s.tgt.set q (paramWord v), cur := s.cur.set q (paramWord v) }

/-! ### FIFO and reset -/

/-- A push of one word; a push on a full FIFO is lost and sets FIFO_OVF (R201, R502). -/
def pushCmd (v : Word) (s : State) : State :=
  if s.fifo.length < Config.CMD_FIFO_DEPTH then { s with fifo := s.fifo ++ [v] }
  else { s with irqPend := s.irqPend ||| irqFifoOvf }

/-- FIFO_FLUSH: the FIFO is emptied and W cleared (R203). -/
def flushFifo (s : State) : State := { s with fifo := [], wait := 0 }

/-- Every state element of R540 takes its reset value; the table RAM, the input ports, the read data and the model's own
fields are not among them and keep theirs (R540, R542; log 6). -/
def resetElements (s : State) : State :=
  { State.reset with
    tables := s.tables
    voiceIn := s.voiceIn
    chainIn := s.chainIn
    rst := s.rst
    rdata := s.rdata
    draws := s.draws
    env := s.env }

end Sys2Proof.Machine
end

