-- ==== Sys2Proof/Machine/HostPort.lean ====
section
/-! DEFINITION. The register interface (R30 to R48, R128): what a host read returns and does, and what a host write does.
The register bus carries the word address, byte offset bits 7:2 (R122). -/

namespace Sys2Proof.Machine

/-- CTRL as it reads: FIFO_FLUSH and SOFT_RESET read 0 (R31). -/
def ctrlWord (s : State) : Word := 0#30 ++ BitVec.ofBool s.extInsert ++ BitVec.ofBool s.run

/-- Write CTRL: SOFT_RESET ignores the other bits; otherwise RUN and EXT_INSERT are stored and FIFO_FLUSH empties the FIFO
(R31, R203, R542). -/
def writeCtrl (v : Word) (s : State) : State :=
  if v.getLsbD 31 then resetElements s
  else
    let s := { s with run := v.getLsbD 0, extInsert := v.getLsbD 1 }
    if v.getLsbD 2 then flushFifo s else s

/-- PAR_TGT and PAR_CUR read 0 where PAR_SEL is not a valid id (R42, R43). -/
def selectedParamWord (s : State) (view : State → Param → Word) : Word :=
  match Param.ofId? s.parSel with
  | none => 0
  | some p => view s p

/-- The word a read of a register returns, TBL_DATA apart; CMD and unmapped words read 0 (R30, R36, R48). -/
def registerWord (s : State) (word : BitVec 6) : Word :=
  match word.toNat with
  | 0 => Config.ID_WORD
  | 1 => ctrlWord s
  | 2 => statusWord s
  | 3 => s.irqPend.zeroExtend 32
  | 4 => s.irqEn.zeroExtend 32
  | 6 => s.errInfo
  | 7 => s.sampleCnt
  | 8 => tblAddrWord s
  | 10 => s.parSel.zeroExtend 32
  | 11 => selectedParamWord s tgtWord
  | 12 => selectedParamWord s curWord
  | 13 => slotStateWord s
  | 14 => s.bank.zeroExtend 32
  | 15 => s.done.zeroExtend 32
  | 16 => Config.CONFIG_WORD
  | _ => 0

/-- The word address of TBL_DATA, offset 0x24 (R30). -/
abbrev tblDataWord : BitVec 6 := 9#6

/-- A host read: the word, and the state after it; only TBL_DATA has a side effect (R128). -/
def readRegister (word : BitVec 6) (s : State) : Word × State :=
  if word = tblDataWord then readTblData s else (registerWord s word, s)

/-- A host write; read-only registers and unmapped words ignore it (R30, R48, R128). -/
def writeRegister (word : BitVec 6) (v : Word) (s : State) : State :=
  match word.toNat with
  | 1 => writeCtrl v s
  | 3 => ackIrq (v.extractLsb' 0 5) s
  | 4 => { s with irqEn := v.extractLsb' 0 5 }
  | 5 => pushCmd v s
  | 8 => writeTblAddr v s
  | 9 => writeTblData v s
  | 10 => { s with parSel := v.extractLsb' 0 12 }
  | 15 => ackDone (v.extractLsb' 0 8) s
  | _ => s

/-- A read on the bus: the read data port takes the word. While RST is asserted accesses are not accepted: nothing changes
but the read data, which is a free value (R540; log 6). -/
def busRead (word : BitVec 6) (s : State) : State :=
  if s.rst then { s with rdata := Config.busReadInReset s.draws, draws := s.draws + 1 }
  else
    let r := readRegister word s
    { r.2 with rdata := r.1 }

/-- A write on the bus; without effect while RST is asserted (R540; log 6). -/
def busWrite (word : BitVec 6) (v : Word) (s : State) : State := if s.rst then s else writeRegister word v s

/-- A new level of RST: every state element of R540 takes its reset value while it is asserted and once when it is released
(R540). -/
def driveRst (level : Bool) (s : State) : State :=
  if s.rst || level then { resetElements s with rst := level } else s

/-- A new level of VOICE_IN[k] (R70). -/
def driveVoice (k : SlotId) (v : Sample) (s : State) : State := { s with voiceIn := s.voiceIn.set k v }

/-- A new level of CHAIN_IN (R70). -/
def driveChain (v : Sample) (s : State) : State := { s with chainIn := v }

end Sys2Proof.Machine
end

