-- ==== Sys2Proof/Machine/Lfo.lean ====
section
/-! DEFINITION. The oscillators and the routing of their outputs (43_lfo.md). -/

namespace Sys2Proof.Machine

/-- The wavetable entry at index `i` (R340, R341). -/
def waveEntry (s : State) (i : Nat) : Int := tableActive s .lfoWave i

/-- The output of an oscillator at phase `ph`, before the phase advances (R341). -/
def lfoOutput (s : State) (ph : Word) : Int :=
  let idx := (ph.extractLsb' 24 8).toNat
  let frac := (ph.extractLsb' 8 16).toNat
  lerp (waveEntry s idx) (waveEntry s ((idx + 1) % Config.WAVE_LEN)) (frac : Int) 16

/-- The phase after one tick, modulo 2^32 (R341). -/
def lfoAdvance (s : State) (k : Lfo) : Word := s.ph.get k + s.cur.get (.lfoInc k)

/-- The phaser's modulation value of an LFO1 output (R344). -/
def phaserMod (wlfo1 : Sample) : U24 := u24Of (asr (wlfo1.toInt + 8388608) 1)

/-- `LfoStep(k)` for every oscillator, then m_ph (R341, R344, R450 step 3). -/
def modLfos (s : State) : State :=
  let w := LfoMap.tabulate fun k => sampleOf (lfoOutput s (s.ph.get k))
  { s with
    wlfo := w
    ph := LfoMap.tabulate fun k => lfoAdvance s k
    mPh := phaserMod w.lfo1 }

/-- `wmod(L)`: the modulation value of a modulated line, by its MODSRC (R345). -/
def lineMod (s : State) (l : ModLine) : Int :=
  match (curInt s (.modsrc l)).toNat with
  | 1 => s.wlfo.lfo0.toInt
  | 2 => s.wlfo.lfo1.toInt
  | 3 => s.wlfo.lfo2.toInt
  | _ => 0

end Sys2Proof.Machine
end

