-- ==== Sys2Proof/Machine/DelayConv.lean ====
section
/-! DEFINITION. The delay lines and the convolution (46_delay_conv.md). -/

namespace Sys2Proof.Machine

/-- The modulation part `rnd(dep * w, 23)` of a line's delay; the pre-delay line has none (R411). -/
def delayOffset (s : State) (l : Line) : Int :=
  match l.modLine? with
  | none => 0
  | some m => rnd (curInt s (.depth m) * lineMod s m) 23

/-- The delay of a line in 1/4096 samples, clamped to 1 .. N - 2 samples (R411). -/
def delayTime (s : State) (l : Line) : Int :=
  clamp (curInt s (.base l) + delayOffset s l) 4096 l.maxBase

/-- The buffer index `j` entries before the write pointer, modulo the line's length (R411). -/
def tapIndex (s : State) (l : Line) (j : Nat) : Nat := ((((s.wp.get l : Nat) : Int) - (j : Int)) % (l.len : Int)).toNat

/-- `DelayTap(L, ch)` (R411). -/
def delayTap (s : State) (l : Line) (c : ChanState) : Sample :=
  let d := (delayTime s l).toNat
  let di := d / 4096
  let f := d % 4096
  let s0 := ramRead (c.buf.get l) (tapIndex s l di)
  let s1 := ramRead (c.buf.get l) (tapIndex s l (di + 1))
  sampleOf (lerp s0.toInt s1.toInt (f : Int) 12)

/-- `DelayWrite(L, ch, v)` (R412). -/
def delayWrite (s : State) (l : Line) (v : Sample) (c : ChanState) : ChanState :=
  { c with buf := c.buf.set l (ramWrite (c.buf.get l) (s.wp.get l) v) }

/-- The write pointers after the chain of a tick (R412, R450 step 4). -/
def advancePointers (wp : LineMap Nat) : LineMap Nat :=
  LineMap.tabulate fun l => (wp.get l + 1) % l.len

/-- Every entry of the history one place older; the oldest is dropped (R430). -/
def histOlder : Cells → Cells
  | [] => []
  | (k, v) :: m => if k + 1 < Config.IR_MAX_LEN then (k + 1, v) :: histOlder m else histOlder m

/-- The history after the input `p` (R430). -/
def histPush (h : Cells) (p : Sample) : Cells := ramWrite (histOlder h) 0 p

/-- The sum of `f k` for `k` from 0 to `n - 1`. -/
def sumBelow : Nat → (Nat → Int) → Int
  | 0, _ => 0
  | n + 1, f => sumBelow n f + f n

/-- The impulse table of a channel (R430). -/
def irTable : Chan → TableId
  | .left => .irL
  | .right => .irR

/-- The exact convolution sum of a channel over the history `h` (R430). -/
def convSum (s : State) (ch : Chan) (h : Cells) : Int :=
  sumBelow (irLenOf s (irBank s)).toNat fun k => tableActive s (irTable ch) k * (ramRead h k).toInt

/-- `Conv(ch, p)` (R430, R431). -/
def evalConv (s : State) (ch : Chan) (c : ChanState) (p : Sample) : ChanState × Sample :=
  let h := histPush c.hist p
  ({ c with hist := h }, sampleOf (sat24 (rnd (convSum s ch h) (23 + (curInt s .irShift).toNat))))

end Sys2Proof.Machine
end

