-- ==== Sys2Proof/Machine/Filter.lean ====
section
/-! DEFINITION. The filter sections (44_filters.md). A section's evaluation takes a channel's datapath state and an input
sample and gives the channel's state after it and the output sample. -/

namespace Sys2Proof.Machine

/-- The five coefficients of an evaluation, as integers (Q4.28, R361). -/
structure CoefInts where
  b0 : Int
  b1 : Int
  b2 : Int
  a1 : Int
  a2 : Int
  deriving DecidableEq, Repr

/-- The exact accumulator of a section (R361). -/
def biquadAcc (c : CoefInts) (st : Biquad) (x : Sample) : Int :=
  c.b0 * x.toInt + c.b1 * st.x1.toInt + c.b2 * st.x2.toInt - c.a1 * st.y1.toInt - c.a2 * st.y2.toInt

/-- The output sample of a section (R361). -/
def biquadOut (c : CoefInts) (st : Biquad) (x : Sample) : Sample := sampleOf (sat24 (rnd (biquadAcc c st x) 28))

/-- The section's state after an evaluation with input `x` and output `y` (R361). -/
def biquadNext (st : Biquad) (x y : Sample) : Biquad := ⟨x, st.x1, y, st.y1⟩

/-- The current coefficients of a plain section (R361). -/
def plainCoefs (s : State) (q : Sect) : CoefInts where
  b0 := curInt s (.bq q .b0)
  b1 := curInt s (.bq q .b1)
  b2 := curInt s (.bq q .b2)
  a1 := curInt s (.bq q .a1)
  a2 := curInt s (.bq q .a2)

/-- `BQ(q, ch, x)` (R361). -/
def evalBQ (s : State) (q : Sect) (c : ChanState) (x : Sample) : ChanState × Sample :=
  let st := c.sec.get q
  let y := biquadOut (plainCoefs s q) st x
  ({ c with sec := c.sec.set q (biquadNext st x y) }, y)

/-- One coefficient of a modulated section at modulation `m` (R371). -/
def modCoef (s : State) (r : MSect) (m : Int) (f : Coef) : Int :=
  lerp (curInt s (.lo r f)) (curInt s (.hi r f)) m 23

/-- The interpolated coefficients of a modulated section (R371). -/
def modCoefs (s : State) (r : MSect) (m : Int) : CoefInts where
  b0 := modCoef s r m .b0
  b1 := modCoef s r m .b1
  b2 := modCoef s r m .b2
  a1 := modCoef s r m .a1
  a2 := modCoef s r m .a2

/-- `MBQ(r, m, ch, x)` (R371). -/
def evalMBQ (s : State) (r : MSect) (m : U24) (c : ChanState) (x : Sample) : ChanState × Sample :=
  let st := c.msec.get r
  let y := biquadOut (modCoefs s r (u24Int m)) st x
  ({ c with msec := c.msec.set r (biquadNext st x y) }, y)

end Sys2Proof.Machine
end

