-- ==== Sys2Proof/Machine/Shaper.lean ====
section
/-! DEFINITION. The transfer-curve lookup (45_shaper.md). -/

namespace Sys2Proof.Machine

/-- `Curve(t, x)` on the active bank (R391). -/
def evalCurve (s : State) (t : Curve) (x : Sample) : Sample :=
  let u := (x.toInt + 8388608).toNat
  let k := u / 16384
  let f := u % 16384
  sampleOf (lerp (tableActive s (.curve t) k) (tableActive s (.curve t) (k + 1)) (f : Int) 14)

end Sys2Proof.Machine
end

