-- ==== Sys2Proof/Machine/Chain.lean ====
section
/-! DEFINITION. The effect chain (47_chain.md): each stage takes a channel's datapath state and the stage's input and gives
the channel's state after it and the stage's output. The tick's parameters, modulation values, tables and write pointers
are read from the state `s`, which no stage changes. -/

namespace Sys2Proof.Machine

/-- `Gain` with a GAIN parameter's current value (R263). -/
def gainBy (s : State) (p : FileParam) (x : Sample) : Sample := sampleOf (gain x.toInt (curInt s p))

/-- `Mix(s, x, w)` with the stage's current gains (R275). -/
def mixStage (s : State) (g : Stage) (x w : Sample) : Sample :=
  sampleOf (mix (curInt s (.dry g)) (curInt s (.wet g)) x.toInt w.toInt)

/-- `FbSum(x, v, fb)` with an FB parameter's current value (R276). -/
def fbSumBy (s : State) (p : FileParam) (x v : Sample) : Sample := sampleOf (fbSum x.toInt v.toInt (curInt s p))

/-- The chain input: the voice sum or the external insert's return (R452). -/
def chainInput (s : State) : Sample := if s.extInsert then s.chainIn else s.egOut

/-- AUTOWAH (R454). -/
def stageAutowah (s : State) (c : ChanState) (x : Sample) : ChanState × Sample :=
  let (c, w) := evalMBQ s .wah s.wah.m c x
  (c, mixStage s .autowah x w)

/-- FUZZ (R455). -/
def stageFuzz (s : State) (c : ChanState) (x : Sample) : ChanState × Sample :=
  let (c, w) := evalBQ s .fuzzTone c (evalCurve s .fuzz (gainBy s .fuzzIn x))
  (c, mixStage s .fuzz x w)

/-- OD (R456). -/
def stageOd (s : State) (c : ChanState) (x : Sample) : ChanState × Sample :=
  let (c, b) := evalBQ s .odBass c (evalCurve s .od x)
  let (c, t) := evalBQ s .odTreble c b
  let (c, d) := evalBQ s .odTone c t
  (c, mixStage s .od x (gainBy s .odLevel d))

/-- CHORUS (R457). -/
def stageChorus (s : State) (c : ChanState) (x : Sample) : ChanState × Sample :=
  let t := delayTap s .chorus c
  (delayWrite s .chorus (fbSumBy s (.fb .chorus) x t) c, mixStage s .chorus x t)

/-- PHASER (R458). -/
def stagePhaser (s : State) (c : ChanState) (x : Sample) : ChanState × Sample :=
  let (c, a1) := evalMBQ s .ph1 s.mPh c (fbSumBy s .phFb x c.phfb)
  let (c, a2) := evalMBQ s .ph2 s.mPh c a1
  let (c, a3) := evalMBQ s .ph3 s.mPh c a2
  let (c, a4) := evalMBQ s .ph4 s.mPh c a3
  ({ c with phfb := a4 }, mixStage s .phaser x a4)

/-- DELAY (R459). -/
def stageDelay (s : State) (c : ChanState) (x : Sample) : ChanState × Sample :=
  let t := delayTap s .delay c
  let (c, e) := evalBQ s .delayDamp c t
  (delayWrite s .delay (fbSumBy s (.fb .delay) x e) c, mixStage s .delay x t)

/-- REVERB (R460). -/
def stageReverb (s : State) (ch : Chan) (c : ChanState) (x : Sample) : ChanState × Sample :=
  let p := delayTap s .revpre c
  let (c, w) := evalConv s ch (delayWrite s .revpre x c) p
  (c, mixStage s .reverb x w)

/-- EQ5 (R461). -/
def stageEq5 (s : State) (c : ChanState) (x : Sample) : ChanState × Sample :=
  let (c, a) := evalBQ s .eqLow c x
  let (c, b) := evalBQ s .eqMid1 c a
  let (c, d) := evalBQ s .eqMid2 c b
  let (c, e) := evalBQ s .eqHigh c d
  let (c, w) := evalBQ s .eqPres c e
  (c, mixStage s .eq5 x w)

/-- PREAMP (R462). -/
def stagePreamp (s : State) (c : ChanState) (x : Sample) : ChanState × Sample :=
  let (c, b) := evalBQ s .preBass c (evalCurve s .pre (gainBy s .preDrive x))
  let (c, d) := evalBQ s .preMid c b
  let (c, e) := evalBQ s .preTreble c d
  let (c, w) := evalBQ s .prePres c e
  (c, mixStage s .preamp x w)

/-- TAPE (R463). -/
def stageTape (s : State) (c : ChanState) (x : Sample) : ChanState × Sample :=
  let t := delayTap s .tape c
  let (c, e) := evalBQ s .tapeDamp c (evalCurve s .tape t)
  (delayWrite s .tape (fbSumBy s (.fb .tape) x e) c, mixStage s .tape x t)

/-- AMP (R464). -/
def stageAmp (s : State) (c : ChanState) (x : Sample) : ChanState × Sample :=
  let (c, b) := evalBQ s .ampContour c (gainBy s .ampIn x)
  let (c, d) := evalBQ s .ampBass c b
  let (c, e) := evalBQ s .ampMid c d
  let (c, f) := evalBQ s .ampTreble c e
  let (c, g) := evalBQ s .ampPres c f
  let (c, h) := evalBQ s .ampCab c g
  (c, gainBy s .ampMaster h)

/-- The stages and the amplifier in their fixed order (R451). -/
def chain (s : State) (ch : Chan) (c : ChanState) (x : Sample) : ChanState × Sample :=
  let (c, x) := stageAutowah s c x
  let (c, x) := stageFuzz s c x
  let (c, x) := stageOd s c x
  let (c, x) := stageChorus s c x
  let (c, x) := stagePhaser s c x
  let (c, x) := stageDelay s c x
  let (c, x) := stageReverb s ch c x
  let (c, x) := stageEq5 s c x
  let (c, x) := stagePreamp s c x
  let (c, x) := stageTape s c x
  stageAmp s c x

/-- The master gain before saturation (R465). -/
def masterSum (s : State) (y : Sample) : Int := rnd (y.toInt * curInt s .master) 24

/-- Whether the master gain saturates (R465). -/
def clips (o : Int) : Bool := sat24 o != o

/-- `DataPhase()`: both channels through the chain and the master gain, CLIP, and the write pointers (R450 step 4, R465,
R466). -/
def dataPhase (s : State) : State :=
  let x0 := chainInput s
  let l := chain s .left s.chans.left x0
  let r := chain s .right s.chans.right x0
  let oL := masterSum s l.2
  let oR := masterSum s r.2
  { s with
    chans := ⟨l.1, r.1⟩
    wp := advancePointers s.wp
    outL := sampleOf (sat24 oL)
    outR := sampleOf (sat24 oR)
    irqPend := if clips oL || clips oR then s.irqPend ||| irqClip else s.irqPend }

end Sys2Proof.Machine
end

