-- ==== Sys2Proof/Machine/Operands.lean ====
section
/-! DEFINITION. The operand forms of the commands (R162, R210, R212, R214): which field values are legal and what they
name, and how a SETP payload is read and clamped. -/

namespace Sys2Proof.Machine

/-- TECH 0 to 4 names a technique (R162). -/
def techOperand? (f : BitVec 4) : Option Tech := Tech.ofNum? f.toNat

/-- STR 0 to 3 names a string (R162). -/
def strOperand? (f : BitVec 4) : Option (BitVec 2) :=
  if f.toNat < Config.N_STRING then some (f.extractLsb' 0 2) else none

/-- SLOT 0 to 7 names a slot (R162). -/
def slotOperand? (f : BitVec 4) : Option SlotId := SlotId.ofNum? f.toNat

/-- What RELEASE releases: a string's voice or one slot's (R214). -/
inductive ReleaseTarget where
  | string (str : BitVec 2)
  | slot (k : SlotId)
  deriving DecidableEq, Repr

/-- TGT 0 to 3 names a string when BYSLOT = 0, and 0 to 7 a slot when BYSLOT = 1 (R162, R214). -/
def releaseOperand? (bySlot : BitVec 1) (tgt : BitVec 4) : Option ReleaseTarget :=
  if bySlot = 1 then (slotOperand? tgt).map .slot else (strOperand? tgt).map .string

/-- The SETP payload, read in the parameter's format and clamped to its legal range; never an error (R162, R210). -/
def payloadValue (p : Param) (value : Word) : Int := clamp (p.format.read value) p.low p.high

/-- SWAP: bit `b` of MASK inverts bit `b` of BANK (R213). -/
def swapBanks (bank mask : BitVec 5) : BitVec 5 := bank ^^^ mask

/-- SYNC: the phase of LFO `k` is cleared where bit `k` of LMASK is 1 (R216). -/
def syncPhases (lmask : BitVec 3) (ph : LfoMap Word) : LfoMap Word :=
  LfoMap.tabulate fun k => if lmask.getLsbD k.num then 0 else ph.get k

end Sys2Proof.Machine
end

