-- ==== Sys2Proof/Machine/ControlCommands.lean ====
section
/-! DEFINITION. The meanings of NOP, WAIT and the illegal opcodes (R211, R215, R217). -/

namespace Sys2Proof.Machine

/-- NOP: do nothing (R211). -/
def execNop (rsv : BitVec 28) (s : State) : Host.Outcome State Fault Refusal :=
  if rsv ≠ 0 then .next (cmdError .reserved (headerOf (.nop rsv)) s) else .next s

/-- WAIT: delay the following commands; the command phase ends where the counter becomes nonzero (R204, R215). -/
def execWait (rsv : BitVec 4) (count : U24) (s : State) : Host.Outcome State Fault Refusal :=
  if rsv ≠ 0 then .next (cmdError .reserved (headerOf (.wait rsv count)) s) else .next { s with wait := count }

/-- Opcode 0x7: ILLEGAL_OP (R217). -/
def execIllegal7 (rest : BitVec 28) (s : State) : Host.Outcome State Fault Refusal :=
  .next (cmdError .illegalOp (headerOf (.illegal7 rest)) s)

/-- Opcodes 0x8 to 0xF: ILLEGAL_OP (R217). -/
def execIllegalHi (rest : BitVec 31) (s : State) : Host.Outcome State Fault Refusal :=
  .next (cmdError .illegalOp (headerOf (.illegalHi rest)) s)

end Sys2Proof.Machine
end

