-- ==== Sys2Proof/Machine/ParamCommands.lean ====
section
/-! DEFINITION. The meanings of SETP, SWAP and SYNC (R210, R213, R216). -/

namespace Sys2Proof.Machine

/-- SETP: set a parameter target, and for class I the current value (R210). -/
def execSetp (rsv : BitVec 16) (pid : BitVec 12) (value : Word) (s : State) : Host.Outcome State Fault Refusal :=
  let h := headerOf (.setp rsv pid value)
  if rsv ≠ 0 then .next (cmdError .reserved h s)
  else
    match Param.ofId? pid with
    | none => .next (cmdError .badParam h s)
    | some p => .next (setParam p (payloadValue p value) s)

/-- SWAP: make shadow banks active, atomically (R213). -/
def execSwap (rsv : BitVec 23) (mask : BitVec 5) (s : State) : Host.Outcome State Fault Refusal :=
  if rsv ≠ 0 then .next (cmdError .reserved (headerOf (.swap rsv mask)) s)
  else .next { s with bank := swapBanks s.bank mask }

/-- SYNC: reset LFO phases (R216). -/
def execSync (rsv : BitVec 25) (lmask : BitVec 3) (s : State) : Host.Outcome State Fault Refusal :=
  if rsv ≠ 0 then .next (cmdError .reserved (headerOf (.sync rsv lmask)) s)
  else .next { s with ph := syncPhases lmask s.ph }

end Sys2Proof.Machine
end

