-- ==== Sys2Proof/Machine/Envelope.lean ====
section
/-! DEFINITION. Envelope slots, voice amplifier and auto-wah sweep (42_envelope.md): the events Trigger, Release and
WahTrigger that commands cause, and the steps of the modulation phase. -/

namespace Sys2Proof.Machine

/-- Whether the slot's voice is in ATTACK, DECAY or NATURAL, the states a release may start from (R306, R313). -/
def EnvState.sounding : EnvState → Bool
  | .attack | .decay | .natural => true
  | .idle | .release | .tail => false

/-- `Trigger(s, str, tech)`: the slot of a new voice, with every envelope value latched (R302). -/
def triggeredSlot (s : State) (str : BitVec 2) (tech : Tech) : Slot :=
  let ceil := curInt s .egCeil
  { st := .attack
    str := str
    tech := tech
    i := 0
    g := 0
    gf := 0
    ceil := u24Of ceil
    a := u24Of (curInt s (.tech tech .aLen))
    d := u24Of (curInt s (.tech tech .dLen))
    dk := u24Of (curInt s (.tech tech .dk))
    s := u24Of (asr (ceil * curInt s (.tech tech .sus)) 23)
    nk := u24Of (curInt s (.tech tech .nk))
    r := u24Of (curInt s .egRelLen)
    m := u24Of (curInt s .egMarginLen) }

/-- `Release(k)`: the gain is frozen and the release starts from it (R306). -/
def releasedSlot (k : Slot) : Slot := { k with gf := k.g, i := 0, st := .release }

/-- Release the slot if it is sounding and a condition on it holds; otherwise leave it alone (R212, R214). -/
def releaseIf (cond : Bool) (k : Slot) : Slot := if k.st.sounding && cond then releasedSlot k else k

/-- Release every sounding slot of a string (R212, R214). -/
def releaseString (str : BitVec 2) (slots : SlotMap Slot) : SlotMap Slot :=
  SlotMap.tabulate fun k => releaseIf ((slots.get k).str == str) (slots.get k)

/-- Release one slot, if it is sounding (R214). -/
def releaseSlot (j : SlotId) (slots : SlotMap Slot) : SlotMap Slot :=
  SlotMap.tabulate fun k => releaseIf (decide (k = j)) (slots.get k)

/-- `WahTrigger()`: the sweep restarts from its current value (R320). -/
def triggeredWah (s : State) : Wah :=
  { wst := .up
    m := s.wah.m
    m0 := s.wah.m
    i := 0
    u := u24Of (curInt s .wahUpLen)
    wk := u24Of (curInt s .wahK) }

/-- ATTACK step (R303). -/
def stepAttack (k : Slot) : Slot :=
  let i := k.i.toNat + 1
  let k' := { k with i := BitVec.ofNat 24 i, g := BitVec.ofNat 24 (k.ceil.toNat * i / k.a.toNat) }
  if i ≥ k.a.toNat then { k' with st := .decay, i := 0 } else k'

/-- DECAY step (R304). -/
def stepDecay (k : Slot) : Slot :=
  let i := k.i.toNat + 1
  let g := u24Int k.s + asr ((u24Int k.g - u24Int k.s) * u24Int k.dk) 24
  let k' := { k with i := BitVec.ofNat 24 i, g := u24Of g }
  if i ≥ k.d.toNat then { k' with st := .natural } else k'

/-- NATURAL step (R305). -/
def stepNatural (k : Slot) : Slot :=
  let g := asr (u24Int k.g * u24Int k.nk) 24
  let k' := { k with g := u24Of g }
  if g = 0 then { k' with st := .tail, i := 0 } else k'

/-- RELEASE step (R307). -/
def stepRelease (k : Slot) : Slot :=
  let i := k.i.toNat + 1
  let g := u24Int k.gf - ((k.gf.toNat * i / k.r.toNat : Nat) : Int)
  let k' := { k with i := BitVec.ofNat 24 i, g := u24Of g }
  if i ≥ k.r.toNat then { k' with st := .tail, i := 0 } else k'

/-- TAIL step (R308); the DONE bit and the interrupt are set by `modEnvelopes` where the slot becomes IDLE. -/
def stepTail (k : Slot) : Slot :=
  let i := k.i.toNat + 1
  let k' := { k with g := 0, i := BitVec.ofNat 24 i }
  if i ≥ k.m.toNat then { k' with st := .idle, i := 0 } else k'

/-- `EnvStep(k)`: one step of the slot's state (R301, R309). -/
def stepSlot (k : Slot) : Slot :=
  match k.st with
  | .idle => { k with g := 0 }
  | .attack => stepAttack k
  | .decay => stepDecay k
  | .natural => stepNatural k
  | .release => stepRelease k
  | .tail => stepTail k

/-- Whether the slot enters IDLE from TAIL at this step (R308, R309). -/
def finishes (k : Slot) : Bool :=
  match k.st with
  | .tail => (stepTail k).st == .idle
  | _ => false

/-- The DONE bits the steps of the slots set (R47, R308). -/
def doneBits (slots : SlotMap Slot) : BitVec 8 :=
  BitVec.ofBool (finishes slots.s7) ++ BitVec.ofBool (finishes slots.s6) ++ BitVec.ofBool (finishes slots.s5)
    ++ BitVec.ofBool (finishes slots.s4) ++ BitVec.ofBool (finishes slots.s3) ++ BitVec.ofBool (finishes slots.s2)
    ++ BitVec.ofBool (finishes slots.s1) ++ BitVec.ofBool (finishes slots.s0)

/-- Every slot is stepped once; a slot that becomes IDLE sets its DONE bit and VOICE_DONE (R301, R308). -/
def modEnvelopes (s : State) : State :=
  let d := doneBits s.slots
  { s with
    slots := SlotMap.tabulate fun k => stepSlot (s.slots.get k)
    done := s.done ||| d
    irqPend := if d = 0 then s.irqPend else s.irqPend ||| irqVoiceDone }

/-- `v[k]`, the enveloped voice of slot `k` (R310). -/
def voiceTerm (s : State) (k : SlotId) : Int := mulU23 (s.voiceIn.get k).toInt (u24Int (s.slots.get k).g)

/-- `VoiceAmp()`: EG_GAIN and EG_OUT (R310). -/
def voiceAmp (s : State) : State :=
  { s with
    egGain := SlotMap.tabulate fun k => (s.slots.get k).g
    egOut := sampleOf (sat24 ((SlotId.all.map (voiceTerm s)).sum)) }

/-- UP step of the sweep (R321). -/
def stepWahUp (w : Wah) : Wah :=
  let i := w.i.toNat + 1
  let w' := { w with i := BitVec.ofNat 24 i
                     m := u24Of (u24Int w.m0 + (8388608 - u24Int w.m0) * (i : Int) / u24Int w.u) }
  if i ≥ w.u.toNat then { w' with wst := .down } else w'

/-- DOWN step of the sweep (R322). -/
def stepWahDown (w : Wah) : Wah :=
  let m := asr (u24Int w.m * u24Int w.wk) 24
  let w' := { w with m := u24Of m }
  if m = 0 then { w' with wst := .idle } else w'

/-- `WahStep()` (R321, R322). -/
def stepWah (w : Wah) : Wah :=
  match w.wst with
  | .up => stepWahUp w
  | .down => stepWahDown w
  | .idle => { w with m := 0 }

/-- The sweep step of the modulation phase (R450 step 3). -/
def modWah (s : State) : State := { s with wah := stepWah s.wah }

end Sys2Proof.Machine
end

