-- ==== Sys2Proof/Machine/VoiceCommands.lean ====
section
/-! DEFINITION. The meanings of NOTE_ON and RELEASE (R212, R214). -/

namespace Sys2Proof.Machine

/-- The effect of a valid NOTE_ON on an IDLE slot: the string's sounding voices are released, then the slot is triggered,
then the sweep where the auto-wah stage is enabled (R212). -/
def startVoice (k : SlotId) (str : BitVec 2) (tech : Tech) (s : State) : State :=
  { s with
    slots := (releaseString str s.slots).set k (triggeredSlot s str tech)
    wah := if tgtInt s (.en .autowah) = 1 then triggeredWah s else s.wah }

/-- NOTE_ON: start a voice (R212; the order of the checks R165). -/
def execNoteOn (rsv : BitVec 16) (tech str slot : BitVec 4) (s : State) : Host.Outcome State Fault Refusal :=
  let h := headerOf (.noteOn rsv tech str slot)
  if rsv ≠ 0 then .next (cmdError .reserved h s)
  else
    match techOperand? tech, strOperand? str, slotOperand? slot with
    | some t, some n, some k =>
      if (s.slots.get k).st ≠ .idle then .next (cmdError .slotBusy h s) else .next (startVoice k n t s)
    | _, _, _ => .next (cmdError .badOperand h s)

/-- The slots after a RELEASE of a target (R214). -/
def releaseTarget (t : ReleaseTarget) (slots : SlotMap Slot) : SlotMap Slot :=
  match t with
  | .string str => releaseString str slots
  | .slot k => releaseSlot k slots

/-- RELEASE: release a voice early (R214). -/
def execRelease (rsvHi : BitVec 19) (bySlot : BitVec 1) (rsvLo tgt : BitVec 4) (s : State) :
    Host.Outcome State Fault Refusal :=
  let h := headerOf (.release rsvHi bySlot rsvLo tgt)
  if rsvHi ≠ 0 ∨ rsvLo ≠ 0 then .next (cmdError .reserved h s)
  else
    match releaseOperand? bySlot tgt with
    | none => .next (cmdError .badOperand h s)
    | some t => .next { s with slots := releaseTarget t s.slots }

end Sys2Proof.Machine
end

