-- ==== Sys2Proof/Machine/Dispatch.lean ====
section
/-! DEFINITION. The dispatch of a command to its meaning (R205): the command's words have been consumed. -/

namespace Sys2Proof.Machine

def exec (i : Instr) (s : State) : Host.Outcome State Fault Refusal :=
  match i with
  | .nop rsv => Sys2Proof.Machine.execNop rsv s
  | .setp rsv pid value => Sys2Proof.Machine.execSetp rsv pid value s
  | .noteOn rsv tech str slot => Sys2Proof.Machine.execNoteOn rsv tech str slot s
  | .release rsvHi bySlot rsvLo tgt => Sys2Proof.Machine.execRelease rsvHi bySlot rsvLo tgt s
  | .swap rsv mask => Sys2Proof.Machine.execSwap rsv mask s
  | .wait rsv count => Sys2Proof.Machine.execWait rsv count s
  | .sync rsv lmask => Sys2Proof.Machine.execSync rsv lmask s
  | .illegal7 rest => Sys2Proof.Machine.execIllegal7 rest s
  | .illegalHi rest => Sys2Proof.Machine.execIllegalHi rest s

end Sys2Proof.Machine
end

