-- ==== Sys2Proof/Machine/Tick.lean ====
section
/-! DEFINITION. The tick (R450): command phase (R204), smoothing phase (R270), modulation phase, data phase and tick count.
-/

namespace Sys2Proof.Machine

/-- Fetch the command at the head of the FIFO and remove its words (R160, R202, R204). -/
def fetch (s : State) : Except DecodeError (Instr × State) :=
  match decode s.fifo with
  | .ok (i, rest) => .ok (i, { s with fifo := rest })
  | .error e => .error e

/-- At most `n` more commands of this tick: the phase ends at an empty FIFO, at a SETP header without its payload, and after
a command that leaves the wait counter nonzero (R202, R204). -/
def runCommands : Nat → State → Host.Outcome State Fault Refusal
  | 0, s => .next s
  | n + 1, s =>
    match fetch s with
    | .error _ => .next s
    | .ok (i, s') =>
      match exec i s' with
      | .next s'' => if s''.wait ≠ 0 then .next s'' else runCommands n s''
      | .fault r => .fault r
      | .refused r => .refused r

/-- `CommandPhase()` (R204): while the wait counter is above 1 it only counts down. -/
def commandPhase (s : State) : Host.Outcome State Fault Refusal :=
  if s.wait.toNat > 1 then .next { s with wait := s.wait - 1 }
  else runCommands Config.CMD_BURST { s with wait := 0 }

/-- The effective target of a parameter: WET and DRY of a disabled stage tend to 0 and 2^23 (R56). -/
def effTarget (s : State) (p : FileParam) : Int :=
  match p with
  | .wet g => if tgtInt s (.en g) = 1 then tgtInt s (.wet g) else 0
  | .dry g => if tgtInt s (.en g) = 1 then tgtInt s (.dry g) else 8388608
  | p => tgtInt s p

/-- A parameter's current word after the smoothing phase: class S moves one step, class I keeps its value (R270, R271). -/
def smoothedWord (s : State) (p : FileParam) : Word :=
  match p.cls with
  | .S => paramWord (smoothStep (curInt s p) (effTarget s p) (curInt s .smoothK))
  | .I => s.cur.get p

/-- `SmoothPhase()`: every parameter from the values at the start of the phase (R270). -/
def smoothPhase (s : State) : State := { s with cur := ParamFile.tabulate (smoothedWord s) }

/-- `ModPhase()`: envelopes, voice amplifier, sweep, oscillators (R450 step 3). -/
def modPhase (s : State) : State := modLfos (modWah (voiceAmp (modEnvelopes s)))

/-- SAMPLE_CNT <- (SAMPLE_CNT + 1) mod 2^32 (R37, R450 step 5). -/
def countTick (s : State) : State := { s with sampleCnt := s.sampleCnt + 1 }

/-- The tick after its command phase: steps 2 to 5 of R450. -/
def finishTick (s : State) : State := countTick (dataPhase (modPhase (smoothPhase s)))

/-- `Tick()` (R450). -/
def runTick (s : State) : Host.Outcome State Fault Refusal :=
  match commandPhase s with
  | .next s' => .next (finishTick s')
  | .fault r => .fault r
  | .refused r => .refused r

/-- A TICK strobe: ignored while RST is asserted and while CTRL.RUN = 0, one tick otherwise (R71, R73, R541). -/
def tickStrobe (s : State) : Host.Outcome State Fault Refusal := if s.rst || !s.run then .next s else runTick s

end Sys2Proof.Machine
end

