-- ==== Sys2Proof/Machine/World.lean ====
section
/-! DEFINITION. One event of the outside world, handled wholly between two others (R5, R128, R131), and what happens when no
event is listed: the rendering clock strobes TICK (log 1). -/

namespace Sys2Proof.Machine

/-- Handle one event (R5, R71). -/
def handleEvent (e : EnvEvent) (s : State) : Host.Outcome State Fault Refusal :=
  match e with
  | .tick => tickStrobe s
  | .busWrite word data => .next (busWrite word data s)
  | .busRead word => .next (busRead word s)
  | .driveVoice k v => .next (driveVoice k v s)
  | .driveChain v => .next (driveChain v s)
  | .driveRst level => .next (driveRst level s)
  | .tickOverrun => .refused .tickOverrun

/-- The next event and the state without it; with none listed, a TICK strobe (log 1). -/
def nextEvent (s : State) : EnvEvent × State :=
  match s.env with
  | [] => (.tick, s)
  | e :: es => (e, { s with env := es })

/-- Handle the next event. -/
def worldStep (s : State) : Host.Outcome State Fault Refusal := handleEvent (nextEvent s).1 (nextEvent s).2

/-- The state in which the next event is a TICK that executes exactly the given FIFO words: the words are all the FIFO
holds, no wait is pending, RUN is 1 and RST is released (log 9). -/
def readyToExecute (words : List Word) (s : State) : State :=
  { s with fifo := words, wait := 0, run := true, rst := false, env := .tick :: s.env }

end Sys2Proof.Machine
end

