-- ==== Sys2Proof/Machine/Step.lean ====
section
/-! DEFINITION. One step of the machine: the next event of the outside world (R5; log 1), and the placing of an instruction
where the next step fetches it (log 9). -/

namespace Sys2Proof.Machine

/-- One step: the next event is handled (R5). -/
def step (s : State) : Host.Outcome State Fault Refusal := worldStep s

/-- The state whose very next step executes exactly the instruction whose bits are `w` (log 9, log 14). -/
def State.withFetchWord (s : State) (nbits w : Nat) : State := readyToExecute (wordsOfTable nbits w) s

end Sys2Proof.Machine
end

