-- ==== Sys2Proof/Machine/Asm.lean ====
section
/-! DEFINITION. The spec's assembler names, pseudo-commands and host-access notation (R167, R168, R169), as functions that
give the commands and events they stand for. -/

namespace Sys2Proof.Machine

/-- `NOP` (R167). -/
def asmNop : Instr := .nop 0

/-- `SETP <param>, <value>` (R167). -/
def asmSetp (p : Param) (v : Int) : Instr := .setp 0 p.id (paramWord v)

/-- `NOTE_ON <slot>, <string>, <tech>` (R167). -/
def asmNoteOn (slot : SlotId) (str : BitVec 2) (tech : Tech) : Instr :=
  .noteOn 0 (BitVec.ofNat 4 tech.num) (str.zeroExtend 4) (BitVec.ofNat 4 slot.num)

/-- `RELEASE.S <string>` (R167). -/
def asmReleaseS (str : BitVec 2) : Instr := .release 0 0 0 (str.zeroExtend 4)

/-- `RELEASE.V <slot>` (R167). -/
def asmReleaseV (slot : SlotId) : Instr := .release 0 1 0 (BitVec.ofNat 4 slot.num)

/-- `SWAP` of a set of banks, FUZZ 1, OD 2, PRE 4, TAPE 8, IR 16 (R167). -/
def asmSwap (mask : BitVec 5) : Instr := .swap 0 mask

/-- `WAIT <n>` (R167). -/
def asmWait (n : U24) : Instr := .wait 0 n

/-- `SYNC` of a set of oscillators, LFO0 1, LFO1 2, LFO2 4 (R167). -/
def asmSync (lmask : BitVec 3) : Instr := .sync 0 lmask

/-- `ENABLE <stage>` (R168). -/
def pseudoEnable (s : Stage) : List Instr := [asmSetp (.file (.en s)) 1]

/-- `DISABLE <stage>` (R168). -/
def pseudoDisable (s : Stage) : List Instr := [asmSetp (.file (.en s)) 0]

/-- `MIX <stage>, <wet>, <dry>` (R168). -/
def pseudoMix (s : Stage) (wet dry : Int) : List Instr :=
  [asmSetp (.file (.wet s)) wet, asmSetp (.file (.dry s)) dry]

/-- Five SETPs in the order B0, B1, B2, A1, A2 (R168). -/
def pseudoCoefs (p : Coef → FileParam) (v : CoefMap Int) : List Instr :=
  Coef.all.map fun c => asmSetp (.file (p c)) (v.get c)

/-- `BQ <section>, <b0>, <b1>, <b2>, <a1>, <a2>` (R168). -/
def pseudoBQ (q : Sect) (v : CoefMap Int) : List Instr := pseudoCoefs (.bq q) v

/-- `IDENT <section>` (R168). -/
def pseudoIdent (q : Sect) : List Instr := pseudoBQ q ⟨0x10000000, 0, 0, 0, 0⟩

/-- `MBQ.LO <r>, …` (R168). -/
def pseudoMbqLo (r : MSect) (v : CoefMap Int) : List Instr := pseudoCoefs (.lo r) v

/-- `MBQ.HI <r>, …` (R168). -/
def pseudoMbqHi (r : MSect) (v : CoefMap Int) : List Instr := pseudoCoefs (.hi r) v

/-- `W <offset>, <value>` (R169). -/
def hostW (offset : Nat) (v : Word) : EnvEvent := .busWrite (BitVec.ofNat 6 (offset / 4)) v

/-- `R <offset>` (R169). -/
def hostR (offset : Nat) : EnvEvent := .busRead (BitVec.ofNat 6 (offset / 4))

/-- `CMD <word>` is `W 0x14, <word>` (R169). -/
def hostCmd (v : Word) : EnvEvent := hostW 0x14 v

/-- `TICK <n>` (R169). -/
def hostTick (n : Nat) : List EnvEvent := List.replicate n .tick

/-- The pushes that put a list of commands into the FIFO (R169). -/
def hostPush (is : List Instr) : List EnvEvent := (is.flatMap encode).map hostCmd

end Sys2Proof.Machine
end

