-- ==== Sys2Proof/Safety.lean ====
section
/-! DEFINITION. What the statements speak in: frames (which memories and which state a command leaves alone), the invariants
of the machine (the ranges the spec gives its state, R52 to R55, R60, R62, R63, R67, R68, R312, R313, R468, R540), and what
counts as a safe step. -/

namespace Sys2Proof.Machine

/-- Every entry of every memory reads the same in both states: the tables (both banks), the delay buffers and the
convolution histories. -/
def sameMemory (s t : State) : Prop :=
  (∀ tbl b i, tableRead t tbl b i = tableRead s tbl b i) ∧
  (∀ ch l a, ramRead ((t.chans.get ch).buf.get l) a = ramRead ((s.chans.get ch).buf.get l) a) ∧
  (∀ ch a, ramRead (t.chans.get ch).hist a = ramRead (s.chans.get ch).hist a)

/-- A safe step: it gives a next state. -/
def stepsSafely (s : State) : Prop := ∃ t, step s = .next t

/-- Every stored parameter's target and current value are in the legal range (R50, R54 to R59, R74 to R76). -/
def paramsInRange (s : State) : Prop :=
  ∀ p : FileParam, p.low ≤ tgtInt s p ∧ tgtInt s p ≤ p.high ∧ p.low ≤ curInt s p ∧ curInt s p ≤ p.high

/-- A parameter of class I has its target as its current value (R53). -/
def immediateSettled (s : State) : Prop := ∀ p : FileParam, p.cls = .I → s.cur.get p = s.tgt.get p

/-- The impulse lengths are at most IR_MAX_LEN (R68). -/
def irLenInRange (s : State) : Prop := s.irLen0.toNat ≤ Config.IR_MAX_LEN ∧ s.irLen1.toNat ≤ Config.IR_MAX_LEN

/-- The FIFO holds at most CMD_FIFO_DEPTH words (R60). -/
def fifoInRange (s : State) : Prop := s.fifo.length ≤ Config.CMD_FIFO_DEPTH

/-- Every write pointer is an index of its line's buffers (R67). -/
def pointersInRange (s : State) : Prop := ∀ l : Line, s.wp.get l < l.len

/-- Every memory is in its canonical form. -/
def memoryCanonical (s : State) : Prop := Memory.wf s = true

/-- The bounds of a slot's envelope (R62, R312): sustain, gain and frozen gain never exceed the ceiling, the ceiling is at
most 2^23, a DECAY gain is at least the sustain level, an IDLE or TAIL gain is 0, and the counter of a voice is below the
length it counts to. -/
def slotInRange (k : Slot) : Prop :=
  k.ceil.toNat ≤ 8388608 ∧ k.s.toNat ≤ k.ceil.toNat ∧ k.g.toNat ≤ k.ceil.toNat ∧ k.gf.toNat ≤ k.ceil.toNat ∧
  (k.st ≠ .idle → 1 ≤ k.a.toNat ∧ 1 ≤ k.d.toNat ∧ 1 ≤ k.r.toNat ∧ 1 ≤ k.m.toNat) ∧
  (k.st = .attack → k.i.toNat < k.a.toNat) ∧
  (k.st = .decay → k.s.toNat ≤ k.g.toNat ∧ k.i.toNat < k.d.toNat) ∧
  (k.st = .release → k.i.toNat < k.r.toNat) ∧
  (k.st = .tail → k.g = 0 ∧ k.i.toNat < k.m.toNat) ∧
  (k.st = .idle → k.g = 0)

/-- Every slot is within its bounds (R312). -/
def slotsInRange (s : State) : Prop := ∀ k : SlotId, slotInRange (s.slots.get k)

/-- The bounds of the sweep (R63, R320 to R322). -/
def wahInRange (s : State) : Prop :=
  s.wah.m.toNat ≤ 8388608 ∧ s.wah.m0.toNat ≤ 8388608 ∧
  (s.wah.wst = .up → s.wah.i.toNat < s.wah.u.toNat) ∧ (s.wah.wst = .idle → s.wah.m = 0)

/-- At most one slot of a string is in ATTACK, DECAY or NATURAL (R313). -/
def oneVoicePerString (s : State) : Prop :=
  ∀ j k : SlotId, (s.slots.get j).st.sounding = true → (s.slots.get k).st.sounding = true →
    (s.slots.get j).str = (s.slots.get k).str → j = k

/-- The plain sections evaluated before the reverb (R360, R468). -/
def beforeReverb : Sect → Bool
  | .fuzzTone | .odBass | .odTreble | .odTone | .delayDamp => true
  | .eqLow | .eqMid1 | .eqMid2 | .eqHigh | .eqPres | .preBass | .preMid | .preTreble | .prePres | .tapeDamp
  | .ampContour | .ampBass | .ampMid | .ampTreble | .ampPres | .ampCab => false

/-- The two channels agree in every state element of the stages before REVERB, and in the reverb's input line and history
(R468). -/
def channelsAgree (s : State) : Prop :=
  (∀ q, beforeReverb q = true → s.chans.left.sec.get q = s.chans.right.sec.get q) ∧
  s.chans.left.msec = s.chans.right.msec ∧ s.chans.left.phfb = s.chans.right.phfb ∧
  (∀ l, l ≠ .tape → s.chans.left.buf.get l = s.chans.right.buf.get l) ∧ s.chans.left.hist = s.chans.right.hist

/-- Every state element of R540 is at the value it has in `State.reset`; the table RAM, the input ports, the level of RST, the
read data and the model's own fields, which no reset writes, may have any value (R540, R542; log 6). -/
def atReset (s : State) : Prop :=
  { s with
    tables := [], voiceIn := State.reset.voiceIn, chainIn := 0, rst := false, rdata := 0, draws := 0, env := [] } = State.reset

/-- While RST is asserted every state element of R540 is at its reset value. -/
def resetHeld (s : State) : Prop := s.rst = true → atReset s

/-- The ranges that every step keeps together: parameters, slots and sweep. -/
def datapathInRange (s : State) : Prop := paramsInRange s ∧ slotsInRange s ∧ wahInRange s

/-- Execute commands in order, each in the state the one before it leaves (R200). -/
def execAll : List Instr → State → Host.Outcome State Fault Refusal
  | [], s => .next s
  | i :: is, s =>
    match exec i s with
    | .next s' => execAll is s'
    | .fault r => .fault r
    | .refused r => .refused r

/-- The state with an error of the command with header `h` recorded and nothing else changed (R501). -/
def withCommandError (code : ErrCode) (h : Word) (s : State) : State :=
  { s with errCode := code, errInfo := h, irqPend := s.irqPend ||| 0b00001#5 }

/-- The state with a table error at TBL_ADDR = `a` recorded and nothing else changed (R503). -/
def withTableError (code : ErrCode) (a : Word) (s : State) : State :=
  { s with errCode := code, errInfo := a, irqPend := s.irqPend ||| 0b01000#5 }

/-- The opcode is 0x7 to 0xF (R164). -/
def opcodeIllegal : Instr → Prop
  | .illegal7 _ | .illegalHi _ => True
  | .nop _ | .setp _ _ _ | .noteOn _ _ _ _ | .release _ _ _ _ | .swap _ _ | .wait _ _ | .sync _ _ => False

/-- A SETP whose PID is no parameter's id (R51, R164). -/
def paramInvalid : Instr → Prop
  | .setp _ pid _ => ∀ p : Param, p.id ≠ pid
  | .illegal7 _ | .illegalHi _ | .nop _ | .noteOn _ _ _ _ | .release _ _ _ _ | .swap _ _ | .wait _ _ | .sync _ _ => False

/-- A NOTE_ON or RELEASE with an operand out of range (R162, R164). -/
def operandInvalid : Instr → Prop
  | .noteOn _ tech str slot => tech.toNat > 4 ∨ str.toNat > 3 ∨ slot.toNat > 7
  | .release _ bySlot _ tgt => (bySlot = 0 ∧ tgt.toNat > 3) ∨ (bySlot = 1 ∧ tgt.toNat > 7)
  | .illegal7 _ | .illegalHi _ | .nop _ | .setp _ _ _ | .swap _ _ | .wait _ _ | .sync _ _ => False

/-- A NOTE_ON that names a slot that is not IDLE (R164). -/
def slotBusy (s : State) : Instr → Prop
  | .noteOn _ _ _ slot => ∃ k : SlotId, k.num = slot.toNat ∧ (s.slots.get k).st ≠ .idle
  | .illegal7 _ | .illegalHi _ | .nop _ | .setp _ _ _ | .release _ _ _ _ | .swap _ _ | .wait _ _ | .sync _ _ => False

/-- The slot's voice is in ATTACK, DECAY or NATURAL (R306). -/
def mayRelease (k : Slot) : Prop := k.st = .attack ∨ k.st = .decay ∨ k.st = .natural

/-- The slot after `Release` (R306): the gain frozen, the counter cleared, nothing else changed. -/
def frozen (k : Slot) : Slot := { k with gf := k.g, i := 0, st := .release }

/-- The event resets every state element of R540: a level of RST, or a write of CTRL with bit 31 = 1. -/
def resetEvent : EnvEvent → Prop
  | .driveRst _ => True
  | .busWrite word v => word = 1#6 ∧ v.getLsbD 31 = true
  | .tick | .busRead _ | .driveVoice _ _ | .driveChain _ | .tickOverrun => False

/-- Entry `i` of the active bank of a curve (R391). -/
def curveEntry (s : State) (t : Curve) (i : Nat) : Int := (tableRead s (.curve t) (s.bank.getLsbD t.num) i).toInt

/-! ### The equations of the datapath

Each says of samples what one formula of the spec says of integers. The stage equations read off a channel `d` after the data
phase the signals that the sections recorded as their last input and output (R361) and that the lines stored at their pointers
(R412); `c` is the same channel before the data phase. -/

/-- `y` is `Gain(x, P.cur[p])` (R263). -/
def isGain (s : State) (p : FileParam) (x y : Sample) : Prop := y.toInt = sat24 (rnd (x.toInt * curInt s p) 24)

/-- `y` is `Mix(g, x, w)` (R275). -/
def isMix (s : State) (g : Stage) (x w y : Sample) : Prop :=
  y.toInt = sat24 (rnd (curInt s (.dry g) * x.toInt + curInt s (.wet g) * w.toInt) 23)

/-- `y` is `FbSum(x, v, P.cur[p])` (R276). -/
def isFbSum (s : State) (p : FileParam) (x v y : Sample) : Prop :=
  y.toInt = sat24 (x.toInt + rnd (curInt s p * v.toInt) 23)

/-- One evaluation of a section with the coefficients `f`, the state `st`, the input `x` and the output `y` leaves the state
`st'` (R361, R371). -/
def sectionStep (f : Coef → Int) (st : Biquad) (x y : Sample) (st' : Biquad) : Prop :=
  y.toInt =
    sat24 (rnd (f .b0 * x.toInt + f .b1 * st.x1.toInt + f .b2 * st.x2.toInt - f .a1 * st.y1.toInt - f .a2 * st.y2.toInt) 28) ∧
  st' = { x1 := x, x2 := st.x1, y1 := y, y2 := st.y1 }

/-- The coefficient of a modulated section at modulation `m` (R371). -/
def interpolated (s : State) (r : MSect) (m : U24) (f : Coef) : Int :=
  curInt s (.lo r f) + rnd ((curInt s (.hi r f) - curInt s (.lo r f)) * u24Int m) 23

/-- The modulation value of a modulated section: the sweep for WAH, m_ph for the phaser's four (R370). -/
def sectionMod (s : State) : MSect → U24
  | .wah => s.wah.m
  | .ph1 | .ph2 | .ph3 | .ph4 => s.mPh

/-- The value a line holds at its write pointer (R412). -/
def writtenTo (s : State) (d : ChanState) (l : Line) : Sample := ramRead (d.buf.get l) (s.wp.get l)

/-- AUTOWAH (R454). -/
def autowahEquations (s : State) (d : ChanState) (x y : Sample) : Prop :=
  (d.msec.get .wah).x1 = x ∧ isMix s .autowah x (d.msec.get .wah).y1 y

/-- FUZZ: input gain, curve, tone (R455). -/
def fuzzEquations (s : State) (d : ChanState) (x y : Sample) : Prop :=
  (∃ a, isGain s .fuzzIn x a ∧ (d.sec.get .fuzzTone).x1 = evalCurve s .fuzz a) ∧
  isMix s .fuzz x (d.sec.get .fuzzTone).y1 y

/-- OD: curve, bass, treble, tone, level (R456). -/
def odEquations (s : State) (d : ChanState) (x y : Sample) : Prop :=
  (d.sec.get .odBass).x1 = evalCurve s .od x ∧ (d.sec.get .odTreble).x1 = (d.sec.get .odBass).y1 ∧
  (d.sec.get .odTone).x1 = (d.sec.get .odTreble).y1 ∧
  ∃ w, isGain s .odLevel (d.sec.get .odTone).y1 w ∧ isMix s .od x w y

/-- CHORUS: the tap is the wet signal and is fed back into the line (R457). -/
def chorusEquations (s : State) (c d : ChanState) (x y : Sample) : Prop :=
  isFbSum s (.fb .chorus) x (delayTap s .chorus c) (writtenTo s d .chorus) ∧ isMix s .chorus x (delayTap s .chorus c) y

/-- PHASER: four sections in cascade, whose output is fed back one tick later through phfb (R66, R458). -/
def phaserEquations (s : State) (c d : ChanState) (x y : Sample) : Prop :=
  isFbSum s .phFb x c.phfb (d.msec.get .ph1).x1 ∧ (d.msec.get .ph2).x1 = (d.msec.get .ph1).y1 ∧
  (d.msec.get .ph3).x1 = (d.msec.get .ph2).y1 ∧ (d.msec.get .ph4).x1 = (d.msec.get .ph3).y1 ∧
  d.phfb = (d.msec.get .ph4).y1 ∧ isMix s .phaser x (d.msec.get .ph4).y1 y

/-- DELAY: the undamped tap is the wet signal, the damped one is fed back (R459). -/
def delayEquations (s : State) (c d : ChanState) (x y : Sample) : Prop :=
  (d.sec.get .delayDamp).x1 = delayTap s .delay c ∧
  isFbSum s (.fb .delay) x (d.sec.get .delayDamp).y1 (writtenTo s d .delay) ∧ isMix s .delay x (delayTap s .delay c) y

/-- REVERB: the pre-delay, which stores the input itself, then the convolution over the history with the tap in front, by the
channel's impulse in the active bank (R460, R430). -/
def reverbEquations (s : State) (ch : Chan) (c d : ChanState) (x y : Sample) : Prop :=
  writtenTo s d .revpre = x ∧ ramRead d.hist 0 = delayTap s .revpre c ∧
  ∃ w : Sample,
    w.toInt =
      sat24 (rnd (∑ k ∈ Finset.range (irLenOf s (s.bank.getLsbD 4)).toNat,
        (tableRead s (match ch with | .left => .irL | .right => .irR) (s.bank.getLsbD 4) k).toInt * (ramRead d.hist k).toInt)
        (23 + (curInt s .irShift).toNat)) ∧
    isMix s .reverb x w y

/-- EQ5: five sections in cascade (R461). -/
def eq5Equations (s : State) (d : ChanState) (x y : Sample) : Prop :=
  (d.sec.get .eqLow).x1 = x ∧ (d.sec.get .eqMid1).x1 = (d.sec.get .eqLow).y1 ∧
  (d.sec.get .eqMid2).x1 = (d.sec.get .eqMid1).y1 ∧ (d.sec.get .eqHigh).x1 = (d.sec.get .eqMid2).y1 ∧
  (d.sec.get .eqPres).x1 = (d.sec.get .eqHigh).y1 ∧ isMix s .eq5 x (d.sec.get .eqPres).y1 y

/-- PREAMP: drive, curve, four sections in cascade (R462). -/
def preampEquations (s : State) (d : ChanState) (x y : Sample) : Prop :=
  (∃ a, isGain s .preDrive x a ∧ (d.sec.get .preBass).x1 = evalCurve s .pre a) ∧
  (d.sec.get .preMid).x1 = (d.sec.get .preBass).y1 ∧ (d.sec.get .preTreble).x1 = (d.sec.get .preMid).y1 ∧
  (d.sec.get .prePres).x1 = (d.sec.get .preTreble).y1 ∧ isMix s .preamp x (d.sec.get .prePres).y1 y

/-- TAPE: the tap is the wet signal, its saturated and damped form is fed back (R463). -/
def tapeEquations (s : State) (c d : ChanState) (x y : Sample) : Prop :=
  (d.sec.get .tapeDamp).x1 = evalCurve s .tape (delayTap s .tape c) ∧
  isFbSum s (.fb .tape) x (d.sec.get .tapeDamp).y1 (writtenTo s d .tape) ∧ isMix s .tape x (delayTap s .tape c) y

/-- AMP: input gain, six sections in cascade, output gain; no mix (R464). -/
def ampEquations (s : State) (d : ChanState) (x y : Sample) : Prop :=
  isGain s .ampIn x (d.sec.get .ampContour).x1 ∧ (d.sec.get .ampBass).x1 = (d.sec.get .ampContour).y1 ∧
  (d.sec.get .ampMid).x1 = (d.sec.get .ampBass).y1 ∧ (d.sec.get .ampTreble).x1 = (d.sec.get .ampMid).y1 ∧
  (d.sec.get .ampPres).x1 = (d.sec.get .ampTreble).y1 ∧ (d.sec.get .ampCab).x1 = (d.sec.get .ampPres).y1 ∧
  isGain s .ampMaster (d.sec.get .ampCab).y1 y

/-- The stage's mix has converged to fully dry (R453). -/
def stageDry (s : State) (g : Stage) : Prop := curInt s (.dry g) = 8388608 ∧ curInt s (.wet g) = 0

/-- The current coefficients of a plain section are the identity's (R363). -/
def sectionIdentity (s : State) (q : Sect) : Prop :=
  curInt s (.bq q .b0) = 268435456 ∧ curInt s (.bq q .b1) = 0 ∧ curInt s (.bq q .b2) = 0 ∧
  curInt s (.bq q .a1) = 0 ∧ curInt s (.bq q .a2) = 0

/-- Both sets of a modulated section have the all-pass structure (R372). -/
def allPassSets (s : State) (r : MSect) : Prop :=
  curInt s (.lo r .b0) = curInt s (.lo r .a2) ∧ curInt s (.lo r .b1) = curInt s (.lo r .a1) ∧
  curInt s (.lo r .b2) = 268435456 ∧ curInt s (.hi r .b0) = curInt s (.hi r .a2) ∧
  curInt s (.hi r .b1) = curInt s (.hi r .a1) ∧ curInt s (.hi r .b2) = 268435456

end Sys2Proof.Machine
end

