-- ==== Sys2Proof/Certificates/Slice0/Obligations.lean ====
section
/-! DEFINITION. The statements for the provers. Each docstring names the rule of spec/ the statement formalises; the frames
say what a command leaves unchanged: the record update on the left undoes exactly the listed fields, and `sameMemory` says
that every entry of every memory reads as before. -/

open Sys2Proof Sys2Proof.Machine

/-! ### Encoding -/

/-- R160, R161, R162: the words of every command, whatever its fields, are read back as that command, and the words after
them are left over; and a command read from words has exactly those words. -/
def Obligations.DecodeAndEncodeAgree : Prop :=
  (∀ (i : Instr) (rest : List Word), decode (encode i ++ rest) = .ok (i, rest)) ∧
  (∀ (words rest : List Word) (i : Instr), decode words = .ok (i, rest) → encode i ++ rest = words)

/-- R169: the encoding examples, and one word for each remaining opcode from the formats of R161. -/
def Obligations.SampleWordsDecode : Prop :=
  decode [0x20000000#32] = .ok (.noteOn 0 0 0 0, []) ∧
  decode [0x20000121#32] = .ok (.noteOn 0 1 2 1, []) ∧
  decode [0x10000251#32, 0x00266666#32] = .ok (.setp 0 0x251 0x00266666, []) ∧
  decode [0x30000003#32] = .ok (.release 0 0 0 3, []) ∧
  decode [0x30000105#32] = .ok (.release 0 1 0 5, []) ∧
  decode [0x40000011#32] = .ok (.swap 0 0x11, []) ∧
  decode [0x500001E0#32] = .ok (.wait 0 480, []) ∧
  decode [0x60000005#32] = .ok (.sync 0 5, []) ∧
  decode [0x00000000#32] = .ok (.nop 0, []) ∧
  decode [0x7ABCDEF0#32] = .ok (.illegal7 0xABCDEF0, []) ∧
  decode [0xF0000000#32] = .ok (.illegalHi 0x70000000, [])

/-- R163: a header selects the row of the opcode map whose match value it has under the row's mask of fixed bits; a SETP
header takes the next word as its payload; opcodes 0x7 to 0xF select no command. -/
def Obligations.OpcodeMapSelects : Prop :=
  ∀ (h v : Word) (rest : List Word),
    (h &&& 0xFFFFFFFF#32 = 0x00000000#32 ↔ decode (h :: rest) = .ok (.nop 0, rest)) ∧
    (h &&& 0xFFFFF000#32 = 0x10000000#32 ↔ ∃ pid, decode (h :: v :: rest) = .ok (.setp 0 pid v, rest)) ∧
    (h &&& 0xFFFFF000#32 = 0x20000000#32 ↔ ∃ t n k, decode (h :: rest) = .ok (.noteOn 0 t n k, rest)) ∧
    (h &&& 0xFFFFFEF0#32 = 0x30000000#32 ↔ ∃ b t, decode (h :: rest) = .ok (.release 0 b 0 t, rest)) ∧
    (h &&& 0xFFFFFFE0#32 = 0x40000000#32 ↔ ∃ m, decode (h :: rest) = .ok (.swap 0 m, rest)) ∧
    (h &&& 0xFF000000#32 = 0x50000000#32 ↔ ∃ c, decode (h :: rest) = .ok (.wait 0 c, rest)) ∧
    (h &&& 0xFFFFFFF8#32 = 0x60000000#32 ↔ ∃ m, decode (h :: rest) = .ok (.sync 0 m, rest)) ∧
    (7 ≤ (opcodeOf h).toNat ↔ ∃ i, opcodeIllegal i ∧ decode (h :: rest) = .ok (i, rest))

/-! ### The command engine -/

/-- R204, R450: a tick in which a command can start runs the decoded command on the state without its words and with the
wait counter at 0; unless that leaves the counter nonzero, up to fifteen more commands follow; then the rest of the tick. -/
def Obligations.StepRunsDecodedCommand : Prop :=
  ∀ (s s' : State) (i : Instr) (rest : List Word),
    nextEvent s = (.tick, s') → s'.run = true → s'.rst = false → s'.wait.toNat ≤ 1 → decode s'.fifo = .ok (i, rest) →
    step s =
      match exec i { s' with fifo := rest, wait := 0 } with
      | .next u =>
        (match (if u.wait = 0 then runCommands 15 u else .next u) with
        | .next v => .next (finishTick v)
        | .fault r => .fault r
        | .refused r => .refused r)
      | .fault r => .fault r
      | .refused r => .refused r

/-- The instruction placed by `withFetchWord` is the one and only command the very next step executes (log 9). -/
def Obligations.PlacedInstructionRuns : Prop :=
  ∀ (s : State) (nbits w : Nat) (i : Instr), decodeTableWord nbits w = some i →
    step (s.withFetchWord nbits w) =
      match exec i { s with fifo := [], wait := 0, run := true, rst := false } with
      | .next u => .next (finishTick u)
      | .fault r => .fault r
      | .refused r => .refused r

/-- R200, R204: a command phase that is not waiting executes the commands at the head of the FIFO in the order they were
pushed, none skipped and at most sixteen, each with the wait counter at 0; it stops early only where the counter becomes
nonzero, at an empty FIFO or at a SETP header without its payload. -/
def Obligations.CommandsRunInOrder : Prop :=
  ∀ (s : State), s.wait.toNat ≤ 1 →
    ∃ (t u : State) (is : List Instr),
      commandPhase s = .next t ∧ is.length ≤ 16 ∧ s.fifo = is.flatMap encode ++ t.fifo ∧
      execAll is { s with wait := 0 } = .next u ∧ t = { u with fifo := t.fifo } ∧
      (∀ (js ks : List Instr) (v : State), is = js ++ ks → ks ≠ [] → execAll js { s with wait := 0 } = .next v →
        v.wait = 0) ∧
      (is.length = 16 ∨ t.wait ≠ 0 ∨ t.fifo = [] ∨ cmdPayload t = true)

/-- R202: a SETP header alone in the FIFO ends the command phase without executing and without error, CMD_PAYLOAD reading 1;
once the payload is there the SETP executes. -/
def Obligations.SetpWaitsForPayload : Prop :=
  ∀ (s : State) (h v : Word), s.fifo = [h] → opcodeOf h = 0x1#4 → s.wait.toNat ≤ 1 →
    cmdPayload s = true ∧ commandPhase s = .next { s with wait := 0 } ∧
    commandPhase { s with fifo := [h, v] } = exec (decodeSetp h v) { s with fifo := [], wait := 0 }

/-- R204, R215: while the wait counter is above 1 the ticks only count it down: after n further ticks, n below the counter,
no word has left the FIFO and the counter is n lower. That a step with an empty event list is a TICK strobe, which makes n
steps of the core n ticks, is the model's choice (log 1). -/
def Obligations.WaitHoldsCommands : Prop :=
  ∀ (n : Nat) (s : State), s.env = [] → s.run = true → s.rst = false → n < s.wait.toNat →
    ∃ t : State, Sys2Proof.core.run n s = .next t ∧ t.fifo = s.fifo ∧ t.wait.toNat = s.wait.toNat - n ∧ t.env = []

/-- R201: a push appends the word while the FIFO holds fewer than 256, and is otherwise lost and sets FIFO_OVF; nothing else
changes in either case. -/
def Obligations.PushAppendsWord : Prop :=
  ∀ (s : State) (v : Word), s.rst = false →
    (s.fifo.length < 256 → handleEvent (hostCmd v) s = .next { s with fifo := s.fifo ++ [v] }) ∧
    (256 ≤ s.fifo.length → handleEvent (hostCmd v) s = .next { s with irqPend := s.irqPend ||| 0b00010#5 })

/-- R203: a CTRL write with bit 2 = 1 and bit 31 = 0 empties the FIFO and clears the wait counter; beside CTRL's own bits
nothing else changes. -/
def Obligations.FlushEmptiesFifo : Prop :=
  ∀ (s : State) (v : Word), s.rst = false → v.getLsbD 2 = true → v.getLsbD 31 = false →
    handleEvent (hostW 0x04 v) s =
      .next { s with fifo := [], wait := 0, run := v.getLsbD 0, extInsert := v.getLsbD 1 }

/-! ### The commands -/

/-- R211: the header 0x00000000 is NOP, which changes nothing and counts toward the burst; any other header of opcode 0 is
RESERVED. -/
def Obligations.NopDoesNothing : Prop :=
  (∀ rest : List Word, decode (0x00000000#32 :: rest) = .ok (.nop 0, rest)) ∧
  (∀ s : State, exec (.nop 0) s = .next s ∧ sameMemory s s) ∧
  (∀ (n : Nat) (s : State) (rest : List Word), s.wait = 0 → s.fifo = 0x00000000#32 :: rest →
    runCommands (n + 1) s = runCommands n { s with fifo := rest }) ∧
  (∀ (rsv : BitVec 28) (s : State), rsv ≠ 0 →
    exec (.nop rsv) s = .next (withCommandError .reserved (headerOf (.nop rsv)) s))

/-- R210, R53: SETP stores the payload, read in the parameter's format and clamped to its legal range, as the target of the
parameter, and for an immediate parameter as its current value too; the current value of a smoothed parameter, every other
parameter and everything else stay. -/
def Obligations.SetpSetsParameter : Prop :=
  (∀ (p : FileParam) (value : Word) (s : State), p.cls = .S →
    ∃ t, exec (.setp 0 (Param.file p).id value) s = .next t ∧
      tgtInt t p = clamp (p.format.read value) p.low p.high ∧
      (∀ q, q ≠ p → t.tgt.get q = s.tgt.get q) ∧
      { t with tgt := s.tgt } = s ∧ sameMemory s t) ∧
  (∀ (p : FileParam) (value : Word) (s : State), p.cls = .I →
    ∃ t, exec (.setp 0 (Param.file p).id value) s = .next t ∧
      tgtInt t p = clamp (p.format.read value) p.low p.high ∧ curInt t p = tgtInt t p ∧
      (∀ q, q ≠ p → t.tgt.get q = s.tgt.get q ∧ t.cur.get q = s.cur.get q) ∧
      { t with tgt := s.tgt, cur := s.cur } = s ∧ sameMemory s t)

/-- R55, R210: SETP of IR_LEN (id 0x007) sets the shadow impulse bank's length, at most 131072; the active bank's length and
everything else stay. -/
def Obligations.SetpSetsShadowImpulseLength : Prop :=
  ∀ (value : Word) (s : State),
    ∃ t, exec (.setp 0 0x007 value) s = .next t ∧
      (irLenOf t (!(s.bank.getLsbD 4))).toNat = min value.toNat 131072 ∧
      irLenOf t (s.bank.getLsbD 4) = irLenOf s (s.bank.getLsbD 4) ∧
      { t with irLen0 := s.irLen0, irLen1 := s.irLen1 } = s ∧ sameMemory s t

/-- R212, R302, R306, R320: NOTE_ON on an IDLE slot releases the string's sounding voices, triggers the slot with every
envelope value latched, and restarts the sweep where the auto-wah is enabled; nothing else changes. -/
def Obligations.NoteOnStartsVoice : Prop :=
  ∀ (tech : Tech) (str : BitVec 2) (k : SlotId) (s : State), paramsInRange s → (s.slots.get k).st = .idle →
    ∃ t, exec (asmNoteOn k str tech) s = .next t ∧
      ((t.slots.get k).st = .attack ∧ (t.slots.get k).str = str ∧ (t.slots.get k).tech = tech ∧
        (t.slots.get k).i = 0 ∧ (t.slots.get k).g = 0 ∧ (t.slots.get k).gf = 0 ∧
        u24Int (t.slots.get k).ceil = curInt s .egCeil ∧
        u24Int (t.slots.get k).a = curInt s (.tech tech .aLen) ∧
        u24Int (t.slots.get k).d = curInt s (.tech tech .dLen) ∧
        u24Int (t.slots.get k).dk = curInt s (.tech tech .dk) ∧
        u24Int (t.slots.get k).s = asr (curInt s .egCeil * curInt s (.tech tech .sus)) 23 ∧
        u24Int (t.slots.get k).nk = curInt s (.tech tech .nk) ∧
        u24Int (t.slots.get k).r = curInt s .egRelLen ∧
        u24Int (t.slots.get k).m = curInt s .egMarginLen) ∧
      (∀ j, j ≠ k → mayRelease (s.slots.get j) → (s.slots.get j).str = str → t.slots.get j = frozen (s.slots.get j)) ∧
      (∀ j, j ≠ k → ¬(mayRelease (s.slots.get j) ∧ (s.slots.get j).str = str) → t.slots.get j = s.slots.get j) ∧
      (tgtInt s (.en .autowah) = 1 → t.wah.wst = .up ∧ t.wah.m = s.wah.m ∧ t.wah.m0 = s.wah.m ∧ t.wah.i = 0 ∧
        u24Int t.wah.u = curInt s .wahUpLen ∧ u24Int t.wah.wk = curInt s .wahK) ∧
      (tgtInt s (.en .autowah) ≠ 1 → t.wah = s.wah) ∧
      { t with slots := s.slots, wah := s.wah } = s ∧ sameMemory s t

/-- R214, R306: RELEASE by string freezes the gain of every sounding voice of the string, RELEASE by slot that of the slot if
it is sounding; no other slot and nothing else changes. -/
def Obligations.ReleaseFreezesGain : Prop :=
  (∀ (str : BitVec 2) (s : State),
    ∃ t, exec (asmReleaseS str) s = .next t ∧
      (∀ j, mayRelease (s.slots.get j) → (s.slots.get j).str = str → t.slots.get j = frozen (s.slots.get j)) ∧
      (∀ j, ¬(mayRelease (s.slots.get j) ∧ (s.slots.get j).str = str) → t.slots.get j = s.slots.get j) ∧
      { t with slots := s.slots } = s ∧ sameMemory s t) ∧
  (∀ (k : SlotId) (s : State),
    ∃ t, exec (asmReleaseV k) s = .next t ∧
      (mayRelease (s.slots.get k) → t.slots.get k = frozen (s.slots.get k)) ∧
      (¬mayRelease (s.slots.get k) → t.slots.get k = s.slots.get k) ∧
      (∀ j, j ≠ k → t.slots.get j = s.slots.get j) ∧
      { t with slots := s.slots } = s ∧ sameMemory s t)

/-- R213, R55: SWAP inverts the named bits of BANK and nothing else, so that the curves named read their former shadow bank,
and with bit 4 the shadow bank's impulse length is the active one. -/
def Obligations.SwapInvertsBanks : Prop :=
  ∀ (mask : BitVec 5) (s : State),
    ∃ t, exec (asmSwap mask) s = .next t ∧
      (∀ b, b < 5 → t.bank.getLsbD b = (s.bank.getLsbD b ^^ mask.getLsbD b)) ∧
      (∀ (c : Curve) (i : Nat), mask.getLsbD c.num = true →
        tableActive t (.curve c) i = (tableRead s (.curve c) (!(s.bank.getLsbD c.num)) i).toInt) ∧
      (∀ (c : Curve) (i : Nat), mask.getLsbD c.num = false → tableActive t (.curve c) i = tableActive s (.curve c) i) ∧
      (mask.getLsbD 4 = true → curWord t .irLen = tgtWord s .irLen ∧ tgtWord t .irLen = curWord s .irLen) ∧
      { t with bank := s.bank } = s ∧ sameMemory s t

/-- R215: WAIT loads the wait counter and changes nothing else; a count of 0 lets the command phase go on, any other ends
it. -/
def Obligations.WaitLoadsCounter : Prop :=
  (∀ (count : U24) (s : State), exec (asmWait count) s = .next { s with wait := count } ∧
    sameMemory s { s with wait := count }) ∧
  (∀ (n : Nat) (count : U24) (s : State) (rest : List Word), s.wait = 0 → s.fifo = headerOf (asmWait count) :: rest →
    runCommands (n + 1) s =
      if count = 0 then runCommands n { s with fifo := rest } else .next { s with fifo := rest, wait := count })

/-- R216, R341: SYNC clears the phases it names and changes nothing else; the output computed from a cleared phase is the
wavetable's entry 0. -/
def Obligations.SyncClearsPhases : Prop :=
  ∀ (lmask : BitVec 3) (s : State),
    ∃ t, exec (asmSync lmask) s = .next t ∧
      (∀ k : Lfo, lmask.getLsbD k.num = true → t.ph.get k = 0 ∧ (modLfos t).wlfo.get k = tableRead s .lfoWave false 0) ∧
      (∀ k : Lfo, lmask.getLsbD k.num = false → t.ph.get k = s.ph.get k) ∧
      { t with ph := s.ph } = s ∧ sameMemory s t

/-- R217, R501: opcodes 0x7 to 0xF consume one word and record ILLEGAL_OP with the header; nothing else changes. -/
def Obligations.IllegalOpcodeRecorded : Prop :=
  (∀ (rest : BitVec 28) (s : State) (ws : List Word),
    decode ((0x7#4 ++ rest) :: ws) = .ok (.illegal7 rest, ws) ∧
    exec (.illegal7 rest) s = .next (withCommandError .illegalOp (0x7#4 ++ rest) s) ∧
    sameMemory s (withCommandError .illegalOp (0x7#4 ++ rest) s)) ∧
  (∀ (rest : BitVec 31) (s : State) (ws : List Word),
    decode ((0x1#1 ++ rest) :: ws) = .ok (.illegalHi rest, ws) ∧
    exec (.illegalHi rest) s = .next (withCommandError .illegalOp (0x1#1 ++ rest) s) ∧
    sameMemory s (withCommandError .illegalOp (0x1#1 ++ rest) s)) ∧
  (∀ (h v : Word) (ws : List Word), opcodeOf h = 0x1#4 → decode (h :: v :: ws) = .ok (decodeSetp h v, ws))

/-- R165: exactly one error is reported, the first of ILLEGAL_OP, RESERVED, BAD_PARAM or BAD_OPERAND, SLOT_BUSY, and the
command that raises it changes nothing else; a command that fails no check records no error. -/
def Obligations.FirstErrorReported : Prop :=
  ∀ (i : Instr) (s : State),
    ∃ t, exec i s = .next t ∧
      (opcodeIllegal i → t = withCommandError .illegalOp (headerOf i) s) ∧
      (i.wellFormed = false → t = withCommandError .reserved (headerOf i) s) ∧
      (i.wellFormed = true → paramInvalid i → t = withCommandError .badParam (headerOf i) s) ∧
      (i.wellFormed = true → operandInvalid i → t = withCommandError .badOperand (headerOf i) s) ∧
      (i.wellFormed = true → ¬operandInvalid i → slotBusy s i → t = withCommandError .slotBusy (headerOf i) s) ∧
      (¬opcodeIllegal i → i.wellFormed = true → ¬paramInvalid i → ¬operandInvalid i → ¬slotBusy s i →
        t.errCode = s.errCode ∧ t.errInfo = s.errInfo ∧ t.irqPend = s.irqPend)

/-- What no command changes: CTRL, the interrupt enables, the counter, the table access registers, DONE, the FIFO, the LFO
outputs, the datapath's channels and pointers, the table RAM and every port. A command changes no memory entry (R120). -/
def Obligations.CommandFrame : Prop :=
  ∀ (i : Instr) (s t : State), exec i s = .next t →
    { t with
      errCode := s.errCode, errInfo := s.errInfo, irqPend := s.irqPend, tgt := s.tgt, cur := s.cur, irLen0 := s.irLen0,
      irLen1 := s.irLen1, wait := s.wait, slots := s.slots, wah := s.wah, bank := s.bank, ph := s.ph } = s ∧
    sameMemory s t

/-! ### Arithmetic and smoothing -/

/-- R260: rounding, its examples and its laws. -/
def Obligations.RoundingLaws : Prop :=
  (∀ (v : Int) (s : Nat), 1 ≤ s → rnd v s = asr (v + 2 ^ (s - 1)) s) ∧ (∀ v : Int, rnd v 0 = v) ∧
  (rnd 3 1 = 2 ∧ rnd (-3) 1 = -1 ∧ rnd 5 2 = 1 ∧ rnd 6 2 = 2 ∧ rnd (-6) 2 = -1) ∧
  (∀ (a : Int) (s : Nat), rnd (a * 2 ^ s) s = a) ∧
  (∀ (v : Int) (s : Nat), 2 * v - 2 ^ s ≤ 2 * rnd v s * 2 ^ s ∧ 2 * rnd v s * 2 ^ s ≤ 2 * v + 2 ^ s) ∧
  (∀ (v w : Int) (s : Nat), v ≤ w → rnd v s ≤ rnd w s)

/-- R263, R275, R276, R277: the stored results of Gain, Mix and FbSum for every parameter and stage, with their rounding and
saturation; the gain of a sample at unity, zero and double; the fractional multiply, whose result needs no saturation; a
feedback sum without feedback; a fully dry mix is transparent. That a feedback sum that does not saturate differs from its
input by at most the signal fed back is inferred from R276. -/
def Obligations.GainMixAndFeedback : Prop :=
  (∀ v : Int, sat24 v = max (-2 ^ 23) (min v (2 ^ 23 - 1))) ∧
  (∀ (s : State) (p : FileParam) (x : Sample), isGain s p x (gainBy s p x)) ∧
  (∀ (s : State) (g : Stage) (x w : Sample), isMix s g x w (mixStage s g x w)) ∧
  (∀ (s : State) (p : FileParam) (x v : Sample), isFbSum s p x v (fbSumBy s p x v)) ∧
  (∀ (x : Sample) (g : Int), gain x.toInt g = sat24 (rnd (x.toInt * g) 24)) ∧
  (∀ x : Sample, gain x.toInt (2 ^ 24) = x.toInt ∧ gain x.toInt 0 = 0 ∧ gain x.toInt (2 ^ 25) = sat24 (2 * x.toInt)) ∧
  (∀ (x : Sample) (m : Int), 0 ≤ m → m ≤ 2 ^ 23 →
    mulU23 x.toInt m = rnd (x.toInt * m) 23 ∧ -2 ^ 23 ≤ mulU23 x.toInt m ∧ mulU23 x.toInt m < 2 ^ 23) ∧
  (∀ x v : Sample, fbSum x.toInt v.toInt 0 = x.toInt) ∧
  (∀ (x v fb : Int), 0 ≤ fb → fb ≤ Config.FB_MAX → -8388608 ≤ x + rnd (fb * v) 23 → x + rnd (fb * v) 23 ≤ 8388607 →
    |fbSum x v fb - x| ≤ |v|) ∧
  (∀ x w : Sample, mix (2 ^ 23) 0 x.toInt w.toInt = x.toInt)

/-- R272 (a) to (c): a smoothing step moves toward the target and never past it, stays there, reaches it at once with the
largest coefficient, and after as many steps as the distance at the latest. -/
def Obligations.SmoothingStepLaws : Prop :=
  ∀ c t k : Int, 1 ≤ k → k ≤ 2 ^ 24 →
    (c < t → c < smoothStep c t k ∧ smoothStep c t k ≤ t) ∧ (t < c → t ≤ smoothStep c t k ∧ smoothStep c t k < c) ∧
    smoothStep t t k = t ∧ smoothStep c t (2 ^ 24) = t ∧
    (∀ n : Nat, (t - c).natAbs ≤ n → (fun x => smoothStep x t k)^[n] c = t)

/-- R56, R270, R271: in the smoothing phase every class-S parameter takes one step toward its effective target, which for WET
and DRY of a disabled stage is 0 and 2^23; class-I parameters and everything else stay. -/
def Obligations.SmoothingPhaseResult : Prop :=
  ∀ s : State, paramsInRange s →
    (∀ p : FileParam, p.cls = .S → curInt (smoothPhase s) p = smoothStep (curInt s p) (effTarget s p) (curInt s .smoothK)) ∧
    (∀ p : FileParam, p.cls = .I → curInt (smoothPhase s) p = curInt s p) ∧
    (∀ g : Stage, tgtInt s (.en g) = 1 → effTarget s (.wet g) = tgtInt s (.wet g) ∧ effTarget s (.dry g) = tgtInt s (.dry g)) ∧
    (∀ g : Stage, tgtInt s (.en g) = 0 → effTarget s (.wet g) = 0 ∧ effTarget s (.dry g) = 2 ^ 23) ∧
    (∀ p : FileParam, (∀ g, p ≠ .wet g ∧ p ≠ .dry g) → effTarget s p = tgtInt s p) ∧
    { smoothPhase s with cur := s.cur } = s

/-! ### Envelopes, voices and the sweep -/

/-- R303: the attack ramps linearly: after its j-th step the gain is the floor of CEIL·j/A, and after step A it is the
ceiling and the slot is in DECAY. -/
def Obligations.AttackRampsToCeiling : Prop :=
  ∀ k : Slot, k.st = .attack → k.i = 0 → 1 ≤ k.a.toNat →
    (∀ j : Nat, 1 ≤ j → j < k.a.toNat →
      (stepSlot^[j] k).st = .attack ∧ (stepSlot^[j] k).i.toNat = j ∧
      (stepSlot^[j] k).g.toNat = k.ceil.toNat * j / k.a.toNat ∧ { stepSlot^[j] k with i := k.i, g := k.g } = k) ∧
    stepSlot^[k.a.toNat] k = { k with st := .decay, i := 0, g := k.ceil }

/-- R304, R305, R312 (c): a decay step moves the gain toward the sustain level, never below it and never up, for D steps. A
natural step shrinks the gain by the factor NK, at least by 1 while it is nonzero; the slot enters TAIL when the gain is 0,
which it is after finitely many steps. -/
def Obligations.DecayAndNaturalSteps : Prop :=
  (∀ k : Slot, k.st = .decay → k.s.toNat ≤ k.g.toNat →
    u24Int (stepSlot k).g = u24Int k.s + asr ((u24Int k.g - u24Int k.s) * u24Int k.dk) 24 ∧
    k.s.toNat ≤ (stepSlot k).g.toNat ∧ (stepSlot k).g.toNat ≤ k.g.toNat ∧
    (k.i.toNat + 1 < k.d.toNat → (stepSlot k).st = .decay ∧ (stepSlot k).i.toNat = k.i.toNat + 1) ∧
    (k.d.toNat ≤ k.i.toNat + 1 → (stepSlot k).st = .natural) ∧
    { stepSlot k with st := k.st, i := k.i, g := k.g } = k) ∧
  (∀ k : Slot, k.st = .natural →
    u24Int (stepSlot k).g = asr (u24Int k.g * u24Int k.nk) 24 ∧
    (1 ≤ k.g.toNat → (stepSlot k).g.toNat < k.g.toNat) ∧
    ((stepSlot k).g = 0 → stepSlot k = { k with st := .tail, i := 0, g := 0 }) ∧
    ((stepSlot k).g ≠ 0 → stepSlot k = { k with g := (stepSlot k).g }) ∧
    (∃ n : Nat, stepSlot^[n] k = { k with st := .tail, i := 0, g := 0 }))

/-- R307, R308: a release ramps linearly from the frozen gain to 0 in R steps, the tail lasts M more, and then the slot is
IDLE, not before. -/
def Obligations.ReleaseThenTailThenIdle : Prop :=
  ∀ k : Slot, k.st = .release → k.i = 0 → 1 ≤ k.r.toNat → 1 ≤ k.m.toNat →
    (∀ j : Nat, 1 ≤ j → j < k.r.toNat →
      (stepSlot^[j] k).st = .release ∧ (stepSlot^[j] k).g.toNat = k.gf.toNat - k.gf.toNat * j / k.r.toNat) ∧
    (∀ j : Nat, k.r.toNat ≤ j → j < k.r.toNat + k.m.toNat →
      (stepSlot^[j] k).st = .tail ∧ (stepSlot^[j] k).g = 0) ∧
    stepSlot^[k.r.toNat + k.m.toNat] k = { k with st := .idle, i := 0, g := 0 }

/-- R312 (f): every voice reaches IDLE after finitely many steps, and an IDLE slot stays IDLE with gain 0. -/
def Obligations.EveryVoiceEnds : Prop :=
  ∀ k : Slot, (∃ n : Nat, (stepSlot^[n] k).st = .idle) ∧
    (k.st = .idle → ∀ n : Nat, 1 ≤ n → stepSlot^[n] k = { k with g := 0 })

/-- R301, R308, R309: every slot takes one step; DONE[k] is set exactly where slot k ends its TAIL at this step, and
VOICE_DONE where some slot does; nothing else changes. -/
def Obligations.TailEndSetsDone : Prop :=
  ∀ s : State,
    (∀ k, (modEnvelopes s).slots.get k = stepSlot (s.slots.get k)) ∧
    (∀ k, (modEnvelopes s).done.getLsbD k.num = true ↔
      s.done.getLsbD k.num = true ∨
        ((s.slots.get k).st = .tail ∧ (s.slots.get k).m.toNat ≤ (s.slots.get k).i.toNat + 1)) ∧
    ((modEnvelopes s).irqPend.getLsbD 2 = true ↔
      s.irqPend.getLsbD 2 = true ∨
        ∃ k, (s.slots.get k).st = .tail ∧ (s.slots.get k).m.toNat ≤ (s.slots.get k).i.toNat + 1) ∧
    (∀ b, b ≠ 2 → (modEnvelopes s).irqPend.getLsbD b = s.irqPend.getLsbD b) ∧
    { modEnvelopes s with slots := s.slots, done := s.done, irqPend := s.irqPend } = s

/-- R310: EG_GAIN[k] is the slot's gain and EG_OUT the saturated sum of the enveloped voices; where every slot is IDLE or in
TAIL, EG_OUT is 0 whatever the voices. -/
def Obligations.VoiceAmplifierResult : Prop :=
  ∀ s : State,
    (∀ k, (voiceAmp s).egGain.get k = (s.slots.get k).g) ∧
    (voiceAmp s).egOut.toInt =
      sat24 ((SlotId.all.map fun k => rnd ((s.voiceIn.get k).toInt * u24Int (s.slots.get k).g) 23).sum) ∧
    (slotsInRange s → (∀ k, (s.slots.get k).st = .idle ∨ (s.slots.get k).st = .tail) → (voiceAmp s).egOut = 0) ∧
    { voiceAmp s with egGain := s.egGain, egOut := s.egOut } = s

/-- R321, R322: the sweep rises linearly from m0 to 2^23 in U steps and then falls by the factor WK until it is 0 and
IDLE. -/
def Obligations.WahSweepRisesAndFalls : Prop :=
  (∀ w : Wah, w.wst = .up → w.i = 0 → 1 ≤ w.u.toNat → w.m0.toNat ≤ 8388608 →
    (∀ j : Nat, 1 ≤ j → j < w.u.toNat →
      (stepWah^[j] w).wst = .up ∧ (stepWah^[j] w).i.toNat = j ∧
      (stepWah^[j] w).m.toNat = w.m0.toNat + (8388608 - w.m0.toNat) * j / w.u.toNat) ∧
    (stepWah^[w.u.toNat] w).wst = .down ∧ (stepWah^[w.u.toNat] w).m.toNat = 8388608) ∧
  (∀ w : Wah, w.wst = .down →
    u24Int (stepWah w).m = asr (u24Int w.m * u24Int w.wk) 24 ∧ ((stepWah w).wst = .idle ↔ (stepWah w).m = 0) ∧
    ∃ n : Nat, (stepWah^[n] w).wst = .idle ∧ (stepWah^[n] w).m = 0)

/-! ### Oscillators -/

/-- R341, R344: an oscillator's output interpolates between two neighbouring wavetable entries, from the phase before the
advance, and lies between them; the phaser's modulation is half of LFO1's output plus 2^23. -/
def Obligations.LfoOutputInterpolates : Prop :=
  ∀ (s : State) (k : Lfo) (idx frac : Nat) (t0 t1 : Int),
    idx = (s.ph.get k).toNat / 2 ^ 24 → frac = (s.ph.get k).toNat / 2 ^ 8 % 2 ^ 16 →
    t0 = (tableRead s .lfoWave false idx).toInt → t1 = (tableRead s .lfoWave false ((idx + 1) % 256)).toInt →
    ((modLfos s).wlfo.get k).toInt = t0 + rnd ((t1 - t0) * frac) 16 ∧
    min t0 t1 ≤ ((modLfos s).wlfo.get k).toInt ∧ ((modLfos s).wlfo.get k).toInt ≤ max t0 t1 ∧
    (modLfos s).ph.get k = s.ph.get k + s.cur.get (.lfoInc k) ∧
    u24Int (modLfos s).mPh = asr (((modLfos s).wlfo.get .lfo1).toInt + 2 ^ 23) 1 ∧ u24Int (modLfos s).mPh < 2 ^ 23

/-- R346, R347: with no command and no host access, after n ticks every phase has advanced by n times its increment, modulo
2^32, and the increments are the same. That a step with an empty event list is a TICK strobe, which makes n steps of the core
n ticks, is the model's choice (log 1). -/
def Obligations.LfoPhaseLaw : Prop :=
  ∀ (n : Nat) (s : State), s.env = [] → s.run = true → s.rst = false → s.fifo = [] → s.wait = 0 →
    ∃ t : State, Sys2Proof.core.run n s = .next t ∧
      (∀ k, t.ph.get k = s.ph.get k + BitVec.ofNat 32 n * s.cur.get (.lfoInc k)) ∧
      (∀ k, t.cur.get (.lfoInc k) = s.cur.get (.lfoInc k)) ∧ t.env = [] ∧ t.fifo = []

/-! ### Filter sections, curves, delay lines, convolution -/

/-- R361, R362, R363: a plain section's output is the saturated rounding of its five products, and it records its input and its
output; in a data phase every section of both channels does so exactly once. The identity section, the FIR section, the
example of ties rounding up, which settles at 1, and saturation at both ends. -/
def Obligations.SectionCornerCases : Prop :=
  (∀ (s : State) (q : Sect) (c : ChanState) (x : Sample), ∃ (y : Sample) (st : Biquad),
    sectionStep (fun f => curInt s (.bq q f)) (c.sec.get q) x y st ∧
    evalBQ s q c x = ({ c with sec := c.sec.set q st }, y)) ∧
  (∀ (s : State) (ch : Chan) (q : Sect), ∃ x y : Sample,
    sectionStep (fun f => curInt s (.bq q f)) ((s.chans.get ch).sec.get q) x y (((dataPhase s).chans.get ch).sec.get q)) ∧
  (∀ (s : State) (q : Sect) (c : ChanState) (x : Sample), sectionIdentity s q →
    evalBQ s q c x = ({ c with sec := c.sec.set q ⟨x, (c.sec.get q).x1, x, (c.sec.get q).y1⟩ }, x)) ∧
  (∀ (f : CoefInts) (st : Biquad) (x : Sample), f.a1 = 0 → f.a2 = 0 →
    (biquadOut f st x).toInt = sat24 (rnd (f.b0 * x.toInt + f.b1 * st.x1.toInt + f.b2 * st.x2.toInt) 28)) ∧
  (([1000, 0, 0, 0, 0, 0, 0, 0, 0, 0, 0, 0].foldl
      (fun (p : Biquad × List Int) (x : Int) =>
        let y := biquadOut ⟨134217728, 0, 0, -134217728, 0⟩ p.1 (sampleOf x)
        (biquadNext p.1 (sampleOf x) y, p.2 ++ [y.toInt]))
      (Biquad.reset, [])).2 = [500, 250, 125, 63, 32, 16, 8, 4, 2, 1, 1, 1]) ∧
  (∀ (f : CoefInts) (st : Biquad) (x : Sample), (2 * 2 ^ 23 - 1) * 2 ^ 27 ≤ biquadAcc f st x →
    (biquadOut f st x).toInt = 2 ^ 23 - 1) ∧
  (∀ (f : CoefInts) (st : Biquad) (x : Sample), biquadAcc f st x < -(2 * 2 ^ 23 - 1) * 2 ^ 27 →
    (biquadOut f st x).toInt = -2 ^ 23)

/-- R370, R371, R372: a modulated section's output is the saturated rounding of its five products with the coefficients
interpolated between the LO and the HI set, and it records its input and its output; in a data phase each of the five does so
exactly once, WAH with the sweep's value and the phaser's four with m_ph. Modulation 0 gives the LO set, 2^23 the HI set, any
other a value between them; sets of all-pass structure give an all-pass set at every modulation. -/
def Obligations.ModulatedSectionInterpolates : Prop :=
  (∀ (s : State) (r : MSect) (m : U24) (c : ChanState) (x : Sample), ∃ (y : Sample) (st : Biquad),
    sectionStep (interpolated s r m) (c.msec.get r) x y st ∧
    evalMBQ s r m c x = ({ c with msec := c.msec.set r st }, y)) ∧
  (∀ (s : State) (ch : Chan) (r : MSect), ∃ x y : Sample,
    sectionStep (interpolated s r (sectionMod s r)) ((s.chans.get ch).msec.get r) x y
      (((dataPhase s).chans.get ch).msec.get r)) ∧
  (∀ (s : State) (r : MSect) (f : Coef) (m : Int), 0 ≤ m → m ≤ 2 ^ 23 →
    modCoef s r m f = curInt s (.lo r f) + rnd ((curInt s (.hi r f) - curInt s (.lo r f)) * m) 23 ∧
    modCoef s r 0 f = curInt s (.lo r f) ∧ modCoef s r (2 ^ 23) f = curInt s (.hi r f) ∧
    min (curInt s (.lo r f)) (curInt s (.hi r f)) ≤ modCoef s r m f ∧
    modCoef s r m f ≤ max (curInt s (.lo r f)) (curInt s (.hi r f)) ∧
    (allPassSets s r → (modCoefs s r m).b0 = (modCoefs s r m).a2 ∧ (modCoefs s r m).b1 = (modCoefs s r m).a1 ∧
      (modCoefs s r m).b2 = 2 ^ 28))

/-- R391, R396: the curve interpolates between the two entries around the input and stays between them; a monotone table
gives a monotone transfer. -/
def Obligations.CurveInterpolates : Prop :=
  ∀ (s : State) (t : Curve),
    (∀ (x : Sample) (k f : Nat), k < 1024 → f < 16384 → x.toInt + 8388608 = k * 16384 + f →
      (evalCurve s t x).toInt = curveEntry s t k + rnd ((curveEntry s t (k + 1) - curveEntry s t k) * f) 14 ∧
      min (curveEntry s t k) (curveEntry s t (k + 1)) ≤ (evalCurve s t x).toInt ∧
      (evalCurve s t x).toInt ≤ max (curveEntry s t k) (curveEntry s t (k + 1))) ∧
    ((∀ k, k < 1024 → curveEntry s t k ≤ curveEntry s t (k + 1)) →
      ∀ x y : Sample, x.toInt ≤ y.toInt → (evalCurve s t x).toInt ≤ (evalCurve s t y).toInt)

/-- R394: with the identity table the lookup is the identity up to 2^23 - 2^13, and one less above it. -/
def Obligations.IdentityCurve : Prop :=
  ∀ (s : State) (t : Curve), (∀ k : Nat, k < 1024 → curveEntry s t k = (k : Int) * 2 ^ 14 - 2 ^ 23) →
    curveEntry s t 1024 = 2 ^ 23 - 1 →
    ∀ x : Sample,
      (x.toInt ≤ 2 ^ 23 - 2 ^ 13 → evalCurve s t x = x) ∧
      (2 ^ 23 - 2 ^ 13 < x.toInt → (evalCurve s t x).toInt = x.toInt - 1)

/-- R395: an odd table gives an odd transfer up to one LSB: the two lookups add to 1 exactly where the interpolation is at a
tie, and to 0 elsewhere. -/
def Obligations.OddCurveStaysOdd : Prop :=
  ∀ (s : State) (t : Curve), (∀ k : Nat, k ≤ 1024 → curveEntry s t (1024 - k) = -curveEntry s t k) →
    ∀ (x : Sample) (k f : Nat), -8388608 < x.toInt → k < 1024 → f < 16384 → x.toInt + 8388608 = k * 16384 + f →
      (evalCurve s t x).toInt + (evalCurve s t (sampleOf (-x.toInt))).toInt =
        if (curveEntry s t (k + 1) - curveEntry s t k) * f % 16384 = 8192 then 1 else 0

/-- R345, R411, R412, R413 (a), (b): what is written at a line's pointer, and nothing else, is read back by the tap n ticks
later when the delay is n samples unmodulated. In general the delay is BASE moved by DEPTH times the modulator that MODSRC
selects, the pre-delay line's by nothing, clamped to 1 to N - 2 samples, and the tap interpolates between the entries written
di and di + 1 ticks ago and lies between them. The pointers advance by one, modulo the length. -/
def Obligations.DelayLineReadsPast : Prop :=
  (∀ (s : State) (l : Line) (v : Sample) (c : ChanState),
    ramRead ((delayWrite s l v c).buf.get l) (s.wp.get l) = v ∧
    (∀ a, a ≠ s.wp.get l → ramRead ((delayWrite s l v c).buf.get l) a = ramRead (c.buf.get l) a) ∧
    (∀ l', l' ≠ l → (delayWrite s l v c).buf.get l' = c.buf.get l') ∧
    { delayWrite s l v c with buf := c.buf } = c) ∧
  (∀ (s : State) (l : Line) (c : ChanState) (n w : Nat),
    (∀ m, l.modLine? = some m → curInt s (.depth m) = 0 ∨ curInt s (.modsrc m) = 0) →
    1 ≤ n → n + 2 ≤ l.len → curInt s (.base l) = (n : Int) * 4096 → w < l.len → s.wp.get l = (w + n) % l.len →
    delayTap s l c = ramRead (c.buf.get l) w) ∧
  (∀ (s : State) (l : Line) (c : ChanState) (move : Int) (di f w0 w1 : Nat) (s0 s1 : Int),
    (l = .revpre → move = 0) → (∀ m : ModLine, m.line = l → move = rnd (curInt s (.depth m) * lineMod s m) 23) →
    f < 4096 → (di : Int) * 4096 + f = max 4096 (min (curInt s (.base l) + move) (((l.len : Int) - 2) * 4096)) →
    w0 < l.len → (w0 + di) % l.len = s.wp.get l → w1 < l.len → (w1 + di + 1) % l.len = s.wp.get l →
    s0 = (ramRead (c.buf.get l) w0).toInt → s1 = (ramRead (c.buf.get l) w1).toInt →
    (delayTap s l c).toInt = s0 + rnd ((s1 - s0) * f) 12 ∧
    min s0 s1 ≤ (delayTap s l c).toInt ∧ (delayTap s l c).toInt ≤ max s0 s1) ∧
  (∀ (s : State) (m : ModLine),
    (curInt s (.modsrc m) = 0 → lineMod s m = 0) ∧ (curInt s (.modsrc m) = 1 → lineMod s m = (s.wlfo.get .lfo0).toInt) ∧
    (curInt s (.modsrc m) = 2 → lineMod s m = (s.wlfo.get .lfo1).toInt) ∧
    (curInt s (.modsrc m) = 3 → lineMod s m = (s.wlfo.get .lfo2).toInt)) ∧
  (∀ (s : State) (l : Line), 4096 ≤ delayTime s l ∧ delayTime s l ≤ ((l.len : Int) - 2) * 4096) ∧
  (∀ (wp : LineMap Nat) (l : Line), (advancePointers wp).get l = (wp.get l + 1) % l.len)

/-- R430, R431, R433: the history shifts by one with the input in front, and the output is the exact sum of the impulse
entries below the active length times the history, rounded by 23 + IR_SHIFT and saturated; with length 0 it is 0. -/
def Obligations.ConvolutionResult : Prop :=
  ∀ (s : State) (ch : Chan) (c : ChanState) (p : Sample),
    ramRead (evalConv s ch c p).1.hist 0 = p ∧
    (∀ k, k + 1 < 131072 → ramRead (evalConv s ch c p).1.hist (k + 1) = ramRead c.hist k) ∧
    { (evalConv s ch c p).1 with hist := c.hist } = c ∧
    (evalConv s ch c p).2.toInt =
      sat24 (rnd (∑ k ∈ Finset.range (irLenOf s (s.bank.getLsbD 4)).toNat,
        (tableRead s (irTable ch) (s.bank.getLsbD 4) k).toInt * (ramRead (evalConv s ch c p).1.hist k).toInt)
        (23 + (curInt s .irShift).toNat)) ∧
    (irLenOf s (s.bank.getLsbD 4) = 0 → (evalConv s ch c p).2 = 0)

/-! ### The chain and the tick -/

/-- R467: with every stage's mix fully dry, the amplifier at unity with identity sections and MASTER at 2^24, both outputs are
the chain's input, whatever the state of the filters, lines and tables, and CLIP is not set. -/
def Obligations.TransparentChain : Prop :=
  ∀ s : State, (∀ g, stageDry s g) → curInt s .ampIn = 2 ^ 24 → curInt s .ampMaster = 2 ^ 24 → curInt s .master = 2 ^ 24 →
    sectionIdentity s .ampContour → sectionIdentity s .ampBass → sectionIdentity s .ampMid → sectionIdentity s .ampTreble →
    sectionIdentity s .ampPres → sectionIdentity s .ampCab →
    (dataPhase s).outL = (if s.extInsert then s.chainIn else s.egOut) ∧
    (dataPhase s).outR = (if s.extInsert then s.chainIn else s.egOut) ∧ (dataPhase s).irqPend = s.irqPend

/-- R451 to R466: the whole data phase of a channel as equations between the chain input, the ten stage inputs `x`, the
amplifier's input and output, what the sections recorded and what the lines stored: each stage's curve, sections, line and
gains in their order, its mix, and its output as the next stage's input. The chain input is the same for both channels; the
outputs are the saturated master products, held by the ports while RUN is 1, and CLIP is set exactly where one of them
saturates. What a section records is R361's equation (SectionCornerCases, ModulatedSectionInterpolates). -/
def Obligations.ChainEquationsAndMaster : Prop :=
  (∀ (s : State) (ch : Chan), ∃ (x : StageMap Sample) (xAmp y : Sample),
    x.get .autowah = (if s.extInsert then s.chainIn else s.egOut) ∧
    autowahEquations s ((dataPhase s).chans.get ch) (x.get .autowah) (x.get .fuzz) ∧
    fuzzEquations s ((dataPhase s).chans.get ch) (x.get .fuzz) (x.get .od) ∧
    odEquations s ((dataPhase s).chans.get ch) (x.get .od) (x.get .chorus) ∧
    chorusEquations s (s.chans.get ch) ((dataPhase s).chans.get ch) (x.get .chorus) (x.get .phaser) ∧
    phaserEquations s (s.chans.get ch) ((dataPhase s).chans.get ch) (x.get .phaser) (x.get .delay) ∧
    delayEquations s (s.chans.get ch) ((dataPhase s).chans.get ch) (x.get .delay) (x.get .reverb) ∧
    reverbEquations s ch (s.chans.get ch) ((dataPhase s).chans.get ch) (x.get .reverb) (x.get .eq5) ∧
    eq5Equations s ((dataPhase s).chans.get ch) (x.get .eq5) (x.get .preamp) ∧
    preampEquations s ((dataPhase s).chans.get ch) (x.get .preamp) (x.get .tape) ∧
    tapeEquations s (s.chans.get ch) ((dataPhase s).chans.get ch) (x.get .tape) xAmp ∧
    ampEquations s ((dataPhase s).chans.get ch) xAmp y ∧
    (ch = .left → (dataPhase s).outL.toInt = sat24 (rnd (y.toInt * curInt s .master) 24)) ∧
    (ch = .right → (dataPhase s).outR.toInt = sat24 (rnd (y.toInt * curInt s .master) 24))) ∧
  (∀ (s : State) (x yL yR : Sample) (oL oR : Int), x = (if s.extInsert then s.chainIn else s.egOut) →
    yL = (chain s .left s.chans.left x).2 → yR = (chain s .right s.chans.right x).2 →
    oL = rnd (yL.toInt * curInt s .master) 24 → oR = rnd (yR.toInt * curInt s .master) 24 →
    (dataPhase s).outL.toInt = sat24 oL ∧ (dataPhase s).outR.toInt = sat24 oR ∧
    (s.run = true → portOutL (dataPhase s) = (dataPhase s).outL ∧ portOutR (dataPhase s) = (dataPhase s).outR) ∧
    ((dataPhase s).irqPend.getLsbD 4 = true ↔ s.irqPend.getLsbD 4 = true ∨ sat24 oL ≠ oL ∨ sat24 oR ≠ oR) ∧
    (∀ b, b ≠ 4 → (dataPhase s).irqPend.getLsbD b = s.irqPend.getLsbD b))

/-- R412, R430, R450: the phases after the command phase in their order, and what they leave unchanged: CTRL, the interrupt
enables, the error record, the table access registers, the banks, the targets, the impulse lengths, the FIFO, the wait counter,
the table RAM, the input ports; of the datapath memories every entry of a delay line but the one at its pointer, and the
history but for its shift by one; of a section the last input and output, which become the ones before the last. Every pointer
advances by one modulo its line's length, and the counter is one higher. -/
def Obligations.TickFrame : Prop :=
  ∀ s : State,
    finishTick s =
      { dataPhase (modLfos (modWah (voiceAmp (modEnvelopes (smoothPhase s))))) with sampleCnt := s.sampleCnt + 1 } ∧
    { finishTick s with
      irqPend := s.irqPend, sampleCnt := s.sampleCnt, done := s.done, cur := s.cur, slots := s.slots, wah := s.wah,
      ph := s.ph, wlfo := s.wlfo, mPh := s.mPh, chans := s.chans, wp := s.wp, egOut := s.egOut, egGain := s.egGain,
      outL := s.outL, outR := s.outR } = s ∧
    (∀ l : Line, (finishTick s).wp.get l = (s.wp.get l + 1) % l.len) ∧
    (∀ (ch : Chan) (l : Line) (a : Nat), a ≠ s.wp.get l →
      ramRead (((finishTick s).chans.get ch).buf.get l) a = ramRead ((s.chans.get ch).buf.get l) a) ∧
    (∀ (ch : Chan) (k : Nat), k + 1 < 131072 →
      ramRead ((finishTick s).chans.get ch).hist (k + 1) = ramRead (s.chans.get ch).hist k) ∧
    (∀ (ch : Chan) (q : Sect),
      (((finishTick s).chans.get ch).sec.get q).x2 = ((s.chans.get ch).sec.get q).x1 ∧
      (((finishTick s).chans.get ch).sec.get q).y2 = ((s.chans.get ch).sec.get q).y1) ∧
    (∀ (ch : Chan) (r : MSect),
      (((finishTick s).chans.get ch).msec.get r).x2 = ((s.chans.get ch).msec.get r).x1 ∧
      (((finishTick s).chans.get ch).msec.get r).y2 = ((s.chans.get ch).msec.get r).y1)

/-! ### Invariants that every step keeps -/

/-- R50 to R55, R62, R63, R312: parameters stay in their legal ranges, the slots' gains within their ceilings and counters
within their lengths, and the sweep within 2^23, in every step from any state where they are. -/
def Obligations.StepKeepsDatapathInRange : Prop :=
  ∀ s t : State, datapathInRange s → step s = .next t → datapathInRange t

/-- The memories stay in their canonical form and the write pointers within their lines (R67; log 3). -/
def Obligations.StepKeepsMemoryCanonical : Prop :=
  ∀ s t : State, memoryCanonical s → pointersInRange s → step s = .next t → memoryCanonical t ∧ pointersInRange t

/-- R468: the two channels stay equal in every state element of the stages before REVERB. -/
def Obligations.StepKeepsChannelsEqual : Prop :=
  ∀ s t : State, channelsAgree s → step s = .next t → channelsAgree t

/-- R313: at most one voice of a string is in ATTACK, DECAY or NATURAL. -/
def Obligations.StepKeepsOneVoicePerString : Prop :=
  ∀ s t : State, oneVoicePerString s → step s = .next t → oneVoicePerString t

/-- R53, R60, R68: immediate parameters have their target as current value, the FIFO holds at most 256 words, and the impulse
lengths are at most 131072; each of the three is kept by itself. -/
def Obligations.StepKeepsControlState : Prop :=
  ∀ s t : State, step s = .next t →
    (immediateSettled s → immediateSettled t) ∧ (fifoInRange s → fifoInRange t) ∧ (irLenInRange s → irLenInRange t)

/-- The reset state meets every invariant. -/
def Obligations.ResetMeetsInvariants : Prop :=
  datapathInRange State.reset ∧ memoryCanonical State.reset ∧ pointersInRange State.reset ∧ channelsAgree State.reset ∧
  oneVoicePerString State.reset ∧ immediateSettled State.reset ∧ fifoInRange State.reset ∧ irLenInRange State.reset ∧
  resetHeld State.reset

/-! ### The machine and its host -/

/-- R504: every step gives a next state, but for a tick that arrives while a tick is being processed, which is refused
(R562). -/
def Obligations.StepCompletes : Prop :=
  ∀ s : State,
    ((nextEvent s).1 ≠ .tickOverrun → stepsSafely s) ∧
    ((nextEvent s).1 = .tickOverrun → step s = .refused .tickOverrun)

/-- R37, R73: SAMPLE_CNT counts the processed ticks modulo 2^32, and nothing but a reset changes it otherwise; while
CTRL.RUN = 0 a TICK strobe changes no state, and the ports OUT_L, OUT_R and EG_OUT read 0 while EG_GAIN keeps its last
value. -/
def Obligations.TicksAreCountedOrIgnored : Prop :=
  (∀ (s s' t : State) (e : EnvEvent), nextEvent s = (e, s') → step s = .next t →
    (e = .tick → s.run = true → s.rst = false → t.sampleCnt = s.sampleCnt + 1) ∧
    (e ≠ .tick → ¬resetEvent e → t.sampleCnt = s.sampleCnt)) ∧
  (∀ s : State, s.run = false →
    handleEvent .tick s = .next s ∧ portOutL s = 0 ∧ portOutR s = 0 ∧ portEgOut s = 0 ∧
    (∀ k, portEgGain s k = s.egGain.get k))

/-- R34, R35, R47, R505, R508: a bit of IRQ_PEND or of DONE, once set, stays set until the host writes 1 to it or the block is
reset; a write of either clears exactly the bits written 1, and a write of IRQ_EN stores its five enables, each changing
nothing else; IRQ is the level of the enabled pending bits. -/
def Obligations.PendingBitsAreSticky : Prop :=
  (∀ (s s' t : State) (e : EnvEvent) (b : Nat), nextEvent s = (e, s') → step s = .next t → ¬resetEvent e →
    (s.irqPend.getLsbD b = true → (∀ v : Word, e = hostW 0x0C v → v.getLsbD b = false) → t.irqPend.getLsbD b = true) ∧
    (s.done.getLsbD b = true → (∀ v : Word, e = hostW 0x3C v → v.getLsbD b = false) → t.done.getLsbD b = true)) ∧
  (∀ (s : State) (v : Word), s.rst = false →
    (∃ t, handleEvent (hostW 0x0C v) s = .next t ∧ { t with irqPend := s.irqPend } = s ∧
      ∀ b, b < 5 → t.irqPend.getLsbD b = (s.irqPend.getLsbD b && !v.getLsbD b)) ∧
    (∃ t, handleEvent (hostW 0x3C v) s = .next t ∧ { t with done := s.done } = s ∧
      ∀ b, b < 8 → t.done.getLsbD b = (s.done.getLsbD b && !v.getLsbD b)) ∧
    (∃ t, handleEvent (hostW 0x10 v) s = .next t ∧ { t with irqEn := s.irqEn } = s ∧
      ∀ b, b < 5 → t.irqEn.getLsbD b = v.getLsbD b)) ∧
  (∀ s : State, irqOut s = true ↔ ∃ b, b < 5 ∧ s.irqPend.getLsbD b = true ∧ s.irqEn.getLsbD b = true)

/-- R124, R125: a TBL_DATA access outside its table raises TBL_BAD_ADDR, a write to an active bank TBL_ACTIVE_WRITE; any other
read returns the selected entry sign-extended, any other write stores it in the shadow bank; INDEX advances every time. -/
def Obligations.TableAccessByHost : Prop :=
  ∀ (s : State) (v : Word), s.rst = false →
    ((∀ t : TableId, t.num = s.tblTable.toNat → t.len ≤ s.tblIndex.toNat) →
      handleEvent (hostR 0x24) s =
        .next { withTableError .tblBadAddr (tblAddrWord s) s with tblIndex := s.tblIndex + 1, rdata := 0 } ∧
      handleEvent (hostW 0x24 v) s =
        .next { withTableError .tblBadAddr (tblAddrWord s) s with tblIndex := s.tblIndex + 1 }) ∧
    (∀ (t : TableId) (b : Bool), t.num = s.tblTable.toNat → s.tblIndex.toNat < t.len →
      b = (if t = .lfoWave then false else if s.tblBankSel then activeBank s t else !(activeBank s t)) →
      handleEvent (hostR 0x24) s =
        .next { s with tblIndex := s.tblIndex + 1, rdata := (tableRead s t b s.tblIndex.toNat).signExtend 32 } ∧
      (t ≠ .lfoWave → s.tblBankSel = true →
        handleEvent (hostW 0x24 v) s =
          .next { withTableError .tblActiveWrite (tblAddrWord s) s with tblIndex := s.tblIndex + 1 }) ∧
      (t = .lfoWave ∨ s.tblBankSel = false →
        ∃ u, handleEvent (hostW 0x24 v) s = .next u ∧
          tableRead u t b s.tblIndex.toNat = v.extractLsb' 0 24 ∧
          (∀ (t' : TableId) (b' : Bool) (i : Nat), i < t'.len → ¬(t' = t ∧ b' = b ∧ i = s.tblIndex.toNat) →
            tableRead u t' b' i = tableRead s t' b' i) ∧
          { u with tables := s.tables, tblIndex := s.tblIndex } = s ∧ u.tblIndex = s.tblIndex + 1))

/-- R125, R127, R131 (e): no step but a TBL_DATA write changes the table RAM, reset included (R126), and no TBL_DATA write
changes an entry of a bank the datapath reads, LFO_WAVE apart. -/
def Obligations.ActiveTablesAreStable : Prop :=
  (∀ (s s' t : State) (e : EnvEvent), nextEvent s = (e, s') → step s = .next t → (∀ v, e ≠ hostW 0x24 v) →
    t.tables = s.tables) ∧
  (∀ (s u : State) (v : Word), handleEvent (hostW 0x24 v) s = .next u →
    ∀ (t : TableId) (i : Nat), t ≠ .lfoWave → i < t.len →
      activeBank u t = activeBank s t ∧ tableRead u t (activeBank s t) i = tableRead s t (activeBank s t) i)

/-- R540, R542: SOFT_RESET resets every state element and keeps the table RAM; the other bits of the write are ignored. What
is kept beside the tables, the input ports, the read data and the model's own fields, is the model's choice (log 6). -/
def Obligations.SoftResetKeepsTables : Prop :=
  ∀ (s : State) (v : Word), s.rst = false → v.getLsbD 31 = true →
    ∃ t, handleEvent (hostW 0x04 v) s = .next t ∧ t.tables = s.tables ∧ t.run = false ∧
      { t with
        tables := [], voiceIn := State.reset.voiceIn, chainIn := 0, rst := false, rdata := 0, draws := 0, env := [] } =
        State.reset

/-- R540, R541: while RST is asserted, and once when it is released, every state element is at its reset value, that of
`State.reset`, and the table RAM is kept; a step during RST keeps it so, a TICK strobe meanwhile is ignored, and a release
without an assertion changes nothing. That accesses have no effect meanwhile, and what a reset keeps beside the tables, is the
model's reading (log 6). -/
def Obligations.ResetLineHoldsReset : Prop :=
  (∀ s : State, ∃ t, handleEvent (.driveRst true) s = .next t ∧ t.tables = s.tables ∧ t.rst = true ∧ atReset t) ∧
  (∀ s : State, s.rst = true →
    ∃ t, handleEvent (.driveRst false) s = .next t ∧ t.tables = s.tables ∧ t.rst = false ∧ atReset t) ∧
  (∀ s : State, s.rst = false → handleEvent (.driveRst false) s = .next s) ∧
  (∀ s : State, s.rst = true → handleEvent .tick s = .next s) ∧
  (∀ s t : State, resetHeld s → step s = .next t → resetHeld t)

/-- R30, R54, R55, R68, R540: what each register reads after reset, TBL_DATA apart, which is no stored register; every
parameter's target and current value at its reset value, IR_LEN included, with both impulse lengths 0; the output ports. -/
def Obligations.RegistersAfterReset : Prop :=
  (∀ (off : Nat) (v : Word),
    (off, v) ∈ ([(0x00, 0x42415353#32), (0x04, 0#32), (0x08, 0x00008000#32), (0x0C, 0#32), (0x10, 0#32), (0x14, 0#32),
      (0x18, 0#32), (0x1C, 0#32), (0x20, 0#32), (0x28, 0#32), (0x2C, 0#32), (0x30, 0#32), (0x34, 0#32), (0x38, 0#32),
      (0x3C, 0#32), (0x40, 0x10081108#32)] : List (Nat × Word)) →
    handleEvent (hostR off) State.reset = .next { State.reset with rdata := v }) ∧
  (∀ p : FileParam, tgtInt State.reset p = p.resetValue ∧ curInt State.reset p = p.resetValue) ∧
  (tgtWord State.reset .irLen = 0 ∧ curWord State.reset .irLen = 0 ∧ ∀ b : Bool, irLenOf State.reset b = 0) ∧
  (portOutL State.reset = 0 ∧ portOutR State.reset = 0 ∧ portEgOut State.reset = 0 ∧ irqOut State.reset = false ∧
    ∀ k, portEgGain State.reset k = 0)

/-- R48: the unmapped words 0x44 to 0xFC read 0 and ignore writes, without error. -/
def Obligations.UnmappedWordsReadZero : Prop :=
  ∀ (s : State) (word : BitVec 6) (v : Word), s.rst = false → 0x11 ≤ word.toNat →
    handleEvent (.busRead word) s = .next { s with rdata := 0 } ∧ handleEvent (.busWrite word v) s = .next s

/-- R30 to R47: what the host reads of a running machine, on the bus: the fields of STATUS, the slots' codes, the banks, the
targets and current values that PAR_SEL selects, and every plain register with its reserved bits 0; no such read changes the
machine. What it writes: CTRL without its command bits, TBL_ADDR and PAR_SEL store their fields and ignore their reserved bits,
and the read-only registers ignore writes. -/
def Obligations.RegisterReadsAndWrites : Prop :=
  (∀ s : State, s.rst = false → fifoInRange s → ∃ w : Word,
    handleEvent (hostR 0x08) s = .next { s with rdata := w } ∧
    (w.extractLsb' 0 9).toNat = s.fifo.length ∧ w.getLsbD 12 = s.run ∧ (w.getLsbD 13 = true ↔ s.wait ≠ 0) ∧
    (w.getLsbD 14 = true ↔ ∃ h, s.fifo = [h] ∧ opcodeOf h = 0x1#4) ∧
    (w.getLsbD 15 = true ↔ s.fifo = [] ∧ s.wait = 0) ∧ w.extractLsb' 24 3 = errCodeBits s.errCode ∧
    w &&& 0xF8FF0E00#32 = 0) ∧
  (∀ s : State, s.rst = false → ∃ w : Word,
    handleEvent (hostR 0x34) s = .next { s with rdata := w } ∧ w.extractLsb' 24 8 = 0 ∧
    ∀ k : SlotId, w.extractLsb' (3 * k.num) 3 = envStateBits (s.slots.get k).st) ∧
  (∀ s : State, s.rst = false →
    handleEvent (hostR 0x00) s = .next { s with rdata := 0x42415353#32 } ∧
    (∃ w : Word, handleEvent (hostR 0x04) s = .next { s with rdata := w } ∧
      w.getLsbD 0 = s.run ∧ w.getLsbD 1 = s.extInsert ∧ w &&& 0xFFFFFFFC#32 = 0) ∧
    handleEvent (hostR 0x0C) s = .next { s with rdata := s.irqPend.zeroExtend 32 } ∧
    handleEvent (hostR 0x10) s = .next { s with rdata := s.irqEn.zeroExtend 32 } ∧
    handleEvent (hostR 0x14) s = .next { s with rdata := 0 } ∧
    handleEvent (hostR 0x18) s = .next { s with rdata := s.errInfo } ∧
    handleEvent (hostR 0x1C) s = .next { s with rdata := s.sampleCnt } ∧
    (∃ w : Word, handleEvent (hostR 0x20) s = .next { s with rdata := w } ∧ w.extractLsb' 0 20 = s.tblIndex ∧
      w.getLsbD 27 = s.tblBankSel ∧ w.extractLsb' 28 3 = s.tblTable ∧ w &&& 0x87F00000#32 = 0) ∧
    handleEvent (hostR 0x28) s = .next { s with rdata := s.parSel.zeroExtend 32 } ∧
    handleEvent (hostR 0x38) s = .next { s with rdata := s.bank.zeroExtend 32 } ∧
    handleEvent (hostR 0x3C) s = .next { s with rdata := s.done.zeroExtend 32 } ∧
    handleEvent (hostR 0x40) s = .next { s with rdata := 0x10081108#32 }) ∧
  (∀ s : State, s.rst = false →
    (∀ p : FileParam, s.parSel = (Param.file p).id →
      handleEvent (hostR 0x2C) s = .next { s with rdata := s.tgt.get p } ∧
      handleEvent (hostR 0x30) s = .next { s with rdata := s.cur.get p }) ∧
    (s.parSel = 0x007#12 →
      handleEvent (hostR 0x2C) s = .next { s with rdata := (irLenOf s (!(s.bank.getLsbD 4))).zeroExtend 32 } ∧
      handleEvent (hostR 0x30) s = .next { s with rdata := (irLenOf s (s.bank.getLsbD 4)).zeroExtend 32 }) ∧
    ((∀ p : Param, p.id ≠ s.parSel) →
      handleEvent (hostR 0x2C) s = .next { s with rdata := 0 } ∧ handleEvent (hostR 0x30) s = .next { s with rdata := 0 })) ∧
  (∀ (s : State) (v : Word), s.rst = false →
    (v.getLsbD 31 = false → v.getLsbD 2 = false →
      handleEvent (hostW 0x04 v) s = .next { s with run := v.getLsbD 0, extInsert := v.getLsbD 1 }) ∧
    (∃ t, handleEvent (hostW 0x20 v) s = .next t ∧
      { t with tblTable := s.tblTable, tblBankSel := s.tblBankSel, tblIndex := s.tblIndex } = s ∧
      handleEvent (hostR 0x20) t = .next { t with rdata := v &&& 0x780FFFFF#32 }) ∧
    (∃ t, handleEvent (hostW 0x28 v) s = .next t ∧ { t with parSel := s.parSel } = s ∧
      handleEvent (hostR 0x28) t = .next { t with rdata := v &&& 0x00000FFF#32 }) ∧
    (∀ off ∈ [0x00, 0x08, 0x18, 0x1C, 0x2C, 0x30, 0x34, 0x38, 0x40], handleEvent (hostW off v) s = .next s))
end

