-- ==== Sys2Proof/Laws/Arith.lean ====
section
/-! SUPPORT. The laws of the arithmetic primitives that later proofs cite: clamping, saturation, the floor shift, the
stored forms. The laws of `rnd` and of the smoothing step that the spec states are obligations. -/

namespace Sys2Proof.Machine

theorem clamp_range {v lo hi : Int} (h : lo ≤ hi) : lo ≤ clamp v lo hi ∧ clamp v lo hi ≤ hi := by
  unfold clamp
  omega

theorem clamp_of_range {v lo hi : Int} (h : lo ≤ v) (h' : v ≤ hi) : clamp v lo hi = v := by
  unfold clamp
  omega

theorem sat24_range (v : Int) : -8388608 ≤ sat24 v ∧ sat24 v ≤ 8388607 := clamp_range (by decide)

theorem sat24_of_range {v : Int} (h : -8388608 ≤ v) (h' : v ≤ 8388607) : sat24 v = v := clamp_of_range h h'

/-- An int24 value is read back from its stored form. -/
theorem toInt_sampleOf {v : Int} (h : -8388608 ≤ v) (h' : v ≤ 8388607) : (sampleOf v).toInt = v := by
  simp only [sampleOf, BitVec.toInt_ofInt, Int.bmod]
  omega

/-- Storing what a sample reads as gives the sample. -/
theorem sampleOf_toInt (x : Sample) : sampleOf x.toInt = x := BitVec.ofInt_toInt

theorem sample_range (x : Sample) : -8388608 ≤ x.toInt ∧ x.toInt ≤ 8388607 := by
  have h1 := BitVec.le_toInt x
  have h2 := BitVec.toInt_lt (x := x)
  norm_num at h1 h2
  omega

/-- The sample that a saturated value is stored as reads as the saturated value. -/
theorem toInt_sampleOf_sat24 (v : Int) : (sampleOf (sat24 v)).toInt = sat24 v :=
  toInt_sampleOf (sat24_range v).1 (sat24_range v).2

/-- A 24-bit unsigned value is read back from its stored form. -/
theorem u24Int_u24Of {v : Int} (h : 0 ≤ v) (h' : v < 16777216) : u24Int (u24Of v) = v := by
  simp only [u24Int, u24Of, BitVec.toNat_ofInt]
  omega

theorem u24_range (v : U24) : 0 ≤ u24Int v ∧ u24Int v < 16777216 := by
  have := v.isLt
  simp only [u24Int]
  omega

/-- The floor shift brackets its argument (R10). -/
theorem asr_bounds (a : Int) (s : Nat) : asr a s * ((2 ^ s : Nat) : Int) ≤ a ∧ a < (asr a s + 1) * ((2 ^ s : Nat) : Int) := by
  have h : (0 : Int) < ((2 ^ s : Nat) : Int) := by positivity
  unfold asr
  constructor
  · exact Int.ediv_mul_le a (ne_of_gt h)
  · exact Int.lt_ediv_add_one_mul_self a h

theorem asr_mono {a b : Int} (s : Nat) (h : a ≤ b) : asr a s ≤ asr b s := Int.ediv_le_ediv (by positivity) h

theorem asr_nonneg {a : Int} (s : Nat) (h : 0 ≤ a) : 0 ≤ asr a s := Int.ediv_nonneg h (by positivity)

theorem rnd_zero (v : Int) : rnd v 0 = v := rfl

theorem rnd_succ (v : Int) (s : Nat) : rnd v (s + 1) = asr (v + ((2 ^ s : Nat) : Int)) (s + 1) := rfl

end Sys2Proof.Machine
end

