-- ==== Sys2Proof/Laws/Cells.lean ====
section
/-! SUPPORT. The laws of the sparse memories: read after write, every other entry left alone, and the canonical form kept
by every memory operation. -/

namespace Sys2Proof.Machine

/-! ### Reading what was written -/

@[simp] theorem cellFind_nil (a : Nat) : cellFind? [] a = none := rfl

@[simp] theorem cellFind_cons_self (m : Cells) (a : Nat) (v : Sample) : cellFind? ((a, v) :: m) a = some v := by
  simp [cellFind?]

theorem cellFind_cons_ne (m : Cells) {k a : Nat} (v : Sample) (h : k ≠ a) : cellFind? ((k, v) :: m) a = cellFind? m a := by
  simp [cellFind?, h]

@[simp] theorem cellFind_insert_self (m : Cells) (a : Nat) (v : Sample) : cellFind? (cellInsert m a v) a = some v := by
  induction m with
  | nil => simp [cellInsert]
  | cons c m ih =>
    obtain ⟨k, w⟩ := c
    unfold cellInsert
    split
    · simp
    · split
      · simp
      · rename_i h
        rw [cellFind_cons_ne _ _ (Ne.symm h), ih]

theorem cellFind_insert_ne (m : Cells) {a b : Nat} (v : Sample) (h : b ≠ a) :
    cellFind? (cellInsert m a v) b = cellFind? m b := by
  induction m with
  | nil => simp [cellInsert, cellFind?, Ne.symm h]
  | cons c m ih =>
    obtain ⟨k, w⟩ := c
    unfold cellInsert
    split
    · exact cellFind_cons_ne _ _ (Ne.symm h)
    · split
      · rename_i hk
        subst hk
        rw [cellFind_cons_ne _ _ (Ne.symm h), cellFind_cons_ne _ _ (Ne.symm h)]
      · by_cases hb : k = b
        · subst hb
          simp
        · rw [cellFind_cons_ne _ _ hb, cellFind_cons_ne _ _ hb, ih]

theorem cellErase_cons (m : Cells) (k a : Nat) (w : Sample) :
    cellErase ((k, w) :: m) a = if k = a then cellErase m a else (k, w) :: cellErase m a := by
  by_cases h : k = a <;> simp [cellErase, h]

@[simp] theorem cellFind_erase_self (m : Cells) (a : Nat) : cellFind? (cellErase m a) a = none := by
  induction m with
  | nil => rfl
  | cons c m ih =>
    obtain ⟨k, w⟩ := c
    rw [cellErase_cons]
    split
    · exact ih
    · rename_i h
      rw [cellFind_cons_ne _ _ h, ih]

theorem cellFind_erase_ne (m : Cells) {a b : Nat} (h : b ≠ a) : cellFind? (cellErase m a) b = cellFind? m b := by
  induction m with
  | nil => rfl
  | cons c m ih =>
    obtain ⟨k, w⟩ := c
    rw [cellErase_cons]
    split
    · rename_i hk
      subst hk
      rw [ih, cellFind_cons_ne _ _ (Ne.symm h)]
    · by_cases hb : k = b
      · subst hb
        simp
      · rw [cellFind_cons_ne _ _ hb, cellFind_cons_ne _ _ hb, ih]

/-- A write of a reset memory is read back, a written 0 too. -/
@[simp] theorem ramRead_write_self (m : Cells) (a : Nat) (v : Sample) : ramRead (ramWrite m a v) a = v := by
  unfold ramRead ramWrite
  split
  · rename_i h
    simp [h]
  · simp

/-- A write of a reset memory leaves every other entry alone. -/
theorem ramRead_write_ne (m : Cells) {a b : Nat} (v : Sample) (h : b ≠ a) : ramRead (ramWrite m a v) b = ramRead m b := by
  unfold ramRead ramWrite
  split
  · rw [cellFind_erase_ne _ h]
  · rw [cellFind_insert_ne _ _ h]

/-! ### The canonical form -/

theorem cellsRising_cons {lo bound k : Nat} {v : Sample} {m : Cells} :
    cellsRising lo bound ((k, v) :: m) = true ↔ lo ≤ k ∧ k < bound ∧ cellsRising (k + 1) bound m = true := by
  simp [cellsRising, and_assoc]

theorem cellsRising_weaken {lo lo' bound : Nat} {m : Cells} (h : cellsRising lo bound m = true) (hl : lo' ≤ lo) :
    cellsRising lo' bound m = true := by
  cases m with
  | nil => rfl
  | cons c m =>
    obtain ⟨k, v⟩ := c
    rw [cellsRising_cons] at h ⊢
    exact ⟨le_trans hl h.1, h.2⟩

theorem cellInsert_rising {lo bound a : Nat} {m : Cells} (v : Sample) (h : cellsRising lo bound m = true) (hlo : lo ≤ a)
    (hb : a < bound) : cellsRising lo bound (cellInsert m a v) = true := by
  induction m generalizing lo with
  | nil => simp [cellInsert, cellsRising, hlo, hb]
  | cons c m ih =>
    obtain ⟨k, w⟩ := c
    rw [cellsRising_cons] at h
    unfold cellInsert
    split
    · rename_i hk
      exact cellsRising_cons.2 ⟨hlo, hb, cellsRising_cons.2 ⟨hk, h.2⟩⟩
    · split
      · rename_i hk
        subst hk
        exact cellsRising_cons.2 ⟨hlo, hb, h.2.2⟩
      · exact cellsRising_cons.2 ⟨h.1, h.2.1, ih h.2.2 (by omega)⟩

theorem cellErase_rising {lo bound : Nat} {m : Cells} (a : Nat) (h : cellsRising lo bound m = true) :
    cellsRising lo bound (cellErase m a) = true := by
  induction m generalizing lo with
  | nil => rfl
  | cons c m ih =>
    obtain ⟨k, w⟩ := c
    rw [cellsRising_cons] at h
    rw [cellErase_cons]
    split
    · exact ih (cellsRising_weaken h.2.2 (by omega))
    · exact cellsRising_cons.2 ⟨h.1, h.2.1, ih h.2.2⟩

theorem cellInsert_mem {m : Cells} {a : Nat} {v : Sample} {c : Nat × Sample} (h : c ∈ cellInsert m a v) :
    c = (a, v) ∨ c ∈ m := by
  induction m with
  | nil => simpa [cellInsert] using h
  | cons d m ih =>
    obtain ⟨k, w⟩ := d
    unfold cellInsert at h
    split at h
    · simpa using h
    · split at h
      · rcases List.mem_cons.1 h with h | h
        · exact .inl h
        · exact .inr (List.mem_cons_of_mem _ h)
      · rcases List.mem_cons.1 h with h | h
        · exact .inr (by simp [h])
        · rcases ih h with h | h
          · exact .inl h
          · exact .inr (List.mem_cons_of_mem _ h)

theorem ramWf_iff {bound : Nat} {m : Cells} :
    ramWf bound m = true ↔ cellsRising 0 bound m = true ∧ ∀ c ∈ m, c.2 ≠ 0 := by
  simp [ramWf, List.all_eq_true]

/-- A write within the bound keeps the canonical form of a reset memory. -/
theorem ramWrite_wf {bound a : Nat} {m : Cells} (v : Sample) (h : ramWf bound m = true) (hb : a < bound) :
    ramWf bound (ramWrite m a v) = true := by
  rw [ramWf_iff] at h ⊢
  unfold ramWrite
  split
  · exact ⟨cellErase_rising a h.1, fun c hc => h.2 c (List.mem_of_mem_filter hc)⟩
  · rename_i hv
    refine ⟨cellInsert_rising v h.1 (Nat.zero_le _) hb, fun c hc => ?_⟩
    rcases cellInsert_mem hc with hc | hc
    · rw [hc]
      exact hv
    · exact h.2 c hc

theorem histOlder_rising {lo : Nat} {m : Cells} (h : cellsRising lo Config.IR_MAX_LEN m = true) :
    cellsRising (lo + 1) Config.IR_MAX_LEN (histOlder m) = true := by
  induction m generalizing lo with
  | nil => rfl
  | cons c m ih =>
    obtain ⟨k, w⟩ := c
    rw [cellsRising_cons] at h
    unfold histOlder
    split
    · rename_i hk
      exact cellsRising_cons.2 ⟨by omega, hk, ih h.2.2⟩
    · exact cellsRising_weaken (ih h.2.2) (by omega)

theorem histOlder_mem {m : Cells} {c : Nat × Sample} (h : c ∈ histOlder m) : ∃ k, (k, c.2) ∈ m ∧ c.1 = k + 1 := by
  induction m with
  | nil => cases h
  | cons d m ih =>
    obtain ⟨k, w⟩ := d
    unfold histOlder at h
    split at h
    · rcases List.mem_cons.1 h with h | h
      · exact ⟨k, by simp [h], by simp [h]⟩
      · obtain ⟨j, hj, e⟩ := ih h
        exact ⟨j, List.mem_cons_of_mem _ hj, e⟩
    · obtain ⟨j, hj, e⟩ := ih h
      exact ⟨j, List.mem_cons_of_mem _ hj, e⟩

/-- The history keeps its canonical form (R430). -/
theorem histPush_wf {m : Cells} (p : Sample) (h : ramWf Config.IR_MAX_LEN m = true) :
    ramWf Config.IR_MAX_LEN (histPush m p) = true := by
  refine ramWrite_wf p ?_ (by decide)
  rw [ramWf_iff] at h ⊢
  refine ⟨cellsRising_weaken (histOlder_rising h.1) (Nat.zero_le _), fun c hc => ?_⟩
  obtain ⟨k, hk, -⟩ := histOlder_mem hc
  exact h.2 (k, c.2) hk

/-! ### Tables -/

theorem TableId.num_lt (t : TableId) : t.num < 7 := by
  cases t with
  | curve c => cases c <;> decide
  | irL => decide
  | irR => decide
  | lfoWave => decide

theorem TableId.num_inj {t u : TableId} (h : t.num = u.num) : t = u := by
  cases t with
  | curve c => cases c <;> cases u <;> first | rfl | (rename_i d; cases d <;> simp_all [TableId.num, Curve.num]) | simp_all [TableId.num, Curve.num]
  | irL => cases u <;> first | rfl | (rename_i d; cases d <;> simp_all [TableId.num, Curve.num]) | simp_all [TableId.num]
  | irR => cases u <;> first | rfl | (rename_i d; cases d <;> simp_all [TableId.num, Curve.num]) | simp_all [TableId.num]
  | lfoWave => cases u <;> first | rfl | (rename_i d; cases d <;> simp_all [TableId.num, Curve.num]) | simp_all [TableId.num]

/-- Different entries have different addresses. -/
theorem tableAddr_inj {t u : TableId} {b c : Bool} {i j : Nat} (hi : i < Config.IR_MAX_LEN) (hj : j < Config.IR_MAX_LEN)
    (h : tableAddr t b i = tableAddr u c j) : t = u ∧ b = c ∧ i = j := by
  simp only [tableAddr, Config.IR_MAX_LEN] at *
  have hb : b.toNat < 2 := by cases b <;> decide
  have hc : c.toNat < 2 := by cases c <;> decide
  have hn : t.num = u.num := by omega
  have hbc : b.toNat = c.toNat := by omega
  refine ⟨TableId.num_inj hn, ?_, by omega⟩
  cases b <;> cases c <;> first | rfl | simp_all

/-- Every table fits in a bank's part of the table space. -/
theorem TableId.len_le (t : TableId) : t.len ≤ Config.IR_MAX_LEN := by
  cases t with
  | curve c => show 1025 ≤ 131072; omega
  | irL => exact Nat.le_refl _
  | irR => exact Nat.le_refl _
  | lfoWave => show 256 ≤ 131072; omega

/-- An entry of a table is in the table space. -/
theorem tableAddr_lt {t : TableId} {b : Bool} {i : Nat} (h : i < t.len) : tableAddr t b i < tableSpace := by
  have hn := t.num_lt
  have hl := t.len_le
  have hb : b.toNat < 2 := by cases b <;> decide
  simp only [tableAddr, tableSpace, Config.IR_MAX_LEN] at *
  omega

@[simp] theorem tableRead_write_self (s : State) (t : TableId) (b : Bool) (i : Nat) (v : Sample) :
    tableRead (tableWrite s t b i v) t b i = v := by
  simp [tableRead, tableWrite]

/-- A table write leaves every other entry alone, whatever its bank and table. -/
theorem tableRead_write_ne (s : State) {t u : TableId} {b c : Bool} {i j : Nat} (v : Sample)
    (hi : i < Config.IR_MAX_LEN) (hj : j < Config.IR_MAX_LEN) (h : ¬(u = t ∧ c = b ∧ j = i)) :
    tableRead (tableWrite s t b i v) u c j = tableRead s u c j := by
  have : tableAddr u c j ≠ tableAddr t b i := fun e => h (tableAddr_inj hj hi e)
  simp [tableRead, tableWrite, cellFind_insert_ne _ _ this]

end Sys2Proof.Machine
end

