-- ==== Sys2Proof/Laws/Names.lean ====
section
/-! SUPPORT. The laws of the tables of Machine/Names.lean: reading what was written, leaving the other entries alone,
reading a tabulated function, equality of tables entry by entry, and the numbering of the names. -/

namespace Sys2Proof.Machine

@[simp] theorem TechMap.get_set_self {α : Type} (m : TechMap α) (k : Tech) (v : α) : (m.set k v).get k = v := by
  cases k <;> rfl

theorem TechMap.get_set_ne {α : Type} (m : TechMap α) {k j : Tech} (v : α) (h : j ≠ k) : (m.set k v).get j = m.get j := by
  cases k <;> cases j <;> first | rfl | exact absurd rfl h

@[simp] theorem TechMap.get_tabulate {α : Type} (f : Tech → α) (k : Tech) : (TechMap.tabulate f).get k = f k := by
  cases k <;> rfl

theorem TechMap.ext_get {α : Type} {m n : TechMap α} (h : ∀ k, m.get k = n.get k) : m = n := by
  cases m; cases n
  simp only [TechMap.mk.injEq]
  exact ⟨h .finger, h .slap, h .pop, h .mute, h .pick⟩

@[simp] theorem Tech.ofNum?_num (k : Tech) : Tech.ofNum? k.num = some k := by
  cases k <;> rfl

theorem Tech.num_of_ofNum? {n : Nat} {k : Tech} (h : Tech.ofNum? n = some k) : k.num = n := by
  unfold Tech.ofNum? at h
  split at h <;> cases h <;> rfl

theorem Tech.num_lt (k : Tech) : k.num < 5 := by
  cases k <;> decide

theorem Tech.mem_all (k : Tech) : k ∈ Tech.all := by
  cases k <;> simp [Tech.all]

@[simp] theorem TechRow.get_set_self {α : Type} (m : TechRow α) (k : TechField) (v : α) : (m.set k v).get k = v := by
  cases k <;> rfl

theorem TechRow.get_set_ne {α : Type} (m : TechRow α) {k j : TechField} (v : α) (h : j ≠ k) : (m.set k v).get j = m.get j := by
  cases k <;> cases j <;> first | rfl | exact absurd rfl h

@[simp] theorem TechRow.get_tabulate {α : Type} (f : TechField → α) (k : TechField) : (TechRow.tabulate f).get k = f k := by
  cases k <;> rfl

theorem TechRow.ext_get {α : Type} {m n : TechRow α} (h : ∀ k, m.get k = n.get k) : m = n := by
  cases m; cases n
  simp only [TechRow.mk.injEq]
  exact ⟨h .aLen, h .dLen, h .dk, h .sus, h .nk⟩

@[simp] theorem TechField.ofNum?_num (k : TechField) : TechField.ofNum? k.num = some k := by
  cases k <;> rfl

theorem TechField.num_of_ofNum? {n : Nat} {k : TechField} (h : TechField.ofNum? n = some k) : k.num = n := by
  unfold TechField.ofNum? at h
  split at h <;> cases h <;> rfl

theorem TechField.num_lt (k : TechField) : k.num < 5 := by
  cases k <;> decide

theorem TechField.mem_all (k : TechField) : k ∈ TechField.all := by
  cases k <;> simp [TechField.all]

@[simp] theorem StageMap.get_set_self {α : Type} (m : StageMap α) (k : Stage) (v : α) : (m.set k v).get k = v := by
  cases k <;> rfl

theorem StageMap.get_set_ne {α : Type} (m : StageMap α) {k j : Stage} (v : α) (h : j ≠ k) : (m.set k v).get j = m.get j := by
  cases k <;> cases j <;> first | rfl | exact absurd rfl h

@[simp] theorem StageMap.get_tabulate {α : Type} (f : Stage → α) (k : Stage) : (StageMap.tabulate f).get k = f k := by
  cases k <;> rfl

theorem StageMap.ext_get {α : Type} {m n : StageMap α} (h : ∀ k, m.get k = n.get k) : m = n := by
  cases m; cases n
  simp only [StageMap.mk.injEq]
  exact ⟨h .autowah, h .fuzz, h .od, h .chorus, h .phaser, h .delay, h .reverb, h .eq5, h .preamp, h .tape⟩

@[simp] theorem Stage.ofNum?_num (k : Stage) : Stage.ofNum? k.num = some k := by
  cases k <;> rfl

theorem Stage.num_of_ofNum? {n : Nat} {k : Stage} (h : Stage.ofNum? n = some k) : k.num = n := by
  unfold Stage.ofNum? at h
  split at h <;> cases h <;> rfl

theorem Stage.num_lt (k : Stage) : k.num < 10 := by
  cases k <;> decide

theorem Stage.mem_all (k : Stage) : k ∈ Stage.all := by
  cases k <;> simp [Stage.all]

@[simp] theorem CoefMap.get_set_self {α : Type} (m : CoefMap α) (k : Coef) (v : α) : (m.set k v).get k = v := by
  cases k <;> rfl

theorem CoefMap.get_set_ne {α : Type} (m : CoefMap α) {k j : Coef} (v : α) (h : j ≠ k) : (m.set k v).get j = m.get j := by
  cases k <;> cases j <;> first | rfl | exact absurd rfl h

@[simp] theorem CoefMap.get_tabulate {α : Type} (f : Coef → α) (k : Coef) : (CoefMap.tabulate f).get k = f k := by
  cases k <;> rfl

theorem CoefMap.ext_get {α : Type} {m n : CoefMap α} (h : ∀ k, m.get k = n.get k) : m = n := by
  cases m; cases n
  simp only [CoefMap.mk.injEq]
  exact ⟨h .b0, h .b1, h .b2, h .a1, h .a2⟩

@[simp] theorem Coef.ofNum?_num (k : Coef) : Coef.ofNum? k.num = some k := by
  cases k <;> rfl

theorem Coef.num_of_ofNum? {n : Nat} {k : Coef} (h : Coef.ofNum? n = some k) : k.num = n := by
  unfold Coef.ofNum? at h
  split at h <;> cases h <;> rfl

theorem Coef.num_lt (k : Coef) : k.num < 5 := by
  cases k <;> decide

theorem Coef.mem_all (k : Coef) : k ∈ Coef.all := by
  cases k <;> simp [Coef.all]

@[simp] theorem SectMap.get_set_self {α : Type} (m : SectMap α) (k : Sect) (v : α) : (m.set k v).get k = v := by
  cases k <;> rfl

theorem SectMap.get_set_ne {α : Type} (m : SectMap α) {k j : Sect} (v : α) (h : j ≠ k) : (m.set k v).get j = m.get j := by
  cases k <;> cases j <;> first | rfl | exact absurd rfl h

@[simp] theorem SectMap.get_tabulate {α : Type} (f : Sect → α) (k : Sect) : (SectMap.tabulate f).get k = f k := by
  cases k <;> rfl

theorem SectMap.ext_get {α : Type} {m n : SectMap α} (h : ∀ k, m.get k = n.get k) : m = n := by
  cases m; cases n
  simp only [SectMap.mk.injEq]
  exact ⟨h .fuzzTone, h .odBass, h .odTreble, h .odTone, h .delayDamp, h .eqLow, h .eqMid1, h .eqMid2, h .eqHigh, h .eqPres, h .preBass, h .preMid, h .preTreble, h .prePres, h .tapeDamp, h .ampContour, h .ampBass, h .ampMid, h .ampTreble, h .ampPres, h .ampCab⟩

@[simp] theorem Sect.ofNum?_num (k : Sect) : Sect.ofNum? k.num = some k := by
  cases k <;> rfl

theorem Sect.num_of_ofNum? {n : Nat} {k : Sect} (h : Sect.ofNum? n = some k) : k.num = n := by
  unfold Sect.ofNum? at h
  split at h <;> cases h <;> rfl

theorem Sect.num_lt (k : Sect) : k.num < 21 := by
  cases k <;> decide

theorem Sect.mem_all (k : Sect) : k ∈ Sect.all := by
  cases k <;> simp [Sect.all]

@[simp] theorem MSectMap.get_set_self {α : Type} (m : MSectMap α) (k : MSect) (v : α) : (m.set k v).get k = v := by
  cases k <;> rfl

theorem MSectMap.get_set_ne {α : Type} (m : MSectMap α) {k j : MSect} (v : α) (h : j ≠ k) : (m.set k v).get j = m.get j := by
  cases k <;> cases j <;> first | rfl | exact absurd rfl h

@[simp] theorem MSectMap.get_tabulate {α : Type} (f : MSect → α) (k : MSect) : (MSectMap.tabulate f).get k = f k := by
  cases k <;> rfl

theorem MSectMap.ext_get {α : Type} {m n : MSectMap α} (h : ∀ k, m.get k = n.get k) : m = n := by
  cases m; cases n
  simp only [MSectMap.mk.injEq]
  exact ⟨h .wah, h .ph1, h .ph2, h .ph3, h .ph4⟩

@[simp] theorem MSect.ofNum?_num (k : MSect) : MSect.ofNum? k.num = some k := by
  cases k <;> rfl

theorem MSect.num_of_ofNum? {n : Nat} {k : MSect} (h : MSect.ofNum? n = some k) : k.num = n := by
  unfold MSect.ofNum? at h
  split at h <;> cases h <;> rfl

theorem MSect.num_lt (k : MSect) : k.num < 5 := by
  cases k <;> decide

theorem MSect.mem_all (k : MSect) : k ∈ MSect.all := by
  cases k <;> simp [MSect.all]

@[simp] theorem LineMap.get_set_self {α : Type} (m : LineMap α) (k : Line) (v : α) : (m.set k v).get k = v := by
  cases k <;> rfl

theorem LineMap.get_set_ne {α : Type} (m : LineMap α) {k j : Line} (v : α) (h : j ≠ k) : (m.set k v).get j = m.get j := by
  cases k <;> cases j <;> first | rfl | exact absurd rfl h

@[simp] theorem LineMap.get_tabulate {α : Type} (f : Line → α) (k : Line) : (LineMap.tabulate f).get k = f k := by
  cases k <;> rfl

theorem LineMap.ext_get {α : Type} {m n : LineMap α} (h : ∀ k, m.get k = n.get k) : m = n := by
  cases m; cases n
  simp only [LineMap.mk.injEq]
  exact ⟨h .chorus, h .delay, h .revpre, h .tape⟩

@[simp] theorem Line.ofNum?_num (k : Line) : Line.ofNum? k.num = some k := by
  cases k <;> rfl

theorem Line.num_of_ofNum? {n : Nat} {k : Line} (h : Line.ofNum? n = some k) : k.num = n := by
  unfold Line.ofNum? at h
  split at h <;> cases h <;> rfl

theorem Line.num_lt (k : Line) : k.num < 4 := by
  cases k <;> decide

theorem Line.mem_all (k : Line) : k ∈ Line.all := by
  cases k <;> simp [Line.all]

@[simp] theorem ModLineMap.get_set_self {α : Type} (m : ModLineMap α) (k : ModLine) (v : α) : (m.set k v).get k = v := by
  cases k <;> rfl

theorem ModLineMap.get_set_ne {α : Type} (m : ModLineMap α) {k j : ModLine} (v : α) (h : j ≠ k) : (m.set k v).get j = m.get j := by
  cases k <;> cases j <;> first | rfl | exact absurd rfl h

@[simp] theorem ModLineMap.get_tabulate {α : Type} (f : ModLine → α) (k : ModLine) : (ModLineMap.tabulate f).get k = f k := by
  cases k <;> rfl

theorem ModLineMap.ext_get {α : Type} {m n : ModLineMap α} (h : ∀ k, m.get k = n.get k) : m = n := by
  cases m; cases n
  simp only [ModLineMap.mk.injEq]
  exact ⟨h .chorus, h .delay, h .tape⟩

@[simp] theorem ModLine.ofNum?_num (k : ModLine) : ModLine.ofNum? k.num = some k := by
  cases k <;> rfl

theorem ModLine.num_of_ofNum? {n : Nat} {k : ModLine} (h : ModLine.ofNum? n = some k) : k.num = n := by
  unfold ModLine.ofNum? at h
  split at h <;> cases h <;> rfl

theorem ModLine.num_lt (k : ModLine) : k.num < 3 := by
  cases k <;> decide

theorem ModLine.mem_all (k : ModLine) : k ∈ ModLine.all := by
  cases k <;> simp [ModLine.all]

@[simp] theorem LfoMap.get_set_self {α : Type} (m : LfoMap α) (k : Lfo) (v : α) : (m.set k v).get k = v := by
  cases k <;> rfl

theorem LfoMap.get_set_ne {α : Type} (m : LfoMap α) {k j : Lfo} (v : α) (h : j ≠ k) : (m.set k v).get j = m.get j := by
  cases k <;> cases j <;> first | rfl | exact absurd rfl h

@[simp] theorem LfoMap.get_tabulate {α : Type} (f : Lfo → α) (k : Lfo) : (LfoMap.tabulate f).get k = f k := by
  cases k <;> rfl

theorem LfoMap.ext_get {α : Type} {m n : LfoMap α} (h : ∀ k, m.get k = n.get k) : m = n := by
  cases m; cases n
  simp only [LfoMap.mk.injEq]
  exact ⟨h .lfo0, h .lfo1, h .lfo2⟩

@[simp] theorem Lfo.ofNum?_num (k : Lfo) : Lfo.ofNum? k.num = some k := by
  cases k <;> rfl

theorem Lfo.num_of_ofNum? {n : Nat} {k : Lfo} (h : Lfo.ofNum? n = some k) : k.num = n := by
  unfold Lfo.ofNum? at h
  split at h <;> cases h <;> rfl

theorem Lfo.num_lt (k : Lfo) : k.num < 3 := by
  cases k <;> decide

theorem Lfo.mem_all (k : Lfo) : k ∈ Lfo.all := by
  cases k <;> simp [Lfo.all]

@[simp] theorem SlotMap.get_set_self {α : Type} (m : SlotMap α) (k : SlotId) (v : α) : (m.set k v).get k = v := by
  cases k <;> rfl

theorem SlotMap.get_set_ne {α : Type} (m : SlotMap α) {k j : SlotId} (v : α) (h : j ≠ k) : (m.set k v).get j = m.get j := by
  cases k <;> cases j <;> first | rfl | exact absurd rfl h

@[simp] theorem SlotMap.get_tabulate {α : Type} (f : SlotId → α) (k : SlotId) : (SlotMap.tabulate f).get k = f k := by
  cases k <;> rfl

theorem SlotMap.ext_get {α : Type} {m n : SlotMap α} (h : ∀ k, m.get k = n.get k) : m = n := by
  cases m; cases n
  simp only [SlotMap.mk.injEq]
  exact ⟨h .s0, h .s1, h .s2, h .s3, h .s4, h .s5, h .s6, h .s7⟩

@[simp] theorem SlotId.ofNum?_num (k : SlotId) : SlotId.ofNum? k.num = some k := by
  cases k <;> rfl

theorem SlotId.num_of_ofNum? {n : Nat} {k : SlotId} (h : SlotId.ofNum? n = some k) : k.num = n := by
  unfold SlotId.ofNum? at h
  split at h <;> cases h <;> rfl

theorem SlotId.num_lt (k : SlotId) : k.num < 8 := by
  cases k <;> decide

theorem SlotId.mem_all (k : SlotId) : k ∈ SlotId.all := by
  cases k <;> simp [SlotId.all]

@[simp] theorem ChanMap.get_set_self {α : Type} (m : ChanMap α) (k : Chan) (v : α) : (m.set k v).get k = v := by
  cases k <;> rfl

theorem ChanMap.get_set_ne {α : Type} (m : ChanMap α) {k j : Chan} (v : α) (h : j ≠ k) : (m.set k v).get j = m.get j := by
  cases k <;> cases j <;> first | rfl | exact absurd rfl h

@[simp] theorem ChanMap.get_tabulate {α : Type} (f : Chan → α) (k : Chan) : (ChanMap.tabulate f).get k = f k := by
  cases k <;> rfl

theorem ChanMap.ext_get {α : Type} {m n : ChanMap α} (h : ∀ k, m.get k = n.get k) : m = n := by
  cases m; cases n
  simp only [ChanMap.mk.injEq]
  exact ⟨h .left, h .right⟩

@[simp] theorem Chan.ofNum?_num (k : Chan) : Chan.ofNum? k.num = some k := by
  cases k <;> rfl

theorem Chan.num_of_ofNum? {n : Nat} {k : Chan} (h : Chan.ofNum? n = some k) : k.num = n := by
  unfold Chan.ofNum? at h
  split at h <;> cases h <;> rfl

theorem Chan.num_lt (k : Chan) : k.num < 2 := by
  cases k <;> decide

theorem Chan.mem_all (k : Chan) : k ∈ Chan.all := by
  cases k <;> simp [Chan.all]

@[simp] theorem CurveMap.get_set_self {α : Type} (m : CurveMap α) (k : Curve) (v : α) : (m.set k v).get k = v := by
  cases k <;> rfl

theorem CurveMap.get_set_ne {α : Type} (m : CurveMap α) {k j : Curve} (v : α) (h : j ≠ k) : (m.set k v).get j = m.get j := by
  cases k <;> cases j <;> first | rfl | exact absurd rfl h

@[simp] theorem CurveMap.get_tabulate {α : Type} (f : Curve → α) (k : Curve) : (CurveMap.tabulate f).get k = f k := by
  cases k <;> rfl

theorem CurveMap.ext_get {α : Type} {m n : CurveMap α} (h : ∀ k, m.get k = n.get k) : m = n := by
  cases m; cases n
  simp only [CurveMap.mk.injEq]
  exact ⟨h .fuzz, h .od, h .pre, h .tape⟩

@[simp] theorem Curve.ofNum?_num (k : Curve) : Curve.ofNum? k.num = some k := by
  cases k <;> rfl

theorem Curve.num_of_ofNum? {n : Nat} {k : Curve} (h : Curve.ofNum? n = some k) : k.num = n := by
  unfold Curve.ofNum? at h
  split at h <;> cases h <;> rfl

theorem Curve.num_lt (k : Curve) : k.num < 4 := by
  cases k <;> decide

theorem Curve.mem_all (k : Curve) : k ∈ Curve.all := by
  cases k <;> simp [Curve.all]

end Sys2Proof.Machine
end

