-- ==== Sys2Proof/Laws/Datapath.lean ====
section
/-! SUPPORT. What the operations of the chain give: the stored result of each arithmetic operation as an integer, and for each
operation on a channel, field by field, the channel after it. Proofs about the chain rewrite with these and unfold no
operation. -/

namespace Sys2Proof.Machine

/-! ### Stored results -/

@[simp] theorem toInt_gainBy (s : State) (p : FileParam) (x : Sample) :
    (gainBy s p x).toInt = sat24 (rnd (x.toInt * curInt s p) 24) := toInt_sampleOf_sat24 _

@[simp] theorem toInt_mixStage (s : State) (g : Stage) (x w : Sample) :
    (mixStage s g x w).toInt = sat24 (rnd (curInt s (.dry g) * x.toInt + curInt s (.wet g) * w.toInt) 23) :=
  toInt_sampleOf_sat24 _

@[simp] theorem toInt_fbSumBy (s : State) (p : FileParam) (x v : Sample) :
    (fbSumBy s p x v).toInt = sat24 (x.toInt + rnd (curInt s p * v.toInt) 23) := toInt_sampleOf_sat24 _

@[simp] theorem toInt_biquadOut (f : CoefInts) (st : Biquad) (x : Sample) :
    (biquadOut f st x).toInt = sat24 (rnd (biquadAcc f st x) 28) := toInt_sampleOf_sat24 _

@[simp] theorem toInt_evalConv (s : State) (ch : Chan) (c : ChanState) (p : Sample) :
    (evalConv s ch c p).2.toInt = sat24 (rnd (convSum s ch (histPush c.hist p)) (23 + (curInt s .irShift).toNat)) :=
  toInt_sampleOf_sat24 _

/-- The model's sum over an impulse is the mathematical one. -/
theorem sumBelow_eq_sum (n : Nat) (f : Nat → Int) : sumBelow n f = ∑ k ∈ Finset.range n, f k := by
  induction n with
  | zero => rfl
  | succ n ih => rw [Finset.sum_range_succ, ← ih, sumBelow]

/-! ### A plain section -/

@[simp] theorem evalBQ_snd (s : State) (q : Sect) (c : ChanState) (x : Sample) :
    (evalBQ s q c x).2 = biquadOut (plainCoefs s q) (c.sec.get q) x := rfl
@[simp] theorem evalBQ_sec (s : State) (q : Sect) (c : ChanState) (x : Sample) :
    (evalBQ s q c x).1.sec =
      c.sec.set q (biquadNext (c.sec.get q) x (biquadOut (plainCoefs s q) (c.sec.get q) x)) := rfl
@[simp] theorem evalBQ_msec (s : State) (q : Sect) (c : ChanState) (x : Sample) : (evalBQ s q c x).1.msec = c.msec := rfl
@[simp] theorem evalBQ_phfb (s : State) (q : Sect) (c : ChanState) (x : Sample) : (evalBQ s q c x).1.phfb = c.phfb := rfl
@[simp] theorem evalBQ_buf (s : State) (q : Sect) (c : ChanState) (x : Sample) : (evalBQ s q c x).1.buf = c.buf := rfl
@[simp] theorem evalBQ_hist (s : State) (q : Sect) (c : ChanState) (x : Sample) : (evalBQ s q c x).1.hist = c.hist := rfl

/-! ### A modulated section -/

@[simp] theorem evalMBQ_snd (s : State) (r : MSect) (m : U24) (c : ChanState) (x : Sample) :
    (evalMBQ s r m c x).2 = biquadOut (modCoefs s r (u24Int m)) (c.msec.get r) x := rfl
@[simp] theorem evalMBQ_msec (s : State) (r : MSect) (m : U24) (c : ChanState) (x : Sample) :
    (evalMBQ s r m c x).1.msec =
      c.msec.set r (biquadNext (c.msec.get r) x (biquadOut (modCoefs s r (u24Int m)) (c.msec.get r) x)) := rfl
@[simp] theorem evalMBQ_sec (s : State) (r : MSect) (m : U24) (c : ChanState) (x : Sample) :
    (evalMBQ s r m c x).1.sec = c.sec := rfl
@[simp] theorem evalMBQ_phfb (s : State) (r : MSect) (m : U24) (c : ChanState) (x : Sample) :
    (evalMBQ s r m c x).1.phfb = c.phfb := rfl
@[simp] theorem evalMBQ_buf (s : State) (r : MSect) (m : U24) (c : ChanState) (x : Sample) :
    (evalMBQ s r m c x).1.buf = c.buf := rfl
@[simp] theorem evalMBQ_hist (s : State) (r : MSect) (m : U24) (c : ChanState) (x : Sample) :
    (evalMBQ s r m c x).1.hist = c.hist := rfl

/-! ### A delay line -/

@[simp] theorem delayWrite_sec (s : State) (l : Line) (v : Sample) (c : ChanState) : (delayWrite s l v c).sec = c.sec := rfl
@[simp] theorem delayWrite_msec (s : State) (l : Line) (v : Sample) (c : ChanState) : (delayWrite s l v c).msec = c.msec := rfl
@[simp] theorem delayWrite_phfb (s : State) (l : Line) (v : Sample) (c : ChanState) : (delayWrite s l v c).phfb = c.phfb := rfl
@[simp] theorem delayWrite_hist (s : State) (l : Line) (v : Sample) (c : ChanState) : (delayWrite s l v c).hist = c.hist := rfl
@[simp] theorem delayWrite_buf_self (s : State) (l : Line) (v : Sample) (c : ChanState) :
    (delayWrite s l v c).buf.get l = ramWrite (c.buf.get l) (s.wp.get l) v := LineMap.get_set_self _ _ _
theorem delayWrite_buf_ne (s : State) {l l' : Line} (v : Sample) (c : ChanState) (h : l' ≠ l) :
    (delayWrite s l v c).buf.get l' = c.buf.get l' := LineMap.get_set_ne _ _ h

/-- A tap reads only its own line's buffer. -/
theorem delayTap_of_buf (s : State) (l : Line) {c d : ChanState} (h : d.buf.get l = c.buf.get l) :
    delayTap s l d = delayTap s l c := by
  simp only [delayTap, h]

/-! ### The convolution -/

@[simp] theorem evalConv_sec (s : State) (ch : Chan) (c : ChanState) (p : Sample) : (evalConv s ch c p).1.sec = c.sec := rfl
@[simp] theorem evalConv_msec (s : State) (ch : Chan) (c : ChanState) (p : Sample) : (evalConv s ch c p).1.msec = c.msec := rfl
@[simp] theorem evalConv_phfb (s : State) (ch : Chan) (c : ChanState) (p : Sample) : (evalConv s ch c p).1.phfb = c.phfb := rfl
@[simp] theorem evalConv_buf (s : State) (ch : Chan) (c : ChanState) (p : Sample) : (evalConv s ch c p).1.buf = c.buf := rfl
@[simp] theorem evalConv_hist (s : State) (ch : Chan) (c : ChanState) (p : Sample) :
    (evalConv s ch c p).1.hist = histPush c.hist p := rfl

/-- The newest entry of the history is the input. -/
@[simp] theorem ramRead_histPush_zero (h : Cells) (p : Sample) : ramRead (histPush h p) 0 = p := ramRead_write_self _ _ _

/-- The older history holds every value one place on. -/
theorem cellFind_histOlder_succ (h : Cells) {k : Nat} (hk : k + 1 < Config.IR_MAX_LEN) :
    cellFind? (histOlder h) (k + 1) = cellFind? h k := by
  induction h with
  | nil => rfl
  | cons e m ih =>
    obtain ⟨a, v⟩ := e
    by_cases hb : a + 1 < Config.IR_MAX_LEN
    · simp only [histOlder, hb, if_true, cellFind?, Nat.add_right_cancel_iff, ih]
    · have ha : a ≠ k := by omega
      simp only [histOlder, hb, if_false, cellFind?, if_neg ha, ih]

/-- Every other entry of the history is the one before it. -/
theorem ramRead_histPush_succ (h : Cells) (p : Sample) {k : Nat} (hk : k + 1 < Config.IR_MAX_LEN) :
    ramRead (histPush h p) (k + 1) = ramRead h k := by
  rw [histPush, ramRead_write_ne _ _ (Nat.succ_ne_zero k)]
  simp only [ramRead, cellFind_histOlder_succ h hk]

/-! ### The stages: what each leaves alone -/

/-- `d` agrees with `c` in every section but `qs`, every modulated section but `rs` and every line but `ls`. -/
def agreesOutside (qs : List Sect) (rs : List MSect) (ls : List Line) (c d : ChanState) : Prop :=
  (∀ q, q ∉ qs → d.sec.get q = c.sec.get q) ∧ (∀ r, r ∉ rs → d.msec.get r = c.msec.get r) ∧
  (∀ l, l ∉ ls → d.buf.get l = c.buf.get l)

theorem stageAutowah_frame (s : State) (c : ChanState) (x : Sample) :
    agreesOutside [] [.wah] [] c (stageAutowah s c x).1 := by
  refine ⟨fun _ h => ?_, fun _ h => ?_, fun _ h => ?_⟩ <;> simp at h <;> simp [stageAutowah, MSectMap.get_set_ne, h]

theorem stageFuzz_frame (s : State) (c : ChanState) (x : Sample) :
    agreesOutside [.fuzzTone] [] [] c (stageFuzz s c x).1 := by
  refine ⟨fun _ h => ?_, fun _ h => ?_, fun _ h => ?_⟩ <;> simp at h <;> simp [stageFuzz, SectMap.get_set_ne, h]

theorem stageOd_frame (s : State) (c : ChanState) (x : Sample) :
    agreesOutside [.odBass, .odTreble, .odTone] [] [] c (stageOd s c x).1 := by
  refine ⟨fun _ h => ?_, fun _ h => ?_, fun _ h => ?_⟩ <;> simp at h <;> simp [stageOd, SectMap.get_set_ne, h]

theorem stageChorus_frame (s : State) (c : ChanState) (x : Sample) :
    agreesOutside [] [] [.chorus] c (stageChorus s c x).1 := by
  refine ⟨fun _ h => ?_, fun _ h => ?_, fun _ h => ?_⟩ <;> simp at h <;> simp [stageChorus, delayWrite_buf_ne, h]

theorem stagePhaser_frame (s : State) (c : ChanState) (x : Sample) :
    agreesOutside [] [.ph1, .ph2, .ph3, .ph4] [] c (stagePhaser s c x).1 := by
  refine ⟨fun _ h => ?_, fun _ h => ?_, fun _ h => ?_⟩ <;> simp at h <;> simp [stagePhaser, MSectMap.get_set_ne, h]

theorem stageDelay_frame (s : State) (c : ChanState) (x : Sample) :
    agreesOutside [.delayDamp] [] [.delay] c (stageDelay s c x).1 := by
  refine ⟨fun _ h => ?_, fun _ h => ?_, fun _ h => ?_⟩ <;> simp at h <;> simp [stageDelay, SectMap.get_set_ne, delayWrite_buf_ne, h]

theorem stageReverb_frame (s : State) (ch : Chan) (c : ChanState) (x : Sample) :
    agreesOutside [] [] [.revpre] c (stageReverb s ch c x).1 := by
  refine ⟨fun _ h => ?_, fun _ h => ?_, fun _ h => ?_⟩ <;> simp at h <;> simp [stageReverb, delayWrite_buf_ne, h]

theorem stageEq5_frame (s : State) (c : ChanState) (x : Sample) :
    agreesOutside [.eqLow, .eqMid1, .eqMid2, .eqHigh, .eqPres] [] [] c (stageEq5 s c x).1 := by
  refine ⟨fun _ h => ?_, fun _ h => ?_, fun _ h => ?_⟩ <;> simp at h <;> simp [stageEq5, SectMap.get_set_ne, h]

theorem stagePreamp_frame (s : State) (c : ChanState) (x : Sample) :
    agreesOutside [.preBass, .preMid, .preTreble, .prePres] [] [] c (stagePreamp s c x).1 := by
  refine ⟨fun _ h => ?_, fun _ h => ?_, fun _ h => ?_⟩ <;> simp at h <;> simp [stagePreamp, SectMap.get_set_ne, h]

theorem stageTape_frame (s : State) (c : ChanState) (x : Sample) :
    agreesOutside [.tapeDamp] [] [.tape] c (stageTape s c x).1 := by
  refine ⟨fun _ h => ?_, fun _ h => ?_, fun _ h => ?_⟩ <;> simp at h <;> simp [stageTape, SectMap.get_set_ne, delayWrite_buf_ne, h]

theorem stageAmp_frame (s : State) (c : ChanState) (x : Sample) :
    agreesOutside [.ampContour, .ampBass, .ampMid, .ampTreble, .ampPres, .ampCab] [] [] c (stageAmp s c x).1 := by
  refine ⟨fun _ h => ?_, fun _ h => ?_, fun _ h => ?_⟩ <;> simp at h <;> simp [stageAmp, SectMap.get_set_ne, h]

end Sys2Proof.Machine
end

