-- ==== Sys2Proof/Laws/Encoding.lean ====
section
/-! SUPPORT. Headers and their fields as numbers: the value of a header is the sum of its fields at their places (R161), and
a field is the quotient of the header by its place, modulo its width (R162). -/

namespace Sys2Proof

theorem append_toNat {n m : Nat} (x : BitVec n) (y : BitVec m) : (x ++ y).toNat = x.toNat * 2 ^ m + y.toNat := by
  rw [BitVec.toNat_append, Nat.shiftLeft_eq, Nat.mul_comm, Nat.two_pow_add_eq_or_of_lt y.isLt]

theorem field_toNat (h : Word) (start len : Nat) : (h.extractLsb' start len).toNat = h.toNat / 2 ^ start % 2 ^ len := by
  rw [BitVec.extractLsb'_toNat, Nat.shiftRight_eq_div_pow]

theorem opcodeOf_toNat (h : Word) : (opcodeOf h).toNat = h.toNat / 268435456 := by
  have := h.isLt
  simp only [opcodeOf, field_toNat]
  omega

theorem headerOf_nop (rsv : BitVec 28) : (headerOf (.nop rsv)).toNat = rsv.toNat := by
  refine (append_toNat 0x0#4 rsv).trans ?_
  simp

theorem headerOf_setp (rsv : BitVec 16) (pid : BitVec 12) (value : Word) :
    (headerOf (.setp rsv pid value)).toNat = 0x10000000 + rsv.toNat * 4096 + pid.toNat := by
  refine (append_toNat (opcodeSetp ++ rsv) pid).trans ?_
  rw [append_toNat]
  simp only [opcodeSetp, BitVec.toNat_ofNat]
  omega

theorem headerOf_noteOn (rsv : BitVec 16) (tech str slot : BitVec 4) :
    (headerOf (.noteOn rsv tech str slot)).toNat =
      0x20000000 + rsv.toNat * 4096 + tech.toNat * 256 + str.toNat * 16 + slot.toNat := by
  refine (append_toNat (0x2#4 ++ rsv ++ tech ++ str) slot).trans ?_
  simp only [append_toNat, BitVec.toNat_ofNat]
  omega

theorem headerOf_release (rsvHi : BitVec 19) (bySlot : BitVec 1) (rsvLo tgt : BitVec 4) :
    (headerOf (.release rsvHi bySlot rsvLo tgt)).toNat =
      0x30000000 + rsvHi.toNat * 512 + bySlot.toNat * 256 + rsvLo.toNat * 16 + tgt.toNat := by
  refine (append_toNat (0x3#4 ++ rsvHi ++ bySlot ++ rsvLo) tgt).trans ?_
  simp only [append_toNat, BitVec.toNat_ofNat]
  omega

theorem headerOf_swap (rsv : BitVec 23) (mask : BitVec 5) :
    (headerOf (.swap rsv mask)).toNat = 0x40000000 + rsv.toNat * 32 + mask.toNat := by
  refine (append_toNat (0x4#4 ++ rsv) mask).trans ?_
  simp only [append_toNat, BitVec.toNat_ofNat]
  omega

theorem headerOf_wait (rsv : BitVec 4) (count : U24) :
    (headerOf (.wait rsv count)).toNat = 0x50000000 + rsv.toNat * 16777216 + count.toNat := by
  refine (append_toNat (0x5#4 ++ rsv) count).trans ?_
  simp only [append_toNat, BitVec.toNat_ofNat]
  omega

theorem headerOf_sync (rsv : BitVec 25) (lmask : BitVec 3) :
    (headerOf (.sync rsv lmask)).toNat = 0x60000000 + rsv.toNat * 8 + lmask.toNat := by
  refine (append_toNat (0x6#4 ++ rsv) lmask).trans ?_
  simp only [append_toNat, BitVec.toNat_ofNat]
  omega

theorem headerOf_illegal7 (rest : BitVec 28) : (headerOf (.illegal7 rest)).toNat = 0x70000000 + rest.toNat := by
  refine (append_toNat 0x7#4 rest).trans ?_
  simp only [BitVec.toNat_ofNat]
  omega

theorem headerOf_illegalHi (rest : BitVec 31) : (headerOf (.illegalHi rest)).toNat = 0x80000000 + rest.toNat := by
  refine (append_toNat 0x1#1 rest).trans ?_
  simp only [BitVec.toNat_ofNat]
  omega

end Sys2Proof
end

