-- ==== Sys2Proof/Laws/Params.lean ====
section
/-! SUPPORT. The laws of the parameter file: reading what was set, leaving the other parameters alone, the ids (R51), and
that every value of a legal range is read back from its stored word (R52). -/

namespace Sys2Proof.Machine

@[simp] theorem ParamFile.get_set_self (m : ParamFile) (p : FileParam) (v : Word) : (m.set p v).get p = v := by
  cases p <;> simp [ParamFile.set, ParamFile.get]

/-- Setting one parameter leaves every other alone. -/
theorem ParamFile.get_set_ne (m : ParamFile) {p q : FileParam} (v : Word) (h : q ≠ p) :
    (m.set p v).get q = m.get q := by
  cases p <;> cases q <;> first
    | rfl
    | exact absurd rfl h
    | (rename_i a b
       by_cases e : b = a
       · subst e
         first | exact absurd rfl h | simp [ParamFile.set, ParamFile.get]
       · simp [ParamFile.set, ParamFile.get, StageMap.get_set_ne, LfoMap.get_set_ne,
           LineMap.get_set_ne, ModLineMap.get_set_ne, e])
    | (rename_i a x b y
       by_cases e : b = a
       · subst e
         have : y ≠ x := fun e => h (by rw [e])
         simp [ParamFile.set, ParamFile.get, TechRow.get_set_ne, CoefMap.get_set_ne, this]
       · simp [ParamFile.set, ParamFile.get, TechMap.get_set_ne, SectMap.get_set_ne, MSectMap.get_set_ne, e])

@[simp] theorem ParamFile.get_tabulate (f : FileParam → Word) (p : FileParam) : (ParamFile.tabulate f).get p = f p := by
  cases p <;> simp [ParamFile.tabulate, ParamFile.get]

/-- After reset every parameter has its reset value (R540). -/
@[simp] theorem ParamFile.get_reset (p : FileParam) : ParamFile.reset.get p = paramWord p.resetValue := by
  simp [ParamFile.reset]

/-! ### Ids -/

theorem globalParam?_id {n : Nat} {p : Param} (h : globalParam? n = some p) : p.idNum = n := by
  unfold globalParam? at h
  split at h <;> cases h <;> rfl

/-- A valid id names the parameter that has it. -/
@[simp] theorem Param.ofId?_id (p : Param) : Param.ofId? p.id = some p := by
  cases p with
  | irLen => rfl
  | file p =>
    cases p with
    | tech t f => cases t <;> cases f <;> rfl
    | en s => cases s <;> rfl
    | wet s => cases s <;> rfl
    | dry s => cases s <;> rfl
    | lfoInc k => cases k <;> rfl
    | bq q c => cases q <;> cases c <;> rfl
    | lo r c => cases r <;> cases c <;> rfl
    | hi r c => cases r <;> cases c <;> rfl
    | base l => cases l <;> rfl
    | depth l => cases l <;> rfl
    | fb l => cases l <;> rfl
    | modsrc l => cases l <;> rfl
    | _ => rfl

theorem stageParam?_id {s : Stage} {n : Nat} {p : Param} (h : stageParam? s n = some p) :
    p.idNum = 0x200 + 0x10 * s.num + n := by
  unfold stageParam? at h
  split at h <;> cases h <;> simp [Param.idNum, FileParam.idNum]

theorem Line.modLine?_line {l : Line} {m : ModLine} (h : l.modLine? = some m) : m.line = l := by
  cases l <;> cases m <;> first | rfl | cases h

theorem lineParam?_id {l : Line} {n : Nat} {p : Param} (h : lineParam? l n = some p) :
    p.idNum = 0x600 + 0x10 * l.num + n := by
  unfold lineParam? at h
  split at h
  · rename_i hn
    cases h
    simp [Param.idNum, FileParam.idNum, hn]
  · split at h <;> cases h <;> simp [Param.idNum, FileParam.idNum, Line.modLine?_line ‹_›]

/-- The parameter an id names has that id, so no two ids name one parameter. -/
theorem Param.id_of_ofId? {pid : BitVec 12} {p : Param} (h : Param.ofId? pid = some p) : p.id = pid := by
  have hlt := pid.isLt
  have key : p.idNum = pid.toNat := by
    unfold Param.ofId? at h
    simp only at h
    split at h
    · rename_i h0
      split at h
      · have := globalParam?_id h
        omega
      · cases h
    · simp only [Option.bind_eq_some_iff, Option.map_eq_some_iff] at h
      obtain ⟨t, ht, f, hf, rfl⟩ := h
      have := Tech.num_of_ofNum? ht
      have := TechField.num_of_ofNum? hf
      simp only [Param.idNum, FileParam.idNum]
      omega
    · simp only [Option.bind_eq_some_iff] at h
      obtain ⟨s, hs, h⟩ := h
      have := Stage.num_of_ofNum? hs
      have := stageParam?_id h
      omega
    · split at h
      · simp only [Option.map_eq_some_iff] at h
        obtain ⟨k, hk, rfl⟩ := h
        have := Lfo.num_of_ofNum? hk
        simp only [Param.idNum, FileParam.idNum]
        omega
      · cases h
    · simp only [Option.bind_eq_some_iff, Option.map_eq_some_iff] at h
      obtain ⟨q, hq, c, hc, rfl⟩ := h
      have := Sect.num_of_ofNum? hq
      have := Coef.num_of_ofNum? hc
      simp only [Param.idNum, FileParam.idNum]
      omega
    · simp only [Option.bind_eq_some_iff] at h
      obtain ⟨r, hr, h⟩ := h
      have := MSect.num_of_ofNum? hr
      split at h
      · simp only [Option.map_eq_some_iff] at h
        obtain ⟨c, hc, rfl⟩ := h
        have := Coef.num_of_ofNum? hc
        simp only [Param.idNum, FileParam.idNum]
        omega
      · simp only [Option.map_eq_some_iff] at h
        obtain ⟨c, hc, rfl⟩ := h
        have := Coef.num_of_ofNum? hc
        simp only [Param.idNum, FileParam.idNum]
        omega
    · simp only [Option.bind_eq_some_iff] at h
      obtain ⟨l, hl, h⟩ := h
      have := Line.num_of_ofNum? hl
      have := lineParam?_id h
      omega
    · cases h
  apply BitVec.eq_of_toNat_eq
  simp only [Param.id, BitVec.toNat_ofNat, key]
  omega

/-! ### Ranges and stored words -/

/-- The reset value of a parameter is legal. -/
theorem FileParam.resetValue_range (p : FileParam) : p.low ≤ p.resetValue ∧ p.resetValue ≤ p.high := by
  cases p with
  | tech t f => cases t <;> cases f <;> decide
  | base l => cases l <;> decide
  | depth l => cases l <;> decide
  | bq q c => cases c <;> norm_num [FileParam.low, FileParam.high, FileParam.resetValue, coefReset]
  | lo r c => cases c <;> norm_num [FileParam.low, FileParam.high, FileParam.resetValue, coefReset]
  | hi r c => cases c <;> norm_num [FileParam.low, FileParam.high, FileParam.resetValue, coefReset]
  | modsrc l => cases l <;> decide
  | _ => norm_num [FileParam.low, FileParam.high, FileParam.resetValue]

theorem FileParam.low_le_high (p : FileParam) : p.low ≤ p.high :=
  le_trans p.resetValue_range.1 p.resetValue_range.2

/-- A legal value fits its format's word: in two's complement where the format is signed, unsigned otherwise. -/
theorem FileParam.range_fits (p : FileParam) :
    if p.format.signed then -2147483648 ≤ p.low ∧ p.high < 2147483648 else 0 ≤ p.low ∧ p.high < 4294967296 := by
  cases p with
  | tech t f => cases f <;> norm_num [FileParam.low, FileParam.high, FileParam.format, Format.signed]
  | base l => cases l <;> decide
  | depth l => cases l <;> decide
  | _ => norm_num [FileParam.low, FileParam.high, FileParam.format, Format.signed]

theorem paramWord_toNat {v : Int} (h : 0 ≤ v) (h' : v < 4294967296) : ((paramWord v).toNat : Int) = v := by
  simp only [paramWord, BitVec.toNat_ofInt]
  omega

theorem paramWord_toInt {v : Int} (h : -2147483648 ≤ v) (h' : v < 2147483648) : (paramWord v).toInt = v := by
  simp only [paramWord, BitVec.toInt_ofInt]
  simp only [Int.bmod]
  omega

/-- A legal value is read back from its stored word (R52). -/
theorem read_paramWord {p : FileParam} {v : Int} (hl : p.low ≤ v) (hh : v ≤ p.high) :
    p.format.read (paramWord v) = v := by
  have h := p.range_fits
  unfold Format.read
  split at h
  · rename_i hs
    rw [if_pos hs]
    exact paramWord_toInt (by omega) (by omega)
  · rename_i hs
    rw [if_neg hs]
    exact paramWord_toNat (by omega) (by omega)

/-- Reading a stored word in its format and storing it again gives the word. -/
theorem paramWord_read (f : Format) (w : Word) : paramWord (f.read w) = w := by
  unfold Format.read paramWord
  split
  · exact BitVec.ofInt_toInt
  · simp

/-- The value of a parameter that has just been set. -/
theorem int_set_self (m : ParamFile) {p : FileParam} {v : Int} (hl : p.low ≤ v) (hh : v ≤ p.high) :
    (m.set p (paramWord v)).int p = v := by
  simp [ParamFile.int, read_paramWord hl hh]

theorem int_set_ne (m : ParamFile) {p q : FileParam} (w : Word) (h : q ≠ p) : (m.set p w).int q = m.int q := by
  simp [ParamFile.int, ParamFile.get_set_ne m w h]

theorem int_reset (p : FileParam) : ParamFile.reset.int p = p.resetValue := by
  simp only [ParamFile.int, ParamFile.get_reset]
  exact read_paramWord p.resetValue_range.1 p.resetValue_range.2

theorem Param.low_le_high (p : Param) : p.low ≤ p.high := by
  cases p with
  | irLen => decide
  | file p => exact p.low_le_high

/-- A number that no parameter has is not a valid id. -/
theorem Param.ofId?_none_iff (pid : BitVec 12) : Param.ofId? pid = none ↔ ∀ p : Param, p.id ≠ pid := by
  constructor
  · intro h p e
    rw [← e, Param.ofId?_id] at h
    cases h
  · intro h
    cases e : Param.ofId? pid with
    | none => rfl
    | some p => exact absurd (Param.id_of_ofId? e) (h p)

end Sys2Proof.Machine
end

