-- ==== Sys2Proof/Laws/State.lean ====
section
/-! SUPPORT. One lemma for each field of the state and each named update of it: the field's new value where the update writes
it, the old value where it does not. Proofs rewrite with these instead of unfolding a record update. -/

namespace Sys2Proof.Machine

/-! ### recordError -/

@[simp] theorem recordError_run (code : ErrCode) (info : Word) (bit : BitVec 5) (s : State) :
    (recordError code info bit s).run = s.run := by
  dsimp only [recordError]
@[simp] theorem recordError_extInsert (code : ErrCode) (info : Word) (bit : BitVec 5) (s : State) :
    (recordError code info bit s).extInsert = s.extInsert := by
  dsimp only [recordError]
@[simp] theorem recordError_irqPend (code : ErrCode) (info : Word) (bit : BitVec 5) (s : State) :
    (recordError code info bit s).irqPend = s.irqPend ||| bit := by
  dsimp only [recordError]
@[simp] theorem recordError_irqEn (code : ErrCode) (info : Word) (bit : BitVec 5) (s : State) :
    (recordError code info bit s).irqEn = s.irqEn := by
  dsimp only [recordError]
@[simp] theorem recordError_errCode (code : ErrCode) (info : Word) (bit : BitVec 5) (s : State) :
    (recordError code info bit s).errCode = code := by
  dsimp only [recordError]
@[simp] theorem recordError_errInfo (code : ErrCode) (info : Word) (bit : BitVec 5) (s : State) :
    (recordError code info bit s).errInfo = info := by
  dsimp only [recordError]
@[simp] theorem recordError_sampleCnt (code : ErrCode) (info : Word) (bit : BitVec 5) (s : State) :
    (recordError code info bit s).sampleCnt = s.sampleCnt := by
  dsimp only [recordError]
@[simp] theorem recordError_tblTable (code : ErrCode) (info : Word) (bit : BitVec 5) (s : State) :
    (recordError code info bit s).tblTable = s.tblTable := by
  dsimp only [recordError]
@[simp] theorem recordError_tblBankSel (code : ErrCode) (info : Word) (bit : BitVec 5) (s : State) :
    (recordError code info bit s).tblBankSel = s.tblBankSel := by
  dsimp only [recordError]
@[simp] theorem recordError_tblIndex (code : ErrCode) (info : Word) (bit : BitVec 5) (s : State) :
    (recordError code info bit s).tblIndex = s.tblIndex := by
  dsimp only [recordError]
@[simp] theorem recordError_parSel (code : ErrCode) (info : Word) (bit : BitVec 5) (s : State) :
    (recordError code info bit s).parSel = s.parSel := by
  dsimp only [recordError]
@[simp] theorem recordError_bank (code : ErrCode) (info : Word) (bit : BitVec 5) (s : State) :
    (recordError code info bit s).bank = s.bank := by
  dsimp only [recordError]
@[simp] theorem recordError_done (code : ErrCode) (info : Word) (bit : BitVec 5) (s : State) :
    (recordError code info bit s).done = s.done := by
  dsimp only [recordError]
@[simp] theorem recordError_tgt (code : ErrCode) (info : Word) (bit : BitVec 5) (s : State) :
    (recordError code info bit s).tgt = s.tgt := by
  dsimp only [recordError]
@[simp] theorem recordError_cur (code : ErrCode) (info : Word) (bit : BitVec 5) (s : State) :
    (recordError code info bit s).cur = s.cur := by
  dsimp only [recordError]
@[simp] theorem recordError_irLen0 (code : ErrCode) (info : Word) (bit : BitVec 5) (s : State) :
    (recordError code info bit s).irLen0 = s.irLen0 := by
  dsimp only [recordError]
@[simp] theorem recordError_irLen1 (code : ErrCode) (info : Word) (bit : BitVec 5) (s : State) :
    (recordError code info bit s).irLen1 = s.irLen1 := by
  dsimp only [recordError]
@[simp] theorem recordError_fifo (code : ErrCode) (info : Word) (bit : BitVec 5) (s : State) :
    (recordError code info bit s).fifo = s.fifo := by
  dsimp only [recordError]
@[simp] theorem recordError_wait (code : ErrCode) (info : Word) (bit : BitVec 5) (s : State) :
    (recordError code info bit s).wait = s.wait := by
  dsimp only [recordError]
@[simp] theorem recordError_slots (code : ErrCode) (info : Word) (bit : BitVec 5) (s : State) :
    (recordError code info bit s).slots = s.slots := by
  dsimp only [recordError]
@[simp] theorem recordError_wah (code : ErrCode) (info : Word) (bit : BitVec 5) (s : State) :
    (recordError code info bit s).wah = s.wah := by
  dsimp only [recordError]
@[simp] theorem recordError_ph (code : ErrCode) (info : Word) (bit : BitVec 5) (s : State) :
    (recordError code info bit s).ph = s.ph := by
  dsimp only [recordError]
@[simp] theorem recordError_wlfo (code : ErrCode) (info : Word) (bit : BitVec 5) (s : State) :
    (recordError code info bit s).wlfo = s.wlfo := by
  dsimp only [recordError]
@[simp] theorem recordError_mPh (code : ErrCode) (info : Word) (bit : BitVec 5) (s : State) :
    (recordError code info bit s).mPh = s.mPh := by
  dsimp only [recordError]
@[simp] theorem recordError_chans (code : ErrCode) (info : Word) (bit : BitVec 5) (s : State) :
    (recordError code info bit s).chans = s.chans := by
  dsimp only [recordError]
@[simp] theorem recordError_wp (code : ErrCode) (info : Word) (bit : BitVec 5) (s : State) :
    (recordError code info bit s).wp = s.wp := by
  dsimp only [recordError]
@[simp] theorem recordError_tables (code : ErrCode) (info : Word) (bit : BitVec 5) (s : State) :
    (recordError code info bit s).tables = s.tables := by
  dsimp only [recordError]
@[simp] theorem recordError_egOut (code : ErrCode) (info : Word) (bit : BitVec 5) (s : State) :
    (recordError code info bit s).egOut = s.egOut := by
  dsimp only [recordError]
@[simp] theorem recordError_egGain (code : ErrCode) (info : Word) (bit : BitVec 5) (s : State) :
    (recordError code info bit s).egGain = s.egGain := by
  dsimp only [recordError]
@[simp] theorem recordError_outL (code : ErrCode) (info : Word) (bit : BitVec 5) (s : State) :
    (recordError code info bit s).outL = s.outL := by
  dsimp only [recordError]
@[simp] theorem recordError_outR (code : ErrCode) (info : Word) (bit : BitVec 5) (s : State) :
    (recordError code info bit s).outR = s.outR := by
  dsimp only [recordError]
@[simp] theorem recordError_voiceIn (code : ErrCode) (info : Word) (bit : BitVec 5) (s : State) :
    (recordError code info bit s).voiceIn = s.voiceIn := by
  dsimp only [recordError]
@[simp] theorem recordError_chainIn (code : ErrCode) (info : Word) (bit : BitVec 5) (s : State) :
    (recordError code info bit s).chainIn = s.chainIn := by
  dsimp only [recordError]
@[simp] theorem recordError_rst (code : ErrCode) (info : Word) (bit : BitVec 5) (s : State) :
    (recordError code info bit s).rst = s.rst := by
  dsimp only [recordError]
@[simp] theorem recordError_rdata (code : ErrCode) (info : Word) (bit : BitVec 5) (s : State) :
    (recordError code info bit s).rdata = s.rdata := by
  dsimp only [recordError]
@[simp] theorem recordError_draws (code : ErrCode) (info : Word) (bit : BitVec 5) (s : State) :
    (recordError code info bit s).draws = s.draws := by
  dsimp only [recordError]
@[simp] theorem recordError_env (code : ErrCode) (info : Word) (bit : BitVec 5) (s : State) :
    (recordError code info bit s).env = s.env := by
  dsimp only [recordError]

/-! ### cmdError -/

@[simp] theorem cmdError_run (code : ErrCode) (h : Word) (s : State) : (cmdError code h s).run = s.run := by
  dsimp only [cmdError, recordError]
@[simp] theorem cmdError_extInsert (code : ErrCode) (h : Word) (s : State) :
    (cmdError code h s).extInsert = s.extInsert := by
  dsimp only [cmdError, recordError]
@[simp] theorem cmdError_irqPend (code : ErrCode) (h : Word) (s : State) :
    (cmdError code h s).irqPend = s.irqPend ||| irqCmdErr := by
  dsimp only [cmdError, recordError]
@[simp] theorem cmdError_irqEn (code : ErrCode) (h : Word) (s : State) : (cmdError code h s).irqEn = s.irqEn := by
  dsimp only [cmdError, recordError]
@[simp] theorem cmdError_errCode (code : ErrCode) (h : Word) (s : State) : (cmdError code h s).errCode = code := by
  dsimp only [cmdError, recordError]
@[simp] theorem cmdError_errInfo (code : ErrCode) (h : Word) (s : State) : (cmdError code h s).errInfo = h := by
  dsimp only [cmdError, recordError]
@[simp] theorem cmdError_sampleCnt (code : ErrCode) (h : Word) (s : State) :
    (cmdError code h s).sampleCnt = s.sampleCnt := by
  dsimp only [cmdError, recordError]
@[simp] theorem cmdError_tblTable (code : ErrCode) (h : Word) (s : State) :
    (cmdError code h s).tblTable = s.tblTable := by
  dsimp only [cmdError, recordError]
@[simp] theorem cmdError_tblBankSel (code : ErrCode) (h : Word) (s : State) :
    (cmdError code h s).tblBankSel = s.tblBankSel := by
  dsimp only [cmdError, recordError]
@[simp] theorem cmdError_tblIndex (code : ErrCode) (h : Word) (s : State) :
    (cmdError code h s).tblIndex = s.tblIndex := by
  dsimp only [cmdError, recordError]
@[simp] theorem cmdError_parSel (code : ErrCode) (h : Word) (s : State) : (cmdError code h s).parSel = s.parSel := by
  dsimp only [cmdError, recordError]
@[simp] theorem cmdError_bank (code : ErrCode) (h : Word) (s : State) : (cmdError code h s).bank = s.bank := by
  dsimp only [cmdError, recordError]
@[simp] theorem cmdError_done (code : ErrCode) (h : Word) (s : State) : (cmdError code h s).done = s.done := by
  dsimp only [cmdError, recordError]
@[simp] theorem cmdError_tgt (code : ErrCode) (h : Word) (s : State) : (cmdError code h s).tgt = s.tgt := by
  dsimp only [cmdError, recordError]
@[simp] theorem cmdError_cur (code : ErrCode) (h : Word) (s : State) : (cmdError code h s).cur = s.cur := by
  dsimp only [cmdError, recordError]
@[simp] theorem cmdError_irLen0 (code : ErrCode) (h : Word) (s : State) : (cmdError code h s).irLen0 = s.irLen0 := by
  dsimp only [cmdError, recordError]
@[simp] theorem cmdError_irLen1 (code : ErrCode) (h : Word) (s : State) : (cmdError code h s).irLen1 = s.irLen1 := by
  dsimp only [cmdError, recordError]
@[simp] theorem cmdError_fifo (code : ErrCode) (h : Word) (s : State) : (cmdError code h s).fifo = s.fifo := by
  dsimp only [cmdError, recordError]
@[simp] theorem cmdError_wait (code : ErrCode) (h : Word) (s : State) : (cmdError code h s).wait = s.wait := by
  dsimp only [cmdError, recordError]
@[simp] theorem cmdError_slots (code : ErrCode) (h : Word) (s : State) : (cmdError code h s).slots = s.slots := by
  dsimp only [cmdError, recordError]
@[simp] theorem cmdError_wah (code : ErrCode) (h : Word) (s : State) : (cmdError code h s).wah = s.wah := by
  dsimp only [cmdError, recordError]
@[simp] theorem cmdError_ph (code : ErrCode) (h : Word) (s : State) : (cmdError code h s).ph = s.ph := by
  dsimp only [cmdError, recordError]
@[simp] theorem cmdError_wlfo (code : ErrCode) (h : Word) (s : State) : (cmdError code h s).wlfo = s.wlfo := by
  dsimp only [cmdError, recordError]
@[simp] theorem cmdError_mPh (code : ErrCode) (h : Word) (s : State) : (cmdError code h s).mPh = s.mPh := by
  dsimp only [cmdError, recordError]
@[simp] theorem cmdError_chans (code : ErrCode) (h : Word) (s : State) : (cmdError code h s).chans = s.chans := by
  dsimp only [cmdError, recordError]
@[simp] theorem cmdError_wp (code : ErrCode) (h : Word) (s : State) : (cmdError code h s).wp = s.wp := by
  dsimp only [cmdError, recordError]
@[simp] theorem cmdError_tables (code : ErrCode) (h : Word) (s : State) : (cmdError code h s).tables = s.tables := by
  dsimp only [cmdError, recordError]
@[simp] theorem cmdError_egOut (code : ErrCode) (h : Word) (s : State) : (cmdError code h s).egOut = s.egOut := by
  dsimp only [cmdError, recordError]
@[simp] theorem cmdError_egGain (code : ErrCode) (h : Word) (s : State) : (cmdError code h s).egGain = s.egGain := by
  dsimp only [cmdError, recordError]
@[simp] theorem cmdError_outL (code : ErrCode) (h : Word) (s : State) : (cmdError code h s).outL = s.outL := by
  dsimp only [cmdError, recordError]
@[simp] theorem cmdError_outR (code : ErrCode) (h : Word) (s : State) : (cmdError code h s).outR = s.outR := by
  dsimp only [cmdError, recordError]
@[simp] theorem cmdError_voiceIn (code : ErrCode) (h : Word) (s : State) : (cmdError code h s).voiceIn = s.voiceIn := by
  dsimp only [cmdError, recordError]
@[simp] theorem cmdError_chainIn (code : ErrCode) (h : Word) (s : State) : (cmdError code h s).chainIn = s.chainIn := by
  dsimp only [cmdError, recordError]
@[simp] theorem cmdError_rst (code : ErrCode) (h : Word) (s : State) : (cmdError code h s).rst = s.rst := by
  dsimp only [cmdError, recordError]
@[simp] theorem cmdError_rdata (code : ErrCode) (h : Word) (s : State) : (cmdError code h s).rdata = s.rdata := by
  dsimp only [cmdError, recordError]
@[simp] theorem cmdError_draws (code : ErrCode) (h : Word) (s : State) : (cmdError code h s).draws = s.draws := by
  dsimp only [cmdError, recordError]
@[simp] theorem cmdError_env (code : ErrCode) (h : Word) (s : State) : (cmdError code h s).env = s.env := by
  dsimp only [cmdError, recordError]

/-! ### tblError -/

@[simp] theorem tblError_run (code : ErrCode) (a : Word) (s : State) : (tblError code a s).run = s.run := by
  dsimp only [tblError, recordError]
@[simp] theorem tblError_extInsert (code : ErrCode) (a : Word) (s : State) :
    (tblError code a s).extInsert = s.extInsert := by
  dsimp only [tblError, recordError]
@[simp] theorem tblError_irqPend (code : ErrCode) (a : Word) (s : State) :
    (tblError code a s).irqPend = s.irqPend ||| irqTblErr := by
  dsimp only [tblError, recordError]
@[simp] theorem tblError_irqEn (code : ErrCode) (a : Word) (s : State) : (tblError code a s).irqEn = s.irqEn := by
  dsimp only [tblError, recordError]
@[simp] theorem tblError_errCode (code : ErrCode) (a : Word) (s : State) : (tblError code a s).errCode = code := by
  dsimp only [tblError, recordError]
@[simp] theorem tblError_errInfo (code : ErrCode) (a : Word) (s : State) : (tblError code a s).errInfo = a := by
  dsimp only [tblError, recordError]
@[simp] theorem tblError_sampleCnt (code : ErrCode) (a : Word) (s : State) :
    (tblError code a s).sampleCnt = s.sampleCnt := by
  dsimp only [tblError, recordError]
@[simp] theorem tblError_tblTable (code : ErrCode) (a : Word) (s : State) :
    (tblError code a s).tblTable = s.tblTable := by
  dsimp only [tblError, recordError]
@[simp] theorem tblError_tblBankSel (code : ErrCode) (a : Word) (s : State) :
    (tblError code a s).tblBankSel = s.tblBankSel := by
  dsimp only [tblError, recordError]
@[simp] theorem tblError_tblIndex (code : ErrCode) (a : Word) (s : State) :
    (tblError code a s).tblIndex = s.tblIndex := by
  dsimp only [tblError, recordError]
@[simp] theorem tblError_parSel (code : ErrCode) (a : Word) (s : State) : (tblError code a s).parSel = s.parSel := by
  dsimp only [tblError, recordError]
@[simp] theorem tblError_bank (code : ErrCode) (a : Word) (s : State) : (tblError code a s).bank = s.bank := by
  dsimp only [tblError, recordError]
@[simp] theorem tblError_done (code : ErrCode) (a : Word) (s : State) : (tblError code a s).done = s.done := by
  dsimp only [tblError, recordError]
@[simp] theorem tblError_tgt (code : ErrCode) (a : Word) (s : State) : (tblError code a s).tgt = s.tgt := by
  dsimp only [tblError, recordError]
@[simp] theorem tblError_cur (code : ErrCode) (a : Word) (s : State) : (tblError code a s).cur = s.cur := by
  dsimp only [tblError, recordError]
@[simp] theorem tblError_irLen0 (code : ErrCode) (a : Word) (s : State) : (tblError code a s).irLen0 = s.irLen0 := by
  dsimp only [tblError, recordError]
@[simp] theorem tblError_irLen1 (code : ErrCode) (a : Word) (s : State) : (tblError code a s).irLen1 = s.irLen1 := by
  dsimp only [tblError, recordError]
@[simp] theorem tblError_fifo (code : ErrCode) (a : Word) (s : State) : (tblError code a s).fifo = s.fifo := by
  dsimp only [tblError, recordError]
@[simp] theorem tblError_wait (code : ErrCode) (a : Word) (s : State) : (tblError code a s).wait = s.wait := by
  dsimp only [tblError, recordError]
@[simp] theorem tblError_slots (code : ErrCode) (a : Word) (s : State) : (tblError code a s).slots = s.slots := by
  dsimp only [tblError, recordError]
@[simp] theorem tblError_wah (code : ErrCode) (a : Word) (s : State) : (tblError code a s).wah = s.wah := by
  dsimp only [tblError, recordError]
@[simp] theorem tblError_ph (code : ErrCode) (a : Word) (s : State) : (tblError code a s).ph = s.ph := by
  dsimp only [tblError, recordError]
@[simp] theorem tblError_wlfo (code : ErrCode) (a : Word) (s : State) : (tblError code a s).wlfo = s.wlfo := by
  dsimp only [tblError, recordError]
@[simp] theorem tblError_mPh (code : ErrCode) (a : Word) (s : State) : (tblError code a s).mPh = s.mPh := by
  dsimp only [tblError, recordError]
@[simp] theorem tblError_chans (code : ErrCode) (a : Word) (s : State) : (tblError code a s).chans = s.chans := by
  dsimp only [tblError, recordError]
@[simp] theorem tblError_wp (code : ErrCode) (a : Word) (s : State) : (tblError code a s).wp = s.wp := by
  dsimp only [tblError, recordError]
@[simp] theorem tblError_tables (code : ErrCode) (a : Word) (s : State) : (tblError code a s).tables = s.tables := by
  dsimp only [tblError, recordError]
@[simp] theorem tblError_egOut (code : ErrCode) (a : Word) (s : State) : (tblError code a s).egOut = s.egOut := by
  dsimp only [tblError, recordError]
@[simp] theorem tblError_egGain (code : ErrCode) (a : Word) (s : State) : (tblError code a s).egGain = s.egGain := by
  dsimp only [tblError, recordError]
@[simp] theorem tblError_outL (code : ErrCode) (a : Word) (s : State) : (tblError code a s).outL = s.outL := by
  dsimp only [tblError, recordError]
@[simp] theorem tblError_outR (code : ErrCode) (a : Word) (s : State) : (tblError code a s).outR = s.outR := by
  dsimp only [tblError, recordError]
@[simp] theorem tblError_voiceIn (code : ErrCode) (a : Word) (s : State) : (tblError code a s).voiceIn = s.voiceIn := by
  dsimp only [tblError, recordError]
@[simp] theorem tblError_chainIn (code : ErrCode) (a : Word) (s : State) : (tblError code a s).chainIn = s.chainIn := by
  dsimp only [tblError, recordError]
@[simp] theorem tblError_rst (code : ErrCode) (a : Word) (s : State) : (tblError code a s).rst = s.rst := by
  dsimp only [tblError, recordError]
@[simp] theorem tblError_rdata (code : ErrCode) (a : Word) (s : State) : (tblError code a s).rdata = s.rdata := by
  dsimp only [tblError, recordError]
@[simp] theorem tblError_draws (code : ErrCode) (a : Word) (s : State) : (tblError code a s).draws = s.draws := by
  dsimp only [tblError, recordError]
@[simp] theorem tblError_env (code : ErrCode) (a : Word) (s : State) : (tblError code a s).env = s.env := by
  dsimp only [tblError, recordError]

/-! ### ackIrq -/

@[simp] theorem ackIrq_run (b : BitVec 5) (s : State) : (ackIrq b s).run = s.run := by
  dsimp only [ackIrq]
@[simp] theorem ackIrq_extInsert (b : BitVec 5) (s : State) : (ackIrq b s).extInsert = s.extInsert := by
  dsimp only [ackIrq]
@[simp] theorem ackIrq_irqPend (b : BitVec 5) (s : State) : (ackIrq b s).irqPend = s.irqPend &&& ~~~b := by
  dsimp only [ackIrq]
@[simp] theorem ackIrq_irqEn (b : BitVec 5) (s : State) : (ackIrq b s).irqEn = s.irqEn := by
  dsimp only [ackIrq]
@[simp] theorem ackIrq_errCode (b : BitVec 5) (s : State) : (ackIrq b s).errCode = s.errCode := by
  dsimp only [ackIrq]
@[simp] theorem ackIrq_errInfo (b : BitVec 5) (s : State) : (ackIrq b s).errInfo = s.errInfo := by
  dsimp only [ackIrq]
@[simp] theorem ackIrq_sampleCnt (b : BitVec 5) (s : State) : (ackIrq b s).sampleCnt = s.sampleCnt := by
  dsimp only [ackIrq]
@[simp] theorem ackIrq_tblTable (b : BitVec 5) (s : State) : (ackIrq b s).tblTable = s.tblTable := by
  dsimp only [ackIrq]
@[simp] theorem ackIrq_tblBankSel (b : BitVec 5) (s : State) : (ackIrq b s).tblBankSel = s.tblBankSel := by
  dsimp only [ackIrq]
@[simp] theorem ackIrq_tblIndex (b : BitVec 5) (s : State) : (ackIrq b s).tblIndex = s.tblIndex := by
  dsimp only [ackIrq]
@[simp] theorem ackIrq_parSel (b : BitVec 5) (s : State) : (ackIrq b s).parSel = s.parSel := by
  dsimp only [ackIrq]
@[simp] theorem ackIrq_bank (b : BitVec 5) (s : State) : (ackIrq b s).bank = s.bank := by
  dsimp only [ackIrq]
@[simp] theorem ackIrq_done (b : BitVec 5) (s : State) : (ackIrq b s).done = s.done := by
  dsimp only [ackIrq]
@[simp] theorem ackIrq_tgt (b : BitVec 5) (s : State) : (ackIrq b s).tgt = s.tgt := by
  dsimp only [ackIrq]
@[simp] theorem ackIrq_cur (b : BitVec 5) (s : State) : (ackIrq b s).cur = s.cur := by
  dsimp only [ackIrq]
@[simp] theorem ackIrq_irLen0 (b : BitVec 5) (s : State) : (ackIrq b s).irLen0 = s.irLen0 := by
  dsimp only [ackIrq]
@[simp] theorem ackIrq_irLen1 (b : BitVec 5) (s : State) : (ackIrq b s).irLen1 = s.irLen1 := by
  dsimp only [ackIrq]
@[simp] theorem ackIrq_fifo (b : BitVec 5) (s : State) : (ackIrq b s).fifo = s.fifo := by
  dsimp only [ackIrq]
@[simp] theorem ackIrq_wait (b : BitVec 5) (s : State) : (ackIrq b s).wait = s.wait := by
  dsimp only [ackIrq]
@[simp] theorem ackIrq_slots (b : BitVec 5) (s : State) : (ackIrq b s).slots = s.slots := by
  dsimp only [ackIrq]
@[simp] theorem ackIrq_wah (b : BitVec 5) (s : State) : (ackIrq b s).wah = s.wah := by
  dsimp only [ackIrq]
@[simp] theorem ackIrq_ph (b : BitVec 5) (s : State) : (ackIrq b s).ph = s.ph := by
  dsimp only [ackIrq]
@[simp] theorem ackIrq_wlfo (b : BitVec 5) (s : State) : (ackIrq b s).wlfo = s.wlfo := by
  dsimp only [ackIrq]
@[simp] theorem ackIrq_mPh (b : BitVec 5) (s : State) : (ackIrq b s).mPh = s.mPh := by
  dsimp only [ackIrq]
@[simp] theorem ackIrq_chans (b : BitVec 5) (s : State) : (ackIrq b s).chans = s.chans := by
  dsimp only [ackIrq]
@[simp] theorem ackIrq_wp (b : BitVec 5) (s : State) : (ackIrq b s).wp = s.wp := by
  dsimp only [ackIrq]
@[simp] theorem ackIrq_tables (b : BitVec 5) (s : State) : (ackIrq b s).tables = s.tables := by
  dsimp only [ackIrq]
@[simp] theorem ackIrq_egOut (b : BitVec 5) (s : State) : (ackIrq b s).egOut = s.egOut := by
  dsimp only [ackIrq]
@[simp] theorem ackIrq_egGain (b : BitVec 5) (s : State) : (ackIrq b s).egGain = s.egGain := by
  dsimp only [ackIrq]
@[simp] theorem ackIrq_outL (b : BitVec 5) (s : State) : (ackIrq b s).outL = s.outL := by
  dsimp only [ackIrq]
@[simp] theorem ackIrq_outR (b : BitVec 5) (s : State) : (ackIrq b s).outR = s.outR := by
  dsimp only [ackIrq]
@[simp] theorem ackIrq_voiceIn (b : BitVec 5) (s : State) : (ackIrq b s).voiceIn = s.voiceIn := by
  dsimp only [ackIrq]
@[simp] theorem ackIrq_chainIn (b : BitVec 5) (s : State) : (ackIrq b s).chainIn = s.chainIn := by
  dsimp only [ackIrq]
@[simp] theorem ackIrq_rst (b : BitVec 5) (s : State) : (ackIrq b s).rst = s.rst := by
  dsimp only [ackIrq]
@[simp] theorem ackIrq_rdata (b : BitVec 5) (s : State) : (ackIrq b s).rdata = s.rdata := by
  dsimp only [ackIrq]
@[simp] theorem ackIrq_draws (b : BitVec 5) (s : State) : (ackIrq b s).draws = s.draws := by
  dsimp only [ackIrq]
@[simp] theorem ackIrq_env (b : BitVec 5) (s : State) : (ackIrq b s).env = s.env := by
  dsimp only [ackIrq]

/-! ### ackDone -/

@[simp] theorem ackDone_run (b : BitVec 8) (s : State) : (ackDone b s).run = s.run := by
  dsimp only [ackDone]
@[simp] theorem ackDone_extInsert (b : BitVec 8) (s : State) : (ackDone b s).extInsert = s.extInsert := by
  dsimp only [ackDone]
@[simp] theorem ackDone_irqPend (b : BitVec 8) (s : State) : (ackDone b s).irqPend = s.irqPend := by
  dsimp only [ackDone]
@[simp] theorem ackDone_irqEn (b : BitVec 8) (s : State) : (ackDone b s).irqEn = s.irqEn := by
  dsimp only [ackDone]
@[simp] theorem ackDone_errCode (b : BitVec 8) (s : State) : (ackDone b s).errCode = s.errCode := by
  dsimp only [ackDone]
@[simp] theorem ackDone_errInfo (b : BitVec 8) (s : State) : (ackDone b s).errInfo = s.errInfo := by
  dsimp only [ackDone]
@[simp] theorem ackDone_sampleCnt (b : BitVec 8) (s : State) : (ackDone b s).sampleCnt = s.sampleCnt := by
  dsimp only [ackDone]
@[simp] theorem ackDone_tblTable (b : BitVec 8) (s : State) : (ackDone b s).tblTable = s.tblTable := by
  dsimp only [ackDone]
@[simp] theorem ackDone_tblBankSel (b : BitVec 8) (s : State) : (ackDone b s).tblBankSel = s.tblBankSel := by
  dsimp only [ackDone]
@[simp] theorem ackDone_tblIndex (b : BitVec 8) (s : State) : (ackDone b s).tblIndex = s.tblIndex := by
  dsimp only [ackDone]
@[simp] theorem ackDone_parSel (b : BitVec 8) (s : State) : (ackDone b s).parSel = s.parSel := by
  dsimp only [ackDone]
@[simp] theorem ackDone_bank (b : BitVec 8) (s : State) : (ackDone b s).bank = s.bank := by
  dsimp only [ackDone]
@[simp] theorem ackDone_done (b : BitVec 8) (s : State) : (ackDone b s).done = s.done &&& ~~~b := by
  dsimp only [ackDone]
@[simp] theorem ackDone_tgt (b : BitVec 8) (s : State) : (ackDone b s).tgt = s.tgt := by
  dsimp only [ackDone]
@[simp] theorem ackDone_cur (b : BitVec 8) (s : State) : (ackDone b s).cur = s.cur := by
  dsimp only [ackDone]
@[simp] theorem ackDone_irLen0 (b : BitVec 8) (s : State) : (ackDone b s).irLen0 = s.irLen0 := by
  dsimp only [ackDone]
@[simp] theorem ackDone_irLen1 (b : BitVec 8) (s : State) : (ackDone b s).irLen1 = s.irLen1 := by
  dsimp only [ackDone]
@[simp] theorem ackDone_fifo (b : BitVec 8) (s : State) : (ackDone b s).fifo = s.fifo := by
  dsimp only [ackDone]
@[simp] theorem ackDone_wait (b : BitVec 8) (s : State) : (ackDone b s).wait = s.wait := by
  dsimp only [ackDone]
@[simp] theorem ackDone_slots (b : BitVec 8) (s : State) : (ackDone b s).slots = s.slots := by
  dsimp only [ackDone]
@[simp] theorem ackDone_wah (b : BitVec 8) (s : State) : (ackDone b s).wah = s.wah := by
  dsimp only [ackDone]
@[simp] theorem ackDone_ph (b : BitVec 8) (s : State) : (ackDone b s).ph = s.ph := by
  dsimp only [ackDone]
@[simp] theorem ackDone_wlfo (b : BitVec 8) (s : State) : (ackDone b s).wlfo = s.wlfo := by
  dsimp only [ackDone]
@[simp] theorem ackDone_mPh (b : BitVec 8) (s : State) : (ackDone b s).mPh = s.mPh := by
  dsimp only [ackDone]
@[simp] theorem ackDone_chans (b : BitVec 8) (s : State) : (ackDone b s).chans = s.chans := by
  dsimp only [ackDone]
@[simp] theorem ackDone_wp (b : BitVec 8) (s : State) : (ackDone b s).wp = s.wp := by
  dsimp only [ackDone]
@[simp] theorem ackDone_tables (b : BitVec 8) (s : State) : (ackDone b s).tables = s.tables := by
  dsimp only [ackDone]
@[simp] theorem ackDone_egOut (b : BitVec 8) (s : State) : (ackDone b s).egOut = s.egOut := by
  dsimp only [ackDone]
@[simp] theorem ackDone_egGain (b : BitVec 8) (s : State) : (ackDone b s).egGain = s.egGain := by
  dsimp only [ackDone]
@[simp] theorem ackDone_outL (b : BitVec 8) (s : State) : (ackDone b s).outL = s.outL := by
  dsimp only [ackDone]
@[simp] theorem ackDone_outR (b : BitVec 8) (s : State) : (ackDone b s).outR = s.outR := by
  dsimp only [ackDone]
@[simp] theorem ackDone_voiceIn (b : BitVec 8) (s : State) : (ackDone b s).voiceIn = s.voiceIn := by
  dsimp only [ackDone]
@[simp] theorem ackDone_chainIn (b : BitVec 8) (s : State) : (ackDone b s).chainIn = s.chainIn := by
  dsimp only [ackDone]
@[simp] theorem ackDone_rst (b : BitVec 8) (s : State) : (ackDone b s).rst = s.rst := by
  dsimp only [ackDone]
@[simp] theorem ackDone_rdata (b : BitVec 8) (s : State) : (ackDone b s).rdata = s.rdata := by
  dsimp only [ackDone]
@[simp] theorem ackDone_draws (b : BitVec 8) (s : State) : (ackDone b s).draws = s.draws := by
  dsimp only [ackDone]
@[simp] theorem ackDone_env (b : BitVec 8) (s : State) : (ackDone b s).env = s.env := by
  dsimp only [ackDone]

/-! ### tableWrite -/

@[simp] theorem tableWrite_run (s : State) (t : TableId) (b : Bool) (i : Nat) (v : Sample) :
    (tableWrite s t b i v).run = s.run := by
  dsimp only [tableWrite]
@[simp] theorem tableWrite_extInsert (s : State) (t : TableId) (b : Bool) (i : Nat) (v : Sample) :
    (tableWrite s t b i v).extInsert = s.extInsert := by
  dsimp only [tableWrite]
@[simp] theorem tableWrite_irqPend (s : State) (t : TableId) (b : Bool) (i : Nat) (v : Sample) :
    (tableWrite s t b i v).irqPend = s.irqPend := by
  dsimp only [tableWrite]
@[simp] theorem tableWrite_irqEn (s : State) (t : TableId) (b : Bool) (i : Nat) (v : Sample) :
    (tableWrite s t b i v).irqEn = s.irqEn := by
  dsimp only [tableWrite]
@[simp] theorem tableWrite_errCode (s : State) (t : TableId) (b : Bool) (i : Nat) (v : Sample) :
    (tableWrite s t b i v).errCode = s.errCode := by
  dsimp only [tableWrite]
@[simp] theorem tableWrite_errInfo (s : State) (t : TableId) (b : Bool) (i : Nat) (v : Sample) :
    (tableWrite s t b i v).errInfo = s.errInfo := by
  dsimp only [tableWrite]
@[simp] theorem tableWrite_sampleCnt (s : State) (t : TableId) (b : Bool) (i : Nat) (v : Sample) :
    (tableWrite s t b i v).sampleCnt = s.sampleCnt := by
  dsimp only [tableWrite]
@[simp] theorem tableWrite_tblTable (s : State) (t : TableId) (b : Bool) (i : Nat) (v : Sample) :
    (tableWrite s t b i v).tblTable = s.tblTable := by
  dsimp only [tableWrite]
@[simp] theorem tableWrite_tblBankSel (s : State) (t : TableId) (b : Bool) (i : Nat) (v : Sample) :
    (tableWrite s t b i v).tblBankSel = s.tblBankSel := by
  dsimp only [tableWrite]
@[simp] theorem tableWrite_tblIndex (s : State) (t : TableId) (b : Bool) (i : Nat) (v : Sample) :
    (tableWrite s t b i v).tblIndex = s.tblIndex := by
  dsimp only [tableWrite]
@[simp] theorem tableWrite_parSel (s : State) (t : TableId) (b : Bool) (i : Nat) (v : Sample) :
    (tableWrite s t b i v).parSel = s.parSel := by
  dsimp only [tableWrite]
@[simp] theorem tableWrite_bank (s : State) (t : TableId) (b : Bool) (i : Nat) (v : Sample) :
    (tableWrite s t b i v).bank = s.bank := by
  dsimp only [tableWrite]
@[simp] theorem tableWrite_done (s : State) (t : TableId) (b : Bool) (i : Nat) (v : Sample) :
    (tableWrite s t b i v).done = s.done := by
  dsimp only [tableWrite]
@[simp] theorem tableWrite_tgt (s : State) (t : TableId) (b : Bool) (i : Nat) (v : Sample) :
    (tableWrite s t b i v).tgt = s.tgt := by
  dsimp only [tableWrite]
@[simp] theorem tableWrite_cur (s : State) (t : TableId) (b : Bool) (i : Nat) (v : Sample) :
    (tableWrite s t b i v).cur = s.cur := by
  dsimp only [tableWrite]
@[simp] theorem tableWrite_irLen0 (s : State) (t : TableId) (b : Bool) (i : Nat) (v : Sample) :
    (tableWrite s t b i v).irLen0 = s.irLen0 := by
  dsimp only [tableWrite]
@[simp] theorem tableWrite_irLen1 (s : State) (t : TableId) (b : Bool) (i : Nat) (v : Sample) :
    (tableWrite s t b i v).irLen1 = s.irLen1 := by
  dsimp only [tableWrite]
@[simp] theorem tableWrite_fifo (s : State) (t : TableId) (b : Bool) (i : Nat) (v : Sample) :
    (tableWrite s t b i v).fifo = s.fifo := by
  dsimp only [tableWrite]
@[simp] theorem tableWrite_wait (s : State) (t : TableId) (b : Bool) (i : Nat) (v : Sample) :
    (tableWrite s t b i v).wait = s.wait := by
  dsimp only [tableWrite]
@[simp] theorem tableWrite_slots (s : State) (t : TableId) (b : Bool) (i : Nat) (v : Sample) :
    (tableWrite s t b i v).slots = s.slots := by
  dsimp only [tableWrite]
@[simp] theorem tableWrite_wah (s : State) (t : TableId) (b : Bool) (i : Nat) (v : Sample) :
    (tableWrite s t b i v).wah = s.wah := by
  dsimp only [tableWrite]
@[simp] theorem tableWrite_ph (s : State) (t : TableId) (b : Bool) (i : Nat) (v : Sample) :
    (tableWrite s t b i v).ph = s.ph := by
  dsimp only [tableWrite]
@[simp] theorem tableWrite_wlfo (s : State) (t : TableId) (b : Bool) (i : Nat) (v : Sample) :
    (tableWrite s t b i v).wlfo = s.wlfo := by
  dsimp only [tableWrite]
@[simp] theorem tableWrite_mPh (s : State) (t : TableId) (b : Bool) (i : Nat) (v : Sample) :
    (tableWrite s t b i v).mPh = s.mPh := by
  dsimp only [tableWrite]
@[simp] theorem tableWrite_chans (s : State) (t : TableId) (b : Bool) (i : Nat) (v : Sample) :
    (tableWrite s t b i v).chans = s.chans := by
  dsimp only [tableWrite]
@[simp] theorem tableWrite_wp (s : State) (t : TableId) (b : Bool) (i : Nat) (v : Sample) :
    (tableWrite s t b i v).wp = s.wp := by
  dsimp only [tableWrite]
@[simp] theorem tableWrite_tables (s : State) (t : TableId) (b : Bool) (i : Nat) (v : Sample) :
    (tableWrite s t b i v).tables = cellInsert s.tables (tableAddr t b i) v := by
  dsimp only [tableWrite]
@[simp] theorem tableWrite_egOut (s : State) (t : TableId) (b : Bool) (i : Nat) (v : Sample) :
    (tableWrite s t b i v).egOut = s.egOut := by
  dsimp only [tableWrite]
@[simp] theorem tableWrite_egGain (s : State) (t : TableId) (b : Bool) (i : Nat) (v : Sample) :
    (tableWrite s t b i v).egGain = s.egGain := by
  dsimp only [tableWrite]
@[simp] theorem tableWrite_outL (s : State) (t : TableId) (b : Bool) (i : Nat) (v : Sample) :
    (tableWrite s t b i v).outL = s.outL := by
  dsimp only [tableWrite]
@[simp] theorem tableWrite_outR (s : State) (t : TableId) (b : Bool) (i : Nat) (v : Sample) :
    (tableWrite s t b i v).outR = s.outR := by
  dsimp only [tableWrite]
@[simp] theorem tableWrite_voiceIn (s : State) (t : TableId) (b : Bool) (i : Nat) (v : Sample) :
    (tableWrite s t b i v).voiceIn = s.voiceIn := by
  dsimp only [tableWrite]
@[simp] theorem tableWrite_chainIn (s : State) (t : TableId) (b : Bool) (i : Nat) (v : Sample) :
    (tableWrite s t b i v).chainIn = s.chainIn := by
  dsimp only [tableWrite]
@[simp] theorem tableWrite_rst (s : State) (t : TableId) (b : Bool) (i : Nat) (v : Sample) :
    (tableWrite s t b i v).rst = s.rst := by
  dsimp only [tableWrite]
@[simp] theorem tableWrite_rdata (s : State) (t : TableId) (b : Bool) (i : Nat) (v : Sample) :
    (tableWrite s t b i v).rdata = s.rdata := by
  dsimp only [tableWrite]
@[simp] theorem tableWrite_draws (s : State) (t : TableId) (b : Bool) (i : Nat) (v : Sample) :
    (tableWrite s t b i v).draws = s.draws := by
  dsimp only [tableWrite]
@[simp] theorem tableWrite_env (s : State) (t : TableId) (b : Bool) (i : Nat) (v : Sample) :
    (tableWrite s t b i v).env = s.env := by
  dsimp only [tableWrite]

/-! ### writeTblAddr -/

@[simp] theorem writeTblAddr_run (v : Word) (s : State) : (writeTblAddr v s).run = s.run := by
  dsimp only [writeTblAddr]
@[simp] theorem writeTblAddr_extInsert (v : Word) (s : State) : (writeTblAddr v s).extInsert = s.extInsert := by
  dsimp only [writeTblAddr]
@[simp] theorem writeTblAddr_irqPend (v : Word) (s : State) : (writeTblAddr v s).irqPend = s.irqPend := by
  dsimp only [writeTblAddr]
@[simp] theorem writeTblAddr_irqEn (v : Word) (s : State) : (writeTblAddr v s).irqEn = s.irqEn := by
  dsimp only [writeTblAddr]
@[simp] theorem writeTblAddr_errCode (v : Word) (s : State) : (writeTblAddr v s).errCode = s.errCode := by
  dsimp only [writeTblAddr]
@[simp] theorem writeTblAddr_errInfo (v : Word) (s : State) : (writeTblAddr v s).errInfo = s.errInfo := by
  dsimp only [writeTblAddr]
@[simp] theorem writeTblAddr_sampleCnt (v : Word) (s : State) : (writeTblAddr v s).sampleCnt = s.sampleCnt := by
  dsimp only [writeTblAddr]
@[simp] theorem writeTblAddr_tblTable (v : Word) (s : State) : (writeTblAddr v s).tblTable = v.extractLsb' 28 3 := by
  dsimp only [writeTblAddr]
@[simp] theorem writeTblAddr_tblBankSel (v : Word) (s : State) : (writeTblAddr v s).tblBankSel = v.getLsbD 27 := by
  dsimp only [writeTblAddr]
@[simp] theorem writeTblAddr_tblIndex (v : Word) (s : State) : (writeTblAddr v s).tblIndex = v.extractLsb' 0 20 := by
  dsimp only [writeTblAddr]
@[simp] theorem writeTblAddr_parSel (v : Word) (s : State) : (writeTblAddr v s).parSel = s.parSel := by
  dsimp only [writeTblAddr]
@[simp] theorem writeTblAddr_bank (v : Word) (s : State) : (writeTblAddr v s).bank = s.bank := by
  dsimp only [writeTblAddr]
@[simp] theorem writeTblAddr_done (v : Word) (s : State) : (writeTblAddr v s).done = s.done := by
  dsimp only [writeTblAddr]
@[simp] theorem writeTblAddr_tgt (v : Word) (s : State) : (writeTblAddr v s).tgt = s.tgt := by
  dsimp only [writeTblAddr]
@[simp] theorem writeTblAddr_cur (v : Word) (s : State) : (writeTblAddr v s).cur = s.cur := by
  dsimp only [writeTblAddr]
@[simp] theorem writeTblAddr_irLen0 (v : Word) (s : State) : (writeTblAddr v s).irLen0 = s.irLen0 := by
  dsimp only [writeTblAddr]
@[simp] theorem writeTblAddr_irLen1 (v : Word) (s : State) : (writeTblAddr v s).irLen1 = s.irLen1 := by
  dsimp only [writeTblAddr]
@[simp] theorem writeTblAddr_fifo (v : Word) (s : State) : (writeTblAddr v s).fifo = s.fifo := by
  dsimp only [writeTblAddr]
@[simp] theorem writeTblAddr_wait (v : Word) (s : State) : (writeTblAddr v s).wait = s.wait := by
  dsimp only [writeTblAddr]
@[simp] theorem writeTblAddr_slots (v : Word) (s : State) : (writeTblAddr v s).slots = s.slots := by
  dsimp only [writeTblAddr]
@[simp] theorem writeTblAddr_wah (v : Word) (s : State) : (writeTblAddr v s).wah = s.wah := by
  dsimp only [writeTblAddr]
@[simp] theorem writeTblAddr_ph (v : Word) (s : State) : (writeTblAddr v s).ph = s.ph := by
  dsimp only [writeTblAddr]
@[simp] theorem writeTblAddr_wlfo (v : Word) (s : State) : (writeTblAddr v s).wlfo = s.wlfo := by
  dsimp only [writeTblAddr]
@[simp] theorem writeTblAddr_mPh (v : Word) (s : State) : (writeTblAddr v s).mPh = s.mPh := by
  dsimp only [writeTblAddr]
@[simp] theorem writeTblAddr_chans (v : Word) (s : State) : (writeTblAddr v s).chans = s.chans := by
  dsimp only [writeTblAddr]
@[simp] theorem writeTblAddr_wp (v : Word) (s : State) : (writeTblAddr v s).wp = s.wp := by
  dsimp only [writeTblAddr]
@[simp] theorem writeTblAddr_tables (v : Word) (s : State) : (writeTblAddr v s).tables = s.tables := by
  dsimp only [writeTblAddr]
@[simp] theorem writeTblAddr_egOut (v : Word) (s : State) : (writeTblAddr v s).egOut = s.egOut := by
  dsimp only [writeTblAddr]
@[simp] theorem writeTblAddr_egGain (v : Word) (s : State) : (writeTblAddr v s).egGain = s.egGain := by
  dsimp only [writeTblAddr]
@[simp] theorem writeTblAddr_outL (v : Word) (s : State) : (writeTblAddr v s).outL = s.outL := by
  dsimp only [writeTblAddr]
@[simp] theorem writeTblAddr_outR (v : Word) (s : State) : (writeTblAddr v s).outR = s.outR := by
  dsimp only [writeTblAddr]
@[simp] theorem writeTblAddr_voiceIn (v : Word) (s : State) : (writeTblAddr v s).voiceIn = s.voiceIn := by
  dsimp only [writeTblAddr]
@[simp] theorem writeTblAddr_chainIn (v : Word) (s : State) : (writeTblAddr v s).chainIn = s.chainIn := by
  dsimp only [writeTblAddr]
@[simp] theorem writeTblAddr_rst (v : Word) (s : State) : (writeTblAddr v s).rst = s.rst := by
  dsimp only [writeTblAddr]
@[simp] theorem writeTblAddr_rdata (v : Word) (s : State) : (writeTblAddr v s).rdata = s.rdata := by
  dsimp only [writeTblAddr]
@[simp] theorem writeTblAddr_draws (v : Word) (s : State) : (writeTblAddr v s).draws = s.draws := by
  dsimp only [writeTblAddr]
@[simp] theorem writeTblAddr_env (v : Word) (s : State) : (writeTblAddr v s).env = s.env := by
  dsimp only [writeTblAddr]

/-! ### advanceIndex -/

@[simp] theorem advanceIndex_run (s : State) : (advanceIndex s).run = s.run := by
  dsimp only [advanceIndex]
@[simp] theorem advanceIndex_extInsert (s : State) : (advanceIndex s).extInsert = s.extInsert := by
  dsimp only [advanceIndex]
@[simp] theorem advanceIndex_irqPend (s : State) : (advanceIndex s).irqPend = s.irqPend := by
  dsimp only [advanceIndex]
@[simp] theorem advanceIndex_irqEn (s : State) : (advanceIndex s).irqEn = s.irqEn := by
  dsimp only [advanceIndex]
@[simp] theorem advanceIndex_errCode (s : State) : (advanceIndex s).errCode = s.errCode := by
  dsimp only [advanceIndex]
@[simp] theorem advanceIndex_errInfo (s : State) : (advanceIndex s).errInfo = s.errInfo := by
  dsimp only [advanceIndex]
@[simp] theorem advanceIndex_sampleCnt (s : State) : (advanceIndex s).sampleCnt = s.sampleCnt := by
  dsimp only [advanceIndex]
@[simp] theorem advanceIndex_tblTable (s : State) : (advanceIndex s).tblTable = s.tblTable := by
  dsimp only [advanceIndex]
@[simp] theorem advanceIndex_tblBankSel (s : State) : (advanceIndex s).tblBankSel = s.tblBankSel := by
  dsimp only [advanceIndex]
@[simp] theorem advanceIndex_tblIndex (s : State) : (advanceIndex s).tblIndex = s.tblIndex + 1 := by
  dsimp only [advanceIndex]
@[simp] theorem advanceIndex_parSel (s : State) : (advanceIndex s).parSel = s.parSel := by
  dsimp only [advanceIndex]
@[simp] theorem advanceIndex_bank (s : State) : (advanceIndex s).bank = s.bank := by
  dsimp only [advanceIndex]
@[simp] theorem advanceIndex_done (s : State) : (advanceIndex s).done = s.done := by
  dsimp only [advanceIndex]
@[simp] theorem advanceIndex_tgt (s : State) : (advanceIndex s).tgt = s.tgt := by
  dsimp only [advanceIndex]
@[simp] theorem advanceIndex_cur (s : State) : (advanceIndex s).cur = s.cur := by
  dsimp only [advanceIndex]
@[simp] theorem advanceIndex_irLen0 (s : State) : (advanceIndex s).irLen0 = s.irLen0 := by
  dsimp only [advanceIndex]
@[simp] theorem advanceIndex_irLen1 (s : State) : (advanceIndex s).irLen1 = s.irLen1 := by
  dsimp only [advanceIndex]
@[simp] theorem advanceIndex_fifo (s : State) : (advanceIndex s).fifo = s.fifo := by
  dsimp only [advanceIndex]
@[simp] theorem advanceIndex_wait (s : State) : (advanceIndex s).wait = s.wait := by
  dsimp only [advanceIndex]
@[simp] theorem advanceIndex_slots (s : State) : (advanceIndex s).slots = s.slots := by
  dsimp only [advanceIndex]
@[simp] theorem advanceIndex_wah (s : State) : (advanceIndex s).wah = s.wah := by
  dsimp only [advanceIndex]
@[simp] theorem advanceIndex_ph (s : State) : (advanceIndex s).ph = s.ph := by
  dsimp only [advanceIndex]
@[simp] theorem advanceIndex_wlfo (s : State) : (advanceIndex s).wlfo = s.wlfo := by
  dsimp only [advanceIndex]
@[simp] theorem advanceIndex_mPh (s : State) : (advanceIndex s).mPh = s.mPh := by
  dsimp only [advanceIndex]
@[simp] theorem advanceIndex_chans (s : State) : (advanceIndex s).chans = s.chans := by
  dsimp only [advanceIndex]
@[simp] theorem advanceIndex_wp (s : State) : (advanceIndex s).wp = s.wp := by
  dsimp only [advanceIndex]
@[simp] theorem advanceIndex_tables (s : State) : (advanceIndex s).tables = s.tables := by
  dsimp only [advanceIndex]
@[simp] theorem advanceIndex_egOut (s : State) : (advanceIndex s).egOut = s.egOut := by
  dsimp only [advanceIndex]
@[simp] theorem advanceIndex_egGain (s : State) : (advanceIndex s).egGain = s.egGain := by
  dsimp only [advanceIndex]
@[simp] theorem advanceIndex_outL (s : State) : (advanceIndex s).outL = s.outL := by
  dsimp only [advanceIndex]
@[simp] theorem advanceIndex_outR (s : State) : (advanceIndex s).outR = s.outR := by
  dsimp only [advanceIndex]
@[simp] theorem advanceIndex_voiceIn (s : State) : (advanceIndex s).voiceIn = s.voiceIn := by
  dsimp only [advanceIndex]
@[simp] theorem advanceIndex_chainIn (s : State) : (advanceIndex s).chainIn = s.chainIn := by
  dsimp only [advanceIndex]
@[simp] theorem advanceIndex_rst (s : State) : (advanceIndex s).rst = s.rst := by
  dsimp only [advanceIndex]
@[simp] theorem advanceIndex_rdata (s : State) : (advanceIndex s).rdata = s.rdata := by
  dsimp only [advanceIndex]
@[simp] theorem advanceIndex_draws (s : State) : (advanceIndex s).draws = s.draws := by
  dsimp only [advanceIndex]
@[simp] theorem advanceIndex_env (s : State) : (advanceIndex s).env = s.env := by
  dsimp only [advanceIndex]

/-! ### flushFifo -/

@[simp] theorem flushFifo_run (s : State) : (flushFifo s).run = s.run := by
  dsimp only [flushFifo]
@[simp] theorem flushFifo_extInsert (s : State) : (flushFifo s).extInsert = s.extInsert := by
  dsimp only [flushFifo]
@[simp] theorem flushFifo_irqPend (s : State) : (flushFifo s).irqPend = s.irqPend := by
  dsimp only [flushFifo]
@[simp] theorem flushFifo_irqEn (s : State) : (flushFifo s).irqEn = s.irqEn := by
  dsimp only [flushFifo]
@[simp] theorem flushFifo_errCode (s : State) : (flushFifo s).errCode = s.errCode := by
  dsimp only [flushFifo]
@[simp] theorem flushFifo_errInfo (s : State) : (flushFifo s).errInfo = s.errInfo := by
  dsimp only [flushFifo]
@[simp] theorem flushFifo_sampleCnt (s : State) : (flushFifo s).sampleCnt = s.sampleCnt := by
  dsimp only [flushFifo]
@[simp] theorem flushFifo_tblTable (s : State) : (flushFifo s).tblTable = s.tblTable := by
  dsimp only [flushFifo]
@[simp] theorem flushFifo_tblBankSel (s : State) : (flushFifo s).tblBankSel = s.tblBankSel := by
  dsimp only [flushFifo]
@[simp] theorem flushFifo_tblIndex (s : State) : (flushFifo s).tblIndex = s.tblIndex := by
  dsimp only [flushFifo]
@[simp] theorem flushFifo_parSel (s : State) : (flushFifo s).parSel = s.parSel := by
  dsimp only [flushFifo]
@[simp] theorem flushFifo_bank (s : State) : (flushFifo s).bank = s.bank := by
  dsimp only [flushFifo]
@[simp] theorem flushFifo_done (s : State) : (flushFifo s).done = s.done := by
  dsimp only [flushFifo]
@[simp] theorem flushFifo_tgt (s : State) : (flushFifo s).tgt = s.tgt := by
  dsimp only [flushFifo]
@[simp] theorem flushFifo_cur (s : State) : (flushFifo s).cur = s.cur := by
  dsimp only [flushFifo]
@[simp] theorem flushFifo_irLen0 (s : State) : (flushFifo s).irLen0 = s.irLen0 := by
  dsimp only [flushFifo]
@[simp] theorem flushFifo_irLen1 (s : State) : (flushFifo s).irLen1 = s.irLen1 := by
  dsimp only [flushFifo]
@[simp] theorem flushFifo_fifo (s : State) : (flushFifo s).fifo = [] := by
  dsimp only [flushFifo]
@[simp] theorem flushFifo_wait (s : State) : (flushFifo s).wait = 0 := by
  dsimp only [flushFifo]
@[simp] theorem flushFifo_slots (s : State) : (flushFifo s).slots = s.slots := by
  dsimp only [flushFifo]
@[simp] theorem flushFifo_wah (s : State) : (flushFifo s).wah = s.wah := by
  dsimp only [flushFifo]
@[simp] theorem flushFifo_ph (s : State) : (flushFifo s).ph = s.ph := by
  dsimp only [flushFifo]
@[simp] theorem flushFifo_wlfo (s : State) : (flushFifo s).wlfo = s.wlfo := by
  dsimp only [flushFifo]
@[simp] theorem flushFifo_mPh (s : State) : (flushFifo s).mPh = s.mPh := by
  dsimp only [flushFifo]
@[simp] theorem flushFifo_chans (s : State) : (flushFifo s).chans = s.chans := by
  dsimp only [flushFifo]
@[simp] theorem flushFifo_wp (s : State) : (flushFifo s).wp = s.wp := by
  dsimp only [flushFifo]
@[simp] theorem flushFifo_tables (s : State) : (flushFifo s).tables = s.tables := by
  dsimp only [flushFifo]
@[simp] theorem flushFifo_egOut (s : State) : (flushFifo s).egOut = s.egOut := by
  dsimp only [flushFifo]
@[simp] theorem flushFifo_egGain (s : State) : (flushFifo s).egGain = s.egGain := by
  dsimp only [flushFifo]
@[simp] theorem flushFifo_outL (s : State) : (flushFifo s).outL = s.outL := by
  dsimp only [flushFifo]
@[simp] theorem flushFifo_outR (s : State) : (flushFifo s).outR = s.outR := by
  dsimp only [flushFifo]
@[simp] theorem flushFifo_voiceIn (s : State) : (flushFifo s).voiceIn = s.voiceIn := by
  dsimp only [flushFifo]
@[simp] theorem flushFifo_chainIn (s : State) : (flushFifo s).chainIn = s.chainIn := by
  dsimp only [flushFifo]
@[simp] theorem flushFifo_rst (s : State) : (flushFifo s).rst = s.rst := by
  dsimp only [flushFifo]
@[simp] theorem flushFifo_rdata (s : State) : (flushFifo s).rdata = s.rdata := by
  dsimp only [flushFifo]
@[simp] theorem flushFifo_draws (s : State) : (flushFifo s).draws = s.draws := by
  dsimp only [flushFifo]
@[simp] theorem flushFifo_env (s : State) : (flushFifo s).env = s.env := by
  dsimp only [flushFifo]

/-! ### startVoice -/

@[simp] theorem startVoice_run (k : SlotId) (str : BitVec 2) (t : Tech) (s : State) :
    (startVoice k str t s).run = s.run := by
  dsimp only [startVoice]
@[simp] theorem startVoice_extInsert (k : SlotId) (str : BitVec 2) (t : Tech) (s : State) :
    (startVoice k str t s).extInsert = s.extInsert := by
  dsimp only [startVoice]
@[simp] theorem startVoice_irqPend (k : SlotId) (str : BitVec 2) (t : Tech) (s : State) :
    (startVoice k str t s).irqPend = s.irqPend := by
  dsimp only [startVoice]
@[simp] theorem startVoice_irqEn (k : SlotId) (str : BitVec 2) (t : Tech) (s : State) :
    (startVoice k str t s).irqEn = s.irqEn := by
  dsimp only [startVoice]
@[simp] theorem startVoice_errCode (k : SlotId) (str : BitVec 2) (t : Tech) (s : State) :
    (startVoice k str t s).errCode = s.errCode := by
  dsimp only [startVoice]
@[simp] theorem startVoice_errInfo (k : SlotId) (str : BitVec 2) (t : Tech) (s : State) :
    (startVoice k str t s).errInfo = s.errInfo := by
  dsimp only [startVoice]
@[simp] theorem startVoice_sampleCnt (k : SlotId) (str : BitVec 2) (t : Tech) (s : State) :
    (startVoice k str t s).sampleCnt = s.sampleCnt := by
  dsimp only [startVoice]
@[simp] theorem startVoice_tblTable (k : SlotId) (str : BitVec 2) (t : Tech) (s : State) :
    (startVoice k str t s).tblTable = s.tblTable := by
  dsimp only [startVoice]
@[simp] theorem startVoice_tblBankSel (k : SlotId) (str : BitVec 2) (t : Tech) (s : State) :
    (startVoice k str t s).tblBankSel = s.tblBankSel := by
  dsimp only [startVoice]
@[simp] theorem startVoice_tblIndex (k : SlotId) (str : BitVec 2) (t : Tech) (s : State) :
    (startVoice k str t s).tblIndex = s.tblIndex := by
  dsimp only [startVoice]
@[simp] theorem startVoice_parSel (k : SlotId) (str : BitVec 2) (t : Tech) (s : State) :
    (startVoice k str t s).parSel = s.parSel := by
  dsimp only [startVoice]
@[simp] theorem startVoice_bank (k : SlotId) (str : BitVec 2) (t : Tech) (s : State) :
    (startVoice k str t s).bank = s.bank := by
  dsimp only [startVoice]
@[simp] theorem startVoice_done (k : SlotId) (str : BitVec 2) (t : Tech) (s : State) :
    (startVoice k str t s).done = s.done := by
  dsimp only [startVoice]
@[simp] theorem startVoice_tgt (k : SlotId) (str : BitVec 2) (t : Tech) (s : State) :
    (startVoice k str t s).tgt = s.tgt := by
  dsimp only [startVoice]
@[simp] theorem startVoice_cur (k : SlotId) (str : BitVec 2) (t : Tech) (s : State) :
    (startVoice k str t s).cur = s.cur := by
  dsimp only [startVoice]
@[simp] theorem startVoice_irLen0 (k : SlotId) (str : BitVec 2) (t : Tech) (s : State) :
    (startVoice k str t s).irLen0 = s.irLen0 := by
  dsimp only [startVoice]
@[simp] theorem startVoice_irLen1 (k : SlotId) (str : BitVec 2) (t : Tech) (s : State) :
    (startVoice k str t s).irLen1 = s.irLen1 := by
  dsimp only [startVoice]
@[simp] theorem startVoice_fifo (k : SlotId) (str : BitVec 2) (t : Tech) (s : State) :
    (startVoice k str t s).fifo = s.fifo := by
  dsimp only [startVoice]
@[simp] theorem startVoice_wait (k : SlotId) (str : BitVec 2) (t : Tech) (s : State) :
    (startVoice k str t s).wait = s.wait := by
  dsimp only [startVoice]
@[simp] theorem startVoice_slots (k : SlotId) (str : BitVec 2) (t : Tech) (s : State) :
    (startVoice k str t s).slots = (releaseString str s.slots).set k (triggeredSlot s str t) := by
  dsimp only [startVoice]
@[simp] theorem startVoice_wah (k : SlotId) (str : BitVec 2) (t : Tech) (s : State) :
    (startVoice k str t s).wah = if tgtInt s (.en .autowah) = 1 then triggeredWah s else s.wah := by
  dsimp only [startVoice]
@[simp] theorem startVoice_ph (k : SlotId) (str : BitVec 2) (t : Tech) (s : State) :
    (startVoice k str t s).ph = s.ph := by
  dsimp only [startVoice]
@[simp] theorem startVoice_wlfo (k : SlotId) (str : BitVec 2) (t : Tech) (s : State) :
    (startVoice k str t s).wlfo = s.wlfo := by
  dsimp only [startVoice]
@[simp] theorem startVoice_mPh (k : SlotId) (str : BitVec 2) (t : Tech) (s : State) :
    (startVoice k str t s).mPh = s.mPh := by
  dsimp only [startVoice]
@[simp] theorem startVoice_chans (k : SlotId) (str : BitVec 2) (t : Tech) (s : State) :
    (startVoice k str t s).chans = s.chans := by
  dsimp only [startVoice]
@[simp] theorem startVoice_wp (k : SlotId) (str : BitVec 2) (t : Tech) (s : State) :
    (startVoice k str t s).wp = s.wp := by
  dsimp only [startVoice]
@[simp] theorem startVoice_tables (k : SlotId) (str : BitVec 2) (t : Tech) (s : State) :
    (startVoice k str t s).tables = s.tables := by
  dsimp only [startVoice]
@[simp] theorem startVoice_egOut (k : SlotId) (str : BitVec 2) (t : Tech) (s : State) :
    (startVoice k str t s).egOut = s.egOut := by
  dsimp only [startVoice]
@[simp] theorem startVoice_egGain (k : SlotId) (str : BitVec 2) (t : Tech) (s : State) :
    (startVoice k str t s).egGain = s.egGain := by
  dsimp only [startVoice]
@[simp] theorem startVoice_outL (k : SlotId) (str : BitVec 2) (t : Tech) (s : State) :
    (startVoice k str t s).outL = s.outL := by
  dsimp only [startVoice]
@[simp] theorem startVoice_outR (k : SlotId) (str : BitVec 2) (t : Tech) (s : State) :
    (startVoice k str t s).outR = s.outR := by
  dsimp only [startVoice]
@[simp] theorem startVoice_voiceIn (k : SlotId) (str : BitVec 2) (t : Tech) (s : State) :
    (startVoice k str t s).voiceIn = s.voiceIn := by
  dsimp only [startVoice]
@[simp] theorem startVoice_chainIn (k : SlotId) (str : BitVec 2) (t : Tech) (s : State) :
    (startVoice k str t s).chainIn = s.chainIn := by
  dsimp only [startVoice]
@[simp] theorem startVoice_rst (k : SlotId) (str : BitVec 2) (t : Tech) (s : State) :
    (startVoice k str t s).rst = s.rst := by
  dsimp only [startVoice]
@[simp] theorem startVoice_rdata (k : SlotId) (str : BitVec 2) (t : Tech) (s : State) :
    (startVoice k str t s).rdata = s.rdata := by
  dsimp only [startVoice]
@[simp] theorem startVoice_draws (k : SlotId) (str : BitVec 2) (t : Tech) (s : State) :
    (startVoice k str t s).draws = s.draws := by
  dsimp only [startVoice]
@[simp] theorem startVoice_env (k : SlotId) (str : BitVec 2) (t : Tech) (s : State) :
    (startVoice k str t s).env = s.env := by
  dsimp only [startVoice]

/-! ### smoothPhase -/

@[simp] theorem smoothPhase_run (s : State) : (smoothPhase s).run = s.run := by
  dsimp only [smoothPhase]
@[simp] theorem smoothPhase_extInsert (s : State) : (smoothPhase s).extInsert = s.extInsert := by
  dsimp only [smoothPhase]
@[simp] theorem smoothPhase_irqPend (s : State) : (smoothPhase s).irqPend = s.irqPend := by
  dsimp only [smoothPhase]
@[simp] theorem smoothPhase_irqEn (s : State) : (smoothPhase s).irqEn = s.irqEn := by
  dsimp only [smoothPhase]
@[simp] theorem smoothPhase_errCode (s : State) : (smoothPhase s).errCode = s.errCode := by
  dsimp only [smoothPhase]
@[simp] theorem smoothPhase_errInfo (s : State) : (smoothPhase s).errInfo = s.errInfo := by
  dsimp only [smoothPhase]
@[simp] theorem smoothPhase_sampleCnt (s : State) : (smoothPhase s).sampleCnt = s.sampleCnt := by
  dsimp only [smoothPhase]
@[simp] theorem smoothPhase_tblTable (s : State) : (smoothPhase s).tblTable = s.tblTable := by
  dsimp only [smoothPhase]
@[simp] theorem smoothPhase_tblBankSel (s : State) : (smoothPhase s).tblBankSel = s.tblBankSel := by
  dsimp only [smoothPhase]
@[simp] theorem smoothPhase_tblIndex (s : State) : (smoothPhase s).tblIndex = s.tblIndex := by
  dsimp only [smoothPhase]
@[simp] theorem smoothPhase_parSel (s : State) : (smoothPhase s).parSel = s.parSel := by
  dsimp only [smoothPhase]
@[simp] theorem smoothPhase_bank (s : State) : (smoothPhase s).bank = s.bank := by
  dsimp only [smoothPhase]
@[simp] theorem smoothPhase_done (s : State) : (smoothPhase s).done = s.done := by
  dsimp only [smoothPhase]
@[simp] theorem smoothPhase_tgt (s : State) : (smoothPhase s).tgt = s.tgt := by
  dsimp only [smoothPhase]
@[simp] theorem smoothPhase_cur (s : State) : (smoothPhase s).cur = ParamFile.tabulate (smoothedWord s) := by
  dsimp only [smoothPhase]
@[simp] theorem smoothPhase_irLen0 (s : State) : (smoothPhase s).irLen0 = s.irLen0 := by
  dsimp only [smoothPhase]
@[simp] theorem smoothPhase_irLen1 (s : State) : (smoothPhase s).irLen1 = s.irLen1 := by
  dsimp only [smoothPhase]
@[simp] theorem smoothPhase_fifo (s : State) : (smoothPhase s).fifo = s.fifo := by
  dsimp only [smoothPhase]
@[simp] theorem smoothPhase_wait (s : State) : (smoothPhase s).wait = s.wait := by
  dsimp only [smoothPhase]
@[simp] theorem smoothPhase_slots (s : State) : (smoothPhase s).slots = s.slots := by
  dsimp only [smoothPhase]
@[simp] theorem smoothPhase_wah (s : State) : (smoothPhase s).wah = s.wah := by
  dsimp only [smoothPhase]
@[simp] theorem smoothPhase_ph (s : State) : (smoothPhase s).ph = s.ph := by
  dsimp only [smoothPhase]
@[simp] theorem smoothPhase_wlfo (s : State) : (smoothPhase s).wlfo = s.wlfo := by
  dsimp only [smoothPhase]
@[simp] theorem smoothPhase_mPh (s : State) : (smoothPhase s).mPh = s.mPh := by
  dsimp only [smoothPhase]
@[simp] theorem smoothPhase_chans (s : State) : (smoothPhase s).chans = s.chans := by
  dsimp only [smoothPhase]
@[simp] theorem smoothPhase_wp (s : State) : (smoothPhase s).wp = s.wp := by
  dsimp only [smoothPhase]
@[simp] theorem smoothPhase_tables (s : State) : (smoothPhase s).tables = s.tables := by
  dsimp only [smoothPhase]
@[simp] theorem smoothPhase_egOut (s : State) : (smoothPhase s).egOut = s.egOut := by
  dsimp only [smoothPhase]
@[simp] theorem smoothPhase_egGain (s : State) : (smoothPhase s).egGain = s.egGain := by
  dsimp only [smoothPhase]
@[simp] theorem smoothPhase_outL (s : State) : (smoothPhase s).outL = s.outL := by
  dsimp only [smoothPhase]
@[simp] theorem smoothPhase_outR (s : State) : (smoothPhase s).outR = s.outR := by
  dsimp only [smoothPhase]
@[simp] theorem smoothPhase_voiceIn (s : State) : (smoothPhase s).voiceIn = s.voiceIn := by
  dsimp only [smoothPhase]
@[simp] theorem smoothPhase_chainIn (s : State) : (smoothPhase s).chainIn = s.chainIn := by
  dsimp only [smoothPhase]
@[simp] theorem smoothPhase_rst (s : State) : (smoothPhase s).rst = s.rst := by
  dsimp only [smoothPhase]
@[simp] theorem smoothPhase_rdata (s : State) : (smoothPhase s).rdata = s.rdata := by
  dsimp only [smoothPhase]
@[simp] theorem smoothPhase_draws (s : State) : (smoothPhase s).draws = s.draws := by
  dsimp only [smoothPhase]
@[simp] theorem smoothPhase_env (s : State) : (smoothPhase s).env = s.env := by
  dsimp only [smoothPhase]

/-! ### modEnvelopes -/

@[simp] theorem modEnvelopes_run (s : State) : (modEnvelopes s).run = s.run := by
  dsimp only [modEnvelopes]
@[simp] theorem modEnvelopes_extInsert (s : State) : (modEnvelopes s).extInsert = s.extInsert := by
  dsimp only [modEnvelopes]
@[simp] theorem modEnvelopes_irqPend (s : State) :
    (modEnvelopes s).irqPend = if doneBits s.slots = 0 then s.irqPend else s.irqPend ||| irqVoiceDone := by
  dsimp only [modEnvelopes]
@[simp] theorem modEnvelopes_irqEn (s : State) : (modEnvelopes s).irqEn = s.irqEn := by
  dsimp only [modEnvelopes]
@[simp] theorem modEnvelopes_errCode (s : State) : (modEnvelopes s).errCode = s.errCode := by
  dsimp only [modEnvelopes]
@[simp] theorem modEnvelopes_errInfo (s : State) : (modEnvelopes s).errInfo = s.errInfo := by
  dsimp only [modEnvelopes]
@[simp] theorem modEnvelopes_sampleCnt (s : State) : (modEnvelopes s).sampleCnt = s.sampleCnt := by
  dsimp only [modEnvelopes]
@[simp] theorem modEnvelopes_tblTable (s : State) : (modEnvelopes s).tblTable = s.tblTable := by
  dsimp only [modEnvelopes]
@[simp] theorem modEnvelopes_tblBankSel (s : State) : (modEnvelopes s).tblBankSel = s.tblBankSel := by
  dsimp only [modEnvelopes]
@[simp] theorem modEnvelopes_tblIndex (s : State) : (modEnvelopes s).tblIndex = s.tblIndex := by
  dsimp only [modEnvelopes]
@[simp] theorem modEnvelopes_parSel (s : State) : (modEnvelopes s).parSel = s.parSel := by
  dsimp only [modEnvelopes]
@[simp] theorem modEnvelopes_bank (s : State) : (modEnvelopes s).bank = s.bank := by
  dsimp only [modEnvelopes]
@[simp] theorem modEnvelopes_done (s : State) : (modEnvelopes s).done = s.done ||| doneBits s.slots := by
  dsimp only [modEnvelopes]
@[simp] theorem modEnvelopes_tgt (s : State) : (modEnvelopes s).tgt = s.tgt := by
  dsimp only [modEnvelopes]
@[simp] theorem modEnvelopes_cur (s : State) : (modEnvelopes s).cur = s.cur := by
  dsimp only [modEnvelopes]
@[simp] theorem modEnvelopes_irLen0 (s : State) : (modEnvelopes s).irLen0 = s.irLen0 := by
  dsimp only [modEnvelopes]
@[simp] theorem modEnvelopes_irLen1 (s : State) : (modEnvelopes s).irLen1 = s.irLen1 := by
  dsimp only [modEnvelopes]
@[simp] theorem modEnvelopes_fifo (s : State) : (modEnvelopes s).fifo = s.fifo := by
  dsimp only [modEnvelopes]
@[simp] theorem modEnvelopes_wait (s : State) : (modEnvelopes s).wait = s.wait := by
  dsimp only [modEnvelopes]
@[simp] theorem modEnvelopes_slots (s : State) :
    (modEnvelopes s).slots = SlotMap.tabulate fun k => stepSlot (s.slots.get k) := by
  dsimp only [modEnvelopes]
@[simp] theorem modEnvelopes_wah (s : State) : (modEnvelopes s).wah = s.wah := by
  dsimp only [modEnvelopes]
@[simp] theorem modEnvelopes_ph (s : State) : (modEnvelopes s).ph = s.ph := by
  dsimp only [modEnvelopes]
@[simp] theorem modEnvelopes_wlfo (s : State) : (modEnvelopes s).wlfo = s.wlfo := by
  dsimp only [modEnvelopes]
@[simp] theorem modEnvelopes_mPh (s : State) : (modEnvelopes s).mPh = s.mPh := by
  dsimp only [modEnvelopes]
@[simp] theorem modEnvelopes_chans (s : State) : (modEnvelopes s).chans = s.chans := by
  dsimp only [modEnvelopes]
@[simp] theorem modEnvelopes_wp (s : State) : (modEnvelopes s).wp = s.wp := by
  dsimp only [modEnvelopes]
@[simp] theorem modEnvelopes_tables (s : State) : (modEnvelopes s).tables = s.tables := by
  dsimp only [modEnvelopes]
@[simp] theorem modEnvelopes_egOut (s : State) : (modEnvelopes s).egOut = s.egOut := by
  dsimp only [modEnvelopes]
@[simp] theorem modEnvelopes_egGain (s : State) : (modEnvelopes s).egGain = s.egGain := by
  dsimp only [modEnvelopes]
@[simp] theorem modEnvelopes_outL (s : State) : (modEnvelopes s).outL = s.outL := by
  dsimp only [modEnvelopes]
@[simp] theorem modEnvelopes_outR (s : State) : (modEnvelopes s).outR = s.outR := by
  dsimp only [modEnvelopes]
@[simp] theorem modEnvelopes_voiceIn (s : State) : (modEnvelopes s).voiceIn = s.voiceIn := by
  dsimp only [modEnvelopes]
@[simp] theorem modEnvelopes_chainIn (s : State) : (modEnvelopes s).chainIn = s.chainIn := by
  dsimp only [modEnvelopes]
@[simp] theorem modEnvelopes_rst (s : State) : (modEnvelopes s).rst = s.rst := by
  dsimp only [modEnvelopes]
@[simp] theorem modEnvelopes_rdata (s : State) : (modEnvelopes s).rdata = s.rdata := by
  dsimp only [modEnvelopes]
@[simp] theorem modEnvelopes_draws (s : State) : (modEnvelopes s).draws = s.draws := by
  dsimp only [modEnvelopes]
@[simp] theorem modEnvelopes_env (s : State) : (modEnvelopes s).env = s.env := by
  dsimp only [modEnvelopes]

/-! ### voiceAmp -/

@[simp] theorem voiceAmp_run (s : State) : (voiceAmp s).run = s.run := by
  dsimp only [voiceAmp]
@[simp] theorem voiceAmp_extInsert (s : State) : (voiceAmp s).extInsert = s.extInsert := by
  dsimp only [voiceAmp]
@[simp] theorem voiceAmp_irqPend (s : State) : (voiceAmp s).irqPend = s.irqPend := by
  dsimp only [voiceAmp]
@[simp] theorem voiceAmp_irqEn (s : State) : (voiceAmp s).irqEn = s.irqEn := by
  dsimp only [voiceAmp]
@[simp] theorem voiceAmp_errCode (s : State) : (voiceAmp s).errCode = s.errCode := by
  dsimp only [voiceAmp]
@[simp] theorem voiceAmp_errInfo (s : State) : (voiceAmp s).errInfo = s.errInfo := by
  dsimp only [voiceAmp]
@[simp] theorem voiceAmp_sampleCnt (s : State) : (voiceAmp s).sampleCnt = s.sampleCnt := by
  dsimp only [voiceAmp]
@[simp] theorem voiceAmp_tblTable (s : State) : (voiceAmp s).tblTable = s.tblTable := by
  dsimp only [voiceAmp]
@[simp] theorem voiceAmp_tblBankSel (s : State) : (voiceAmp s).tblBankSel = s.tblBankSel := by
  dsimp only [voiceAmp]
@[simp] theorem voiceAmp_tblIndex (s : State) : (voiceAmp s).tblIndex = s.tblIndex := by
  dsimp only [voiceAmp]
@[simp] theorem voiceAmp_parSel (s : State) : (voiceAmp s).parSel = s.parSel := by
  dsimp only [voiceAmp]
@[simp] theorem voiceAmp_bank (s : State) : (voiceAmp s).bank = s.bank := by
  dsimp only [voiceAmp]
@[simp] theorem voiceAmp_done (s : State) : (voiceAmp s).done = s.done := by
  dsimp only [voiceAmp]
@[simp] theorem voiceAmp_tgt (s : State) : (voiceAmp s).tgt = s.tgt := by
  dsimp only [voiceAmp]
@[simp] theorem voiceAmp_cur (s : State) : (voiceAmp s).cur = s.cur := by
  dsimp only [voiceAmp]
@[simp] theorem voiceAmp_irLen0 (s : State) : (voiceAmp s).irLen0 = s.irLen0 := by
  dsimp only [voiceAmp]
@[simp] theorem voiceAmp_irLen1 (s : State) : (voiceAmp s).irLen1 = s.irLen1 := by
  dsimp only [voiceAmp]
@[simp] theorem voiceAmp_fifo (s : State) : (voiceAmp s).fifo = s.fifo := by
  dsimp only [voiceAmp]
@[simp] theorem voiceAmp_wait (s : State) : (voiceAmp s).wait = s.wait := by
  dsimp only [voiceAmp]
@[simp] theorem voiceAmp_slots (s : State) : (voiceAmp s).slots = s.slots := by
  dsimp only [voiceAmp]
@[simp] theorem voiceAmp_wah (s : State) : (voiceAmp s).wah = s.wah := by
  dsimp only [voiceAmp]
@[simp] theorem voiceAmp_ph (s : State) : (voiceAmp s).ph = s.ph := by
  dsimp only [voiceAmp]
@[simp] theorem voiceAmp_wlfo (s : State) : (voiceAmp s).wlfo = s.wlfo := by
  dsimp only [voiceAmp]
@[simp] theorem voiceAmp_mPh (s : State) : (voiceAmp s).mPh = s.mPh := by
  dsimp only [voiceAmp]
@[simp] theorem voiceAmp_chans (s : State) : (voiceAmp s).chans = s.chans := by
  dsimp only [voiceAmp]
@[simp] theorem voiceAmp_wp (s : State) : (voiceAmp s).wp = s.wp := by
  dsimp only [voiceAmp]
@[simp] theorem voiceAmp_tables (s : State) : (voiceAmp s).tables = s.tables := by
  dsimp only [voiceAmp]
@[simp] theorem voiceAmp_egOut (s : State) :
    (voiceAmp s).egOut = sampleOf (sat24 ((SlotId.all.map (voiceTerm s)).sum)) := by
  dsimp only [voiceAmp]
@[simp] theorem voiceAmp_egGain (s : State) : (voiceAmp s).egGain = SlotMap.tabulate fun k => (s.slots.get k).g := by
  dsimp only [voiceAmp]
@[simp] theorem voiceAmp_outL (s : State) : (voiceAmp s).outL = s.outL := by
  dsimp only [voiceAmp]
@[simp] theorem voiceAmp_outR (s : State) : (voiceAmp s).outR = s.outR := by
  dsimp only [voiceAmp]
@[simp] theorem voiceAmp_voiceIn (s : State) : (voiceAmp s).voiceIn = s.voiceIn := by
  dsimp only [voiceAmp]
@[simp] theorem voiceAmp_chainIn (s : State) : (voiceAmp s).chainIn = s.chainIn := by
  dsimp only [voiceAmp]
@[simp] theorem voiceAmp_rst (s : State) : (voiceAmp s).rst = s.rst := by
  dsimp only [voiceAmp]
@[simp] theorem voiceAmp_rdata (s : State) : (voiceAmp s).rdata = s.rdata := by
  dsimp only [voiceAmp]
@[simp] theorem voiceAmp_draws (s : State) : (voiceAmp s).draws = s.draws := by
  dsimp only [voiceAmp]
@[simp] theorem voiceAmp_env (s : State) : (voiceAmp s).env = s.env := by
  dsimp only [voiceAmp]

/-! ### modWah -/

@[simp] theorem modWah_run (s : State) : (modWah s).run = s.run := by
  dsimp only [modWah]
@[simp] theorem modWah_extInsert (s : State) : (modWah s).extInsert = s.extInsert := by
  dsimp only [modWah]
@[simp] theorem modWah_irqPend (s : State) : (modWah s).irqPend = s.irqPend := by
  dsimp only [modWah]
@[simp] theorem modWah_irqEn (s : State) : (modWah s).irqEn = s.irqEn := by
  dsimp only [modWah]
@[simp] theorem modWah_errCode (s : State) : (modWah s).errCode = s.errCode := by
  dsimp only [modWah]
@[simp] theorem modWah_errInfo (s : State) : (modWah s).errInfo = s.errInfo := by
  dsimp only [modWah]
@[simp] theorem modWah_sampleCnt (s : State) : (modWah s).sampleCnt = s.sampleCnt := by
  dsimp only [modWah]
@[simp] theorem modWah_tblTable (s : State) : (modWah s).tblTable = s.tblTable := by
  dsimp only [modWah]
@[simp] theorem modWah_tblBankSel (s : State) : (modWah s).tblBankSel = s.tblBankSel := by
  dsimp only [modWah]
@[simp] theorem modWah_tblIndex (s : State) : (modWah s).tblIndex = s.tblIndex := by
  dsimp only [modWah]
@[simp] theorem modWah_parSel (s : State) : (modWah s).parSel = s.parSel := by
  dsimp only [modWah]
@[simp] theorem modWah_bank (s : State) : (modWah s).bank = s.bank := by
  dsimp only [modWah]
@[simp] theorem modWah_done (s : State) : (modWah s).done = s.done := by
  dsimp only [modWah]
@[simp] theorem modWah_tgt (s : State) : (modWah s).tgt = s.tgt := by
  dsimp only [modWah]
@[simp] theorem modWah_cur (s : State) : (modWah s).cur = s.cur := by
  dsimp only [modWah]
@[simp] theorem modWah_irLen0 (s : State) : (modWah s).irLen0 = s.irLen0 := by
  dsimp only [modWah]
@[simp] theorem modWah_irLen1 (s : State) : (modWah s).irLen1 = s.irLen1 := by
  dsimp only [modWah]
@[simp] theorem modWah_fifo (s : State) : (modWah s).fifo = s.fifo := by
  dsimp only [modWah]
@[simp] theorem modWah_wait (s : State) : (modWah s).wait = s.wait := by
  dsimp only [modWah]
@[simp] theorem modWah_slots (s : State) : (modWah s).slots = s.slots := by
  dsimp only [modWah]
@[simp] theorem modWah_wah (s : State) : (modWah s).wah = stepWah s.wah := by
  dsimp only [modWah]
@[simp] theorem modWah_ph (s : State) : (modWah s).ph = s.ph := by
  dsimp only [modWah]
@[simp] theorem modWah_wlfo (s : State) : (modWah s).wlfo = s.wlfo := by
  dsimp only [modWah]
@[simp] theorem modWah_mPh (s : State) : (modWah s).mPh = s.mPh := by
  dsimp only [modWah]
@[simp] theorem modWah_chans (s : State) : (modWah s).chans = s.chans := by
  dsimp only [modWah]
@[simp] theorem modWah_wp (s : State) : (modWah s).wp = s.wp := by
  dsimp only [modWah]
@[simp] theorem modWah_tables (s : State) : (modWah s).tables = s.tables := by
  dsimp only [modWah]
@[simp] theorem modWah_egOut (s : State) : (modWah s).egOut = s.egOut := by
  dsimp only [modWah]
@[simp] theorem modWah_egGain (s : State) : (modWah s).egGain = s.egGain := by
  dsimp only [modWah]
@[simp] theorem modWah_outL (s : State) : (modWah s).outL = s.outL := by
  dsimp only [modWah]
@[simp] theorem modWah_outR (s : State) : (modWah s).outR = s.outR := by
  dsimp only [modWah]
@[simp] theorem modWah_voiceIn (s : State) : (modWah s).voiceIn = s.voiceIn := by
  dsimp only [modWah]
@[simp] theorem modWah_chainIn (s : State) : (modWah s).chainIn = s.chainIn := by
  dsimp only [modWah]
@[simp] theorem modWah_rst (s : State) : (modWah s).rst = s.rst := by
  dsimp only [modWah]
@[simp] theorem modWah_rdata (s : State) : (modWah s).rdata = s.rdata := by
  dsimp only [modWah]
@[simp] theorem modWah_draws (s : State) : (modWah s).draws = s.draws := by
  dsimp only [modWah]
@[simp] theorem modWah_env (s : State) : (modWah s).env = s.env := by
  dsimp only [modWah]

/-! ### modLfos -/

@[simp] theorem modLfos_run (s : State) : (modLfos s).run = s.run := by
  dsimp only [modLfos]
@[simp] theorem modLfos_extInsert (s : State) : (modLfos s).extInsert = s.extInsert := by
  dsimp only [modLfos]
@[simp] theorem modLfos_irqPend (s : State) : (modLfos s).irqPend = s.irqPend := by
  dsimp only [modLfos]
@[simp] theorem modLfos_irqEn (s : State) : (modLfos s).irqEn = s.irqEn := by
  dsimp only [modLfos]
@[simp] theorem modLfos_errCode (s : State) : (modLfos s).errCode = s.errCode := by
  dsimp only [modLfos]
@[simp] theorem modLfos_errInfo (s : State) : (modLfos s).errInfo = s.errInfo := by
  dsimp only [modLfos]
@[simp] theorem modLfos_sampleCnt (s : State) : (modLfos s).sampleCnt = s.sampleCnt := by
  dsimp only [modLfos]
@[simp] theorem modLfos_tblTable (s : State) : (modLfos s).tblTable = s.tblTable := by
  dsimp only [modLfos]
@[simp] theorem modLfos_tblBankSel (s : State) : (modLfos s).tblBankSel = s.tblBankSel := by
  dsimp only [modLfos]
@[simp] theorem modLfos_tblIndex (s : State) : (modLfos s).tblIndex = s.tblIndex := by
  dsimp only [modLfos]
@[simp] theorem modLfos_parSel (s : State) : (modLfos s).parSel = s.parSel := by
  dsimp only [modLfos]
@[simp] theorem modLfos_bank (s : State) : (modLfos s).bank = s.bank := by
  dsimp only [modLfos]
@[simp] theorem modLfos_done (s : State) : (modLfos s).done = s.done := by
  dsimp only [modLfos]
@[simp] theorem modLfos_tgt (s : State) : (modLfos s).tgt = s.tgt := by
  dsimp only [modLfos]
@[simp] theorem modLfos_cur (s : State) : (modLfos s).cur = s.cur := by
  dsimp only [modLfos]
@[simp] theorem modLfos_irLen0 (s : State) : (modLfos s).irLen0 = s.irLen0 := by
  dsimp only [modLfos]
@[simp] theorem modLfos_irLen1 (s : State) : (modLfos s).irLen1 = s.irLen1 := by
  dsimp only [modLfos]
@[simp] theorem modLfos_fifo (s : State) : (modLfos s).fifo = s.fifo := by
  dsimp only [modLfos]
@[simp] theorem modLfos_wait (s : State) : (modLfos s).wait = s.wait := by
  dsimp only [modLfos]
@[simp] theorem modLfos_slots (s : State) : (modLfos s).slots = s.slots := by
  dsimp only [modLfos]
@[simp] theorem modLfos_wah (s : State) : (modLfos s).wah = s.wah := by
  dsimp only [modLfos]
@[simp] theorem modLfos_ph (s : State) : (modLfos s).ph = LfoMap.tabulate fun k => lfoAdvance s k := by
  dsimp only [modLfos]
@[simp] theorem modLfos_wlfo (s : State) :
    (modLfos s).wlfo = LfoMap.tabulate fun k => sampleOf (lfoOutput s (s.ph.get k)) := by
  dsimp only [modLfos]
@[simp] theorem modLfos_mPh (s : State) : (modLfos s).mPh = phaserMod (sampleOf (lfoOutput s s.ph.lfo1)) := by
  dsimp only [modLfos, LfoMap.tabulate, LfoMap.get]
@[simp] theorem modLfos_chans (s : State) : (modLfos s).chans = s.chans := by
  dsimp only [modLfos]
@[simp] theorem modLfos_wp (s : State) : (modLfos s).wp = s.wp := by
  dsimp only [modLfos]
@[simp] theorem modLfos_tables (s : State) : (modLfos s).tables = s.tables := by
  dsimp only [modLfos]
@[simp] theorem modLfos_egOut (s : State) : (modLfos s).egOut = s.egOut := by
  dsimp only [modLfos]
@[simp] theorem modLfos_egGain (s : State) : (modLfos s).egGain = s.egGain := by
  dsimp only [modLfos]
@[simp] theorem modLfos_outL (s : State) : (modLfos s).outL = s.outL := by
  dsimp only [modLfos]
@[simp] theorem modLfos_outR (s : State) : (modLfos s).outR = s.outR := by
  dsimp only [modLfos]
@[simp] theorem modLfos_voiceIn (s : State) : (modLfos s).voiceIn = s.voiceIn := by
  dsimp only [modLfos]
@[simp] theorem modLfos_chainIn (s : State) : (modLfos s).chainIn = s.chainIn := by
  dsimp only [modLfos]
@[simp] theorem modLfos_rst (s : State) : (modLfos s).rst = s.rst := by
  dsimp only [modLfos]
@[simp] theorem modLfos_rdata (s : State) : (modLfos s).rdata = s.rdata := by
  dsimp only [modLfos]
@[simp] theorem modLfos_draws (s : State) : (modLfos s).draws = s.draws := by
  dsimp only [modLfos]
@[simp] theorem modLfos_env (s : State) : (modLfos s).env = s.env := by
  dsimp only [modLfos]

/-! ### dataPhase -/

@[simp] theorem dataPhase_run (s : State) : (dataPhase s).run = s.run := by
  dsimp only [dataPhase]
@[simp] theorem dataPhase_extInsert (s : State) : (dataPhase s).extInsert = s.extInsert := by
  dsimp only [dataPhase]
@[simp] theorem dataPhase_irqPend (s : State) :
    (dataPhase s).irqPend =
      if clips (masterSum s (chain s .left s.chans.left (chainInput s)).2) ||
        clips (masterSum s (chain s .right s.chans.right (chainInput s)).2) 
      then s.irqPend ||| irqClip else s.irqPend := by
  dsimp only [dataPhase]
@[simp] theorem dataPhase_irqEn (s : State) : (dataPhase s).irqEn = s.irqEn := by
  dsimp only [dataPhase]
@[simp] theorem dataPhase_errCode (s : State) : (dataPhase s).errCode = s.errCode := by
  dsimp only [dataPhase]
@[simp] theorem dataPhase_errInfo (s : State) : (dataPhase s).errInfo = s.errInfo := by
  dsimp only [dataPhase]
@[simp] theorem dataPhase_sampleCnt (s : State) : (dataPhase s).sampleCnt = s.sampleCnt := by
  dsimp only [dataPhase]
@[simp] theorem dataPhase_tblTable (s : State) : (dataPhase s).tblTable = s.tblTable := by
  dsimp only [dataPhase]
@[simp] theorem dataPhase_tblBankSel (s : State) : (dataPhase s).tblBankSel = s.tblBankSel := by
  dsimp only [dataPhase]
@[simp] theorem dataPhase_tblIndex (s : State) : (dataPhase s).tblIndex = s.tblIndex := by
  dsimp only [dataPhase]
@[simp] theorem dataPhase_parSel (s : State) : (dataPhase s).parSel = s.parSel := by
  dsimp only [dataPhase]
@[simp] theorem dataPhase_bank (s : State) : (dataPhase s).bank = s.bank := by
  dsimp only [dataPhase]
@[simp] theorem dataPhase_done (s : State) : (dataPhase s).done = s.done := by
  dsimp only [dataPhase]
@[simp] theorem dataPhase_tgt (s : State) : (dataPhase s).tgt = s.tgt := by
  dsimp only [dataPhase]
@[simp] theorem dataPhase_cur (s : State) : (dataPhase s).cur = s.cur := by
  dsimp only [dataPhase]
@[simp] theorem dataPhase_irLen0 (s : State) : (dataPhase s).irLen0 = s.irLen0 := by
  dsimp only [dataPhase]
@[simp] theorem dataPhase_irLen1 (s : State) : (dataPhase s).irLen1 = s.irLen1 := by
  dsimp only [dataPhase]
@[simp] theorem dataPhase_fifo (s : State) : (dataPhase s).fifo = s.fifo := by
  dsimp only [dataPhase]
@[simp] theorem dataPhase_wait (s : State) : (dataPhase s).wait = s.wait := by
  dsimp only [dataPhase]
@[simp] theorem dataPhase_slots (s : State) : (dataPhase s).slots = s.slots := by
  dsimp only [dataPhase]
@[simp] theorem dataPhase_wah (s : State) : (dataPhase s).wah = s.wah := by
  dsimp only [dataPhase]
@[simp] theorem dataPhase_ph (s : State) : (dataPhase s).ph = s.ph := by
  dsimp only [dataPhase]
@[simp] theorem dataPhase_wlfo (s : State) : (dataPhase s).wlfo = s.wlfo := by
  dsimp only [dataPhase]
@[simp] theorem dataPhase_mPh (s : State) : (dataPhase s).mPh = s.mPh := by
  dsimp only [dataPhase]
@[simp] theorem dataPhase_chans (s : State) :
    (dataPhase s).chans =
      ⟨(chain s .left s.chans.left (chainInput s)).1,
        (chain s .right s.chans.right (chainInput s)).1⟩ := by
  dsimp only [dataPhase]
@[simp] theorem dataPhase_wp (s : State) : (dataPhase s).wp = advancePointers s.wp := by
  dsimp only [dataPhase]
@[simp] theorem dataPhase_tables (s : State) : (dataPhase s).tables = s.tables := by
  dsimp only [dataPhase]
@[simp] theorem dataPhase_egOut (s : State) : (dataPhase s).egOut = s.egOut := by
  dsimp only [dataPhase]
@[simp] theorem dataPhase_egGain (s : State) : (dataPhase s).egGain = s.egGain := by
  dsimp only [dataPhase]
@[simp] theorem dataPhase_outL (s : State) :
    (dataPhase s).outL = sampleOf (sat24 (masterSum s (chain s .left s.chans.left (chainInput s)).2)) := by
  dsimp only [dataPhase]
@[simp] theorem dataPhase_outR (s : State) :
    (dataPhase s).outR = sampleOf (sat24 (masterSum s (chain s .right s.chans.right (chainInput s)).2)) := by
  dsimp only [dataPhase]
@[simp] theorem dataPhase_voiceIn (s : State) : (dataPhase s).voiceIn = s.voiceIn := by
  dsimp only [dataPhase]
@[simp] theorem dataPhase_chainIn (s : State) : (dataPhase s).chainIn = s.chainIn := by
  dsimp only [dataPhase]
@[simp] theorem dataPhase_rst (s : State) : (dataPhase s).rst = s.rst := by
  dsimp only [dataPhase]
@[simp] theorem dataPhase_rdata (s : State) : (dataPhase s).rdata = s.rdata := by
  dsimp only [dataPhase]
@[simp] theorem dataPhase_draws (s : State) : (dataPhase s).draws = s.draws := by
  dsimp only [dataPhase]
@[simp] theorem dataPhase_env (s : State) : (dataPhase s).env = s.env := by
  dsimp only [dataPhase]

/-! ### countTick -/

@[simp] theorem countTick_run (s : State) : (countTick s).run = s.run := by
  dsimp only [countTick]
@[simp] theorem countTick_extInsert (s : State) : (countTick s).extInsert = s.extInsert := by
  dsimp only [countTick]
@[simp] theorem countTick_irqPend (s : State) : (countTick s).irqPend = s.irqPend := by
  dsimp only [countTick]
@[simp] theorem countTick_irqEn (s : State) : (countTick s).irqEn = s.irqEn := by
  dsimp only [countTick]
@[simp] theorem countTick_errCode (s : State) : (countTick s).errCode = s.errCode := by
  dsimp only [countTick]
@[simp] theorem countTick_errInfo (s : State) : (countTick s).errInfo = s.errInfo := by
  dsimp only [countTick]
@[simp] theorem countTick_sampleCnt (s : State) : (countTick s).sampleCnt = s.sampleCnt + 1 := by
  dsimp only [countTick]
@[simp] theorem countTick_tblTable (s : State) : (countTick s).tblTable = s.tblTable := by
  dsimp only [countTick]
@[simp] theorem countTick_tblBankSel (s : State) : (countTick s).tblBankSel = s.tblBankSel := by
  dsimp only [countTick]
@[simp] theorem countTick_tblIndex (s : State) : (countTick s).tblIndex = s.tblIndex := by
  dsimp only [countTick]
@[simp] theorem countTick_parSel (s : State) : (countTick s).parSel = s.parSel := by
  dsimp only [countTick]
@[simp] theorem countTick_bank (s : State) : (countTick s).bank = s.bank := by
  dsimp only [countTick]
@[simp] theorem countTick_done (s : State) : (countTick s).done = s.done := by
  dsimp only [countTick]
@[simp] theorem countTick_tgt (s : State) : (countTick s).tgt = s.tgt := by
  dsimp only [countTick]
@[simp] theorem countTick_cur (s : State) : (countTick s).cur = s.cur := by
  dsimp only [countTick]
@[simp] theorem countTick_irLen0 (s : State) : (countTick s).irLen0 = s.irLen0 := by
  dsimp only [countTick]
@[simp] theorem countTick_irLen1 (s : State) : (countTick s).irLen1 = s.irLen1 := by
  dsimp only [countTick]
@[simp] theorem countTick_fifo (s : State) : (countTick s).fifo = s.fifo := by
  dsimp only [countTick]
@[simp] theorem countTick_wait (s : State) : (countTick s).wait = s.wait := by
  dsimp only [countTick]
@[simp] theorem countTick_slots (s : State) : (countTick s).slots = s.slots := by
  dsimp only [countTick]
@[simp] theorem countTick_wah (s : State) : (countTick s).wah = s.wah := by
  dsimp only [countTick]
@[simp] theorem countTick_ph (s : State) : (countTick s).ph = s.ph := by
  dsimp only [countTick]
@[simp] theorem countTick_wlfo (s : State) : (countTick s).wlfo = s.wlfo := by
  dsimp only [countTick]
@[simp] theorem countTick_mPh (s : State) : (countTick s).mPh = s.mPh := by
  dsimp only [countTick]
@[simp] theorem countTick_chans (s : State) : (countTick s).chans = s.chans := by
  dsimp only [countTick]
@[simp] theorem countTick_wp (s : State) : (countTick s).wp = s.wp := by
  dsimp only [countTick]
@[simp] theorem countTick_tables (s : State) : (countTick s).tables = s.tables := by
  dsimp only [countTick]
@[simp] theorem countTick_egOut (s : State) : (countTick s).egOut = s.egOut := by
  dsimp only [countTick]
@[simp] theorem countTick_egGain (s : State) : (countTick s).egGain = s.egGain := by
  dsimp only [countTick]
@[simp] theorem countTick_outL (s : State) : (countTick s).outL = s.outL := by
  dsimp only [countTick]
@[simp] theorem countTick_outR (s : State) : (countTick s).outR = s.outR := by
  dsimp only [countTick]
@[simp] theorem countTick_voiceIn (s : State) : (countTick s).voiceIn = s.voiceIn := by
  dsimp only [countTick]
@[simp] theorem countTick_chainIn (s : State) : (countTick s).chainIn = s.chainIn := by
  dsimp only [countTick]
@[simp] theorem countTick_rst (s : State) : (countTick s).rst = s.rst := by
  dsimp only [countTick]
@[simp] theorem countTick_rdata (s : State) : (countTick s).rdata = s.rdata := by
  dsimp only [countTick]
@[simp] theorem countTick_draws (s : State) : (countTick s).draws = s.draws := by
  dsimp only [countTick]
@[simp] theorem countTick_env (s : State) : (countTick s).env = s.env := by
  dsimp only [countTick]

/-! ### resetElements -/

@[simp] theorem resetElements_run (s : State) : (resetElements s).run = State.reset.run := by
  dsimp only [resetElements]
@[simp] theorem resetElements_extInsert (s : State) : (resetElements s).extInsert = State.reset.extInsert := by
  dsimp only [resetElements]
@[simp] theorem resetElements_irqPend (s : State) : (resetElements s).irqPend = State.reset.irqPend := by
  dsimp only [resetElements]
@[simp] theorem resetElements_irqEn (s : State) : (resetElements s).irqEn = State.reset.irqEn := by
  dsimp only [resetElements]
@[simp] theorem resetElements_errCode (s : State) : (resetElements s).errCode = State.reset.errCode := by
  dsimp only [resetElements]
@[simp] theorem resetElements_errInfo (s : State) : (resetElements s).errInfo = State.reset.errInfo := by
  dsimp only [resetElements]
@[simp] theorem resetElements_sampleCnt (s : State) : (resetElements s).sampleCnt = State.reset.sampleCnt := by
  dsimp only [resetElements]
@[simp] theorem resetElements_tblTable (s : State) : (resetElements s).tblTable = State.reset.tblTable := by
  dsimp only [resetElements]
@[simp] theorem resetElements_tblBankSel (s : State) : (resetElements s).tblBankSel = State.reset.tblBankSel := by
  dsimp only [resetElements]
@[simp] theorem resetElements_tblIndex (s : State) : (resetElements s).tblIndex = State.reset.tblIndex := by
  dsimp only [resetElements]
@[simp] theorem resetElements_parSel (s : State) : (resetElements s).parSel = State.reset.parSel := by
  dsimp only [resetElements]
@[simp] theorem resetElements_bank (s : State) : (resetElements s).bank = State.reset.bank := by
  dsimp only [resetElements]
@[simp] theorem resetElements_done (s : State) : (resetElements s).done = State.reset.done := by
  dsimp only [resetElements]
@[simp] theorem resetElements_tgt (s : State) : (resetElements s).tgt = State.reset.tgt := by
  dsimp only [resetElements]
@[simp] theorem resetElements_cur (s : State) : (resetElements s).cur = State.reset.cur := by
  dsimp only [resetElements]
@[simp] theorem resetElements_irLen0 (s : State) : (resetElements s).irLen0 = State.reset.irLen0 := by
  dsimp only [resetElements]
@[simp] theorem resetElements_irLen1 (s : State) : (resetElements s).irLen1 = State.reset.irLen1 := by
  dsimp only [resetElements]
@[simp] theorem resetElements_fifo (s : State) : (resetElements s).fifo = State.reset.fifo := by
  dsimp only [resetElements]
@[simp] theorem resetElements_wait (s : State) : (resetElements s).wait = State.reset.wait := by
  dsimp only [resetElements]
@[simp] theorem resetElements_slots (s : State) : (resetElements s).slots = State.reset.slots := by
  dsimp only [resetElements]
@[simp] theorem resetElements_wah (s : State) : (resetElements s).wah = State.reset.wah := by
  dsimp only [resetElements]
@[simp] theorem resetElements_ph (s : State) : (resetElements s).ph = State.reset.ph := by
  dsimp only [resetElements]
@[simp] theorem resetElements_wlfo (s : State) : (resetElements s).wlfo = State.reset.wlfo := by
  dsimp only [resetElements]
@[simp] theorem resetElements_mPh (s : State) : (resetElements s).mPh = State.reset.mPh := by
  dsimp only [resetElements]
@[simp] theorem resetElements_chans (s : State) : (resetElements s).chans = State.reset.chans := by
  dsimp only [resetElements]
@[simp] theorem resetElements_wp (s : State) : (resetElements s).wp = State.reset.wp := by
  dsimp only [resetElements]
@[simp] theorem resetElements_tables (s : State) : (resetElements s).tables = s.tables := by
  dsimp only [resetElements]
@[simp] theorem resetElements_egOut (s : State) : (resetElements s).egOut = State.reset.egOut := by
  dsimp only [resetElements]
@[simp] theorem resetElements_egGain (s : State) : (resetElements s).egGain = State.reset.egGain := by
  dsimp only [resetElements]
@[simp] theorem resetElements_outL (s : State) : (resetElements s).outL = State.reset.outL := by
  dsimp only [resetElements]
@[simp] theorem resetElements_outR (s : State) : (resetElements s).outR = State.reset.outR := by
  dsimp only [resetElements]
@[simp] theorem resetElements_voiceIn (s : State) : (resetElements s).voiceIn = s.voiceIn := by
  dsimp only [resetElements]
@[simp] theorem resetElements_chainIn (s : State) : (resetElements s).chainIn = s.chainIn := by
  dsimp only [resetElements]
@[simp] theorem resetElements_rst (s : State) : (resetElements s).rst = s.rst := by
  dsimp only [resetElements]
@[simp] theorem resetElements_rdata (s : State) : (resetElements s).rdata = s.rdata := by
  dsimp only [resetElements]
@[simp] theorem resetElements_draws (s : State) : (resetElements s).draws = s.draws := by
  dsimp only [resetElements]
@[simp] theorem resetElements_env (s : State) : (resetElements s).env = s.env := by
  dsimp only [resetElements]

/-! ### driveVoice -/

@[simp] theorem driveVoice_run (k : SlotId) (v : Sample) (s : State) : (driveVoice k v s).run = s.run := by
  dsimp only [driveVoice]
@[simp] theorem driveVoice_extInsert (k : SlotId) (v : Sample) (s : State) :
    (driveVoice k v s).extInsert = s.extInsert := by
  dsimp only [driveVoice]
@[simp] theorem driveVoice_irqPend (k : SlotId) (v : Sample) (s : State) : (driveVoice k v s).irqPend = s.irqPend := by
  dsimp only [driveVoice]
@[simp] theorem driveVoice_irqEn (k : SlotId) (v : Sample) (s : State) : (driveVoice k v s).irqEn = s.irqEn := by
  dsimp only [driveVoice]
@[simp] theorem driveVoice_errCode (k : SlotId) (v : Sample) (s : State) : (driveVoice k v s).errCode = s.errCode := by
  dsimp only [driveVoice]
@[simp] theorem driveVoice_errInfo (k : SlotId) (v : Sample) (s : State) : (driveVoice k v s).errInfo = s.errInfo := by
  dsimp only [driveVoice]
@[simp] theorem driveVoice_sampleCnt (k : SlotId) (v : Sample) (s : State) :
    (driveVoice k v s).sampleCnt = s.sampleCnt := by
  dsimp only [driveVoice]
@[simp] theorem driveVoice_tblTable (k : SlotId) (v : Sample) (s : State) :
    (driveVoice k v s).tblTable = s.tblTable := by
  dsimp only [driveVoice]
@[simp] theorem driveVoice_tblBankSel (k : SlotId) (v : Sample) (s : State) :
    (driveVoice k v s).tblBankSel = s.tblBankSel := by
  dsimp only [driveVoice]
@[simp] theorem driveVoice_tblIndex (k : SlotId) (v : Sample) (s : State) :
    (driveVoice k v s).tblIndex = s.tblIndex := by
  dsimp only [driveVoice]
@[simp] theorem driveVoice_parSel (k : SlotId) (v : Sample) (s : State) : (driveVoice k v s).parSel = s.parSel := by
  dsimp only [driveVoice]
@[simp] theorem driveVoice_bank (k : SlotId) (v : Sample) (s : State) : (driveVoice k v s).bank = s.bank := by
  dsimp only [driveVoice]
@[simp] theorem driveVoice_done (k : SlotId) (v : Sample) (s : State) : (driveVoice k v s).done = s.done := by
  dsimp only [driveVoice]
@[simp] theorem driveVoice_tgt (k : SlotId) (v : Sample) (s : State) : (driveVoice k v s).tgt = s.tgt := by
  dsimp only [driveVoice]
@[simp] theorem driveVoice_cur (k : SlotId) (v : Sample) (s : State) : (driveVoice k v s).cur = s.cur := by
  dsimp only [driveVoice]
@[simp] theorem driveVoice_irLen0 (k : SlotId) (v : Sample) (s : State) : (driveVoice k v s).irLen0 = s.irLen0 := by
  dsimp only [driveVoice]
@[simp] theorem driveVoice_irLen1 (k : SlotId) (v : Sample) (s : State) : (driveVoice k v s).irLen1 = s.irLen1 := by
  dsimp only [driveVoice]
@[simp] theorem driveVoice_fifo (k : SlotId) (v : Sample) (s : State) : (driveVoice k v s).fifo = s.fifo := by
  dsimp only [driveVoice]
@[simp] theorem driveVoice_wait (k : SlotId) (v : Sample) (s : State) : (driveVoice k v s).wait = s.wait := by
  dsimp only [driveVoice]
@[simp] theorem driveVoice_slots (k : SlotId) (v : Sample) (s : State) : (driveVoice k v s).slots = s.slots := by
  dsimp only [driveVoice]
@[simp] theorem driveVoice_wah (k : SlotId) (v : Sample) (s : State) : (driveVoice k v s).wah = s.wah := by
  dsimp only [driveVoice]
@[simp] theorem driveVoice_ph (k : SlotId) (v : Sample) (s : State) : (driveVoice k v s).ph = s.ph := by
  dsimp only [driveVoice]
@[simp] theorem driveVoice_wlfo (k : SlotId) (v : Sample) (s : State) : (driveVoice k v s).wlfo = s.wlfo := by
  dsimp only [driveVoice]
@[simp] theorem driveVoice_mPh (k : SlotId) (v : Sample) (s : State) : (driveVoice k v s).mPh = s.mPh := by
  dsimp only [driveVoice]
@[simp] theorem driveVoice_chans (k : SlotId) (v : Sample) (s : State) : (driveVoice k v s).chans = s.chans := by
  dsimp only [driveVoice]
@[simp] theorem driveVoice_wp (k : SlotId) (v : Sample) (s : State) : (driveVoice k v s).wp = s.wp := by
  dsimp only [driveVoice]
@[simp] theorem driveVoice_tables (k : SlotId) (v : Sample) (s : State) : (driveVoice k v s).tables = s.tables := by
  dsimp only [driveVoice]
@[simp] theorem driveVoice_egOut (k : SlotId) (v : Sample) (s : State) : (driveVoice k v s).egOut = s.egOut := by
  dsimp only [driveVoice]
@[simp] theorem driveVoice_egGain (k : SlotId) (v : Sample) (s : State) : (driveVoice k v s).egGain = s.egGain := by
  dsimp only [driveVoice]
@[simp] theorem driveVoice_outL (k : SlotId) (v : Sample) (s : State) : (driveVoice k v s).outL = s.outL := by
  dsimp only [driveVoice]
@[simp] theorem driveVoice_outR (k : SlotId) (v : Sample) (s : State) : (driveVoice k v s).outR = s.outR := by
  dsimp only [driveVoice]
@[simp] theorem driveVoice_voiceIn (k : SlotId) (v : Sample) (s : State) :
    (driveVoice k v s).voiceIn = s.voiceIn.set k v := by
  dsimp only [driveVoice]
@[simp] theorem driveVoice_chainIn (k : SlotId) (v : Sample) (s : State) : (driveVoice k v s).chainIn = s.chainIn := by
  dsimp only [driveVoice]
@[simp] theorem driveVoice_rst (k : SlotId) (v : Sample) (s : State) : (driveVoice k v s).rst = s.rst := by
  dsimp only [driveVoice]
@[simp] theorem driveVoice_rdata (k : SlotId) (v : Sample) (s : State) : (driveVoice k v s).rdata = s.rdata := by
  dsimp only [driveVoice]
@[simp] theorem driveVoice_draws (k : SlotId) (v : Sample) (s : State) : (driveVoice k v s).draws = s.draws := by
  dsimp only [driveVoice]
@[simp] theorem driveVoice_env (k : SlotId) (v : Sample) (s : State) : (driveVoice k v s).env = s.env := by
  dsimp only [driveVoice]

/-! ### driveChain -/

@[simp] theorem driveChain_run (v : Sample) (s : State) : (driveChain v s).run = s.run := by
  dsimp only [driveChain]
@[simp] theorem driveChain_extInsert (v : Sample) (s : State) : (driveChain v s).extInsert = s.extInsert := by
  dsimp only [driveChain]
@[simp] theorem driveChain_irqPend (v : Sample) (s : State) : (driveChain v s).irqPend = s.irqPend := by
  dsimp only [driveChain]
@[simp] theorem driveChain_irqEn (v : Sample) (s : State) : (driveChain v s).irqEn = s.irqEn := by
  dsimp only [driveChain]
@[simp] theorem driveChain_errCode (v : Sample) (s : State) : (driveChain v s).errCode = s.errCode := by
  dsimp only [driveChain]
@[simp] theorem driveChain_errInfo (v : Sample) (s : State) : (driveChain v s).errInfo = s.errInfo := by
  dsimp only [driveChain]
@[simp] theorem driveChain_sampleCnt (v : Sample) (s : State) : (driveChain v s).sampleCnt = s.sampleCnt := by
  dsimp only [driveChain]
@[simp] theorem driveChain_tblTable (v : Sample) (s : State) : (driveChain v s).tblTable = s.tblTable := by
  dsimp only [driveChain]
@[simp] theorem driveChain_tblBankSel (v : Sample) (s : State) : (driveChain v s).tblBankSel = s.tblBankSel := by
  dsimp only [driveChain]
@[simp] theorem driveChain_tblIndex (v : Sample) (s : State) : (driveChain v s).tblIndex = s.tblIndex := by
  dsimp only [driveChain]
@[simp] theorem driveChain_parSel (v : Sample) (s : State) : (driveChain v s).parSel = s.parSel := by
  dsimp only [driveChain]
@[simp] theorem driveChain_bank (v : Sample) (s : State) : (driveChain v s).bank = s.bank := by
  dsimp only [driveChain]
@[simp] theorem driveChain_done (v : Sample) (s : State) : (driveChain v s).done = s.done := by
  dsimp only [driveChain]
@[simp] theorem driveChain_tgt (v : Sample) (s : State) : (driveChain v s).tgt = s.tgt := by
  dsimp only [driveChain]
@[simp] theorem driveChain_cur (v : Sample) (s : State) : (driveChain v s).cur = s.cur := by
  dsimp only [driveChain]
@[simp] theorem driveChain_irLen0 (v : Sample) (s : State) : (driveChain v s).irLen0 = s.irLen0 := by
  dsimp only [driveChain]
@[simp] theorem driveChain_irLen1 (v : Sample) (s : State) : (driveChain v s).irLen1 = s.irLen1 := by
  dsimp only [driveChain]
@[simp] theorem driveChain_fifo (v : Sample) (s : State) : (driveChain v s).fifo = s.fifo := by
  dsimp only [driveChain]
@[simp] theorem driveChain_wait (v : Sample) (s : State) : (driveChain v s).wait = s.wait := by
  dsimp only [driveChain]
@[simp] theorem driveChain_slots (v : Sample) (s : State) : (driveChain v s).slots = s.slots := by
  dsimp only [driveChain]
@[simp] theorem driveChain_wah (v : Sample) (s : State) : (driveChain v s).wah = s.wah := by
  dsimp only [driveChain]
@[simp] theorem driveChain_ph (v : Sample) (s : State) : (driveChain v s).ph = s.ph := by
  dsimp only [driveChain]
@[simp] theorem driveChain_wlfo (v : Sample) (s : State) : (driveChain v s).wlfo = s.wlfo := by
  dsimp only [driveChain]
@[simp] theorem driveChain_mPh (v : Sample) (s : State) : (driveChain v s).mPh = s.mPh := by
  dsimp only [driveChain]
@[simp] theorem driveChain_chans (v : Sample) (s : State) : (driveChain v s).chans = s.chans := by
  dsimp only [driveChain]
@[simp] theorem driveChain_wp (v : Sample) (s : State) : (driveChain v s).wp = s.wp := by
  dsimp only [driveChain]
@[simp] theorem driveChain_tables (v : Sample) (s : State) : (driveChain v s).tables = s.tables := by
  dsimp only [driveChain]
@[simp] theorem driveChain_egOut (v : Sample) (s : State) : (driveChain v s).egOut = s.egOut := by
  dsimp only [driveChain]
@[simp] theorem driveChain_egGain (v : Sample) (s : State) : (driveChain v s).egGain = s.egGain := by
  dsimp only [driveChain]
@[simp] theorem driveChain_outL (v : Sample) (s : State) : (driveChain v s).outL = s.outL := by
  dsimp only [driveChain]
@[simp] theorem driveChain_outR (v : Sample) (s : State) : (driveChain v s).outR = s.outR := by
  dsimp only [driveChain]
@[simp] theorem driveChain_voiceIn (v : Sample) (s : State) : (driveChain v s).voiceIn = s.voiceIn := by
  dsimp only [driveChain]
@[simp] theorem driveChain_chainIn (v : Sample) (s : State) : (driveChain v s).chainIn = v := by
  dsimp only [driveChain]
@[simp] theorem driveChain_rst (v : Sample) (s : State) : (driveChain v s).rst = s.rst := by
  dsimp only [driveChain]
@[simp] theorem driveChain_rdata (v : Sample) (s : State) : (driveChain v s).rdata = s.rdata := by
  dsimp only [driveChain]
@[simp] theorem driveChain_draws (v : Sample) (s : State) : (driveChain v s).draws = s.draws := by
  dsimp only [driveChain]
@[simp] theorem driveChain_env (v : Sample) (s : State) : (driveChain v s).env = s.env := by
  dsimp only [driveChain]

/-! ### setIrLen -/

@[simp] theorem setIrLen_run (b : Bool) (v : U24) (s : State) : (setIrLen b v s).run = s.run := by
  cases b <;> rfl
@[simp] theorem setIrLen_extInsert (b : Bool) (v : U24) (s : State) : (setIrLen b v s).extInsert = s.extInsert := by
  cases b <;> rfl
@[simp] theorem setIrLen_irqPend (b : Bool) (v : U24) (s : State) : (setIrLen b v s).irqPend = s.irqPend := by
  cases b <;> rfl
@[simp] theorem setIrLen_irqEn (b : Bool) (v : U24) (s : State) : (setIrLen b v s).irqEn = s.irqEn := by
  cases b <;> rfl
@[simp] theorem setIrLen_errCode (b : Bool) (v : U24) (s : State) : (setIrLen b v s).errCode = s.errCode := by
  cases b <;> rfl
@[simp] theorem setIrLen_errInfo (b : Bool) (v : U24) (s : State) : (setIrLen b v s).errInfo = s.errInfo := by
  cases b <;> rfl
@[simp] theorem setIrLen_sampleCnt (b : Bool) (v : U24) (s : State) : (setIrLen b v s).sampleCnt = s.sampleCnt := by
  cases b <;> rfl
@[simp] theorem setIrLen_tblTable (b : Bool) (v : U24) (s : State) : (setIrLen b v s).tblTable = s.tblTable := by
  cases b <;> rfl
@[simp] theorem setIrLen_tblBankSel (b : Bool) (v : U24) (s : State) : (setIrLen b v s).tblBankSel = s.tblBankSel := by
  cases b <;> rfl
@[simp] theorem setIrLen_tblIndex (b : Bool) (v : U24) (s : State) : (setIrLen b v s).tblIndex = s.tblIndex := by
  cases b <;> rfl
@[simp] theorem setIrLen_parSel (b : Bool) (v : U24) (s : State) : (setIrLen b v s).parSel = s.parSel := by
  cases b <;> rfl
@[simp] theorem setIrLen_bank (b : Bool) (v : U24) (s : State) : (setIrLen b v s).bank = s.bank := by
  cases b <;> rfl
@[simp] theorem setIrLen_done (b : Bool) (v : U24) (s : State) : (setIrLen b v s).done = s.done := by
  cases b <;> rfl
@[simp] theorem setIrLen_tgt (b : Bool) (v : U24) (s : State) : (setIrLen b v s).tgt = s.tgt := by
  cases b <;> rfl
@[simp] theorem setIrLen_cur (b : Bool) (v : U24) (s : State) : (setIrLen b v s).cur = s.cur := by
  cases b <;> rfl
@[simp] theorem setIrLen_fifo (b : Bool) (v : U24) (s : State) : (setIrLen b v s).fifo = s.fifo := by
  cases b <;> rfl
@[simp] theorem setIrLen_wait (b : Bool) (v : U24) (s : State) : (setIrLen b v s).wait = s.wait := by
  cases b <;> rfl
@[simp] theorem setIrLen_slots (b : Bool) (v : U24) (s : State) : (setIrLen b v s).slots = s.slots := by
  cases b <;> rfl
@[simp] theorem setIrLen_wah (b : Bool) (v : U24) (s : State) : (setIrLen b v s).wah = s.wah := by
  cases b <;> rfl
@[simp] theorem setIrLen_ph (b : Bool) (v : U24) (s : State) : (setIrLen b v s).ph = s.ph := by
  cases b <;> rfl
@[simp] theorem setIrLen_wlfo (b : Bool) (v : U24) (s : State) : (setIrLen b v s).wlfo = s.wlfo := by
  cases b <;> rfl
@[simp] theorem setIrLen_mPh (b : Bool) (v : U24) (s : State) : (setIrLen b v s).mPh = s.mPh := by
  cases b <;> rfl
@[simp] theorem setIrLen_chans (b : Bool) (v : U24) (s : State) : (setIrLen b v s).chans = s.chans := by
  cases b <;> rfl
@[simp] theorem setIrLen_wp (b : Bool) (v : U24) (s : State) : (setIrLen b v s).wp = s.wp := by
  cases b <;> rfl
@[simp] theorem setIrLen_tables (b : Bool) (v : U24) (s : State) : (setIrLen b v s).tables = s.tables := by
  cases b <;> rfl
@[simp] theorem setIrLen_egOut (b : Bool) (v : U24) (s : State) : (setIrLen b v s).egOut = s.egOut := by
  cases b <;> rfl
@[simp] theorem setIrLen_egGain (b : Bool) (v : U24) (s : State) : (setIrLen b v s).egGain = s.egGain := by
  cases b <;> rfl
@[simp] theorem setIrLen_outL (b : Bool) (v : U24) (s : State) : (setIrLen b v s).outL = s.outL := by
  cases b <;> rfl
@[simp] theorem setIrLen_outR (b : Bool) (v : U24) (s : State) : (setIrLen b v s).outR = s.outR := by
  cases b <;> rfl
@[simp] theorem setIrLen_voiceIn (b : Bool) (v : U24) (s : State) : (setIrLen b v s).voiceIn = s.voiceIn := by
  cases b <;> rfl
@[simp] theorem setIrLen_chainIn (b : Bool) (v : U24) (s : State) : (setIrLen b v s).chainIn = s.chainIn := by
  cases b <;> rfl
@[simp] theorem setIrLen_rst (b : Bool) (v : U24) (s : State) : (setIrLen b v s).rst = s.rst := by
  cases b <;> rfl
@[simp] theorem setIrLen_rdata (b : Bool) (v : U24) (s : State) : (setIrLen b v s).rdata = s.rdata := by
  cases b <;> rfl
@[simp] theorem setIrLen_draws (b : Bool) (v : U24) (s : State) : (setIrLen b v s).draws = s.draws := by
  cases b <;> rfl
@[simp] theorem setIrLen_env (b : Bool) (v : U24) (s : State) : (setIrLen b v s).env = s.env := by
  cases b <;> rfl

/-! ### setParam -/

@[simp] theorem setParam_run (p : Param) (v : Int) (s : State) : (setParam p v s).run = s.run := by
  unfold setParam setIrLen; split <;> split <;> rfl
@[simp] theorem setParam_extInsert (p : Param) (v : Int) (s : State) : (setParam p v s).extInsert = s.extInsert := by
  unfold setParam setIrLen; split <;> split <;> rfl
@[simp] theorem setParam_irqPend (p : Param) (v : Int) (s : State) : (setParam p v s).irqPend = s.irqPend := by
  unfold setParam setIrLen; split <;> split <;> rfl
@[simp] theorem setParam_irqEn (p : Param) (v : Int) (s : State) : (setParam p v s).irqEn = s.irqEn := by
  unfold setParam setIrLen; split <;> split <;> rfl
@[simp] theorem setParam_errCode (p : Param) (v : Int) (s : State) : (setParam p v s).errCode = s.errCode := by
  unfold setParam setIrLen; split <;> split <;> rfl
@[simp] theorem setParam_errInfo (p : Param) (v : Int) (s : State) : (setParam p v s).errInfo = s.errInfo := by
  unfold setParam setIrLen; split <;> split <;> rfl
@[simp] theorem setParam_sampleCnt (p : Param) (v : Int) (s : State) : (setParam p v s).sampleCnt = s.sampleCnt := by
  unfold setParam setIrLen; split <;> split <;> rfl
@[simp] theorem setParam_tblTable (p : Param) (v : Int) (s : State) : (setParam p v s).tblTable = s.tblTable := by
  unfold setParam setIrLen; split <;> split <;> rfl
@[simp] theorem setParam_tblBankSel (p : Param) (v : Int) (s : State) : (setParam p v s).tblBankSel = s.tblBankSel := by
  unfold setParam setIrLen; split <;> split <;> rfl
@[simp] theorem setParam_tblIndex (p : Param) (v : Int) (s : State) : (setParam p v s).tblIndex = s.tblIndex := by
  unfold setParam setIrLen; split <;> split <;> rfl
@[simp] theorem setParam_parSel (p : Param) (v : Int) (s : State) : (setParam p v s).parSel = s.parSel := by
  unfold setParam setIrLen; split <;> split <;> rfl
@[simp] theorem setParam_bank (p : Param) (v : Int) (s : State) : (setParam p v s).bank = s.bank := by
  unfold setParam setIrLen; split <;> split <;> rfl
@[simp] theorem setParam_done (p : Param) (v : Int) (s : State) : (setParam p v s).done = s.done := by
  unfold setParam setIrLen; split <;> split <;> rfl
@[simp] theorem setParam_fifo (p : Param) (v : Int) (s : State) : (setParam p v s).fifo = s.fifo := by
  unfold setParam setIrLen; split <;> split <;> rfl
@[simp] theorem setParam_wait (p : Param) (v : Int) (s : State) : (setParam p v s).wait = s.wait := by
  unfold setParam setIrLen; split <;> split <;> rfl
@[simp] theorem setParam_slots (p : Param) (v : Int) (s : State) : (setParam p v s).slots = s.slots := by
  unfold setParam setIrLen; split <;> split <;> rfl
@[simp] theorem setParam_wah (p : Param) (v : Int) (s : State) : (setParam p v s).wah = s.wah := by
  unfold setParam setIrLen; split <;> split <;> rfl
@[simp] theorem setParam_ph (p : Param) (v : Int) (s : State) : (setParam p v s).ph = s.ph := by
  unfold setParam setIrLen; split <;> split <;> rfl
@[simp] theorem setParam_wlfo (p : Param) (v : Int) (s : State) : (setParam p v s).wlfo = s.wlfo := by
  unfold setParam setIrLen; split <;> split <;> rfl
@[simp] theorem setParam_mPh (p : Param) (v : Int) (s : State) : (setParam p v s).mPh = s.mPh := by
  unfold setParam setIrLen; split <;> split <;> rfl
@[simp] theorem setParam_chans (p : Param) (v : Int) (s : State) : (setParam p v s).chans = s.chans := by
  unfold setParam setIrLen; split <;> split <;> rfl
@[simp] theorem setParam_wp (p : Param) (v : Int) (s : State) : (setParam p v s).wp = s.wp := by
  unfold setParam setIrLen; split <;> split <;> rfl
@[simp] theorem setParam_tables (p : Param) (v : Int) (s : State) : (setParam p v s).tables = s.tables := by
  unfold setParam setIrLen; split <;> split <;> rfl
@[simp] theorem setParam_egOut (p : Param) (v : Int) (s : State) : (setParam p v s).egOut = s.egOut := by
  unfold setParam setIrLen; split <;> split <;> rfl
@[simp] theorem setParam_egGain (p : Param) (v : Int) (s : State) : (setParam p v s).egGain = s.egGain := by
  unfold setParam setIrLen; split <;> split <;> rfl
@[simp] theorem setParam_outL (p : Param) (v : Int) (s : State) : (setParam p v s).outL = s.outL := by
  unfold setParam setIrLen; split <;> split <;> rfl
@[simp] theorem setParam_outR (p : Param) (v : Int) (s : State) : (setParam p v s).outR = s.outR := by
  unfold setParam setIrLen; split <;> split <;> rfl
@[simp] theorem setParam_voiceIn (p : Param) (v : Int) (s : State) : (setParam p v s).voiceIn = s.voiceIn := by
  unfold setParam setIrLen; split <;> split <;> rfl
@[simp] theorem setParam_chainIn (p : Param) (v : Int) (s : State) : (setParam p v s).chainIn = s.chainIn := by
  unfold setParam setIrLen; split <;> split <;> rfl
@[simp] theorem setParam_rst (p : Param) (v : Int) (s : State) : (setParam p v s).rst = s.rst := by
  unfold setParam setIrLen; split <;> split <;> rfl
@[simp] theorem setParam_rdata (p : Param) (v : Int) (s : State) : (setParam p v s).rdata = s.rdata := by
  unfold setParam setIrLen; split <;> split <;> rfl
@[simp] theorem setParam_draws (p : Param) (v : Int) (s : State) : (setParam p v s).draws = s.draws := by
  unfold setParam setIrLen; split <;> split <;> rfl
@[simp] theorem setParam_env (p : Param) (v : Int) (s : State) : (setParam p v s).env = s.env := by
  unfold setParam setIrLen; split <;> split <;> rfl

/-! ### pushCmd -/

@[simp] theorem pushCmd_run (v : Word) (s : State) : (pushCmd v s).run = s.run := by
  unfold pushCmd; split <;> rfl
@[simp] theorem pushCmd_extInsert (v : Word) (s : State) : (pushCmd v s).extInsert = s.extInsert := by
  unfold pushCmd; split <;> rfl
@[simp] theorem pushCmd_irqEn (v : Word) (s : State) : (pushCmd v s).irqEn = s.irqEn := by
  unfold pushCmd; split <;> rfl
@[simp] theorem pushCmd_errCode (v : Word) (s : State) : (pushCmd v s).errCode = s.errCode := by
  unfold pushCmd; split <;> rfl
@[simp] theorem pushCmd_errInfo (v : Word) (s : State) : (pushCmd v s).errInfo = s.errInfo := by
  unfold pushCmd; split <;> rfl
@[simp] theorem pushCmd_sampleCnt (v : Word) (s : State) : (pushCmd v s).sampleCnt = s.sampleCnt := by
  unfold pushCmd; split <;> rfl
@[simp] theorem pushCmd_tblTable (v : Word) (s : State) : (pushCmd v s).tblTable = s.tblTable := by
  unfold pushCmd; split <;> rfl
@[simp] theorem pushCmd_tblBankSel (v : Word) (s : State) : (pushCmd v s).tblBankSel = s.tblBankSel := by
  unfold pushCmd; split <;> rfl
@[simp] theorem pushCmd_tblIndex (v : Word) (s : State) : (pushCmd v s).tblIndex = s.tblIndex := by
  unfold pushCmd; split <;> rfl
@[simp] theorem pushCmd_parSel (v : Word) (s : State) : (pushCmd v s).parSel = s.parSel := by
  unfold pushCmd; split <;> rfl
@[simp] theorem pushCmd_bank (v : Word) (s : State) : (pushCmd v s).bank = s.bank := by
  unfold pushCmd; split <;> rfl
@[simp] theorem pushCmd_done (v : Word) (s : State) : (pushCmd v s).done = s.done := by
  unfold pushCmd; split <;> rfl
@[simp] theorem pushCmd_tgt (v : Word) (s : State) : (pushCmd v s).tgt = s.tgt := by
  unfold pushCmd; split <;> rfl
@[simp] theorem pushCmd_cur (v : Word) (s : State) : (pushCmd v s).cur = s.cur := by
  unfold pushCmd; split <;> rfl
@[simp] theorem pushCmd_irLen0 (v : Word) (s : State) : (pushCmd v s).irLen0 = s.irLen0 := by
  unfold pushCmd; split <;> rfl
@[simp] theorem pushCmd_irLen1 (v : Word) (s : State) : (pushCmd v s).irLen1 = s.irLen1 := by
  unfold pushCmd; split <;> rfl
@[simp] theorem pushCmd_wait (v : Word) (s : State) : (pushCmd v s).wait = s.wait := by
  unfold pushCmd; split <;> rfl
@[simp] theorem pushCmd_slots (v : Word) (s : State) : (pushCmd v s).slots = s.slots := by
  unfold pushCmd; split <;> rfl
@[simp] theorem pushCmd_wah (v : Word) (s : State) : (pushCmd v s).wah = s.wah := by
  unfold pushCmd; split <;> rfl
@[simp] theorem pushCmd_ph (v : Word) (s : State) : (pushCmd v s).ph = s.ph := by
  unfold pushCmd; split <;> rfl
@[simp] theorem pushCmd_wlfo (v : Word) (s : State) : (pushCmd v s).wlfo = s.wlfo := by
  unfold pushCmd; split <;> rfl
@[simp] theorem pushCmd_mPh (v : Word) (s : State) : (pushCmd v s).mPh = s.mPh := by
  unfold pushCmd; split <;> rfl
@[simp] theorem pushCmd_chans (v : Word) (s : State) : (pushCmd v s).chans = s.chans := by
  unfold pushCmd; split <;> rfl
@[simp] theorem pushCmd_wp (v : Word) (s : State) : (pushCmd v s).wp = s.wp := by
  unfold pushCmd; split <;> rfl
@[simp] theorem pushCmd_tables (v : Word) (s : State) : (pushCmd v s).tables = s.tables := by
  unfold pushCmd; split <;> rfl
@[simp] theorem pushCmd_egOut (v : Word) (s : State) : (pushCmd v s).egOut = s.egOut := by
  unfold pushCmd; split <;> rfl
@[simp] theorem pushCmd_egGain (v : Word) (s : State) : (pushCmd v s).egGain = s.egGain := by
  unfold pushCmd; split <;> rfl
@[simp] theorem pushCmd_outL (v : Word) (s : State) : (pushCmd v s).outL = s.outL := by
  unfold pushCmd; split <;> rfl
@[simp] theorem pushCmd_outR (v : Word) (s : State) : (pushCmd v s).outR = s.outR := by
  unfold pushCmd; split <;> rfl
@[simp] theorem pushCmd_voiceIn (v : Word) (s : State) : (pushCmd v s).voiceIn = s.voiceIn := by
  unfold pushCmd; split <;> rfl
@[simp] theorem pushCmd_chainIn (v : Word) (s : State) : (pushCmd v s).chainIn = s.chainIn := by
  unfold pushCmd; split <;> rfl
@[simp] theorem pushCmd_rst (v : Word) (s : State) : (pushCmd v s).rst = s.rst := by
  unfold pushCmd; split <;> rfl
@[simp] theorem pushCmd_rdata (v : Word) (s : State) : (pushCmd v s).rdata = s.rdata := by
  unfold pushCmd; split <;> rfl
@[simp] theorem pushCmd_draws (v : Word) (s : State) : (pushCmd v s).draws = s.draws := by
  unfold pushCmd; split <;> rfl
@[simp] theorem pushCmd_env (v : Word) (s : State) : (pushCmd v s).env = s.env := by
  unfold pushCmd; split <;> rfl

end Sys2Proof.Machine
end

