-- ==== Sys2Proof/Laws/Ops.lean ====
section
/-! SUPPORT. One lemma for each shared operation that says what it can do, the meanings of the commands case by case, and the
two induction principles: what every command keeps the command phase keeps, and what every event keeps a step keeps. -/

namespace Sys2Proof.Machine

/-! ### Host operations -/

/-- A push appends the word, or is lost and sets FIFO_OVF (R201). -/
theorem pushCmd_cases (v : Word) (s : State) :
    (s.fifo.length < Config.CMD_FIFO_DEPTH ∧ pushCmd v s = { s with fifo := s.fifo ++ [v] }) ∨
    (Config.CMD_FIFO_DEPTH ≤ s.fifo.length ∧ pushCmd v s = { s with irqPend := s.irqPend ||| irqFifoOvf }) := by
  unfold pushCmd
  split
  · exact .inl ⟨‹_›, rfl⟩
  · exact .inr ⟨by omega, rfl⟩

/-- A CTRL write resets, or stores RUN and EXT_INSERT and may flush the FIFO (R31). -/
theorem writeCtrl_cases (v : Word) (s : State) :
    (v.getLsbD 31 = true ∧ writeCtrl v s = resetElements s) ∨
    (v.getLsbD 31 = false ∧ v.getLsbD 2 = true ∧
      writeCtrl v s = { s with run := v.getLsbD 0, extInsert := v.getLsbD 1, fifo := [], wait := 0 }) ∨
    (v.getLsbD 31 = false ∧ v.getLsbD 2 = false ∧
      writeCtrl v s = { s with run := v.getLsbD 0, extInsert := v.getLsbD 1 }) := by
  unfold writeCtrl flushFifo
  cases h31 : v.getLsbD 31 <;> cases h2 : v.getLsbD 2 <;> simp

@[simp] theorem TableId.ofNum?_num (t : TableId) : TableId.ofNum? t.num = some t := by
  cases t with
  | curve c => cases c <;> rfl
  | irL => rfl
  | irR => rfl
  | lfoWave => rfl

theorem TableId.num_of_ofNum? {n : Nat} {t : TableId} (h : TableId.ofNum? n = some t) : t.num = n := by
  unfold TableId.ofNum? at h
  split at h <;> cases h <;> rfl

/-- The selected table is the one with the TABLE field's number, where INDEX is below its length (R124). -/
theorem selectedTable?_eq_some {s : State} {t : TableId} :
    selectedTable? s = some t ↔ t.num = s.tblTable.toNat ∧ s.tblIndex.toNat < t.len := by
  unfold selectedTable?
  constructor
  · intro h
    split at h
    · cases h
    · rename_i u hu
      split at h
      · cases h
        exact ⟨TableId.num_of_ofNum? hu, ‹_›⟩
      · cases h
  · rintro ⟨hn, hl⟩
    rw [← hn, TableId.ofNum?_num]
    simp [hl]

theorem selectedTable?_eq_none {s : State} :
    selectedTable? s = none ↔ ∀ t : TableId, t.num = s.tblTable.toNat → t.len ≤ s.tblIndex.toNat := by
  constructor
  · intro h t ht
    by_contra hl
    have := selectedTable?_eq_some.2 ⟨ht, Nat.lt_of_not_le hl⟩
    rw [h] at this
    cases this
  · intro h
    cases e : selectedTable? s with
    | none => rfl
    | some t =>
      have := selectedTable?_eq_some.1 e
      exact absurd (h t this.1) (by omega)

/-- A TBL_DATA read: an error, or the selected entry; INDEX advances (R124). -/
theorem readTblData_cases (s : State) :
    (selectedTable? s = none ∧ readTblData s = (0, advanceIndex (tblError .tblBadAddr (tblAddrWord s) s))) ∨
    (∃ t, selectedTable? s = some t ∧
      readTblData s = ((tableRead s t (selectedBank s t) s.tblIndex.toNat).signExtend 32, advanceIndex s)) := by
  unfold readTblData
  cases h : selectedTable? s with
  | none => exact .inl ⟨rfl, rfl⟩
  | some t => exact .inr ⟨t, rfl, rfl⟩

/-- A TBL_DATA write: one of the two errors, or a write of the selected entry; INDEX advances (R125). -/
theorem writeTblData_cases (v : Word) (s : State) :
    (selectedTable? s = none ∧ writeTblData v s = advanceIndex (tblError .tblBadAddr (tblAddrWord s) s)) ∨
    (∃ t, selectedTable? s = some t ∧ t.banked = true ∧ s.tblBankSel = true ∧
      writeTblData v s = advanceIndex (tblError .tblActiveWrite (tblAddrWord s) s)) ∨
    (∃ t, selectedTable? s = some t ∧ (t.banked && s.tblBankSel) = false ∧
      writeTblData v s = advanceIndex (tableWrite s t (selectedBank s t) s.tblIndex.toNat (v.extractLsb' 0 24))) := by
  unfold writeTblData
  cases h : selectedTable? s with
  | none => exact .inl ⟨rfl, rfl⟩
  | some t =>
    cases hb : t.banked && s.tblBankSel with
    | false => exact .inr (.inr ⟨t, rfl, hb, by simp [hb]⟩)
    | true =>
      have := (Bool.and_eq_true _ _).mp hb
      exact .inr (.inl ⟨t, rfl, this.1, this.2, by simp [hb]⟩)

/-- What a host write can do: a CTRL write, an acknowledgement, a push, a table access, a plain register write, or nothing. -/
theorem writeRegister_cases (word : BitVec 6) (v : Word) (s : State) :
    (word = 1#6 ∧ writeRegister word v s = writeCtrl v s) ∨
    (word = 3#6 ∧ writeRegister word v s = ackIrq (v.extractLsb' 0 5) s) ∨
    (word = 4#6 ∧ writeRegister word v s = { s with irqEn := v.extractLsb' 0 5 }) ∨
    (word = 5#6 ∧ writeRegister word v s = pushCmd v s) ∨
    (word = 8#6 ∧ writeRegister word v s = writeTblAddr v s) ∨
    (word = 9#6 ∧ writeRegister word v s = writeTblData v s) ∨
    (word = 10#6 ∧ writeRegister word v s = { s with parSel := v.extractLsb' 0 12 }) ∨
    (word = 15#6 ∧ writeRegister word v s = ackDone (v.extractLsb' 0 8) s) ∨
    (writeRegister word v s = s ∧ word ≠ 1#6 ∧ word ≠ 3#6 ∧ word ≠ 4#6 ∧ word ≠ 5#6 ∧ word ≠ 8#6 ∧ word ≠ 9#6 ∧
      word ≠ 10#6 ∧ word ≠ 15#6) := by
  have key : ∀ n : Nat, n < 64 → (word.toNat = n ↔ word = BitVec.ofNat 6 n) := by
    intro n hn
    constructor
    · intro h
      apply BitVec.eq_of_toNat_eq
      simp [h, BitVec.toNat_ofNat]
      omega
    · intro h
      simp [h, BitVec.toNat_ofNat]
      omega
  unfold writeRegister
  split
  · exact .inl ⟨(key 1 (by decide)).1 ‹_›, rfl⟩
  · exact .inr (.inl ⟨(key 3 (by decide)).1 ‹_›, rfl⟩)
  · exact .inr (.inr (.inl ⟨(key 4 (by decide)).1 ‹_›, rfl⟩))
  · exact .inr (.inr (.inr (.inl ⟨(key 5 (by decide)).1 ‹_›, rfl⟩)))
  · exact .inr (.inr (.inr (.inr (.inl ⟨(key 8 (by decide)).1 ‹_›, rfl⟩))))
  · exact .inr (.inr (.inr (.inr (.inr (.inl ⟨(key 9 (by decide)).1 ‹_›, rfl⟩)))))
  · exact .inr (.inr (.inr (.inr (.inr (.inr (.inl ⟨(key 10 (by decide)).1 ‹_›, rfl⟩))))))
  · exact .inr (.inr (.inr (.inr (.inr (.inr (.inr (.inl ⟨(key 15 (by decide)).1 ‹_›, rfl⟩)))))))
  · rename_i h1 h2 h3 h4 h5 h6 h7 h8
    exact .inr (.inr (.inr (.inr (.inr (.inr (.inr (.inr ⟨rfl, fun e => h1 ((key 1 (by decide)).2 e),
      fun e => h2 ((key 3 (by decide)).2 e), fun e => h3 ((key 4 (by decide)).2 e),
      fun e => h4 ((key 5 (by decide)).2 e), fun e => h5 ((key 8 (by decide)).2 e),
      fun e => h6 ((key 9 (by decide)).2 e), fun e => h7 ((key 10 (by decide)).2 e),
      fun e => h8 ((key 15 (by decide)).2 e)⟩)))))))

/-- A bus write with RST released is the register's write. -/
theorem handleEvent_busWrite {s : State} (h : s.rst = false) (word : BitVec 6) (v : Word) :
    handleEvent (.busWrite word v) s = .next (writeRegister word v s) := by
  simp [handleEvent, busWrite, h]

/-- A bus read of any register but TBL_DATA with RST released shows the register's word and changes nothing else. -/
theorem handleEvent_busRead {s : State} (h : s.rst = false) {word : BitVec 6} (hw : word ≠ tblDataWord) :
    handleEvent (.busRead word) s = .next { s with rdata := registerWord s word } := by
  simp [handleEvent, busRead, h, readRegister, hw]

/-! ### Memories in canonical form -/

theorem tableWrite_rising {s : State} {t : TableId} {b : Bool} {i : Nat} (v : Sample)
    (h : cellsRising 0 tableSpace s.tables = true) (hi : i < t.len) :
    cellsRising 0 tableSpace (tableWrite s t b i v).tables = true :=
  cellInsert_rising v h (Nat.zero_le _) (tableAddr_lt hi)

/-- A host write of a table keeps the table RAM's canonical form. -/
theorem writeTblData_rising {v : Word} {s : State} (h : cellsRising 0 tableSpace s.tables = true) :
    cellsRising 0 tableSpace (writeTblData v s).tables = true := by
  rcases writeTblData_cases v s with ⟨-, e⟩ | ⟨t, -, -, -, e⟩ | ⟨t, ht, -, e⟩
  · rw [e]
    exact h
  · rw [e]
    exact h
  · rw [e]
    exact tableWrite_rising _ h (selectedTable?_eq_some.1 ht).2

theorem chanWf_iff {c : ChanState} :
    Memory.chanWf c = true ↔ (∀ l, ramWf l.len (c.buf.get l) = true) ∧ ramWf Config.IR_MAX_LEN c.hist = true := by
  simp only [Memory.chanWf, Bool.and_eq_true, List.all_eq_true]
  exact ⟨fun h => ⟨fun l => h.1 l (Line.mem_all l), h.2⟩, fun h => ⟨fun l _ => h.1 l, h.2⟩⟩

/-- A write of a delay line keeps the channel's memories canonical while the write pointer is within the line. -/
theorem delayWrite_wf {s : State} {l : Line} (v : Sample) {c : ChanState} (hp : s.wp.get l < l.len)
    (h : Memory.chanWf c = true) : Memory.chanWf (delayWrite s l v c) = true := by
  rw [chanWf_iff] at h ⊢
  refine ⟨fun l' => ?_, h.2⟩
  by_cases e : l' = l
  · subst e
    simp only [delayWrite, LineMap.get_set_self]
    exact ramWrite_wf v (h.1 l') hp
  · simp only [delayWrite, LineMap.get_set_ne _ _ e]
    exact h.1 l'

/-- A convolution keeps the channel's memories canonical. -/
theorem evalConv_wf {s : State} {ch : Chan} {c : ChanState} (p : Sample) (h : Memory.chanWf c = true) :
    Memory.chanWf (evalConv s ch c p).1 = true := by
  rw [chanWf_iff] at h ⊢
  exact ⟨h.1, histPush_wf p h.2⟩

/-- Every channel's memories are empty, and so canonical, after reset. -/
theorem reset_chanWf : Memory.chanWf ChanState.reset = true := by
  rw [chanWf_iff]
  refine ⟨fun l => ?_, rfl⟩
  cases l <;> rfl

/-- The memories of the state after reset are canonical. -/
theorem reset_memory_wf : Memory.wf State.reset = true := by
  simp only [Memory.wf, Bool.and_eq_true]
  exact ⟨⟨rfl, reset_chanWf⟩, reset_chanWf⟩

/-! ### The meanings of the commands, case by case -/

theorem execNop_cases (rsv : BitVec 28) (s : State) :
    (rsv ≠ 0 ∧ execNop rsv s = .next (cmdError .reserved (headerOf (.nop rsv)) s)) ∨
    (rsv = 0 ∧ execNop rsv s = .next s) := by
  unfold execNop
  split
  · exact .inl ⟨‹_›, rfl⟩
  · exact .inr ⟨by simp_all, rfl⟩

theorem execSetp_cases (rsv : BitVec 16) (pid : BitVec 12) (value : Word) (s : State) :
    (rsv ≠ 0 ∧ execSetp rsv pid value s = .next (cmdError .reserved (headerOf (.setp rsv pid value)) s)) ∨
    (rsv = 0 ∧ Param.ofId? pid = none ∧
      execSetp rsv pid value s = .next (cmdError .badParam (headerOf (.setp rsv pid value)) s)) ∨
    (∃ p, rsv = 0 ∧ Param.ofId? pid = some p ∧ execSetp rsv pid value s = .next (setParam p (payloadValue p value) s)) := by
  unfold execSetp
  by_cases h : rsv = 0
  · cases hp : Param.ofId? pid with
    | none => exact .inr (.inl ⟨h, rfl, by simp [h]⟩)
    | some p => exact .inr (.inr ⟨p, h, rfl, by simp [h]⟩)
  · exact .inl ⟨h, if_pos h⟩

theorem execSwap_cases (rsv : BitVec 23) (mask : BitVec 5) (s : State) :
    (rsv ≠ 0 ∧ execSwap rsv mask s = .next (cmdError .reserved (headerOf (.swap rsv mask)) s)) ∨
    (rsv = 0 ∧ execSwap rsv mask s = .next { s with bank := swapBanks s.bank mask }) := by
  unfold execSwap
  split
  · exact .inl ⟨‹_›, rfl⟩
  · exact .inr ⟨by simp_all, rfl⟩

theorem execSync_cases (rsv : BitVec 25) (lmask : BitVec 3) (s : State) :
    (rsv ≠ 0 ∧ execSync rsv lmask s = .next (cmdError .reserved (headerOf (.sync rsv lmask)) s)) ∨
    (rsv = 0 ∧ execSync rsv lmask s = .next { s with ph := syncPhases lmask s.ph }) := by
  unfold execSync
  split
  · exact .inl ⟨‹_›, rfl⟩
  · exact .inr ⟨by simp_all, rfl⟩

theorem execWait_cases (rsv : BitVec 4) (count : U24) (s : State) :
    (rsv ≠ 0 ∧ execWait rsv count s = .next (cmdError .reserved (headerOf (.wait rsv count)) s)) ∨
    (rsv = 0 ∧ execWait rsv count s = .next { s with wait := count }) := by
  unfold execWait
  split
  · exact .inl ⟨‹_›, rfl⟩
  · exact .inr ⟨by simp_all, rfl⟩

theorem execRelease_cases (rsvHi : BitVec 19) (bySlot : BitVec 1) (rsvLo tgt : BitVec 4) (s : State) :
    ((rsvHi ≠ 0 ∨ rsvLo ≠ 0) ∧
      execRelease rsvHi bySlot rsvLo tgt s = .next (cmdError .reserved (headerOf (.release rsvHi bySlot rsvLo tgt)) s)) ∨
    (rsvHi = 0 ∧ rsvLo = 0 ∧ releaseOperand? bySlot tgt = none ∧
      execRelease rsvHi bySlot rsvLo tgt s = .next (cmdError .badOperand (headerOf (.release rsvHi bySlot rsvLo tgt)) s)) ∨
    (∃ t, rsvHi = 0 ∧ rsvLo = 0 ∧ releaseOperand? bySlot tgt = some t ∧
      execRelease rsvHi bySlot rsvLo tgt s = .next { s with slots := releaseTarget t s.slots }) := by
  unfold execRelease
  by_cases h : rsvHi ≠ 0 ∨ rsvLo ≠ 0
  · exact .inl ⟨h, if_pos h⟩
  · have hh : rsvHi = 0 := by by_contra e; exact h (.inl e)
    have hl : rsvLo = 0 := by by_contra e; exact h (.inr e)
    cases ht : releaseOperand? bySlot tgt with
    | none => exact .inr (.inl ⟨hh, hl, rfl, by simp [hh, hl]⟩)
    | some t => exact .inr (.inr ⟨t, hh, hl, rfl, by simp [hh, hl]⟩)

theorem execNoteOn_cases (rsv : BitVec 16) (tech str slot : BitVec 4) (s : State) :
    (rsv ≠ 0 ∧ execNoteOn rsv tech str slot s = .next (cmdError .reserved (headerOf (.noteOn rsv tech str slot)) s)) ∨
    (rsv = 0 ∧ (techOperand? tech = none ∨ strOperand? str = none ∨ slotOperand? slot = none) ∧
      execNoteOn rsv tech str slot s = .next (cmdError .badOperand (headerOf (.noteOn rsv tech str slot)) s)) ∨
    (∃ t n k, rsv = 0 ∧ techOperand? tech = some t ∧ strOperand? str = some n ∧ slotOperand? slot = some k ∧
      (((s.slots.get k).st ≠ .idle ∧
        execNoteOn rsv tech str slot s = .next (cmdError .slotBusy (headerOf (.noteOn rsv tech str slot)) s)) ∨
      ((s.slots.get k).st = .idle ∧ execNoteOn rsv tech str slot s = .next (startVoice k n t s)))) := by
  unfold execNoteOn
  by_cases h : rsv = 0
  · cases ht : techOperand? tech with
    | none => exact .inr (.inl ⟨h, .inl rfl, by simp [h]⟩)
    | some t =>
      cases hn : strOperand? str with
      | none => exact .inr (.inl ⟨h, .inr (.inl rfl), by simp [h]⟩)
      | some n =>
        cases hk : slotOperand? slot with
        | none => exact .inr (.inl ⟨h, .inr (.inr rfl), by simp [h]⟩)
        | some k =>
          refine .inr (.inr ⟨t, n, k, h, rfl, rfl, rfl, ?_⟩)
          by_cases hi : (s.slots.get k).st = .idle
          · exact .inr ⟨hi, by simp [h, hi]⟩
          · exact .inl ⟨hi, by simp [h, hi]⟩
  · exact .inl ⟨h, if_pos h⟩

/-- What a command can do: record an error, set a parameter, start a voice, release, swap, wait, synchronise, or nothing. -/
theorem exec_cases (i : Instr) (s : State) :
    ∃ t, exec i s = .next t ∧
      (t = s ∨ (∃ code h, t = cmdError code h s) ∨ (∃ p value, t = setParam p (payloadValue p value) s) ∨
        (∃ k n tech, (s.slots.get k).st = .idle ∧ t = startVoice k n tech s) ∨
        (∃ target, t = { s with slots := releaseTarget target s.slots }) ∨
        (∃ mask, t = { s with bank := swapBanks s.bank mask }) ∨ (∃ count, t = { s with wait := count }) ∨
        (∃ lmask, t = { s with ph := syncPhases lmask s.ph })) := by
  cases i with
  | nop rsv =>
    rcases execNop_cases rsv s with ⟨-, e⟩ | ⟨-, e⟩
    · exact ⟨_, e, .inr (.inl ⟨_, _, rfl⟩)⟩
    · exact ⟨_, e, .inl rfl⟩
  | setp rsv pid value =>
    rcases execSetp_cases rsv pid value s with ⟨-, e⟩ | ⟨-, -, e⟩ | ⟨p, -, -, e⟩
    · exact ⟨_, e, .inr (.inl ⟨_, _, rfl⟩)⟩
    · exact ⟨_, e, .inr (.inl ⟨_, _, rfl⟩)⟩
    · exact ⟨_, e, .inr (.inr (.inl ⟨p, value, rfl⟩))⟩
  | noteOn rsv tech str slot =>
    rcases execNoteOn_cases rsv tech str slot s with ⟨-, e⟩ | ⟨-, -, e⟩ | ⟨t, n, k, -, -, -, -, ⟨-, e⟩ | ⟨hi, e⟩⟩
    · exact ⟨_, e, .inr (.inl ⟨_, _, rfl⟩)⟩
    · exact ⟨_, e, .inr (.inl ⟨_, _, rfl⟩)⟩
    · exact ⟨_, e, .inr (.inl ⟨_, _, rfl⟩)⟩
    · exact ⟨_, e, .inr (.inr (.inr (.inl ⟨k, n, t, hi, rfl⟩)))⟩
  | release rsvHi bySlot rsvLo tgt =>
    rcases execRelease_cases rsvHi bySlot rsvLo tgt s with ⟨-, e⟩ | ⟨-, -, -, e⟩ | ⟨t, -, -, -, e⟩
    · exact ⟨_, e, .inr (.inl ⟨_, _, rfl⟩)⟩
    · exact ⟨_, e, .inr (.inl ⟨_, _, rfl⟩)⟩
    · exact ⟨_, e, .inr (.inr (.inr (.inr (.inl ⟨t, rfl⟩))))⟩
  | swap rsv mask =>
    rcases execSwap_cases rsv mask s with ⟨-, e⟩ | ⟨-, e⟩
    · exact ⟨_, e, .inr (.inl ⟨_, _, rfl⟩)⟩
    · exact ⟨_, e, .inr (.inr (.inr (.inr (.inr (.inl ⟨mask, rfl⟩)))))⟩
  | wait rsv count =>
    rcases execWait_cases rsv count s with ⟨-, e⟩ | ⟨-, e⟩
    · exact ⟨_, e, .inr (.inl ⟨_, _, rfl⟩)⟩
    · exact ⟨_, e, .inr (.inr (.inr (.inr (.inr (.inr (.inl ⟨count, rfl⟩))))))⟩
  | sync rsv lmask =>
    rcases execSync_cases rsv lmask s with ⟨-, e⟩ | ⟨-, e⟩
    · exact ⟨_, e, .inr (.inl ⟨_, _, rfl⟩)⟩
    · exact ⟨_, e, .inr (.inr (.inr (.inr (.inr (.inr (.inr ⟨lmask, rfl⟩))))))⟩
  | illegal7 rest => exact ⟨_, rfl, .inr (.inl ⟨_, _, rfl⟩)⟩
  | illegalHi rest => exact ⟨_, rfl, .inr (.inl ⟨_, _, rfl⟩)⟩

/-! ### The command phase and the step -/

/-- Every command phase ends in a next state, with what every fetch and every command keeps. -/
theorem runCommands_keeps {P : State → Prop}
    (hFetch : ∀ (s : State) (i : Instr) (rest : List Word), decode s.fifo = .ok (i, rest) → P s → P { s with fifo := rest })
    (hExec : ∀ (i : Instr) (s t : State), exec i s = .next t → P s → P t) (n : Nat) (s : State) (h : P s) :
    ∃ t, runCommands n s = .next t ∧ P t := by
  induction n generalizing s with
  | zero => exact ⟨s, rfl, h⟩
  | succ n ih =>
    unfold runCommands fetch
    cases hd : decode s.fifo with
    | error e => exact ⟨s, rfl, h⟩
    | ok p =>
      obtain ⟨i, rest⟩ := p
      obtain ⟨u, hu, -⟩ := exec_cases i { s with fifo := rest }
      have hPu := hExec i _ u hu (hFetch s i rest hd h)
      by_cases hw : u.wait = 0
      · obtain ⟨t, ht, hP⟩ := ih u hPu
        exact ⟨t, by simp [hu, hw, ht], hP⟩
      · refine ⟨u, ?_, hPu⟩
        simp only [hu]
        exact if_pos hw

/-- The same for the whole command phase, which also moves the wait counter. -/
theorem commandPhase_keeps {P : State → Prop}
    (hWait : ∀ (s : State) (w : U24), P s → P { s with wait := w })
    (hFetch : ∀ (s : State) (i : Instr) (rest : List Word), decode s.fifo = .ok (i, rest) → P s → P { s with fifo := rest })
    (hExec : ∀ (i : Instr) (s t : State), exec i s = .next t → P s → P t) (s : State) (h : P s) :
    ∃ t, commandPhase s = .next t ∧ P t := by
  unfold commandPhase
  split
  · exact ⟨_, rfl, hWait s _ h⟩
  · exact runCommands_keeps hFetch hExec _ _ (hWait s _ h)

/-- What the command phase and the rest of the tick keep, a TICK strobe keeps. -/
theorem tickStrobe_keeps {P : State → Prop}
    (hWait : ∀ (s : State) (w : U24), P s → P { s with wait := w })
    (hFetch : ∀ (s : State) (i : Instr) (rest : List Word), decode s.fifo = .ok (i, rest) → P s → P { s with fifo := rest })
    (hExec : ∀ (i : Instr) (s t : State), exec i s = .next t → P s → P t)
    (hFinish : ∀ s, P s → P (finishTick s)) (s : State) (h : P s) : ∃ t, tickStrobe s = .next t ∧ P t := by
  unfold tickStrobe runTick
  split
  · exact ⟨s, rfl, h⟩
  · obtain ⟨t, ht, hP⟩ := commandPhase_keeps hWait hFetch hExec s h
    exact ⟨finishTick t, by simp [ht], hFinish t hP⟩

/-- What every event keeps, a step keeps. -/
theorem step_keeps {P : State → Prop}
    (hEnv : ∀ (s : State) (es : List EnvEvent), P s → P { s with env := es })
    (hTick : ∀ s, P s → ∃ t, tickStrobe s = .next t ∧ P t)
    (hWrite : ∀ word v s, P s → P (busWrite word v s)) (hRead : ∀ word s, P s → P (busRead word s))
    (hVoice : ∀ k v s, P s → P (driveVoice k v s)) (hChain : ∀ v s, P s → P (driveChain v s))
    (hRst : ∀ b s, P s → P (driveRst b s)) (s t : State) (h : P s) (hs : step s = .next t) : P t := by
  have h2 : P (nextEvent s).2 := by
    unfold nextEvent
    split
    · exact h
    · exact hEnv s _ h
  revert hs
  unfold step worldStep handleEvent
  generalize (nextEvent s).2 = u at h2
  cases (nextEvent s).1 with
  | tick =>
    obtain ⟨v, hv, hP⟩ := hTick u h2
    simp only [hv]
    rintro ⟨⟩
    exact hP
  | busWrite word v => rintro ⟨⟩; exact hWrite word v u h2
  | busRead word => rintro ⟨⟩; exact hRead word u h2
  | driveVoice k v => rintro ⟨⟩; exact hVoice k v u h2
  | driveChain v => rintro ⟨⟩; exact hChain v u h2
  | driveRst b => rintro ⟨⟩; exact hRst b u h2
  | tickOverrun => rintro ⟨⟩

/-- A read of a register changes the read data and, for TBL_DATA, what the access changes (R128). -/
theorem busRead_cases (word : BitVec 6) (s : State) :
    (s.rst = true ∧ busRead word s = { s with rdata := Config.busReadInReset s.draws, draws := s.draws + 1 }) ∨
    (s.rst = false ∧ word = tblDataWord ∧ busRead word s = { (readTblData s).2 with rdata := (readTblData s).1 }) ∨
    (s.rst = false ∧ word ≠ tblDataWord ∧ busRead word s = { s with rdata := registerWord s word }) := by
  unfold busRead readRegister
  cases hr : s.rst
  · by_cases hw : word = tblDataWord
    · exact .inr (.inl ⟨rfl, hw, by simp [hw]⟩)
    · exact .inr (.inr ⟨rfl, hw, by simp [hr, hw]⟩)
  · exact .inl ⟨rfl, by simp⟩

/-- The level of RST resets the elements while it is asserted and once when it is released (R540). -/
theorem driveRst_cases (level : Bool) (s : State) :
    ((s.rst = true ∨ level = true) ∧ driveRst level s = { resetElements s with rst := level }) ∨
    (s.rst = false ∧ level = false ∧ driveRst level s = s) := by
  unfold driveRst
  cases hr : s.rst <;> cases level <;> simp

end Sys2Proof.Machine
end

