-- ==== Sys2Proof/Laws/PerInstr.lean ====
section
/-! SUPPORT. The statements made per instruction: the header is the first word, and the header's opcode alone decides the
length (R160). -/

namespace Sys2Proof.Laws.HeaderForm

/-- The header is the first word, and the command has two words exactly where the header's opcode is SETP's (R160). -/
def Statement (i : Instr) : Prop :=
  (encode i).head? = some (headerOf i) ∧ (encode i).length = (if opcodeOf (headerOf i) = opcodeSetp then 2 else 1)

/-- A command of one word meets the statement where its header's opcode is not 1. -/
theorem one_word {i : Instr} (ho : (headerOf i).toNat / 268435456 ≠ 1) (he : encode i = [headerOf i]) : Statement i := by
  refine ⟨by rw [he]; rfl, ?_⟩
  have : opcodeOf (headerOf i) ≠ opcodeSetp := by
    intro h
    rw [← opcodeOf_toNat, h] at ho
    exact ho rfl
  rw [if_neg this, he]
  rfl

theorem nop (rsv : BitVec 28) : Statement (.nop rsv) :=
  one_word (by rw [headerOf_nop]; omega) rfl

theorem setp (rsv : BitVec 16) (pid : BitVec 12) (value : Word) : Statement (.setp rsv pid value) := by
  have : opcodeOf (headerOf (.setp rsv pid value)) = opcodeSetp := by
    apply BitVec.eq_of_toNat_eq
    rw [opcodeOf_toNat, headerOf_setp]
    simp only [opcodeSetp, BitVec.toNat_ofNat]
    omega
  exact ⟨rfl, by rw [this]; rfl⟩

theorem noteOn (rsv : BitVec 16) (tech str slot : BitVec 4) : Statement (.noteOn rsv tech str slot) :=
  one_word (by rw [headerOf_noteOn]; omega) rfl

theorem release (rsvHi : BitVec 19) (bySlot : BitVec 1) (rsvLo tgt : BitVec 4) :
    Statement (.release rsvHi bySlot rsvLo tgt) :=
  one_word (by rw [headerOf_release]; omega) rfl

theorem swap (rsv : BitVec 23) (mask : BitVec 5) : Statement (.swap rsv mask) :=
  one_word (by rw [headerOf_swap]; omega) rfl

theorem wait (rsv : BitVec 4) (count : U24) : Statement (.wait rsv count) :=
  one_word (by rw [headerOf_wait]; omega) rfl

theorem sync (rsv : BitVec 25) (lmask : BitVec 3) : Statement (.sync rsv lmask) :=
  one_word (by rw [headerOf_sync]; omega) rfl

theorem illegal7 (rest : BitVec 28) : Statement (.illegal7 rest) :=
  one_word (by rw [headerOf_illegal7]; omega) rfl

theorem illegalHi (rest : BitVec 31) : Statement (.illegalHi rest) :=
  one_word (by rw [headerOf_illegalHi]; omega) rfl

end Sys2Proof.Laws.HeaderForm
end

