-- ==== Sys2Proof/Tests/Slice0.lean ====
section
/-! SUPPORT. Tests. Expected values come from the spec's own examples and vectors (95_test_vectors.md sections 2 and 3, the
examples of the rules); each witness shows a concrete state and operands that meet all hypotheses of one obligation. -/

namespace Sys2Proof.Tests

open Sys2Proof Sys2Proof.Machine

/-! ### Well-formedness: one ill-formed term for each check -/

theorem test_nop_reserved_refused : (Instr.nop 1).wellFormed = false := by decide
theorem test_setp_reserved_refused : (Instr.setp 0x8000 0x001 5).wellFormed = false := by decide
theorem test_noteOn_reserved_refused : (Instr.noteOn 1 0 0 0).wellFormed = false := by decide
theorem test_release_high_reserved_refused : (Instr.release 1 0 0 0).wellFormed = false := by decide
theorem test_release_low_reserved_refused : (Instr.release 0 0 8 0).wellFormed = false := by decide
theorem test_swap_reserved_refused : (Instr.swap 1 0).wellFormed = false := by decide
theorem test_wait_reserved_refused : (Instr.wait 8 0).wellFormed = false := by decide
theorem test_sync_reserved_refused : (Instr.sync 1 0).wellFormed = false := by decide
theorem test_reserved_zero_accepted : (Instr.release 0 1 0 15).wellFormed = true := by decide

/-! ### Decoding: words written out bit by bit from the formats of R161 -/

theorem test_decode_nop : decodeTableWord 32 0b0000_0000000000000000000000000000 = some (.nop 0) := by decide
theorem test_decode_setp :
    decodeTableWord 64 (0b0001_0000000000000000_001001010001 + 0x00266666 * 2 ^ 32) =
      some (.setp 0 0x251 0x00266666) := by decide
theorem test_decode_noteOn :
    decodeTableWord 32 0b0010_0000000000000000_0001_0010_0001 = some (.noteOn 0 1 2 1) := by decide
theorem test_decode_release :
    decodeTableWord 32 0b0011_0000000000000000000_1_0000_0101 = some (.release 0 1 0 5) := by decide
theorem test_decode_swap : decodeTableWord 32 0b0100_00000000000000000000000_10001 = some (.swap 0 0x11) := by decide
theorem test_decode_wait :
    decodeTableWord 32 0b0101_0000_000000000000000111100000 = some (.wait 0 480) := by decide
theorem test_decode_sync : decodeTableWord 32 0b0110_0000000000000000000000000_101 = some (.sync 0 5) := by decide
theorem test_decode_illegal7 : decodeTableWord 32 0x70000003 = some (.illegal7 3) := by decide
theorem test_decode_illegalHi : decodeTableWord 32 0xC0000001 = some (.illegalHi 0x40000001) := by decide
/-- A short SETP row has a payload word of zeros (log 14). -/
theorem test_decode_short_setp : decodeTableWord 32 0x10000007 = some (.setp 0 7 0) := by decide
/-- A payload is never read as a header (R160). -/
theorem test_payload_not_header :
    decode [0x10000000#32, 0xF0000000#32, 0x00000000#32] = .ok (.setp 0 0 0xF0000000, [0x00000000#32]) := by decide

/-! ### The commands, one step each -/

/-- A test of the next state of an outcome. -/
def gives (o : Host.Outcome State Fault Refusal) (f : State → Bool) : Bool :=
  match o with
  | .next t => f t
  | .fault _ => false
  | .refused _ => false

/-- R210's example: FB(DELAY) is clamped to FB_MAX. -/
theorem test_setp_clamps_feedback :
    gives (exec (.setp 0 0x612 0x00800000) State.reset) (fun t => t.tgt.fb.delay == 7969178#32) = true := by decide

/-- V-SETP-9: SETP IR_LEN sets the shadow bank's length, clamped. -/
theorem test_setp_irLen :
    gives (exec (.setp 0 0x007 200000) State.reset) (fun t => t.irLen1 == 131072#24 && t.irLen0 == 0#24) = true := by
  decide

/-- V-SETP-2, V-SETP-7: signed formats are sign-extended and clamped. -/
theorem test_setp_signed :
    (gives (exec (.setp 0 0x428 0xFFFFFFFF) State.reset) (fun t => tgtInt t (.bq .eqLow .b0) == -1) &&
      gives (exec (.setp 0 0x601 0x80000000) State.reset) (fun t => tgtInt t (.depth .chorus) == -16769024)) = true := by
  decide

/-- V-NOP-2. -/
theorem test_nop_reserved :
    gives (exec (.nop 1) State.reset)
      (fun t => t.errCode == .reserved && t.errInfo == 0x00000001#32 && t.irqPend == 1#5) = true := by decide

/-- R212's example: FINGER from reset. -/
theorem test_noteOn_finger :
    gives (exec (.noteOn 0 0 0 0) State.reset)
      (fun t => t.slots.s0.st == .attack && t.slots.s0.a == 240#24 && t.slots.s0.s == 5872026#24) = true := by decide

/-- V-NOTE-6: RESERVED comes before BAD_OPERAND. -/
theorem test_noteOn_error_order :
    gives (exec (.noteOn 1 5 0 0) State.reset) (fun t => t.errCode == .reserved && t.errInfo == 0x20001500#32) = true := by
  decide

/-- A sounding slot, in NATURAL with the gain of V-REL-5. -/
def soundingSlot : Slot := { Slot.reset with st := .natural, g := 5077377, r := 7200, m := 9600, a := 1, d := 1, ceil := 8388608 }

/-- V-REL-5: the frozen gain, and the first release step. -/
theorem test_release_slot :
    gives (exec (.release 0 1 0 1) { State.reset with slots := State.reset.slots.set .s1 soundingSlot })
      (fun t => t.slots.s1.gf == 5077377#24 && (stepSlot t.slots.s1).g == 5076672#24) = true := by decide

/-- V-REL-1. -/
theorem test_release_bad_string :
    gives (exec (.release 0 0 0 4) State.reset) (fun t => t.errCode == .badOperand) = true := by decide

/-- R213's example. -/
theorem test_swap : gives (exec (.swap 0 0x11) State.reset) (fun t => t.bank == 0x11#5) = true := by decide

/-- R215's example. -/
theorem test_wait : gives (exec (.wait 0 480) State.reset) (fun t => t.wait == 480#24) = true := by decide

/-- R216's example. -/
theorem test_sync :
    gives (exec (.sync 0 5) { State.reset with ph := ⟨7, 8, 9⟩ }) (fun t => decide (t.ph = ⟨0, 8, 0⟩)) = true := by decide

/-- R217's example. -/
theorem test_illegalHi :
    gives (exec (.illegalHi 0x70000000) State.reset)
      (fun t => errCodeBits t.errCode == 1#3 && t.errInfo == 0xF0000000#32 && t.irqPend == 1#5) = true := by decide

theorem test_illegal7 :
    gives (exec (.illegal7 0) State.reset) (fun t => t.errCode == .illegalOp && t.errInfo == 0x70000000#32) = true := by
  decide

/-! ### The datapath -/

/-- V-AR-1, V-AR-5, V-AR-8. -/
theorem test_rounding : rnd (-5) 2 = -1 ∧ rnd 1 1 = 1 ∧ rnd (-1) 1 = 0 ∧ gain (-3) (2 ^ 23) = -1 ∧
    mix (2 ^ 22) (2 ^ 22) (-1001) 0 = -500 := by decide

/-- V-AR-7, V-AR-10: a mix and a feedback sum saturate. -/
theorem test_mix_and_feedback_saturate :
    mix (2 ^ 23) 2516582 0 1000 = 300 ∧ mix (2 ^ 23) 2516582 8388607 8388607 = 8388607 ∧
      fbSum 8388607 8388607 Config.FB_MAX = 8388607 ∧ fbSum (-8388608) (-8388608) Config.FB_MAX = -8388608 := by decide

/-- R371's example: LO_B0 = 2^28, HI_B0 = 0, m = 2^22. -/
theorem test_modulated_coefficient :
    modCoef { State.reset with cur := State.reset.cur.set (.hi .wah .b0) 0 } .wah (2 ^ 22) .b0 = 2 ^ 27 := by decide

/-- The state after reset with the chorus moved by half of DEPTH = 100000, so by 50000/4096 samples. -/
def modulatedChorus : State :=
  { State.reset with cur := State.reset.cur.set (.depth .chorus) 100000, wlfo := ⟨4194304, 0, 0⟩ }

/-- R411 by hand: d = 4096 + 50000 = 13 * 4096 + 848; 13 ticks ago 1000, 14 ticks ago 2000; 1000 + rnd(1000 * 848, 12). -/
theorem test_modulated_tap :
    delayTap modulatedChorus .chorus
      { ChanState.reset with buf := ChanState.reset.buf.set .chorus [(4082, 2000), (4083, 1000)] } = 1207 := by
  decide +kernel

/-- V-SM-1, V-SM-2. -/
theorem test_smoothStep : smoothStep 0 (2 ^ 23) 6989 = 3495 ∧ smoothStep (2 ^ 23) 0 6989 = 8385114 ∧
    smoothStep 0 (-1) 6989 = -1 := by decide

/-- R303's and R304's examples. -/
theorem test_envelope :
    (stepSlot { Slot.reset with st := .attack, ceil := 8388608, a := 240, i := 1 }).g = 69905#24 ∧
    (stepSlot { Slot.reset with st := .decay, g := 8388608, s := 5872026, dk := 16766734, d := 9 }).g = 8387035#24 := by
  decide

/-- R321's example. -/
theorem test_wah : (stepWah { Wah.reset with wst := .up, u := 480 }).m = 17476#24 := by decide

/-- R347's example. -/
theorem test_lfo :
    lfoOutput { State.reset with tables := [(12 * 131072 + 1, 1000), (12 * 131072 + 2, 2000)] } 0x01800000#32 = 1500 := by
  decide +kernel

/-- A state whose next event is a TICK, with MASTER at unity, the external insert at 1000 and the table entries that one tick
of a silent chain reads. -/
def tickState : State :=
  { State.reset with
    run := true
    extInsert := true
    chainIn := 1000
    tgt := State.reset.tgt.set .master 0x01000000
    cur := State.reset.cur.set .master 0x01000000
    tables := [(512, 0), (513, 0), (262144 + 512, 0), (262144 + 513, 0), (524288 + 512, 0), (524288 + 513, 0),
      (786432 + 512, 0), (786432 + 513, 0), (1572864, 0), (1572865, 0)]
    env := [.tick] }

/-- R467: a whole tick of the transparent chain (95_test_vectors.md section 3). -/
theorem test_whole_tick :
    gives (step tickState) (fun t => t.outL == 1000#24 && t.outR == 1000#24 && t.sampleCnt == 1#32 && t.irqPend == 0#5 &&
      t.wp.chorus == 1 && ramRead t.chans.left.buf.chorus 0 == 1000#24) = true := by
  decide +kernel

/-- V-SETP-13: SETP MASTER from reset, placed as the next instruction: the target, and one smoothing step. -/
theorem test_placed_setp :
    gives (step (State.reset.withFetchWord 64 (0x10000000 + 0x01000000 * 2 ^ 32)))
      (fun t => t.tgt.master == 16777216#32 && t.cur.master == 6989#32 && t.fifo == []) = true := by
  decide +kernel

/-- R124: a read past the table is TBL_BAD_ADDR, returns 0 and advances INDEX. -/
theorem test_table_bad_address :
    gives (handleEvent (hostR 0x24) { State.reset with tblTable := 6, tblIndex := 256 })
      (fun t => t.rdata == 0#32 && t.errCode == .tblBadAddr && t.errInfo == 0x60000100#32 && t.tblIndex == 257#20) = true := by
  decide

/-- R51: 241 ids are valid. -/
theorem test_valid_ids : ((List.range 4096).filter fun n => (Param.ofId? (BitVec.ofNat 12 n)).isSome).length = 241 := by
  decide +kernel

/-- Rows of R57, R75 and R76: id, range and reset value; REVPRE has no DEPTH. -/
theorem test_parameter_rows :
    Param.ofId? 0x134 = some (.file (.tech .mute .nk)) ∧ (FileParam.tech .mute .nk).resetValue = 16775468 ∧
      Param.ofId? 0x54C = some (.file (.hi .ph4 .a2)) ∧ Param.ofId? 0x630 = some (.file (.base .tape)) ∧
      (FileParam.base .tape).high = 536862720 ∧ Param.ofId? 0x621 = none := by decide

/-! ### Witnesses: the hypotheses of the obligations are met -/

/-- Every parameter is in its legal range after reset. -/
theorem witness_parameters_in_range : paramsInRange State.reset := fun p => by
  have h := p.resetValue_range
  have e := int_reset p
  exact ⟨h.1.trans_eq e.symm, e.trans_le h.2, h.1.trans_eq e.symm, e.trans_le h.2⟩

/-- Parameters stay in range when one target and current value are set to legal words. -/
theorem params_in_range_set {p : FileParam} {v : Int} (hl : p.low ≤ v) (hh : v ≤ p.high) :
    paramsInRange { State.reset with
      tgt := State.reset.tgt.set p (paramWord v), cur := State.reset.cur.set p (paramWord v) } := fun q => by
  by_cases e : q = p
  · subst e
    have h : (ParamFile.reset.set q (paramWord v)).int q = v := int_set_self _ hl hh
    exact ⟨hl.trans_eq h.symm, h.trans_le hh, hl.trans_eq h.symm, h.trans_le hh⟩
  · have h : (ParamFile.reset.set p (paramWord v)).int q = ParamFile.reset.int q := int_set_ne _ _ e
    have w := witness_parameters_in_range q
    exact ⟨w.1.trans_eq h.symm, h.trans_le w.2.1, w.1.trans_eq h.symm, h.trans_le w.2.1⟩

/-- The state after reset with RUN = 1. -/
def running : State := { State.reset with run := true }

theorem witness_DecodeAndEncodeAgree : decode [0x10000251#32, 0xFFFFFFFF#32] = .ok (.setp 0 0x251 0xFFFFFFFF, []) := by
  decide

theorem witness_StepRunsDecodedCommand :
    nextEvent { running with fifo := [0x20000000], wait := 1, env := [.tick] } =
        (.tick, { running with fifo := [0x20000000], wait := 1 }) ∧
      nextEvent { running with fifo := [0x20000000] } = (.tick, { running with fifo := [0x20000000] }) ∧
      running.run = true ∧ running.rst = false ∧ (1#24).toNat ≤ 1 ∧ running.wait.toNat ≤ 1 ∧
      decode [0x20000000#32] = .ok (.noteOn 0 0 0 0, []) :=
  ⟨rfl, rfl, rfl, rfl, by decide, by decide, by decide⟩

theorem witness_PlacedInstructionRuns : decodeTableWord 32 0x500001E0 = some (.wait 0 480) := by decide

theorem witness_CommandsRunInOrder :
    ({ running with wait := 1 } : State).wait.toNat ≤ 1 ∧ running.wait.toNat ≤ 1 := by decide

theorem witness_SetpWaitsForPayload :
    ({ running with fifo := [0x10000000], wait := 1 } : State).fifo = [0x10000000#32] ∧ opcodeOf 0x10000000#32 = 0x1#4 ∧
      ({ running with fifo := [0x10000000], wait := 1 } : State).wait.toNat ≤ 1 := ⟨rfl, by decide, by decide⟩

theorem witness_WaitHoldsCommands :
    running.env = [] ∧ running.run = true ∧ running.rst = false ∧ 479 < ({ running with wait := 480 } : State).wait.toNat :=
  ⟨rfl, rfl, rfl, by decide⟩

theorem replicate_below (n : Nat) (h : n < 256) : (List.replicate n (0 : Word)).length < 256 := by
  rw [List.length_replicate]
  exact h

theorem replicate_above (n : Nat) (h : 256 ≤ n) : 256 ≤ (List.replicate n (0 : Word)).length := by
  rw [List.length_replicate]
  exact h

theorem replicate_at_most (n : Nat) (h : n ≤ 256) : (List.replicate n (0 : Word)).length ≤ 256 := by
  rw [List.length_replicate]
  exact h

theorem witness_PushAppendsWord :
    State.reset.rst = false ∧ ({ State.reset with fifo := List.replicate 255 0 } : State).fifo.length < 256 ∧
      256 ≤ ({ State.reset with fifo := List.replicate 256 0 } : State).fifo.length :=
  ⟨rfl, replicate_below 255 (by decide), replicate_above 256 (by decide)⟩

theorem witness_FlushEmptiesFifo :
    State.reset.rst = false ∧ (0x00000004#32).getLsbD 2 = true ∧ (0x00000004#32).getLsbD 31 = false := by decide

theorem witness_NopDoesNothing :
    State.reset.wait = 0 ∧ ({ State.reset with fifo := [0x00000000] } : State).fifo = 0x00000000#32 :: [] ∧
      (1#28) ≠ 0 := by decide

theorem witness_SetpSetsParameter :
    FileParam.master.cls = .S ∧ (FileParam.modsrc .tape).cls = .I := by decide

theorem witness_NoteOnStartsVoice :
    paramsInRange State.reset ∧ (State.reset.slots.get .s7).st = .idle ∧ tgtInt State.reset (.en .autowah) ≠ 1 :=
  ⟨witness_parameters_in_range, by decide, by decide⟩

theorem witness_NoteOnStartsVoice_autowah :
    ∃ s : State, paramsInRange s ∧ (s.slots.get .s0).st = .idle ∧ tgtInt s (.en .autowah) = 1 :=
  ⟨_, params_in_range_set (p := .en .autowah) (v := 1) (by decide) (by decide), by decide, by decide⟩

theorem witness_NoteOnStartsVoice_release :
    ∃ s : State, paramsInRange s ∧ (s.slots.get .s0).st = .idle ∧ mayRelease (s.slots.get .s1) ∧ (s.slots.get .s1).str = 0 :=
  ⟨{ State.reset with slots := State.reset.slots.set .s1 soundingSlot }, witness_parameters_in_range, by decide,
    .inr (.inr (by decide)), by decide⟩

theorem witness_ReleaseFreezesGain : mayRelease soundingSlot ∧ soundingSlot.str = 0 ∧ ¬mayRelease Slot.reset :=
  ⟨.inr (.inr rfl), rfl, by simp [mayRelease, Slot.reset]⟩

theorem witness_SwapInvertsBanks :
    (0x11#5).getLsbD Curve.fuzz.num = true ∧ (0x11#5).getLsbD Curve.tape.num = false ∧ (0x11#5).getLsbD 4 = true := by
  decide

theorem witness_WaitLoadsCounter :
    State.reset.wait = 0 ∧ ({ State.reset with fifo := [headerOf (asmWait 480)] } : State).fifo = headerOf (asmWait 480) :: [] :=
  ⟨rfl, rfl⟩

theorem witness_SyncClearsPhases : (5#3).getLsbD Lfo.lfo2.num = true ∧ (5#3).getLsbD Lfo.lfo1.num = false := by decide

theorem witness_IllegalOpcodeRecorded : opcodeOf 0x1FFFFFFF#32 = 0x1#4 := by decide

/-- One command for each clause of the error order: illegal, reserved, bad parameter, bad operands at the first value out of
range, busy slot, no error. -/
theorem witness_FirstErrorReported :
    opcodeIllegal (.illegal7 0) ∧ (Instr.noteOn 1 5 0 0).wellFormed = false ∧ paramInvalid (.setp 0 0x00F 0) ∧
      operandInvalid (.noteOn 0 5 0 0) ∧ operandInvalid (.noteOn 0 0 4 0) ∧ operandInvalid (.noteOn 0 0 0 8) ∧
      operandInvalid (.release 0 0 0 4) ∧ operandInvalid (.release 0 1 0 8) ∧ ¬operandInvalid (.noteOn 0 4 3 7) ∧
      slotBusy { State.reset with slots := State.reset.slots.set .s7 soundingSlot } (.noteOn 0 4 3 7) ∧
      ¬slotBusy State.reset (.noteOn 0 4 3 7) := by
  refine ⟨trivial, by decide, (Param.ofId?_none_iff _).1 (by decide), .inl (by decide), .inr (.inl (by decide)),
    .inr (.inr (by decide)), .inl (by decide), .inr (by decide), by simp [operandInvalid], ⟨.s7, by decide, by decide⟩, ?_⟩
  rintro ⟨k, -, h⟩
  cases k <;> exact h (by decide)

theorem witness_CommandFrame : exec (.nop 0) State.reset = .next State.reset := rfl

theorem witness_RoundingLaws : 1 ≤ 1 ∧ (-6 : Int) ≤ 6 := by decide

theorem witness_GainMixAndFeedback :
    (0 : Int) ≤ 2 ^ 23 ∧ (2 ^ 23 : Int) ≤ 2 ^ 23 ∧ (0 : Int) ≤ Config.FB_MAX ∧ Config.FB_MAX ≤ Config.FB_MAX ∧
      -8388608 ≤ 0 + rnd (Config.FB_MAX * -8388608) 23 ∧ 0 + rnd (Config.FB_MAX * -8388608) 23 ≤ 8388607 := by decide

theorem witness_SmoothingStepLaws :
    (1 : Int) ≤ 1 ∧ (1 : Int) ≤ 2 ^ 24 ∧ (2 ^ 24 : Int) ≤ 2 ^ 24 ∧ ((8388608 : Int) - 0).natAbs ≤ 8388608 := by decide

theorem witness_SmoothingPhaseResult :
    paramsInRange State.reset ∧ FileParam.master.cls = .S ∧ FileParam.smoothK.cls = .I ∧
      tgtInt State.reset (.en .tape) = 0 ∧ (∃ s, paramsInRange s ∧ tgtInt s (.en .tape) = 1) ∧
      (∀ g, FileParam.master ≠ .wet g ∧ FileParam.master ≠ .dry g) :=
  ⟨witness_parameters_in_range, by decide, by decide, by decide,
    ⟨_, params_in_range_set (p := .en .tape) (v := 1) (by decide) (by decide), by decide⟩, by simp⟩

/-- A slot in ATTACK with A = 240, and what its first and last steps give (R303's example). -/
def attackSlot : Slot := { Slot.reset with st := .attack, ceil := 8388608, a := 240 }

theorem witness_AttackRampsToCeiling :
    attackSlot.st = .attack ∧ attackSlot.i = 0 ∧ 1 ≤ attackSlot.a.toNat ∧ 1 ≤ 239 ∧ 239 < attackSlot.a.toNat ∧
      (stepSlot attackSlot).g.toNat = 34952 := by decide

/-- A slot in DECAY at its first and at its last step. -/
def decaySlot : Slot := { Slot.reset with st := .decay, g := 8388608, s := 8388608, dk := 16777215, d := 1, ceil := 8388608 }

theorem witness_DecayAndNaturalSteps :
    decaySlot.st = .decay ∧ decaySlot.s.toNat ≤ decaySlot.g.toNat ∧ decaySlot.d.toNat ≤ decaySlot.i.toNat + 1 ∧
      ({ decaySlot with d := 2 } : Slot).i.toNat + 1 < ({ decaySlot with d := 2 } : Slot).d.toNat ∧
      soundingSlot.st = .natural ∧ 1 ≤ soundingSlot.g.toNat ∧ (stepSlot soundingSlot).g = 0 ∧
      (stepSlot { soundingSlot with nk := 16777215 }).g ≠ 0 := by decide

theorem witness_ReleaseThenTailThenIdle :
    (releasedSlot soundingSlot).st = .release ∧ (releasedSlot soundingSlot).i = 0 ∧
      1 ≤ (releasedSlot soundingSlot).r.toNat ∧ 1 ≤ (releasedSlot soundingSlot).m.toNat ∧
      7199 < (releasedSlot soundingSlot).r.toNat ∧ 16799 < 7200 + (releasedSlot soundingSlot).m.toNat := by decide

theorem witness_EveryVoiceEnds : Slot.reset.st = .idle ∧ 1 ≤ 1 := by decide

theorem witness_VoiceAmplifierResult :
    slotsInRange State.reset ∧ ∀ k, (State.reset.slots.get k).st = .idle ∨ (State.reset.slots.get k).st = .tail := by
  refine ⟨fun k => ?_, fun k => .inl ?_⟩
  · have : State.reset.slots.get k = Slot.reset := by cases k <;> rfl
    rw [this]
    simp [slotInRange, Slot.reset]
  · cases k <;> rfl

theorem witness_TailEndSetsDone : (1 : Nat) ≠ 2 ∧ (3 : Nat) ≠ 2 := by decide

theorem witness_WahSweepRisesAndFalls :
    ({ Wah.reset with wst := .up, u := 480, m0 := 8388608 } : Wah).m0.toNat ≤ 8388608 ∧
      ({ Wah.reset with wst := .up, u := 480 } : Wah).i = 0 ∧ 1 ≤ ({ Wah.reset with wst := .up, u := 480 } : Wah).u.toNat ∧
      1 ≤ 479 ∧ 479 < ({ Wah.reset with wst := .up, u := 480 } : Wah).u.toNat ∧
      (stepWah { Wah.reset with wst := .up, u := 1 }).wst = .down := by decide

theorem witness_LfoOutputInterpolates :
    ∃ (s : State) (t0 t1 : Int), 255 = (s.ph.get .lfo2).toNat / 2 ^ 24 ∧ 65535 = (s.ph.get .lfo2).toNat / 2 ^ 8 % 2 ^ 16 ∧
      t0 = (tableRead s .lfoWave false 255).toInt ∧ t1 = (tableRead s .lfoWave false ((255 + 1) % 256)).toInt :=
  ⟨{ State.reset with ph := ⟨0, 0, 0xFFFFFF00⟩ }, _, _, by decide, by decide, rfl, rfl⟩

theorem witness_LfoPhaseLaw :
    running.env = [] ∧ running.run = true ∧ running.rst = false ∧ running.fifo = [] ∧ running.wait = 0 :=
  ⟨rfl, rfl, rfl, rfl, rfl⟩

theorem witness_SectionCornerCases :
    (∀ q, sectionIdentity State.reset q) ∧
      (2 * 2 ^ 23 - 1) * 2 ^ 27 ≤ biquadAcc ⟨2147483647, 0, 0, 0, 0⟩ Biquad.reset 8388607 ∧
      biquadAcc ⟨2147483647, 0, 0, 0, 0⟩ Biquad.reset (-8388608) < -(2 * 2 ^ 23 - 1) * 2 ^ 27 := by
  refine ⟨fun q => ⟨?_, ?_, ?_, ?_, ?_⟩, by decide, by decide⟩ <;> exact int_reset _

theorem witness_ModulatedSectionInterpolates :
    (0 : Int) ≤ 2 ^ 23 ∧
      ∃ s : State, allPassSets s .ph1 ∧ curInt s (.lo .ph1 .b2) = 2 ^ 28 := by
  refine ⟨by decide, { State.reset with cur := ParamFile.tabulate fun p =>
    match p with
    | .lo _ .b2 | .hi _ .b2 => 0x10000000
    | _ => 0 }, ?_, by decide⟩
  exact ⟨by decide, by decide, by decide, by decide, by decide, by decide⟩

/-- Reading a memory that lists a function's values over consecutive addresses. -/
theorem cellFind_listed (f : Nat → Sample) (l : List Nat) (a : Nat) (h : a ∈ l) :
    cellFind? (l.map fun k => (k, f k)) a = some (f a) := by
  induction l with
  | nil => cases h
  | cons k l ih =>
    by_cases e : k = a
    · subst e
      simp
    · rcases List.mem_cons.1 h with h | h
      · exact absurd h.symm e
      · simp only [List.map_cons, cellFind?, e, if_false]
        exact ih h

/-- The state after reset with a curve in bank 0 of table 0. -/
def withCurve (f : Nat → Sample) : State := { State.reset with tables := (List.range 1025).map fun k => (k, f k) }

theorem curveEntry_withCurve (f : Nat → Sample) {k : Nat} (h : k ≤ 1024) :
    curveEntry (withCurve f) .fuzz k = (f k).toInt := by
  have a : tableAddr (.curve .fuzz) false k = k := by simp [tableAddr, TableId.num, Curve.num]
  have : tableRead (withCurve f) (.curve .fuzz) false k = f k := by
    simp only [tableRead, a, withCurve, cellFind_listed f (List.range 1025) k (by simp; omega), Option.getD_some]
  have b : (withCurve f).bank = 0#5 := rfl
  unfold curveEntry
  rw [b, show (0#5).getLsbD Curve.fuzz.num = false from by decide, this]

theorem witness_CurveInterpolates :
    (8388607#24).toInt + 8388608 = (1023 : Nat) * 16384 + (16383 : Nat) ∧ 1023 < 1024 ∧ 16383 < 16384 ∧
      ∃ s, ∀ k, k < 1024 → curveEntry s .fuzz k ≤ curveEntry s .fuzz (k + 1) := by
  refine ⟨by decide, by decide, by decide, withCurve fun _ => 0, fun k hk => ?_⟩
  rw [curveEntry_withCurve _ (by omega), curveEntry_withCurve _ (by omega)]

/-- The identity table of R394. -/
def identityEntry (k : Nat) : Sample := if k = 1024 then 8388607 else sampleOf ((k : Int) * 2 ^ 14 - 2 ^ 23)

theorem witness_IdentityCurve :
    ∃ s, (∀ k : Nat, k < 1024 → curveEntry s .fuzz k = (k : Int) * 2 ^ 14 - 2 ^ 23) ∧
      curveEntry s .fuzz 1024 = 2 ^ 23 - 1 ∧ (8380416#24).toInt ≤ 2 ^ 23 - 2 ^ 13 ∧ 2 ^ 23 - 2 ^ 13 < (8380417#24).toInt := by
  refine ⟨withCurve identityEntry, fun k hk => ?_, ?_, by decide, by decide⟩
  · rw [curveEntry_withCurve _ (by omega), identityEntry, if_neg (by omega)]
    exact toInt_sampleOf (by omega) (by omega)
  · rw [curveEntry_withCurve _ (by omega)]
    decide

/-- An odd table that is not zero: -1 below the middle, 0 in the middle, 1 above. -/
def oddEntry (k : Nat) : Sample := if k < 512 then -1 else if k = 512 then 0 else 1

theorem witness_OddCurveStaysOdd :
    (∃ s, ∀ k : Nat, k ≤ 1024 → curveEntry s .fuzz (1024 - k) = -curveEntry s .fuzz k) ∧
      -8388608 < (8192#24).toInt ∧ (8192#24).toInt + 8388608 = (512 : Nat) * 16384 + (8192 : Nat) := by
  refine ⟨⟨withCurve oddEntry, fun k hk => ?_⟩, by decide, by decide⟩
  rw [curveEntry_withCurve _ (by omega), curveEntry_withCurve _ hk]
  unfold oddEntry
  rcases lt_trichotomy k 512 with h | h | h
  · rw [if_neg (by omega), if_neg (by omega), if_pos h]
    decide
  · subst h
    decide
  · rw [if_pos (by omega), if_neg (by omega), if_neg (by omega)]
    decide

theorem witness_DelayLineReadsPast :
    (∀ m, Line.delay.modLine? = some m → curInt State.reset (.depth m) = 0 ∨ curInt State.reset (.modsrc m) = 0) ∧
      1 + 2 ≤ Line.delay.len ∧ curInt State.reset (.base .delay) = ((1 : Nat) : Int) * 4096 ∧ 131071 < Line.delay.len ∧
      State.reset.wp.get .delay = (131071 + 1) % Line.delay.len := by
  refine ⟨fun m _ => .inl (int_reset _), by decide, by decide, by decide, by decide⟩

/-- The general tap: a modulated delay with a fraction, and the two clamps. -/
theorem witness_DelayLineReadsPast_modulated :
    (∀ m : ModLine, m.line = .chorus →
        50000 = rnd (curInt modulatedChorus (.depth m) * lineMod modulatedChorus m) 23) ∧
      ((13 : Nat) : Int) * 4096 + (848 : Nat) =
        max 4096 (min (curInt modulatedChorus (.base .chorus) + 50000) (((Line.chorus.len : Int) - 2) * 4096)) ∧
      (4083 + 13) % Line.chorus.len = modulatedChorus.wp.get .chorus ∧
      (4082 + 13 + 1) % Line.chorus.len = modulatedChorus.wp.get .chorus ∧
      ((4094 : Nat) : Int) * 4096 + (0 : Nat) = max 4096 (min (4096 + 2 ^ 30) (((Line.chorus.len : Int) - 2) * 4096)) ∧
      ((1 : Nat) : Int) * 4096 + (0 : Nat) = max 4096 (min (4096 + -1) (((Line.revpre.len : Int) - 2) * 4096)) := by
  refine ⟨fun m h => ?_, by decide, by decide, by decide, by decide, by decide⟩
  cases m with
  | chorus => decide
  | delay => cases h
  | tape => cases h

theorem witness_DelayLineReadsPast_modulators :
    curInt State.reset (.modsrc .delay) = 0 ∧ curInt State.reset (.modsrc .chorus) = 1 ∧
      curInt { State.reset with cur := State.reset.cur.set (.modsrc .tape) 2 } (.modsrc .tape) = 2 ∧
      curInt State.reset (.modsrc .tape) = 3 := by decide

theorem witness_ConvolutionResult : 131070 + 1 < 131072 ∧ irLenOf State.reset (State.reset.bank.getLsbD 4) = 0 := by decide

theorem witness_TransparentChain :
    (∀ g, stageDry tickState g) ∧ curInt tickState .ampIn = 2 ^ 24 ∧ curInt tickState .ampMaster = 2 ^ 24 ∧
      curInt tickState .master = 2 ^ 24 ∧ ∀ q, sectionIdentity tickState q := by
  have h : ∀ p, p ≠ FileParam.master → curInt tickState p = p.resetValue := fun p hp =>
    (int_set_ne ParamFile.reset _ hp).trans (int_reset p)
  refine ⟨fun g => ⟨h _ (by simp), h _ (by simp)⟩, h _ (by simp), h _ (by simp), by decide, fun q => ?_⟩
  exact ⟨h _ (by simp), h _ (by simp), h _ (by simp), h _ (by simp), h _ (by simp)⟩

theorem witness_ChainEquationsAndMaster :
    ∃ (x yL yR : Sample) (oL oR : Int), x = (if tickState.extInsert then tickState.chainIn else tickState.egOut) ∧
      yL = (chain tickState .left tickState.chans.left x).2 ∧ yR = (chain tickState .right tickState.chans.right x).2 ∧
      oL = rnd (yL.toInt * curInt tickState .master) 24 ∧ oR = rnd (yR.toInt * curInt tickState .master) 24 ∧
      tickState.run = true ∧ (2 : Nat) ≠ 4 :=
  ⟨_, _, _, _, _, rfl, rfl, rfl, rfl, rfl, rfl, by decide⟩

/-- Every event but the overrun steps, so every invariant has a step to be kept in. -/
theorem witness_step : gives (step running) (fun t => t.sampleCnt == 1#32) = true := by decide +kernel

theorem witness_StepKeepsDatapathInRange :
    datapathInRange State.reset ∧ ∃ t, step State.reset = .next t :=
  ⟨⟨witness_parameters_in_range, witness_VoiceAmplifierResult.1, by simp [wahInRange, State.reset, Wah.reset]⟩, _, rfl⟩

theorem witness_StepKeepsMemoryCanonical :
    memoryCanonical State.reset ∧ pointersInRange State.reset ∧ ∃ t, step State.reset = .next t :=
  ⟨reset_memory_wf, fun l => by cases l <;> decide, _, rfl⟩

theorem witness_StepKeepsChannelsEqual : channelsAgree State.reset ∧ ∃ t, step State.reset = .next t :=
  ⟨⟨fun _ _ => rfl, rfl, rfl, fun _ _ => rfl, rfl⟩, _, rfl⟩

theorem witness_StepKeepsOneVoicePerString : oneVoicePerString State.reset ∧ ∃ t, step State.reset = .next t :=
  ⟨fun j _ h => by cases j <;> exact absurd h (by decide), _, rfl⟩

theorem witness_StepKeepsControlState :
    immediateSettled State.reset ∧ fifoInRange { State.reset with fifo := List.replicate 256 0 } ∧
      irLenInRange { State.reset with irLen0 := 131072 } ∧ ∃ t, step State.reset = .next t :=
  ⟨fun _ _ => rfl, replicate_at_most 256 (Nat.le_refl _), by unfold irLenInRange; decide, _, rfl⟩

theorem witness_StepCompletes :
    (nextEvent State.reset).1 ≠ .tickOverrun ∧ (nextEvent { State.reset with env := [.tickOverrun] }).1 = .tickOverrun := by
  decide

theorem witness_TicksAreCountedOrIgnored :
    nextEvent running = (.tick, running) ∧ (∃ t, step running = .next t) ∧ running.run = true ∧ running.rst = false ∧
      State.reset.run = false ∧
      nextEvent { running with env := [.busRead 2] } = (.busRead 2, running) ∧ EnvEvent.busRead 2 ≠ .tick ∧
      ¬resetEvent (.busRead 2) :=
  ⟨rfl, ⟨_, rfl⟩, rfl, rfl, rfl, rfl, by decide, fun h => h⟩

theorem witness_PendingBitsAreSticky :
    nextEvent { State.reset with irqPend := 0x10, env := [hostW 0x0C 0x0F] } =
        (hostW 0x0C 0x0F, { State.reset with irqPend := 0x10 }) ∧
      (∃ t, step { State.reset with irqPend := 0x10, env := [hostW 0x0C 0x0F] } = .next t) ∧
      (0x10#5).getLsbD 4 = true ∧ ¬resetEvent (hostW 0x0C 0x0F) ∧
      (∀ v : Word, hostW 0x0C 0x0F = hostW 0x0C v → v.getLsbD 4 = false) := by
  refine ⟨rfl, ⟨_, rfl⟩, by decide, ?_, ?_⟩
  · rintro ⟨h, -⟩
    exact absurd h (by decide)
  · intro v h
    have : (0x0F : Word) = v := by
      unfold hostW at h
      injection h
    rw [← this]
    decide

theorem witness_PendingBitsAreSticky_done :
    nextEvent { State.reset with done := 0x80, env := [hostW 0x3C 0x7F] } =
        (hostW 0x3C 0x7F, { State.reset with done := 0x80 }) ∧
      (∃ t, step { State.reset with done := 0x80, env := [hostW 0x3C 0x7F] } = .next t) ∧
      (0x80#8).getLsbD 7 = true ∧ ¬resetEvent (hostW 0x3C 0x7F) ∧
      (∀ v : Word, hostW 0x3C 0x7F = hostW 0x3C v → v.getLsbD 7 = false) ∧ State.reset.rst = false := by
  refine ⟨rfl, ⟨_, rfl⟩, by decide, ?_, ?_, rfl⟩
  · rintro ⟨h, -⟩
    exact absurd h (by decide)
  · intro v h
    have : (0x7F : Word) = v := by
      unfold hostW at h
      injection h
    rw [← this]
    decide

/-- One state for each clause: table 7; the last entry of a table; the first index past it; an active bank; LFO_WAVE. -/
theorem witness_TableAccessByHost :
    State.reset.rst = false ∧ (∀ t : TableId, t.num = (7#3).toNat → t.len ≤ (0#20).toNat) ∧
      (∀ t : TableId, t.num = (6#3).toNat → t.len ≤ (256#20).toNat) ∧
      TableId.lfoWave.num = (6#3).toNat ∧ (255#20).toNat < TableId.lfoWave.len ∧
      TableId.irR.num = (5#3).toNat ∧ (131071#20).toNat < TableId.irR.len ∧ TableId.irR ≠ .lfoWave := by
  refine ⟨rfl, fun t h => ?_, fun t h => ?_, by decide, by decide, by decide, by decide, by decide⟩
  · exact absurd h (Nat.ne_of_lt t.num_lt)
  · have : t = .lfoWave := TableId.num_inj h
    subst this
    decide

theorem witness_ActiveTablesAreStable :
    nextEvent State.reset = (.tick, State.reset) ∧ (∃ t, step State.reset = .next t) ∧ (∀ v, EnvEvent.tick ≠ hostW 0x24 v) ∧
      (∃ u, handleEvent (hostW 0x24 5) State.reset = .next u) ∧ TableId.irL ≠ .lfoWave ∧ 131071 < TableId.irL.len :=
  ⟨rfl, ⟨_, rfl⟩, by simp [hostW], ⟨_, rfl⟩, by decide, by decide⟩

theorem witness_SoftResetKeepsTables : State.reset.rst = false ∧ (0x80000007#32).getLsbD 31 = true := by decide

theorem witness_ResetLineHoldsReset :
    ({ State.reset with rst := true } : State).rst = true ∧ resetHeld { State.reset with rst := true } ∧
      State.reset.rst = false ∧ ∃ t, step { State.reset with rst := true } = .next t := ⟨rfl, fun _ => rfl, rfl, _, rfl⟩

theorem witness_UnmappedWordsReadZero : State.reset.rst = false ∧ 0x11 ≤ (0x11#6).toNat ∧ 0x11 ≤ (0x3F#6).toNat := by decide

theorem witness_RegisterReadsAndWrites :
    State.reset.rst = false ∧ fifoInRange State.reset ∧
      fifoInRange { State.reset with fifo := List.replicate 256 0 } ∧
      ({ State.reset with parSel := 0x633 } : State).parSel = (Param.file (.modsrc .tape)).id ∧
      ({ State.reset with parSel := 0x007 } : State).parSel = 0x007#12 ∧
      (∀ p : Param, p.id ≠ ({ State.reset with parSel := 0x00F } : State).parSel) ∧
      (0x7FFFFFFB#32).getLsbD 31 = false ∧ (0x7FFFFFFB#32).getLsbD 2 = false := by
  refine ⟨rfl, ?_, replicate_at_most 256 (Nat.le_refl _), by decide, rfl, (Param.ofId?_none_iff _).1 (by decide), by decide,
    by decide⟩
  simp [fifoInRange, State.reset]

end Sys2Proof.Tests
end

section
/-! The register file and the tick counter (10_state.md): the words above CONFIG, what changes SAMPLE_CNT, and the ticks
that are ignored. -/

namespace Sys2Proof.Machine

/-! ### The unmapped words (R48) -/

theorem registerWord_of_unmapped (s : State) {word : BitVec 6} (hw : 0x11 ≤ word.toNat) : registerWord s word = 0 := by
  obtain ⟨n, hn⟩ := Nat.exists_eq_add_of_le' hw
  unfold registerWord
  rw [hn]
  rfl

theorem writeRegister_of_unmapped (s : State) {word : BitVec 6} (v : Word) (hw : 0x11 ≤ word.toNat) :
    writeRegister word v s = s := by
  obtain ⟨n, hn⟩ := Nat.exists_eq_add_of_le' hw
  unfold writeRegister
  rw [hn]
  rfl

/-- Settles O59: the words past CONFIG fall to the last case of the register map, for reads and for writes. -/
theorem unmappedWordsReadZero : Obligations.UnmappedWordsReadZero := by
  unfold Obligations.UnmappedWordsReadZero
  intro s word v hrst hw
  have hne : word ≠ tblDataWord := by
    rintro rfl
    exact absurd hw (by decide)
  constructor
  · rw [handleEvent_busRead hrst hne, registerWord_of_unmapped s hw]
  · rw [handleEvent_busWrite hrst, writeRegister_of_unmapped s v hw]

/-! ### What changes SAMPLE_CNT (R37) -/

theorem exec_sampleCnt {i : Instr} {s t : State} (h : exec i s = .next t) : t.sampleCnt = s.sampleCnt := by
  obtain ⟨u, hu, hcases⟩ := exec_cases i s
  obtain rfl : u = t := Host.Outcome.next.inj (hu.symm.trans h)
  rcases hcases with rfl | ⟨code, hd, rfl⟩ | ⟨p, value, rfl⟩ | ⟨k, n, tech, -, rfl⟩ | ⟨target, rfl⟩ | ⟨mask, rfl⟩ |
    ⟨count, rfl⟩ | ⟨lmask, rfl⟩
  · rfl
  · exact cmdError_sampleCnt code hd s
  · exact setParam_sampleCnt p _ s
  · exact startVoice_sampleCnt k n tech s
  all_goals rfl

theorem commandPhase_sampleCnt (s : State) : ∃ t, commandPhase s = .next t ∧ t.sampleCnt = s.sampleCnt :=
  commandPhase_keeps (P := fun u => u.sampleCnt = s.sampleCnt) (fun _ _ h => h) (fun _ _ _ _ h => h)
    (fun _ _ _ he h => (exec_sampleCnt he).trans h) s rfl

@[simp] theorem finishTick_sampleCnt (s : State) : (finishTick s).sampleCnt = s.sampleCnt + 1 := by
  simp [finishTick, modPhase]

/-- A tick that is processed counts: RST is released and RUN is 1 (R37, R450 step 5). -/
theorem tickStrobe_sampleCnt {s : State} (hrun : s.run = true) (hrst : s.rst = false) :
    ∃ t, tickStrobe s = .next t ∧ t.sampleCnt = s.sampleCnt + 1 := by
  obtain ⟨u, hu, hcnt⟩ := commandPhase_sampleCnt s
  exact ⟨finishTick u, by simp [tickStrobe, runTick, hrun, hrst, hu], by rw [finishTick_sampleCnt, hcnt]⟩

@[simp] theorem readTblData_sampleCnt (s : State) : (readTblData s).2.sampleCnt = s.sampleCnt := by
  rcases readTblData_cases s with ⟨-, e⟩ | ⟨t, -, e⟩ <;> simp [e]

@[simp] theorem writeTblData_sampleCnt (v : Word) (s : State) : (writeTblData v s).sampleCnt = s.sampleCnt := by
  rcases writeTblData_cases v s with ⟨-, e⟩ | ⟨t, -, -, -, e⟩ | ⟨t, -, -, e⟩ <;> simp [e]

@[simp] theorem busRead_sampleCnt (word : BitVec 6) (s : State) : (busRead word s).sampleCnt = s.sampleCnt := by
  rcases busRead_cases word s with ⟨-, e⟩ | ⟨-, -, e⟩ | ⟨-, -, e⟩ <;> simp [e]

/-- Of the CTRL writes only SOFT_RESET changes the count (R31, R37). -/
theorem writeCtrl_sampleCnt {v : Word} (hv : v.getLsbD 31 = false) (s : State) :
    (writeCtrl v s).sampleCnt = s.sampleCnt := by
  rcases writeCtrl_cases v s with ⟨h31, -⟩ | ⟨-, -, e⟩ | ⟨-, -, e⟩
  · rw [hv] at h31
    cases h31
  · rw [e]
  · rw [e]

theorem writeRegister_sampleCnt {word : BitVec 6} {v : Word} (hno : ¬resetEvent (.busWrite word v)) (s : State) :
    (writeRegister word v s).sampleCnt = s.sampleCnt := by
  rcases writeRegister_cases word v s with ⟨hw, e⟩ | ⟨-, e⟩ | ⟨-, e⟩ | ⟨-, e⟩ | ⟨-, e⟩ | ⟨-, e⟩ | ⟨-, e⟩ | ⟨-, e⟩ | ⟨e, -⟩
  · have hv : v.getLsbD 31 = false := Bool.eq_false_iff.2 fun h31 => hno ⟨hw, h31⟩
    rw [e, writeCtrl_sampleCnt hv]
  all_goals simp [e]

theorem busWrite_sampleCnt {word : BitVec 6} {v : Word} (hno : ¬resetEvent (.busWrite word v)) (s : State) :
    (busWrite word v s).sampleCnt = s.sampleCnt := by
  unfold busWrite
  split
  · rfl
  · exact writeRegister_sampleCnt hno s

/-- No event but a TICK and a reset changes the count (R37). -/
theorem handleEvent_sampleCnt {e : EnvEvent} {s t : State} (h : handleEvent e s = .next t) (htick : e ≠ .tick)
    (hno : ¬resetEvent e) : t.sampleCnt = s.sampleCnt := by
  cases e with
  | tick => exact absurd rfl htick
  | busWrite word v => cases h; exact busWrite_sampleCnt hno s
  | busRead word => cases h; exact busRead_sampleCnt word s
  | driveVoice k v => cases h; exact driveVoice_sampleCnt k v s
  | driveChain v => cases h; exact driveChain_sampleCnt v s
  | driveRst level => exact absurd trivial hno
  | tickOverrun => cases h

/-! ### The next event -/

/-- Taking the next event off the list leaves every other field alone. -/
theorem eq_with_env_of_nextEvent {s s' : State} {e : EnvEvent} (h : nextEvent s = (e, s')) :
    s' = { s with env := s'.env } := by
  unfold nextEvent at h
  split at h <;> cases h <;> rfl

theorem step_of_nextEvent {s s' : State} {e : EnvEvent} (h : nextEvent s = (e, s')) : step s = handleEvent e s' := by
  unfold step worldStep
  rw [h]

/-! ### Ticks that are ignored (R73) -/

theorem handleEvent_tick_of_not_run {s : State} (hrun : s.run = false) : handleEvent .tick s = .next s := by
  simp [handleEvent, tickStrobe, hrun]

theorem portValue_of_not_run {s : State} (hrun : s.run = false) (held : Sample) : portValue s held = 0 := by
  simp [portValue, hrun]

/-- Settles O52: by the event that is handled. A processed tick ends in `countTick` after phases that leave the count alone;
with RUN = 0 the tick strobe returns the state it is given and the gated ports read 0. -/
theorem ticksAreCountedOrIgnored : Obligations.TicksAreCountedOrIgnored := by
  unfold Obligations.TicksAreCountedOrIgnored
  constructor
  · intro s s' t e hnext hstep
    rw [step_of_nextEvent hnext] at hstep
    have henv := eq_with_env_of_nextEvent hnext
    have hcnt : s'.sampleCnt = s.sampleCnt := by rw [henv]
    constructor
    · rintro rfl hrun hrst
      obtain ⟨u, hu, hucnt⟩ := tickStrobe_sampleCnt (s := s') (by rw [henv]; exact hrun) (by rw [henv]; exact hrst)
      obtain rfl : u = t := Host.Outcome.next.inj (hu.symm.trans hstep)
      rw [hucnt, hcnt]
    · intro htick hno
      rw [handleEvent_sampleCnt hstep htick hno, hcnt]
  · intro s hrun
    exact ⟨handleEvent_tick_of_not_run hrun, portValue_of_not_run hrun _, portValue_of_not_run hrun _,
      portValue_of_not_run hrun _, fun _ => rfl⟩

end Sys2Proof.Machine
end

section
/-! Table access by the host (20_memory.md): what a TBL_DATA access does outside a table, in an active bank and elsewhere. -/

namespace Sys2Proof.Machine

/-! ### The bank an access addresses (R123) -/

theorem TableId.banked_iff {t : TableId} : t.banked = true ↔ t ≠ .lfoWave := by
  cases t <;> simp [TableId.banked]

theorem selectedBank_eq_ite (s : State) (t : TableId) :
    selectedBank s t = if t = .lfoWave then false else if s.tblBankSel then activeBank s t else !(activeBank s t) := by
  cases t <;> simp [selectedBank]

@[simp] theorem tableRead_advanceIndex (s : State) (t : TableId) (b : Bool) (i : Nat) :
    tableRead (advanceIndex s) t b i = tableRead s t b i := rfl

/-! ### The registers' side: both accesses reach the table operations of R124 and R125 -/

theorem handleEvent_hostR_tblData {s : State} (hrst : s.rst = false) :
    handleEvent (hostR 0x24) s = .next { (readTblData s).2 with rdata := (readTblData s).1 } := by
  rcases busRead_cases tblDataWord s with ⟨h, -⟩ | ⟨-, -, e⟩ | ⟨-, hne, -⟩
  · exact absurd h (by simp [hrst])
  · exact congrArg _ e
  · exact absurd rfl hne

theorem handleEvent_hostW_tblData {s : State} (hrst : s.rst = false) (v : Word) :
    handleEvent (hostW 0x24 v) s = .next (writeTblData v s) :=
  handleEvent_busWrite hrst tblDataWord v

/-! ### An access outside the table -/

section Outside
variable {s : State} (hnone : selectedTable? s = none)
include hnone

theorem readTblData_of_outside : readTblData s = (0, advanceIndex (withTableError .tblBadAddr (tblAddrWord s) s)) := by
  rw [readTblData, hnone]
  rfl

theorem writeTblData_of_outside (v : Word) :
    writeTblData v s = advanceIndex (withTableError .tblBadAddr (tblAddrWord s) s) := by
  rw [writeTblData, hnone]
  rfl

end Outside

/-! ### An access of an entry -/

section Inside
variable {s : State} {t : TableId} (hsome : selectedTable? s = some t)
include hsome

theorem readTblData_of_selected :
    readTblData s = ((tableRead s t (selectedBank s t) s.tblIndex.toNat).signExtend 32, advanceIndex s) := by
  rw [readTblData, hsome]

theorem writeTblData_of_active (v : Word) (hbank : t ≠ .lfoWave) (hsel : s.tblBankSel = true) :
    writeTblData v s = advanceIndex (withTableError .tblActiveWrite (tblAddrWord s) s) := by
  simp only [writeTblData, hsome, TableId.banked_iff.2 hbank, hsel]
  rfl

theorem writeTblData_of_writable (v : Word) (hw : t = .lfoWave ∨ s.tblBankSel = false) :
    writeTblData v s =
      advanceIndex (tableWrite s t (selectedBank s t) s.tblIndex.toNat (v.extractLsb' 0 24)) := by
  have hcond : (t.banked && s.tblBankSel) = false := by
    rcases hw with rfl | hsel
    · rfl
    · rw [hsel, Bool.and_false]
  simp [writeTblData, hsome, hcond]

end Inside

/-- Settles O54: by whether TBL_ADDR selects a table, and for a write whether the addressed bank may be written. -/
theorem tableAccessByHost : Obligations.TableAccessByHost := by
  unfold Obligations.TableAccessByHost
  intro s v hrst
  rw [handleEvent_hostR_tblData hrst, handleEvent_hostW_tblData hrst]
  constructor
  · intro hout
    have hnone := selectedTable?_eq_none.2 hout
    rw [readTblData_of_outside hnone, writeTblData_of_outside hnone]
    exact ⟨rfl, rfl⟩
  · intro t b hnum hidx hb
    have hsome := selectedTable?_eq_some.2 ⟨hnum, hidx⟩
    obtain rfl : b = selectedBank s t := hb.trans (selectedBank_eq_ite s t).symm
    refine ⟨?_, fun hbank hsel => ?_, fun hw => ⟨_, rfl, ?_⟩⟩
    · rw [readTblData_of_selected hsome]
      rfl
    · rw [writeTblData_of_active hsome v hbank hsel]
      rfl
    · rw [writeTblData_of_writable hsome v hw]
      refine ⟨?_, fun t' b' i hi hne => ?_, rfl, rfl⟩
      · rw [tableRead_advanceIndex, tableRead_write_self]
      · rw [tableRead_advanceIndex]
        exact tableRead_write_ne s _ (hidx.trans_le t.len_le) (hi.trans_le t'.len_le) hne

end Sys2Proof.Machine
end

section
/-! The opcode map (30_encoding.md): the fields that each row's mask fixes, and the headers that decode to each row's
command. -/

namespace Sys2Proof

/-! ### A word and its fields -/

theorem extractLsb'_extractLsb' {w n m k : Nat} (x : BitVec w) (a : Nat) (h : k + m ≤ n) :
    (x.extractLsb' a n).extractLsb' k m = x.extractLsb' (a + k) m := by
  ext i hi
  simp [show k + i < n by omega, Nat.add_assoc]

theorem eq_append_iff {n m : Nat} {x : BitVec (n + m)} {hi : BitVec n} {lo : BitVec m} :
    x = hi ++ lo ↔ x.extractLsb' m n = hi ∧ x.extractLsb' 0 m = lo := by
  constructor
  · rintro rfl
    exact ⟨BitVec.extractLsb'_append_eq_left, BitVec.extractLsb'_append_eq_right⟩
  · rintro ⟨rfl, rfl⟩
    rw [BitVec.extractLsb'_append_extractLsb'_eq_extractLsb' (Nat.zero_add m).symm, BitVec.extractLsb'_eq_self]

/-- A masked comparison compares the two parts of the word separately. -/
theorem and_eq_iff_of_append {n m : Nat} {x mask value : BitVec (n + m)} {hiMask hi : BitVec n} {loMask lo : BitVec m}
    (hmask : mask = hiMask ++ loMask) (hvalue : value = hi ++ lo) :
    x &&& mask = value ↔ x.extractLsb' m n &&& hiMask = hi ∧ x.extractLsb' 0 m &&& loMask = lo := by
  subst hmask hvalue
  rw [eq_append_iff, BitVec.extractLsb'_and, BitVec.extractLsb'_and, BitVec.extractLsb'_append_eq_left,
    BitVec.extractLsb'_append_eq_right]

/-! ### The rows' masks (R163) -/

/-- A mask that fixes the opcode, the `r` reserved bits below it and the bits `loMask` of the `l` bits that are left. -/
theorem and_eq_match_iff {r l : Nat} {h mask value : BitVec (4 + r + l)} {op : BitVec 4} {loMask : BitVec l}
    (hmask : mask = BitVec.allOnes (4 + r) ++ loMask) (hvalue : value = op ++ 0#r ++ 0#l) :
    h &&& mask = value ↔
      h.extractLsb' (l + r) 4 = op ∧ h.extractLsb' l r = 0#r ∧ h.extractLsb' 0 l &&& loMask = 0#l := by
  rw [and_eq_iff_of_append hmask hvalue, BitVec.and_allOnes, eq_append_iff,
    extractLsb'_extractLsb' h l (Nat.add_comm r 4).le, extractLsb'_extractLsb' h l (by omega), Nat.add_zero, and_assoc]

/-- The rows whose mask leaves all of the `l` bits free. -/
theorem and_eq_match_iff_of_free {r l : Nat} {h mask value : BitVec (4 + r + l)} {op : BitVec 4}
    (hmask : mask = BitVec.allOnes (4 + r) ++ 0#l) (hvalue : value = op ++ 0#r ++ 0#l) :
    h &&& mask = value ↔ h.extractLsb' (l + r) 4 = op ∧ h.extractLsb' l r = 0#r := by
  rw [and_eq_match_iff hmask hvalue, BitVec.and_zero, eq_self, and_true]

section Rows
variable {h v : Word} {rest : List Word} {i : Instr}

theorem and_nopMask_iff : h &&& 0xFFFFFFFF#32 = 0x00000000#32 ↔ opcodeOf h = 0x0#4 ∧ h.extractLsb' 0 28 = 0#28 :=
  and_eq_match_iff_of_free (r := 28) (l := 0) (by decide) (by decide)

theorem and_setpMask_iff : h &&& 0xFFFFF000#32 = 0x10000000#32 ↔ opcodeOf h = opcodeSetp ∧ h.extractLsb' 12 16 = 0#16 :=
  and_eq_match_iff_of_free (r := 16) (l := 12) (by decide) (by decide)

theorem and_noteOnMask_iff : h &&& 0xFFFFF000#32 = 0x20000000#32 ↔ opcodeOf h = 0x2#4 ∧ h.extractLsb' 12 16 = 0#16 :=
  and_eq_match_iff_of_free (r := 16) (l := 12) (by decide) (by decide)

/-- RELEASE has a second reserved field, between its two operands. -/
theorem and_releaseMask_iff : h &&& 0xFFFFFEF0#32 = 0x30000000#32 ↔
    opcodeOf h = 0x3#4 ∧ h.extractLsb' 9 19 = 0#19 ∧ h.extractLsb' 4 4 = 0#4 := by
  have hlow : h.extractLsb' 0 9 &&& 0x0F0#9 = 0#9 ↔ h.extractLsb' 4 4 = 0#4 := by
    rw [and_eq_iff_of_append (n := 1) (m := 8) (hiMask := 0#1) (hi := 0#1) (loMask := 0xF0#8) (lo := 0#8) (by decide)
      (by decide), and_eq_iff_of_append (n := 4) (m := 4) (hiMask := BitVec.allOnes 4) (hi := 0#4) (loMask := 0#4)
      (lo := 0#4) (by decide) (by decide), extractLsb'_extractLsb' h _ (by decide), extractLsb'_extractLsb' h _ (by decide),
      BitVec.and_allOnes]
    simp
  exact (and_eq_match_iff (r := 19) (l := 9) (by decide) (by decide)).trans (and_congr_right' (and_congr_right' hlow))

theorem and_swapMask_iff : h &&& 0xFFFFFFE0#32 = 0x40000000#32 ↔ opcodeOf h = 0x4#4 ∧ h.extractLsb' 5 23 = 0#23 :=
  and_eq_match_iff_of_free (r := 23) (l := 5) (by decide) (by decide)

theorem and_waitMask_iff : h &&& 0xFF000000#32 = 0x50000000#32 ↔ opcodeOf h = 0x5#4 ∧ h.extractLsb' 24 4 = 0#4 :=
  and_eq_match_iff_of_free (r := 4) (l := 24) (by decide) (by decide)

theorem and_syncMask_iff : h &&& 0xFFFFFFF8#32 = 0x60000000#32 ↔ opcodeOf h = 0x6#4 ∧ h.extractLsb' 3 25 = 0#25 :=
  and_eq_match_iff_of_free (r := 25) (l := 3) (by decide) (by decide)

/-! ### What decodes to a row's command (R160, R161) -/

theorem decode_of_opcodeSetp (ho : opcodeOf h = opcodeSetp) : decode (h :: v :: rest) = .ok (decodeSetp h v, rest) :=
  if_pos ho

theorem decode_of_opcode_ne_setp (ho : opcodeOf h ≠ opcodeSetp) : decode (h :: rest) = .ok (decodeOneWord h, rest) :=
  if_neg ho

theorem decode_eq_setp_iff {rsv : BitVec 16} {pid : BitVec 12} :
    decode (h :: v :: rest) = .ok (.setp rsv pid v, rest) ↔
      opcodeOf h = opcodeSetp ∧ h.extractLsb' 12 16 = rsv ∧ h.extractLsb' 0 12 = pid := by
  by_cases ho : opcodeOf h = opcodeSetp
  · simp [ho, decode_of_opcodeSetp, decodeSetp]
  · simp [ho, decode_of_opcode_ne_setp]

/-- The header has the opcode of the command, a command of one word, and the command's fields in their places (R161). -/
def hasFormOf (h : Word) : Instr → Prop
  | .nop rsv => opcodeOf h = 0x0#4 ∧ h.extractLsb' 0 28 = rsv
  | .setp _ _ _ => False
  | .noteOn rsv tech str slot => opcodeOf h = 0x2#4 ∧ h.extractLsb' 12 16 = rsv ∧ h.extractLsb' 8 4 = tech ∧
      h.extractLsb' 4 4 = str ∧ h.extractLsb' 0 4 = slot
  | .release rsvHi bySlot rsvLo tgt => opcodeOf h = 0x3#4 ∧ h.extractLsb' 9 19 = rsvHi ∧ h.extractLsb' 8 1 = bySlot ∧
      h.extractLsb' 4 4 = rsvLo ∧ h.extractLsb' 0 4 = tgt
  | .swap rsv mask => opcodeOf h = 0x4#4 ∧ h.extractLsb' 5 23 = rsv ∧ h.extractLsb' 0 5 = mask
  | .wait rsv count => opcodeOf h = 0x5#4 ∧ h.extractLsb' 24 4 = rsv ∧ h.extractLsb' 0 24 = count
  | .sync rsv lmask => opcodeOf h = 0x6#4 ∧ h.extractLsb' 3 25 = rsv ∧ h.extractLsb' 0 3 = lmask
  | .illegal7 rest => opcodeOf h = 0x7#4 ∧ h.extractLsb' 0 28 = rest
  | .illegalHi rest => 8 ≤ (opcodeOf h).toNat ∧ h.extractLsb' 0 31 = rest

theorem hasFormOf_decodeOneWord (ho : opcodeOf h ≠ opcodeSetp) : hasFormOf h (decodeOneWord h) := by
  rw [Ne, ← BitVec.toNat_inj] at ho
  unfold decodeOneWord
  split <;> simp_all [hasFormOf, ← BitVec.toNat_inj]
  omega

/-- A header has the form of one command only. -/
theorem hasFormOf.unique {j : Instr} (hi : hasFormOf h i) (hj : hasFormOf h j) : i = j := by
  cases i <;> cases j <;> simp_all [hasFormOf]

theorem hasFormOf.opcode_ne_setp (hi : hasFormOf h i) : opcodeOf h ≠ opcodeSetp := by
  intro ho
  cases i <;> simp [hasFormOf, ho, opcodeSetp] at hi

/-- One word is read exactly where the header has the command's form: a SETP header alone is no command, and with its
payload it leaves fewer words. -/
theorem decode_cons_eq_ok_iff : decode (h :: rest) = .ok (i, rest) ↔ hasFormOf h i := by
  by_cases ho : opcodeOf h = opcodeSetp
  · have hnot : ¬hasFormOf h i := fun hi => hi.opcode_ne_setp ho
    cases rest with
    | nil => simp [ho, hnot, decode]
    | cons v rest => simp [ho, hnot, decode_of_opcodeSetp]
  · rw [decode_of_opcode_ne_setp ho]
    constructor
    · rintro ⟨⟩
      exact hasFormOf_decodeOneWord ho
    · intro hi
      rw [(hasFormOf_decodeOneWord ho).unique hi]

end Rows

/-- Settles O3: a row's mask fixes the opcode and the reserved fields, which are what decides that the header decodes to the
row's command with those fields zero; the operands are then the header's own. -/
theorem opcodeMapSelects : Obligations.OpcodeMapSelects := by
  unfold Obligations.OpcodeMapSelects
  intro h v rest
  simp only [decode_cons_eq_ok_iff]
  refine ⟨?nop, ?setp, ?noteOn, ?release, ?swap, ?wait, ?sync, ?illegal⟩
  case nop => exact and_nopMask_iff
  case setp => simp [and_setpMask_iff, decode_eq_setp_iff]
  case noteOn => simp [and_noteOnMask_iff, hasFormOf]
  case release => simp [and_releaseMask_iff, hasFormOf]
  case swap => simp [and_swapMask_iff, hasFormOf]
  case wait => simp [and_waitMask_iff, hasFormOf]
  case sync => simp [and_syncMask_iff, hasFormOf]
  case illegal =>
    constructor
    · intro hop
      rcases hop.eq_or_lt with h7 | h8
      · exact ⟨.illegal7 _, trivial, BitVec.eq_of_toNat_eq h7.symm, rfl⟩
      · exact ⟨.illegalHi _, trivial, h8, rfl⟩
    · rintro ⟨i, hill, hform⟩
      cases i with
      | illegal7 bits =>
        obtain ⟨hop, -⟩ := hform
        exact (congrArg BitVec.toNat hop).ge
      | illegalHi bits =>
        obtain ⟨hop, -⟩ := hform
        exact Nat.le_of_succ_le hop
      | _ => exact hill.elim

end Sys2Proof
end

section
/-! The order of a command's checks (R165): the operand checks as ranges of field values, the outcome of the first failing
check, and that every command reports exactly that. -/

namespace Sys2Proof.Machine

/-! ### The operand checks as ranges (R162) -/

theorem techOperand?_eq_none {f : BitVec 4} : techOperand? f = none ↔ f.toNat > 4 := by decide +revert

theorem strOperand?_eq_none {f : BitVec 4} : strOperand? f = none ↔ f.toNat > 3 := by decide +revert

theorem slotOperand?_eq_none {f : BitVec 4} : slotOperand? f = none ↔ f.toNat > 7 := by decide +revert

theorem slotOperand?_eq_some {f : BitVec 4} {k : SlotId} : slotOperand? f = some k ↔ k.num = f.toNat := by
  constructor
  · exact SlotId.num_of_ofNum?
  · intro h
    rw [slotOperand?, ← h, SlotId.ofNum?_num]

theorem releaseOperand?_eq_none {rsvHi : BitVec 19} {bySlot : BitVec 1} {rsvLo tgt : BitVec 4} :
    releaseOperand? bySlot tgt = none ↔ operandInvalid (.release rsvHi bySlot rsvLo tgt) := by
  unfold releaseOperand? operandInvalid
  rcases BitVec.eq_zero_or_eq_one bySlot with rfl | rfl
  · simp [strOperand?_eq_none]
  · simp [slotOperand?_eq_none]

theorem noteOnOperand?_eq_none {rsv : BitVec 16} {tech str slot : BitVec 4} :
    techOperand? tech = none ∨ strOperand? str = none ∨ slotOperand? slot = none ↔
      operandInvalid (.noteOn rsv tech str slot) := by
  rw [techOperand?_eq_none, strOperand?_eq_none, slotOperand?_eq_none, operandInvalid]

theorem slotBusy_noteOn_iff {s : State} {rsv : BitVec 16} {tech str slot : BitVec 4} {k : SlotId}
    (hk : slotOperand? slot = some k) :
    slotBusy s (.noteOn rsv tech str slot) ↔ (s.slots.get k).st ≠ .idle := by
  constructor
  · rintro ⟨j, hj, hbusy⟩
    obtain rfl : j = k := Option.some.inj ((slotOperand?_eq_some.2 hj).symm.trans hk)
    exact hbusy
  · exact fun hbusy => ⟨k, slotOperand?_eq_some.1 hk, hbusy⟩

/-! ### The first failing check (R165) -/

open Classical in
/-- The code of the first check that the command fails in the state, in the order of R165; `none` where it fails none. -/
noncomputable def firstError (s : State) (i : Instr) : Option ErrCode :=
  if opcodeIllegal i then some .illegalOp
  else if i.wellFormed = false then some .reserved
  else if paramInvalid i then some .badParam
  else if operandInvalid i then some .badOperand
  else if slotBusy s i then some .slotBusy
  else none

section Order
variable {s : State} {i : Instr}

/-- An illegal opcode has no other check. -/
theorem not_opcodeIllegal_of_check
    (h : i.wellFormed = false ∨ paramInvalid i ∨ operandInvalid i ∨ slotBusy s i) : ¬opcodeIllegal i := by
  cases i <;> simp_all [opcodeIllegal, Instr.wellFormed, paramInvalid, operandInvalid, slotBusy]

/-- The parameter check is SETP's, the operand and slot checks are those of NOTE_ON and RELEASE. -/
theorem not_paramInvalid_of_check (h : operandInvalid i ∨ slotBusy s i) : ¬paramInvalid i := by
  cases i <;> simp_all [paramInvalid, operandInvalid, slotBusy]

theorem firstError_of_opcodeIllegal (h : opcodeIllegal i) : firstError s i = some .illegalOp := if_pos h

theorem firstError_of_reserved (h : i.wellFormed = false) : firstError s i = some .reserved := by
  simp [firstError, h, not_opcodeIllegal_of_check (s := s) (.inl h)]

theorem firstError_of_paramInvalid (hwf : i.wellFormed = true) (h : paramInvalid i) :
    firstError s i = some .badParam := by
  simp [firstError, hwf, h, not_opcodeIllegal_of_check (s := s) (.inr (.inl h))]

theorem firstError_of_operandInvalid (hwf : i.wellFormed = true) (h : operandInvalid i) :
    firstError s i = some .badOperand := by
  simp [firstError, hwf, h, not_opcodeIllegal_of_check (s := s) (.inr (.inr (.inl h))),
    not_paramInvalid_of_check (s := s) (.inl h)]

theorem firstError_of_slotBusy (hwf : i.wellFormed = true) (hop : ¬operandInvalid i) (h : slotBusy s i) :
    firstError s i = some .slotBusy := by
  simp [firstError, hwf, hop, h, not_opcodeIllegal_of_check (.inr (.inr (.inr h))), not_paramInvalid_of_check (.inr h)]

theorem firstError_eq_none (hill : ¬opcodeIllegal i) (hwf : i.wellFormed = true) (hpar : ¬paramInvalid i)
    (hop : ¬operandInvalid i) (hbusy : ¬slotBusy s i) : firstError s i = none := by
  simp [firstError, hill, hwf, hpar, hop, hbusy]

/-! ### Every command reports its first failing check -/

/-- `t` has the error recorded and is otherwise the state `s`; without an error its error record is that of `s`. -/
def reports (s : State) (i : Instr) (t : State) : Option ErrCode → Prop
  | some code => t = withCommandError code (headerOf i) s
  | none => t.errCode = s.errCode ∧ t.errInfo = s.errInfo ∧ t.irqPend = s.irqPend

theorem exec_reports_of_error {code : ErrCode} (he : exec i s = .next (cmdError code (headerOf i) s))
    (hfirst : firstError s i = some code) : ∃ t, exec i s = .next t ∧ reports s i t (firstError s i) :=
  ⟨_, he, by rw [hfirst]; rfl⟩

theorem exec_reports_of_none {t : State} (he : exec i s = .next t) (hfirst : firstError s i = none)
    (hframe : t.errCode = s.errCode ∧ t.errInfo = s.errInfo ∧ t.irqPend = s.irqPend) :
    ∃ t, exec i s = .next t ∧ reports s i t (firstError s i) :=
  ⟨t, he, by rw [hfirst]; exact hframe⟩
end Order

theorem exec_reports_firstError (i : Instr) (s : State) :
    ∃ t, exec i s = .next t ∧ reports s i t (firstError s i) := by
  cases i with
  | nop rsv =>
    rcases execNop_cases rsv s with ⟨hrsv, e⟩ | ⟨rfl, e⟩
    · exact exec_reports_of_error e (firstError_of_reserved (beq_false_of_ne hrsv))
    · exact exec_reports_of_none e (firstError_eq_none id rfl id id id) ⟨rfl, rfl, rfl⟩
  | setp rsv pid value =>
    rcases execSetp_cases rsv pid value s with ⟨hrsv, e⟩ | ⟨rfl, hpid, e⟩ | ⟨p, rfl, hpid, e⟩
    · exact exec_reports_of_error e (firstError_of_reserved (beq_false_of_ne hrsv))
    · exact exec_reports_of_error e (firstError_of_paramInvalid rfl ((Param.ofId?_none_iff pid).1 hpid))
    · have hvalid : ¬paramInvalid (.setp 0 pid value) := fun hbad => hbad p (Param.id_of_ofId? hpid)
      exact exec_reports_of_none e (firstError_eq_none id rfl hvalid id id) (by simp)
  | noteOn rsv tech str slot =>
    rcases execNoteOn_cases rsv tech str slot s with ⟨hrsv, e⟩ | ⟨rfl, hop, e⟩ | ⟨t, n, k, rfl, ht, hn, hk, hslot⟩
    · exact exec_reports_of_error e (firstError_of_reserved (beq_false_of_ne hrsv))
    · exact exec_reports_of_error e (firstError_of_operandInvalid rfl (noteOnOperand?_eq_none.1 hop))
    · have hvalid : ¬operandInvalid (.noteOn 0 tech str slot) := by
        rw [← noteOnOperand?_eq_none]
        simp [ht, hn, hk]
      rcases hslot with ⟨hbusy, e⟩ | ⟨hidle, e⟩
      · exact exec_reports_of_error e (firstError_of_slotBusy rfl hvalid ((slotBusy_noteOn_iff hk).2 hbusy))
      · have hfree : ¬slotBusy s (.noteOn 0 tech str slot) := fun hbusy => (slotBusy_noteOn_iff hk).1 hbusy hidle
        exact exec_reports_of_none e (firstError_eq_none id rfl id hvalid hfree) (by simp)
  | release rsvHi bySlot rsvLo tgt =>
    rcases execRelease_cases rsvHi bySlot rsvLo tgt s with ⟨hrsv, e⟩ | ⟨rfl, rfl, hop, e⟩ | ⟨t, rfl, rfl, hop, e⟩
    · have hbad : (Instr.release rsvHi bySlot rsvLo tgt).wellFormed = false := by
        simpa only [Instr.wellFormed, Bool.and_eq_false_iff, beq_eq_false_iff_ne] using hrsv
      exact exec_reports_of_error e (firstError_of_reserved hbad)
    · exact exec_reports_of_error e (firstError_of_operandInvalid rfl (releaseOperand?_eq_none.1 hop))
    · have hvalid : ¬operandInvalid (.release 0 bySlot 0 tgt) := by simp [← releaseOperand?_eq_none, hop]
      exact exec_reports_of_none e (firstError_eq_none id rfl id hvalid id) ⟨rfl, rfl, rfl⟩
  | swap rsv mask =>
    rcases execSwap_cases rsv mask s with ⟨hrsv, e⟩ | ⟨rfl, e⟩
    · exact exec_reports_of_error e (firstError_of_reserved (beq_false_of_ne hrsv))
    · exact exec_reports_of_none e (firstError_eq_none id rfl id id id) ⟨rfl, rfl, rfl⟩
  | wait rsv count =>
    rcases execWait_cases rsv count s with ⟨hrsv, e⟩ | ⟨rfl, e⟩
    · exact exec_reports_of_error e (firstError_of_reserved (beq_false_of_ne hrsv))
    · exact exec_reports_of_none e (firstError_eq_none id rfl id id id) ⟨rfl, rfl, rfl⟩
  | sync rsv lmask =>
    rcases execSync_cases rsv lmask s with ⟨hrsv, e⟩ | ⟨rfl, e⟩
    · exact exec_reports_of_error e (firstError_of_reserved (beq_false_of_ne hrsv))
    · exact exec_reports_of_none e (firstError_eq_none id rfl id id id) ⟨rfl, rfl, rfl⟩
  | illegal7 rest => exact exec_reports_of_error rfl (firstError_of_opcodeIllegal trivial)
  | illegalHi rest => exact exec_reports_of_error rfl (firstError_of_opcodeIllegal trivial)

/-- Settles O20: every command reports `firstError`, and each clause's hypotheses say which check that is. -/
theorem firstErrorReported : Obligations.FirstErrorReported := by
  unfold Obligations.FirstErrorReported
  intro i s
  obtain ⟨t, ht, hreports⟩ := exec_reports_firstError i s
  refine ⟨t, ht, fun hill => ?_, fun hwf => ?_, fun hwf hpar => ?_, fun hwf hop => ?_, fun hwf hop hbusy => ?_,
    fun hill hwf hpar hop hbusy => ?_⟩
  · rwa [firstError_of_opcodeIllegal hill] at hreports
  · rwa [firstError_of_reserved hwf] at hreports
  · rwa [firstError_of_paramInvalid hwf hpar] at hreports
  · rwa [firstError_of_operandInvalid hwf hop] at hreports
  · rwa [firstError_of_slotBusy hwf hop hbusy] at hreports
  · rwa [firstError_eq_none hill hwf hpar hop hbusy] at hreports

end Sys2Proof.Machine
end

section
/-! The command port and the command engine (40_commands.md): a push and a flush of the FIFO, the equations of the command
phase, a SETP whose payload is missing, and the headers that are NOP or illegal. -/

namespace Sys2Proof.Machine

/-! ### The FIFO's host side (R201, R203) -/

theorem pushCmd_of_room {s : State} (v : Word) (h : s.fifo.length < 256) :
    pushCmd v s = { s with fifo := s.fifo ++ [v] } :=
  if_pos h

theorem pushCmd_of_full {s : State} (v : Word) (h : 256 ≤ s.fifo.length) :
    pushCmd v s = { s with irqPend := s.irqPend ||| irqFifoOvf } :=
  if_neg h.not_gt

theorem handleEvent_hostCmd {s : State} (hrst : s.rst = false) (v : Word) :
    handleEvent (hostCmd v) s = .next (pushCmd v s) :=
  handleEvent_busWrite hrst 5#6 v

theorem handleEvent_hostW_ctrl {s : State} (hrst : s.rst = false) (v : Word) :
    handleEvent (hostW 0x04 v) s = .next (writeCtrl v s) :=
  handleEvent_busWrite hrst 1#6 v

/-- Settles O9: a CMD write is a push, and a push asks only whether the FIFO has room. -/
theorem pushAppendsWord : Obligations.PushAppendsWord := by
  unfold Obligations.PushAppendsWord
  intro s v hrst
  rw [handleEvent_hostCmd hrst]
  exact ⟨fun hroom => congrArg _ (pushCmd_of_room v hroom), fun hfull => congrArg _ (pushCmd_of_full v hfull)⟩

/-- Settles O10: bits 31 and 2 of the word leave one of the three cases of a CTRL write. -/
theorem flushEmptiesFifo : Obligations.FlushEmptiesFifo := by
  unfold Obligations.FlushEmptiesFifo
  intro s v hrst hflush hnoreset
  rw [handleEvent_hostW_ctrl hrst]
  rcases writeCtrl_cases v s with ⟨hreset, -⟩ | ⟨-, -, e⟩ | ⟨-, hnoflush, -⟩
  · exact absurd (hnoreset.symm.trans hreset) Bool.false_ne_true
  · rw [e]
  · exact absurd (hnoflush.symm.trans hflush) Bool.false_ne_true

/-! ### The command phase (R204) -/

section Engine
variable {s t : State} {i : Instr} {rest : List Word}

/-- The phase ends where no command can be read. -/
theorem runCommands_of_decode_error {e : DecodeError} (hd : decode s.fifo = .error e) (n : Nat) :
    runCommands n s = .next s := by
  cases n with
  | zero => rfl
  | succ n => simp [runCommands, fetch, hd]

/-- A command that leaves the wait counter at 0 uses up one of the burst. -/
theorem runCommands_succ_of_exec (hd : decode s.fifo = .ok (i, rest)) (he : exec i { s with fifo := rest } = .next t)
    (hwait : t.wait = 0) (n : Nat) : runCommands (n + 1) s = runCommands n t := by
  simp [runCommands, fetch, hd, he, hwait]

theorem commandPhase_of_wait_le_one (hwait : s.wait.toNat ≤ 1) :
    commandPhase s = runCommands 16 { s with wait := 0 } :=
  if_neg hwait.not_gt

end Engine

/-! ### A SETP and its payload (R202) -/

theorem cmdPayload_of_lone_setp {s : State} {h : Word} (hfifo : s.fifo = [h]) (hop : opcodeOf h = opcodeSetp) :
    cmdPayload s = true := by
  simp [cmdPayload, hfifo, hop]

theorem decode_lone_setp {h : Word} (hop : opcodeOf h = opcodeSetp) : decode [h] = .error .payloadMissing :=
  if_pos hop

/-- A SETP ends in a next state and leaves the command engine alone, with or without an error. -/
theorem exec_setp_fifo_wait (rsv : BitVec 16) (pid : BitVec 12) (value : Word) (s : State) :
    ∃ t, exec (.setp rsv pid value) s = .next t ∧ t.fifo = s.fifo ∧ t.wait = s.wait := by
  rcases execSetp_cases rsv pid value s with ⟨-, e⟩ | ⟨-, -, e⟩ | ⟨p, -, -, e⟩
  · exact ⟨_, e, by simp⟩
  · exact ⟨_, e, by simp⟩
  · exact ⟨_, e, by simp⟩

/-- Settles O7: the header alone decodes to no command, which ends the phase at once; with the payload the SETP empties the
FIFO, which ends the phase after it. -/
theorem setpWaitsForPayload : Obligations.SetpWaitsForPayload := by
  unfold Obligations.SetpWaitsForPayload
  intro s h v hfifo hop hwait
  refine ⟨cmdPayload_of_lone_setp hfifo hop, ?alone, ?withPayload⟩
  case alone =>
    have hdecode : decode ({ s with wait := 0 } : State).fifo = .error .payloadMissing := by
      simpa only [hfifo] using decode_lone_setp hop
    rw [commandPhase_of_wait_le_one hwait, runCommands_of_decode_error hdecode]
  case withPayload =>
    obtain ⟨t, hexec, hempty, hzero⟩ :=
      exec_setp_fifo_wait (h.extractLsb' 12 16) (h.extractLsb' 0 12) v { s with fifo := [], wait := 0 }
    have hdone : decode t.fifo = .error .noWord := by
      rw [hempty]
      rfl
    calc commandPhase { s with fifo := [h, v] }
      _ = runCommands 16 { s with fifo := [h, v], wait := 0 } := commandPhase_of_wait_le_one hwait
      _ = runCommands 15 t := runCommands_succ_of_exec (decode_of_opcodeSetp hop) hexec hzero 15
      _ = .next t := runCommands_of_decode_error hdone 15
      _ = exec (decodeSetp h v) { s with fifo := [], wait := 0 } := hexec.symm

/-! ### NOP (R211) -/

theorem sameMemory_refl (s : State) : sameMemory s s :=
  ⟨fun _ _ _ => rfl, fun _ _ _ => rfl, fun _ _ => rfl⟩

theorem decode_nop (rest : List Word) : decode (0x00000000#32 :: rest) = .ok (.nop 0, rest) :=
  decode_cons_eq_ok_iff.2 ⟨by decide, by decide⟩

theorem exec_nop (s : State) : exec (.nop 0) s = .next s := rfl

theorem exec_nop_of_reserved {rsv : BitVec 28} (hrsv : rsv ≠ 0) (s : State) :
    exec (.nop rsv) s = .next (withCommandError .reserved (headerOf (.nop rsv)) s) :=
  if_pos hrsv

/-- Settles O11: the zero header is NOP by its opcode and field, and NOP gives back the state it is given. -/
theorem nopDoesNothing : Obligations.NopDoesNothing := by
  unfold Obligations.NopDoesNothing
  refine ⟨decode_nop, fun s => ⟨exec_nop s, sameMemory_refl s⟩, ?burst, fun _ s hrsv => exec_nop_of_reserved hrsv s⟩
  case burst =>
    intro n s rest hwait hfifo
    have hdecode : decode s.fifo = .ok (.nop 0, rest) := hfifo ▸ decode_nop rest
    exact runCommands_succ_of_exec hdecode (exec_nop _) hwait n

/-! ### Illegal opcodes (R217) -/

theorem hasFormOf_headerOf_illegal7 (rest : BitVec 28) : hasFormOf (headerOf (.illegal7 rest)) (.illegal7 rest) :=
  ⟨BitVec.extractLsb'_append_eq_left, BitVec.extractLsb'_append_eq_right⟩

theorem hasFormOf_headerOf_illegalHi (rest : BitVec 31) : hasFormOf (headerOf (.illegalHi rest)) (.illegalHi rest) := by
  refine ⟨?_, BitVec.extractLsb'_append_eq_right⟩
  rw [opcodeOf_toNat, headerOf_illegalHi]
  omega

theorem exec_of_opcodeIllegal {i : Instr} (hill : opcodeIllegal i) (s : State) :
    exec i s = .next (withCommandError .illegalOp (headerOf i) s) := by
  cases i with
  | illegal7 rest => rfl
  | illegalHi rest => rfl
  | _ => exact hill.elim

/-- An error of a command is recorded outside the memories. -/
theorem sameMemory_withCommandError (code : ErrCode) (h : Word) (s : State) :
    sameMemory s (withCommandError code h s) :=
  sameMemory_refl s

/-- Settles O19: a header made of the opcode and the remaining bits has the form of its illegal command alone; a SETP header
takes the next word without looking at it. -/
theorem illegalOpcodeRecorded : Obligations.IllegalOpcodeRecorded := by
  unfold Obligations.IllegalOpcodeRecorded
  refine ⟨fun rest s ws => ?_, fun rest s ws => ?_, fun h v ws hop => decode_of_opcodeSetp hop⟩
  · exact ⟨decode_cons_eq_ok_iff.2 (hasFormOf_headerOf_illegal7 rest),
      exec_of_opcodeIllegal (i := .illegal7 rest) trivial s, sameMemory_withCommandError _ _ s⟩
  · exact ⟨decode_cons_eq_ok_iff.2 (hasFormOf_headerOf_illegalHi rest),
      exec_of_opcodeIllegal (i := .illegalHi rest) trivial s, sameMemory_withCommandError _ _ s⟩

end Sys2Proof.Machine
end

section
/-! Rounding (41_arith.md, R260): the bounds that determine `rnd`, and its laws. -/

namespace Sys2Proof.Machine

/-- The remainder of the rounding lies in a half-open interval of length `2^s`: the open end is the one that sends ties
toward plus infinity. -/
theorem rnd_bounds (v : Int) (s : Nat) :
    2 * v - 2 ^ s < 2 * rnd v s * 2 ^ s ∧ 2 * rnd v s * 2 ^ s ≤ 2 * v + 2 ^ s := by
  cases s with
  | zero =>
    rw [rnd_zero]
    omega
  | succ s =>
    obtain ⟨hle, hlt⟩ := asr_bounds (v + ((2 ^ s : Nat) : Int)) (s + 1)
    rw [← rnd_succ] at hle hlt
    push_cast [pow_succ] at hle hlt ⊢
    constructor <;> linarith

/-- The bounds of the remainder hold for one integer only, the nearest one. -/
theorem rnd_eq_iff {v q : Int} {s : Nat} :
    rnd v s = q ↔ 2 * v - 2 ^ s < 2 * q * 2 ^ s ∧ 2 * q * 2 ^ s ≤ 2 * v + 2 ^ s := by
  constructor
  · rintro rfl
    exact rnd_bounds v s
  · rintro ⟨hlo, hhi⟩
    obtain ⟨hlo', hhi'⟩ := rnd_bounds v s
    have hpos : (0 : Int) < 2 ^ s := by positivity
    have hle : rnd v s < q + 1 := lt_of_mul_lt_mul_right (by linarith) hpos.le
    have hge : q < rnd v s + 1 := lt_of_mul_lt_mul_right (by linarith) hpos.le
    omega

theorem rnd_of_pos (v : Int) {s : Nat} (h : 1 ≤ s) : rnd v s = asr (v + 2 ^ (s - 1)) s := by
  obtain ⟨n, rfl⟩ := Nat.exists_eq_add_of_le' h
  rw [rnd_succ, Nat.add_sub_cancel, Nat.cast_pow, Nat.cast_two]

theorem rnd_mul_two_pow (a : Int) (s : Nat) : rnd (a * 2 ^ s) s = a := by
  have hpos : (0 : Int) < 2 ^ s := by positivity
  rw [rnd_eq_iff]
  constructor <;> linarith

theorem rnd_mono {v w : Int} (s : Nat) (h : v ≤ w) : rnd v s ≤ rnd w s := by
  cases s with
  | zero => exact h
  | succ s => exact asr_mono (s + 1) (Int.add_le_add_right h _)

/-- Settles O22: the value at `s = 0` and the floor shift at `s ≥ 1` are the definition; the error bound is `rnd_bounds`, by
which a multiple of `2^s` rounds to itself; monotone because the floor shift is. -/
theorem roundingLaws : Obligations.RoundingLaws := by
  unfold Obligations.RoundingLaws
  refine ⟨fun v _ hs => rnd_of_pos v hs, rnd_zero, by decide, rnd_mul_two_pow, fun v s => ?error,
    fun _ _ s h => rnd_mono s h⟩
  case error =>
    obtain ⟨hlo, hhi⟩ := rnd_bounds v s
    exact ⟨hlo.le, hhi⟩

end Sys2Proof.Machine
end

section
/-! The envelope's ramps and decays (42_envelope.md): the equations of the steps, the phases that count their steps
(ATTACK, RELEASE, TAIL) run to their end, and the geometric steps of DECAY and NATURAL. -/

namespace Sys2Proof.Machine

/-! ### Phases that count their steps -/

/-- The slot `k` with its counter at `j` and the gain `g`. -/
def withCount (k : Slot) (j : Nat) (g : U24) : Slot := { k with i := BitVec.ofNat 24 j, g := g }

theorem u24_toNat_ofNat {j : Nat} (hj : j < 2 ^ 24) : (BitVec.ofNat 24 j).toNat = j :=
  (BitVec.toNat_ofNat j 24).trans (Nat.mod_eq_of_lt hj)

/-- The slot `k` is at the start of a phase of `n` steps: each step but the last counts on and sets the gain that `gain`
names for it, the last one gives the slot `last`, and no step depends on the gain before it. -/
structure CountedPhase (k : Slot) (n : U24) (gain : Nat → U24) (last : Slot) : Prop where
  start : k.i = 0
  pos : 1 ≤ n.toNat
  counts : ∀ i g : U24, i.toNat + 1 < n.toNat →
    stepSlot { k with i := i, g := g } = withCount k (i.toNat + 1) (gain (i.toNat + 1))
  ends : ∀ i g : U24, n.toNat = i.toNat + 1 → stepSlot { k with i := i, g := g } = last

namespace CountedPhase
variable {k last : Slot} {n : U24} {j : Nat} {gain : Nat → U24}

/-- Up to the last step the slot's counter tells how many steps it has taken. -/
theorem iterate_counts (h : CountedPhase k n gain last) (hj : j < n.toNat) :
    ∃ i g : U24, stepSlot^[j] k = { k with i := i, g := g } ∧ i.toNat = j := by
  induction j with
  | zero => exact ⟨k.i, k.g, rfl, congrArg BitVec.toNat h.start⟩
  | succ j ih =>
    obtain ⟨i, g, heq, rfl⟩ := ih (Nat.lt_of_succ_lt hj)
    have hstep : stepSlot^[i.toNat + 1] k = withCount k (i.toNat + 1) (gain (i.toNat + 1)) := by
      rw [Function.iterate_succ_apply', heq, h.counts i g hj]
    exact ⟨_, _, hstep, u24_toNat_ofNat (hj.trans n.isLt)⟩

theorem iterate_eq (h : CountedPhase k n gain last) (hpos : 1 ≤ j) (hj : j < n.toNat) :
    stepSlot^[j] k = withCount k j (gain j) := by
  obtain ⟨j, rfl⟩ := Nat.exists_eq_add_of_le' hpos
  obtain ⟨i, g, heq, rfl⟩ := h.iterate_counts (Nat.lt_of_succ_lt hj)
  rw [Function.iterate_succ_apply', heq, h.counts i g hj]

theorem iterate_last (h : CountedPhase k n gain last) : stepSlot^[n.toNat] k = last := by
  obtain ⟨j, hj⟩ := Nat.exists_eq_add_of_le' h.pos
  obtain ⟨i, g, heq, rfl⟩ := h.iterate_counts (j := j) (by omega)
  rw [hj, Function.iterate_succ_apply', heq, h.ends i g hj]

end CountedPhase

/-- The floor of a linear ramp to `c` does not pass `c`. -/
theorem ramp_le {c j n : Nat} (hj : j ≤ n) : c * j / n ≤ c :=
  Nat.div_le_of_le_mul (by rw [Nat.mul_comm]; exact Nat.mul_le_mul_right c hj)

/-! ### ATTACK (R303) -/

section Attack
variable {k : Slot} {j : Nat}

/-- The gain that R303 gives to step `j` of an attack. -/
def attackGain (k : Slot) (j : Nat) : U24 := BitVec.ofNat 24 (k.ceil.toNat * j / k.a.toNat)

theorem attackGain_toNat (hj : j ≤ k.a.toNat) : (attackGain k j).toNat = k.ceil.toNat * j / k.a.toNat :=
  u24_toNat_ofNat ((ramp_le hj).trans_lt k.ceil.isLt)

theorem attackGain_last (hj : k.a.toNat = j + 1) : attackGain k (j + 1) = k.ceil := by
  rw [attackGain, hj, Nat.mul_div_cancel _ j.succ_pos, BitVec.ofNat_toNat, BitVec.setWidth_eq]

theorem stepSlot_attack_of_lt (hst : k.st = .attack) (h : k.i.toNat + 1 < k.a.toNat) :
    stepSlot k = withCount k (k.i.toNat + 1) (attackGain k (k.i.toNat + 1)) := by
  simp only [stepSlot, hst, stepAttack, ge_iff_le, if_neg h.not_ge, withCount, attackGain]

theorem stepSlot_attack_of_ge (hst : k.st = .attack) (h : k.a.toNat ≤ k.i.toNat + 1) :
    stepSlot k = { k with st := .decay, i := 0, g := attackGain k (k.i.toNat + 1) } := by
  simp only [stepSlot, hst, stepAttack, ge_iff_le, if_pos h, attackGain]

theorem stepSlot_attack_last (hst : k.st = .attack) (h : k.a.toNat = k.i.toNat + 1) :
    stepSlot k = { k with st := .decay, i := 0, g := k.ceil } := by
  rw [stepSlot_attack_of_ge hst h.le, attackGain_last h]

theorem attackPhase (hst : k.st = .attack) (hi : k.i = 0) (ha : 1 ≤ k.a.toNat) :
    CountedPhase k k.a (attackGain k) { k with st := .decay, i := 0, g := k.ceil } where
  start := hi
  pos := ha
  counts _ _ hlt := stepSlot_attack_of_lt hst hlt
  ends _ _ hlast := stepSlot_attack_last hst hlast

end Attack

/-- Settles O26: an attack is a counted phase, whose gain is the floor of the ramp and whose last step reaches the
ceiling. -/
theorem attackRampsToCeiling : Obligations.AttackRampsToCeiling := by
  unfold Obligations.AttackRampsToCeiling
  intro k hst hi ha
  have phase := attackPhase hst hi ha
  refine ⟨fun j hpos hj => ?ramp, phase.iterate_last⟩
  case ramp =>
    rw [phase.iterate_eq hpos hj]
    exact ⟨hst, u24_toNat_ofNat (hj.trans k.a.isLt), attackGain_toNat hj.le, rfl⟩

/-! ### RELEASE and TAIL (R307, R308) -/

section Release
variable {k : Slot} {j : Nat}

/-- The gain that R307 gives to step `j` of a release. -/
def releaseGain (k : Slot) (j : Nat) : U24 := u24Of (u24Int k.gf - ((k.gf.toNat * j / k.r.toNat : Nat) : Int))

theorem releaseGain_toNat (hj : j ≤ k.r.toNat) :
    (releaseGain k j).toNat = k.gf.toNat - k.gf.toNat * j / k.r.toNat := by
  have hramp : k.gf.toNat * j / k.r.toNat ≤ k.gf.toNat := ramp_le hj
  have hcast : u24Int k.gf - ((k.gf.toNat * j / k.r.toNat : Nat) : Int) =
      ((k.gf.toNat - k.gf.toNat * j / k.r.toNat : Nat) : Int) := (Int.ofNat_sub hramp).symm
  rw [releaseGain, hcast, u24Of, BitVec.ofInt_natCast]
  exact u24_toNat_ofNat ((Nat.sub_le _ _).trans_lt k.gf.isLt)

theorem releaseGain_last (hj : k.r.toNat = j + 1) : releaseGain k (j + 1) = 0 :=
  BitVec.eq_of_toNat_eq (by
    rw [releaseGain_toNat hj.ge, hj, Nat.mul_div_cancel _ j.succ_pos, Nat.sub_self]
    rfl)

theorem stepSlot_release_of_lt (hst : k.st = .release) (h : k.i.toNat + 1 < k.r.toNat) :
    stepSlot k = withCount k (k.i.toNat + 1) (releaseGain k (k.i.toNat + 1)) := by
  simp only [stepSlot, hst, stepRelease, ge_iff_le, if_neg h.not_ge, withCount, releaseGain]

theorem stepSlot_release_of_ge (hst : k.st = .release) (h : k.r.toNat ≤ k.i.toNat + 1) :
    stepSlot k = { k with st := .tail, i := 0, g := releaseGain k (k.i.toNat + 1) } := by
  simp only [stepSlot, hst, stepRelease, ge_iff_le, if_pos h, releaseGain]

theorem stepSlot_release_last (hst : k.st = .release) (h : k.r.toNat = k.i.toNat + 1) :
    stepSlot k = { k with st := .tail, i := 0, g := 0 } := by
  rw [stepSlot_release_of_ge hst h.le, releaseGain_last h]

theorem releasePhase (hst : k.st = .release) (hi : k.i = 0) (hr : 1 ≤ k.r.toNat) :
    CountedPhase k k.r (releaseGain k) { k with st := .tail, i := 0, g := 0 } where
  start := hi
  pos := hr
  counts _ _ hlt := stepSlot_release_of_lt hst hlt
  ends _ _ hlast := stepSlot_release_last hst hlast

theorem stepSlot_tail_of_lt (hst : k.st = .tail) (h : k.i.toNat + 1 < k.m.toNat) :
    stepSlot k = withCount k (k.i.toNat + 1) 0 := by
  simp only [stepSlot, hst, stepTail, ge_iff_le, if_neg h.not_ge, withCount]

theorem stepSlot_tail_of_ge (hst : k.st = .tail) (h : k.m.toNat ≤ k.i.toNat + 1) :
    stepSlot k = { k with st := .idle, i := 0, g := 0 } := by
  simp only [stepSlot, hst, stepTail, ge_iff_le, if_pos h]

theorem tailPhase (hst : k.st = .tail) (hi : k.i = 0) (hm : 1 ≤ k.m.toNat) :
    CountedPhase k k.m (fun _ => 0) { k with st := .idle, i := 0, g := 0 } where
  start := hi
  pos := hm
  counts _ _ hlt := stepSlot_tail_of_lt hst hlt
  ends _ _ hlast := stepSlot_tail_of_ge hst hlast.le

/-- A tail that starts with gain 0 keeps it, at its start as well. -/
theorem tail_iterate_silent (hst : k.st = .tail) (hi : k.i = 0) (hg : k.g = 0) (hj : j < k.m.toNat) :
    (stepSlot^[j] k).st = .tail ∧ (stepSlot^[j] k).g = 0 := by
  rcases Nat.eq_zero_or_pos j with rfl | hpos
  · exact ⟨hst, hg⟩
  · rw [(tailPhase hst hi (by omega)).iterate_eq hpos hj]
    exact ⟨hst, rfl⟩

end Release

/-- Settles O28: a release is a counted phase that ends at the start of a tail, and a tail is one that ends in IDLE. -/
theorem releaseThenTailThenIdle : Obligations.ReleaseThenTailThenIdle := by
  unfold Obligations.ReleaseThenTailThenIdle
  intro k hst hi hr hm
  have phase := releasePhase hst hi hr
  have afterRelease (t : Nat) :
      stepSlot^[k.r.toNat + t] k = stepSlot^[t] { k with st := .tail, i := 0, g := 0 } := by
    rw [Nat.add_comm, Function.iterate_add_apply, phase.iterate_last]
  refine ⟨fun j hpos hj => ?ramp, fun j hge hlt => ?tail, ?idle⟩
  case ramp =>
    rw [phase.iterate_eq hpos hj]
    exact ⟨hst, releaseGain_toNat hj.le⟩
  case tail =>
    obtain ⟨t, rfl⟩ := Nat.exists_eq_add_of_le hge
    rw [afterRelease]
    exact tail_iterate_silent (k := { k with st := .tail, i := 0, g := 0 }) rfl rfl rfl
      (Nat.lt_of_add_lt_add_left hlt)
  case idle =>
    rw [afterRelease]
    exact (tailPhase (k := { k with st := .tail, i := 0, g := 0 }) rfl rfl hm).iterate_last

/-! ### Scaling by a 24-bit fraction -/

/-- The factor is below 1, so a positive value shrinks. -/
theorem asr_mul_u24_lt {x : Int} (hx : 1 ≤ x) (v : U24) : asr (x * u24Int v) 24 < x :=
  Int.ediv_lt_of_lt_mul (by decide) (Int.mul_lt_mul_of_pos_left (u24_range v).2 hx)

theorem asr_mul_u24_nonneg {x : Int} (hx : 0 ≤ x) (v : U24) : 0 ≤ asr (x * u24Int v) 24 :=
  asr_nonneg 24 (mul_nonneg hx (u24_range v).1)

theorem asr_mul_u24_le {x : Int} (hx : 0 ≤ x) (v : U24) : asr (x * u24Int v) 24 ≤ x := by
  rcases hx.eq_or_lt with rfl | hpos
  · rw [zero_mul]
    rfl
  · exact (asr_mul_u24_lt hpos v).le

/-! ### DECAY (R304) -/

section Decay
variable {k : Slot}

/-- The gain that R304 gives to a decay step. -/
def decayGain (k : Slot) : Int := u24Int k.s + asr ((u24Int k.g - u24Int k.s) * u24Int k.dk) 24

theorem stepSlot_decay (hst : k.st = .decay) :
    stepSlot k = { withCount k (k.i.toNat + 1) (u24Of (decayGain k)) with
      st := if k.d.toNat ≤ k.i.toNat + 1 then .natural else .decay } := by
  simp only [stepSlot, hst, stepDecay, ge_iff_le, withCount, decayGain]
  split <;> rfl

theorem decayGain_range (hs : k.s.toNat ≤ k.g.toNat) : u24Int k.s ≤ decayGain k ∧ decayGain k ≤ u24Int k.g := by
  have hdist : 0 ≤ u24Int k.g - u24Int k.s := Int.sub_nonneg_of_le (Int.ofNat_le.2 hs)
  have hnonneg := asr_mul_u24_nonneg hdist k.dk
  have hle := asr_mul_u24_le hdist k.dk
  unfold decayGain
  omega

theorem u24Int_u24Of_decayGain (hs : k.s.toNat ≤ k.g.toNat) : u24Int (u24Of (decayGain k)) = decayGain k := by
  obtain ⟨hlo, hhi⟩ := decayGain_range hs
  exact u24Int_u24Of ((u24_range k.s).1.trans hlo) (hhi.trans_lt (u24_range k.g).2)

end Decay

/-! ### NATURAL (R305) -/

section Natural
variable {k : Slot}

/-- The gain that R305 gives to a natural step. -/
def naturalGain (k : Slot) : Int := asr (u24Int k.g * u24Int k.nk) 24

theorem stepSlot_natural_of_eq_zero (hst : k.st = .natural) (h : naturalGain k = 0) :
    stepSlot k = { k with st := .tail, i := 0, g := 0 } := by
  unfold naturalGain at h
  simp only [stepSlot, hst, stepNatural, h, if_true]
  rfl

theorem stepSlot_natural_of_ne_zero (hst : k.st = .natural) (h : naturalGain k ≠ 0) :
    stepSlot k = { k with g := u24Of (naturalGain k) } := by
  unfold naturalGain at h ⊢
  simp only [stepSlot, hst, stepNatural, if_neg h]

theorem u24Int_stepSlot_natural_g (hst : k.st = .natural) : u24Int (stepSlot k).g = naturalGain k := by
  by_cases h : naturalGain k = 0
  · rw [stepSlot_natural_of_eq_zero hst h, h]
    rfl
  · rw [stepSlot_natural_of_ne_zero hst h]
    have hg := u24_range k.g
    exact u24Int_u24Of (asr_mul_u24_nonneg hg.1 _) ((asr_mul_u24_le hg.1 _).trans_lt hg.2)

theorem stepSlot_natural_g_eq_zero_iff (hst : k.st = .natural) : (stepSlot k).g = 0 ↔ naturalGain k = 0 := by
  rw [← u24Int_stepSlot_natural_g hst, u24Int, Int.natCast_eq_zero, ← BitVec.toNat_inj]
  rfl

theorem stepSlot_natural_g_lt (hst : k.st = .natural) (hg : 1 ≤ k.g.toNat) :
    (stepSlot k).g.toNat < k.g.toNat :=
  Int.ofNat_lt.1 ((u24Int_stepSlot_natural_g hst).trans_lt (asr_mul_u24_lt (Int.ofNat_le.2 hg) k.nk))

theorem naturalGain_of_g_eq_zero (hg : k.g.toNat = 0) : naturalGain k = 0 := by
  rw [naturalGain, u24Int, hg, Nat.cast_zero, zero_mul]
  rfl

/-- A natural decay ends because its gain falls strictly until it is 0. -/
theorem natural_reaches_tail (k : Slot) (hst : k.st = .natural) :
    ∃ n, stepSlot^[n] k = { k with st := .tail, i := 0, g := 0 } := by
  by_cases hzero : naturalGain k = 0
  · exact ⟨1, stepSlot_natural_of_eq_zero hst hzero⟩
  · have hstep := stepSlot_natural_of_ne_zero hst hzero
    have hfall : (stepSlot k).g.toNat < k.g.toNat :=
      stepSlot_natural_g_lt hst (Nat.pos_of_ne_zero fun hg => hzero (naturalGain_of_g_eq_zero hg))
    obtain ⟨n, hn⟩ := natural_reaches_tail (stepSlot k) (by rw [hstep]; exact hst)
    exact ⟨n + 1, by rw [Function.iterate_succ_apply, hn, hstep]⟩
termination_by k.g.toNat

end Natural

/-- Settles O27: both gains are a value scaled by a 24-bit fraction, which is neither negative nor above the value, and below
it where the value is not 0. -/
theorem decayAndNaturalSteps : Obligations.DecayAndNaturalSteps := by
  unfold Obligations.DecayAndNaturalSteps
  refine ⟨fun k hst hs => ?decay, fun k hst => ?natural⟩
  case decay =>
    obtain ⟨hlo, hhi⟩ := decayGain_range hs
    rw [← u24Int_u24Of_decayGain hs] at hlo hhi
    rw [stepSlot_decay hst]
    refine ⟨u24Int_u24Of_decayGain hs, Int.ofNat_le.1 hlo, Int.ofNat_le.1 hhi, fun hlt => ⟨if_neg hlt.not_ge, ?_⟩,
      fun hge => if_pos hge, rfl⟩
    exact u24_toNat_ofNat (hlt.trans k.d.isLt)
  case natural =>
    have hiff := stepSlot_natural_g_eq_zero_iff hst
    refine ⟨u24Int_stepSlot_natural_g hst, stepSlot_natural_g_lt hst, fun hzero => ?tail, fun hne => ?stays,
      natural_reaches_tail k hst⟩
    case tail => exact stepSlot_natural_of_eq_zero hst (hiff.1 hzero)
    case stays =>
      have hstep := stepSlot_natural_of_ne_zero hst (mt hiff.2 hne)
      rw [hstep]

end Sys2Proof.Machine
end

section
/-! The transfer curves (45_shaper.md, R391, R394, R395): the laws of the interpolation, the lookup as the interpolation
between the two entries around the input, and the lookups in the identity table and in an odd table. -/

namespace Sys2Proof.Machine

/-! ### Linear interpolation (R391) -/

/-- A multiple of the unit passes through the rounding. -/
theorem rnd_add_mul_two_pow (v a : Int) (s : Nat) : rnd (v + a * 2 ^ s) s = rnd v s + a := by
  obtain ⟨hlo, hhi⟩ := rnd_bounds v s
  rw [rnd_eq_iff]
  constructor <;> linarith

theorem lerp_zero (a b : Int) (s : Nat) : lerp a b 0 s = a := by
  have h := rnd_mul_two_pow 0 s
  rw [zero_mul] at h
  rw [lerp, mul_zero, h, add_zero]

/-- Interpolating from the other end gives the same value: the two products differ by a multiple of the unit. -/
theorem lerp_reverse (a b f : Int) (s : Nat) : lerp a b (2 ^ s - f) s = lerp b a f s := by
  have h : (b - a) * (2 ^ s - f) = (a - b) * f + (b - a) * 2 ^ s := by ring
  rw [lerp, h, rnd_add_mul_two_pow, lerp]
  ring

theorem lerp_two_pow (a b : Int) (s : Nat) : lerp a b (2 ^ s) s = b := by
  rw [← sub_zero (2 ^ s), lerp_reverse, lerp_zero]

theorem lerp_mono {a b f g : Int} (s : Nat) (hab : a ≤ b) (hfg : f ≤ g) : lerp a b f s ≤ lerp a b g s :=
  Int.add_le_add_left (rnd_mono s (Int.mul_le_mul_of_nonneg_left hfg (by omega))) a

/-- On a rising segment the interpolation rises from one entry to the other; a falling one is its reverse. -/
theorem lerp_between (a b : Int) {f : Int} {s : Nat} (hf : 0 ≤ f) (hf' : f ≤ 2 ^ s) :
    min a b ≤ lerp a b f s ∧ lerp a b f s ≤ max a b := by
  have rising {a b f : Int} (hab : a ≤ b) (hf : 0 ≤ f) (hf' : f ≤ 2 ^ s) : a ≤ lerp a b f s ∧ lerp a b f s ≤ b :=
    ⟨(lerp_zero a b s).ge.trans (lerp_mono s hab hf), (lerp_mono s hab hf').trans (lerp_two_pow a b s).le⟩
  rcases le_total a b with hab | hba
  · rw [min_eq_left hab, max_eq_right hab]
    exact rising hab hf hf'
  · rw [min_eq_right hba, max_eq_left hba, ← sub_sub_cancel (2 ^ s) f, lerp_reverse]
    exact rising hba (by omega) (by omega)

/-! ### The lookup (R391) -/

section Lookup
variable {s : State} {t : Curve} {x : Sample} {k f : Nat}

theorem curveEntry_range (s : State) (t : Curve) (i : Nat) : -8388608 ≤ curveEntry s t i ∧ curveEntry s t i ≤ 8388607 :=
  sample_range _

theorem evalCurve_eq_sampleOf_lerp (hf : f < 16384) (hx : x.toInt + 8388608 = k * 16384 + f) :
    evalCurve s t x = sampleOf (lerp (curveEntry s t k) (curveEntry s t (k + 1)) f 14) := by
  have hseg : (x.toInt + 8388608).toNat / 16384 = k := by omega
  have hoff : (x.toInt + 8388608).toNat % 16384 = f := by omega
  simp only [evalCurve, hseg, hoff]
  rfl

/-- The lookup of the interpolated value, which needs no saturation as it lies between two entries. -/
theorem toInt_evalCurve_of_lt (hf : f < 16384) (hx : x.toInt + 8388608 = k * 16384 + f) :
    (evalCurve s t x).toInt = lerp (curveEntry s t k) (curveEntry s t (k + 1)) f 14 := by
  obtain ⟨hlo, hhi⟩ := lerp_between (curveEntry s t k) (curveEntry s t (k + 1)) (f := f) (s := 14) (by omega) (by omega)
  have hk := curveEntry_range s t k
  have hk' := curveEntry_range s t (k + 1)
  rw [evalCurve_eq_sampleOf_lerp hf hx]
  exact toInt_sampleOf (by omega) (by omega)

/-- The end of a segment may be taken as its last offset, since the next segment starts with the same entry. -/
theorem toInt_evalCurve (hf : f ≤ 16384) (hx : x.toInt + 8388608 = k * 16384 + f) :
    (evalCurve s t x).toInt = lerp (curveEntry s t k) (curveEntry s t (k + 1)) f 14 := by
  rcases hf.lt_or_eq with hlt | rfl
  · exact toInt_evalCurve_of_lt hlt hx
  · have hnext : x.toInt + 8388608 = (k + 1 : Nat) * 16384 + (0 : Nat) := by omega
    rw [toInt_evalCurve_of_lt (by decide) hnext]
    exact (lerp_zero _ _ 14).trans (lerp_two_pow _ _ 14).symm

end Lookup

/-! ### The identity table (R394) -/

/-- A segment of slope 1. -/
theorem lerp_slope_one (a f : Int) (s : Nat) : lerp a (a + 2 ^ s) f s = a + f := by
  rw [lerp, add_sub_cancel_left, mul_comm, rnd_mul_two_pow]

/-- The last segment ends one below slope 1: the rounding hides the defect up to the segment's middle. -/
theorem lerp_one_below_slope_one (a : Int) {f : Int} (hf : 0 ≤ f) (hf' : f < 2 ^ 14) :
    lerp a (a + 2 ^ 14 - 1) f 14 = if f ≤ 2 ^ 13 then a + f else a + f - 1 := by
  have hprod : (a + 2 ^ 14 - 1 - a) * f = -f + f * 2 ^ 14 := by ring
  have hdefect : rnd (-f) 14 = if f ≤ 2 ^ 13 then 0 else -1 := by
    rw [rnd_eq_iff]
    split <;> omega
  rw [lerp, hprod, rnd_add_mul_two_pow, hdefect]
  split <;> ring

/-- Settles O38: every segment has slope 1 but the last, whose end is one too low. -/
theorem identityCurve : Obligations.IdentityCurve := by
  unfold Obligations.IdentityCurve
  intro s t hentry hlast x
  obtain ⟨hlo, hhi⟩ := sample_range x
  obtain ⟨k, f, hk, hf, hx⟩ : ∃ k f : Nat, k < 1024 ∧ f < 16384 ∧ x.toInt + 8388608 = k * 16384 + f :=
    ⟨(x.toInt + 8388608).toNat / 16384, (x.toInt + 8388608).toNat % 16384, by omega, by omega, by omega⟩
  have hlookup := toInt_evalCurve (s := s) (t := t) hf.le hx
  suffices h : (evalCurve s t x).toInt = if x.toInt ≤ 2 ^ 23 - 2 ^ 13 then x.toInt else x.toInt - 1 from
    ⟨fun hle => BitVec.eq_of_toInt_eq (h.trans (if_pos hle)), fun hgt => h.trans (if_neg hgt.not_ge)⟩
  rcases (Nat.le_of_lt_succ hk).lt_or_eq with hk' | rfl
  · have hnext : curveEntry s t (k + 1) = curveEntry s t k + 2 ^ 14 := by
      rw [hentry _ (by omega), hentry _ hk]
      push_cast
      ring
    rw [hnext, lerp_slope_one, hentry k hk] at hlookup
    rw [hlookup, if_pos (by omega)]
    omega
  · have hnext : curveEntry s t (1023 + 1) = curveEntry s t 1023 + 2 ^ 14 - 1 := by
      rw [hentry _ hk, hlast]
      norm_num
    rw [hnext, lerp_one_below_slope_one _ (by omega) (by omega), hentry _ hk] at hlookup
    rw [hlookup]
    split <;> split <;> omega

/-! ### Odd tables (R395) -/

/-- Rounding is odd but at a tie, which goes up on both sides. -/
theorem rnd_add_rnd_neg (v : Int) : rnd v 14 + rnd (-v) 14 = if v % 16384 = 8192 then 1 else 0 := by
  obtain ⟨hlo, hhi⟩ := rnd_bounds v 14
  obtain ⟨hlo', hhi'⟩ := rnd_bounds (-v) 14
  split <;> omega

theorem lerp_add_lerp_neg (a b f : Int) :
    lerp a b f 14 + lerp (-a) (-b) f 14 = if (b - a) * f % 16384 = 8192 then 1 else 0 := by
  have hprod : (-b - -a) * f = -((b - a) * f) := by ring
  rw [← rnd_add_rnd_neg, lerp, lerp, hprod]
  ring

/-- Settles O39: the input `-x` lies in the mirrored segment at the offset counted from its end, so its lookup interpolates
between the negated entries at the offset of `x`. -/
theorem oddCurveStaysOdd : Obligations.OddCurveStaysOdd := by
  unfold Obligations.OddCurveStaysOdd
  intro s t hodd x k f hlo hk hf hx
  have hhi := (sample_range x).2
  have hneg : (sampleOf (-x.toInt)).toInt + 8388608 = (1023 - k : Nat) * 16384 + (16384 - f : Nat) := by
    rw [toInt_sampleOf (by omega) (by omega)]
    omega
  have hstart : curveEntry s t (1023 - k) = -curveEntry s t (k + 1) := by
    rw [← hodd (k + 1) hk]
    congr 1
    omega
  have hend : curveEntry s t (1023 - k + 1) = -curveEntry s t k := by
    rw [← hodd k hk.le]
    congr 1
    omega
  have hoff : ((16384 - f : Nat) : Int) = 2 ^ 14 - f := by omega
  rw [toInt_evalCurve hf.le hx, toInt_evalCurve (Nat.sub_le _ _) hneg, hstart, hend, hoff, lerp_reverse,
    lerp_add_lerp_neg]

end Sys2Proof.Machine
end

section
/-! The transparent chain (47_chain.md, R467): a stage that is fully dry, a gain of one and an identity section each give
back their input whatever the channel's state, and so does their composition. -/

namespace Sys2Proof.Machine

/-! ### Unity operations (R263, R275, R363) -/

theorem sat24_toInt (x : Sample) : sat24 x.toInt = x.toInt := sat24_of_range (sample_range x).1 (sample_range x).2

/-- A product with the unit of its format is rounded back to the sample exactly and does not saturate. -/
theorem sat24_rnd_toInt_mul_two_pow (x : Sample) (n : Nat) : sat24 (rnd (x.toInt * 2 ^ n) n) = x.toInt := by
  rw [rnd_mul_two_pow, sat24_toInt]

section Unity
variable {s : State}

theorem gainBy_of_unity {p : FileParam} (h : curInt s p = 2 ^ 24) (x : Sample) : gainBy s p x = x := by
  apply BitVec.eq_of_toInt_eq
  rw [toInt_gainBy, h, sat24_rnd_toInt_mul_two_pow]

theorem mixStage_of_dry {g : Stage} (h : stageDry s g) (x w : Sample) : mixStage s g x w = x := by
  obtain ⟨hdry, hwet⟩ := h
  have hsum : curInt s (.dry g) * x.toInt + curInt s (.wet g) * w.toInt = x.toInt * 2 ^ 23 := by
    rw [hdry, hwet]
    ring
  apply BitVec.eq_of_toInt_eq
  rw [toInt_mixStage, hsum, sat24_rnd_toInt_mul_two_pow]

theorem biquadOut_of_sectionIdentity {q : Sect} (h : sectionIdentity s q) (st : Biquad) (x : Sample) :
    biquadOut (plainCoefs s q) st x = x := by
  obtain ⟨hb0, hb1, hb2, ha1, ha2⟩ := h
  have hacc : biquadAcc (plainCoefs s q) st x = x.toInt * 2 ^ 28 := by
    simp only [biquadAcc, plainCoefs, hb0, hb1, hb2, ha1, ha2]
    ring
  apply BitVec.eq_of_toInt_eq
  rw [toInt_biquadOut, hacc, sat24_rnd_toInt_mul_two_pow]

end Unity

/-! ### The stages (R453)

The output of a stage is the mix of its input with a processed value, which does not count when the mix is dry. -/

section Stages
variable {s : State} (ch : Chan) (c : ChanState) (x : Sample)

theorem stageAutowah_of_dry (h : stageDry s .autowah) : (stageAutowah s c x).2 = x := mixStage_of_dry h x _
theorem stageFuzz_of_dry (h : stageDry s .fuzz) : (stageFuzz s c x).2 = x := mixStage_of_dry h x _
theorem stageOd_of_dry (h : stageDry s .od) : (stageOd s c x).2 = x := mixStage_of_dry h x _
theorem stageChorus_of_dry (h : stageDry s .chorus) : (stageChorus s c x).2 = x := mixStage_of_dry h x _
theorem stagePhaser_of_dry (h : stageDry s .phaser) : (stagePhaser s c x).2 = x := mixStage_of_dry h x _
theorem stageDelay_of_dry (h : stageDry s .delay) : (stageDelay s c x).2 = x := mixStage_of_dry h x _
theorem stageReverb_of_dry (h : stageDry s .reverb) : (stageReverb s ch c x).2 = x := mixStage_of_dry h x _
theorem stageEq5_of_dry (h : stageDry s .eq5) : (stageEq5 s c x).2 = x := mixStage_of_dry h x _
theorem stagePreamp_of_dry (h : stageDry s .preamp) : (stagePreamp s c x).2 = x := mixStage_of_dry h x _
theorem stageTape_of_dry (h : stageDry s .tape) : (stageTape s c x).2 = x := mixStage_of_dry h x _

end Stages

/-! ### The amplifier and the master gain (R464, R465) -/

/-- The amplifier has unity gains and identity sections. -/
structure NeutralAmp (s : State) : Prop where
  input : curInt s .ampIn = 2 ^ 24
  contour : sectionIdentity s .ampContour
  bass : sectionIdentity s .ampBass
  mid : sectionIdentity s .ampMid
  treble : sectionIdentity s .ampTreble
  presence : sectionIdentity s .ampPres
  cabinet : sectionIdentity s .ampCab
  output : curInt s .ampMaster = 2 ^ 24

theorem stageAmp_of_neutral {s : State} (h : NeutralAmp s) (c : ChanState) (x : Sample) : (stageAmp s c x).2 = x := by
  simp only [stageAmp, evalBQ_snd, gainBy_of_unity h.input, biquadOut_of_sectionIdentity h.contour,
    biquadOut_of_sectionIdentity h.bass, biquadOut_of_sectionIdentity h.mid, biquadOut_of_sectionIdentity h.treble,
    biquadOut_of_sectionIdentity h.presence, biquadOut_of_sectionIdentity h.cabinet, gainBy_of_unity h.output]

/-- The chain hands its input from stage to stage (R451). -/
theorem chain_of_dry_of_neutral {s : State} (hdry : ∀ g, stageDry s g) (hamp : NeutralAmp s) (ch : Chan) (c : ChanState)
    (x : Sample) : (chain s ch c x).2 = x := by
  simp only [chain, stageAmp_of_neutral hamp, stageTape_of_dry, stagePreamp_of_dry, stageEq5_of_dry, stageReverb_of_dry,
    stageDelay_of_dry, stagePhaser_of_dry, stageChorus_of_dry, stageOd_of_dry, stageFuzz_of_dry, stageAutowah_of_dry, hdry]

theorem masterSum_of_unity {s : State} (h : curInt s .master = 2 ^ 24) (y : Sample) : masterSum s y = y.toInt := by
  rw [masterSum, h, rnd_mul_two_pow]

theorem clips_toInt (x : Sample) : clips x.toInt = false := by
  rw [clips, sat24_toInt, bne_self_eq_false]

/-- Settles O42: both channels' chains give back the chain input, and the unity master product is a sample, which neither
changes under saturation nor clips. -/
theorem transparentChain : Obligations.TransparentChain := by
  unfold Obligations.TransparentChain
  intro s hdry hin hout hmaster hcontour hbass hmid htreble hpres hcab
  have hamp : NeutralAmp s := ⟨hin, hcontour, hbass, hmid, htreble, hpres, hcab, hout⟩
  have hsum (ch : Chan) (c : ChanState) : masterSum s (chain s ch c (chainInput s)).2 = (chainInput s).toInt := by
    rw [chain_of_dry_of_neutral hdry hamp, masterSum_of_unity hmaster]
  refine ⟨?_, ?_, ?_⟩
  · rw [dataPhase_outL, hsum, sat24_toInt, sampleOf_toInt, chainInput]
  · rw [dataPhase_outR, hsum, sat24_toInt, sampleOf_toInt, chainInput]
  · simp only [dataPhase_irqPend, hsum, clips_toInt, Bool.or_self, Bool.false_eq_true, if_false]

end Sys2Proof.Machine
end

section
/-! Encoding (30_encoding.md): a header is the number made of its fields, so a command's words are read back as the command,
and the words that a command was read from are its own. -/

namespace Sys2Proof

/-! ### Headers and forms (R161) -/

/-- A header has the form of a command of one word exactly where it is the word written for it: both say that the quotients
of the header by the places of the fields are the fields. -/
theorem hasFormOf_iff_headerOf {h : Word} {i : Instr} (hi : ∀ rsv pid value, i ≠ .setp rsv pid value) :
    hasFormOf h i ↔ h = headerOf i := by
  have hlt := h.isLt
  cases i with
  | setp rsv pid value => exact absurd rfl (hi rsv pid value)
  | nop rsv =>
    have := rsv.isLt
    simp only [hasFormOf, ← BitVec.toNat_inj, opcodeOf_toNat, field_toNat, headerOf_nop, BitVec.toNat_ofNat]
    omega
  | noteOn rsv tech str slot =>
    have := rsv.isLt; have := tech.isLt; have := str.isLt; have := slot.isLt
    simp only [hasFormOf, ← BitVec.toNat_inj, opcodeOf_toNat, field_toNat, headerOf_noteOn, BitVec.toNat_ofNat]
    omega
  | release rsvHi bySlot rsvLo tgt =>
    have := rsvHi.isLt; have := bySlot.isLt; have := rsvLo.isLt; have := tgt.isLt
    simp only [hasFormOf, ← BitVec.toNat_inj, opcodeOf_toNat, field_toNat, headerOf_release, BitVec.toNat_ofNat]
    omega
  | swap rsv mask =>
    have := rsv.isLt; have := mask.isLt
    simp only [hasFormOf, ← BitVec.toNat_inj, opcodeOf_toNat, field_toNat, headerOf_swap, BitVec.toNat_ofNat]
    omega
  | wait rsv count =>
    have := rsv.isLt; have := count.isLt
    simp only [hasFormOf, ← BitVec.toNat_inj, opcodeOf_toNat, field_toNat, headerOf_wait, BitVec.toNat_ofNat]
    omega
  | sync rsv lmask =>
    have := rsv.isLt; have := lmask.isLt
    simp only [hasFormOf, ← BitVec.toNat_inj, opcodeOf_toNat, field_toNat, headerOf_sync, BitVec.toNat_ofNat]
    omega
  | illegal7 rest =>
    have := rest.isLt
    simp only [hasFormOf, ← BitVec.toNat_inj, opcodeOf_toNat, field_toNat, headerOf_illegal7, BitVec.toNat_ofNat]
    omega
  | illegalHi rest =>
    have := rest.isLt
    simp only [hasFormOf, ← BitVec.toNat_inj, opcodeOf_toNat, field_toNat, headerOf_illegalHi]
    omega

/-- A SETP header is the word written for a SETP exactly where it has the opcode and the fields. -/
theorem eq_headerOf_setp_iff {h value : Word} {rsv : BitVec 16} {pid : BitVec 12} :
    h = headerOf (.setp rsv pid value) ↔
      opcodeOf h = opcodeSetp ∧ h.extractLsb' 12 16 = rsv ∧ h.extractLsb' 0 12 = pid := by
  have := h.isLt; have := rsv.isLt; have := pid.isLt
  simp only [← BitVec.toNat_inj, opcodeOf_toNat, field_toNat, headerOf_setp, BitVec.toNat_ofNat]
  omega

/-! ### Reading and writing (R160) -/

theorem encode_of_not_setp {i : Instr} (hi : ∀ rsv pid value, i ≠ .setp rsv pid value) : encode i = [headerOf i] := by
  cases i with
  | setp rsv pid value => exact absurd rfl (hi rsv pid value)
  | _ => rfl

theorem decode_encode_append (i : Instr) (rest : List Word) : decode (encode i ++ rest) = .ok (i, rest) := by
  by_cases hi : ∀ rsv pid value, i ≠ .setp rsv pid value
  · rw [encode_of_not_setp hi]
    exact decode_cons_eq_ok_iff.2 ((hasFormOf_iff_headerOf hi).2 rfl)
  · push Not at hi
    obtain ⟨rsv, pid, value, rfl⟩ := hi
    exact decode_eq_setp_iff.2 (eq_headerOf_setp_iff.1 rfl)

/-- What the decoder can read: a SETP and its payload word, or a command of one word. -/
theorem decode_eq_ok_cases {words rest : List Word} {i : Instr} (hd : decode words = .ok (i, rest)) :
    (∃ h value, words = h :: value :: rest ∧ opcodeOf h = opcodeSetp ∧ i = decodeSetp h value) ∨
    (∃ h, words = h :: rest ∧ opcodeOf h ≠ opcodeSetp ∧ i = decodeOneWord h) := by
  match words with
  | [] => cases hd
  | h :: ws =>
    by_cases ho : opcodeOf h = opcodeSetp
    · match ws with
      | [] => simp [decode, ho] at hd
      | value :: ws =>
        rw [decode_of_opcodeSetp ho] at hd
        cases hd
        exact .inl ⟨h, value, rfl, ho, rfl⟩
    · rw [decode_of_opcode_ne_setp ho] at hd
      cases hd
      exact .inr ⟨h, rfl, ho, rfl⟩

theorem encode_append_of_decode {words rest : List Word} {i : Instr} (hd : decode words = .ok (i, rest)) :
    encode i ++ rest = words := by
  rcases decode_eq_ok_cases hd with ⟨h, value, rfl, ho, rfl⟩ | ⟨h, rfl, ho, rfl⟩
  · have hh : h = headerOf (decodeSetp h value) := eq_headerOf_setp_iff.2 ⟨ho, rfl, rfl⟩
    exact congrArg (· :: value :: rest) hh.symm
  · have hform := hasFormOf_decodeOneWord ho
    have hi : ∀ rsv pid value, decodeOneWord h ≠ .setp rsv pid value := fun _ _ _ e => by
      rw [e] at hform
      exact hform
    rw [encode_of_not_setp hi, ← (hasFormOf_iff_headerOf hi).1 hform]
    rfl

/-- Settles O1: the header of a command has the command's form and no other, in both directions. -/
theorem decodeAndEncodeAgree : Obligations.DecodeAndEncodeAgree := by
  unfold Obligations.DecodeAndEncodeAgree
  exact ⟨decode_encode_append, fun _ _ _ hd => encode_append_of_decode hd⟩

/-- Settles O2: each example's words are those that its command is written as. -/
theorem sampleWordsDecode : Obligations.SampleWordsDecode := by
  unfold Obligations.SampleWordsDecode
  exact ⟨decode_encode_append (.noteOn 0 0 0 0) [], decode_encode_append (.noteOn 0 1 2 1) [],
    decode_encode_append (.setp 0 0x251 0x00266666) [], decode_encode_append (.release 0 0 0 3) [],
    decode_encode_append (.release 0 1 0 5) [], decode_encode_append (.swap 0 0x11) [],
    decode_encode_append (.wait 0 480) [], decode_encode_append (.sync 0 5) [], decode_encode_append (.nop 0) [],
    decode_encode_append (.illegal7 0xABCDEF0) [], decode_encode_append (.illegalHi 0x70000000) []⟩

end Sys2Proof
end

section
/-! The command phase (40_commands.md): what no command changes, the equations of the phase, and the commands it executes, in
the order of the FIFO. -/

namespace Sys2Proof.Machine

/-! ### What no command changes (R120) -/

theorem sameMemory_of_fields {s t : State} (htables : t.tables = s.tables) (hchans : t.chans = s.chans) :
    sameMemory s t :=
  ⟨fun tbl b i => by simp only [tableRead, htables], fun _ _ _ => by rw [hchans], fun _ _ => by rw [hchans]⟩

theorem setParam_of_cls_S {q : FileParam} (h : q.cls = .S) (v : Int) (s : State) :
    setParam (.file q) v s = { s with tgt := s.tgt.set q (paramWord v) } := by
  simp only [setParam, h]

theorem setParam_of_cls_I {q : FileParam} (h : q.cls = .I) (v : Int) (s : State) :
    setParam (.file q) v s = { s with tgt := s.tgt.set q (paramWord v), cur := s.cur.set q (paramWord v) } := by
  simp only [setParam, h]

/-- Settles O21: by what a command can do; each of its effects is on the fields listed. -/
theorem commandFrame : Obligations.CommandFrame := by
  unfold Obligations.CommandFrame
  intro i s t h
  suffices hframe : { t with
      errCode := s.errCode, errInfo := s.errInfo, irqPend := s.irqPend, tgt := s.tgt, cur := s.cur, irLen0 := s.irLen0,
      irLen1 := s.irLen1, wait := s.wait, slots := s.slots, wah := s.wah, bank := s.bank, ph := s.ph } = s from
    ⟨hframe, sameMemory_of_fields (congrArg State.tables hframe :) (congrArg State.chans hframe :)⟩
  obtain ⟨u, hu, hcases⟩ := exec_cases i s
  obtain rfl : u = t := Host.Outcome.next.inj (hu.symm.trans h)
  rcases hcases with rfl | ⟨code, hd, rfl⟩ | ⟨p, value, rfl⟩ | ⟨k, n, tech, -, rfl⟩ | ⟨target, rfl⟩ | ⟨mask, rfl⟩ |
    ⟨count, rfl⟩ | ⟨lmask, rfl⟩
  case inr.inr.inl =>
    cases p with
    | irLen => cases hb : irBank s <;> simp only [setParam, setIrLen, hb] <;> rfl
    | file q =>
      cases hq : q.cls with
      | S => rw [setParam_of_cls_S hq]
      | I => rw [setParam_of_cls_I hq]
  all_goals rfl

/-! ### A command does not look at the FIFO -/

theorem setParam_with_fifo (p : Param) (v : Int) (s : State) (f : List Word) :
    setParam p v { s with fifo := f } = { setParam p v s with fifo := f } := by
  cases p with
  | irLen =>
    have hb : irBank { s with fifo := f } = irBank s := rfl
    simp only [setParam, hb]
    cases irBank s <;> rfl
  | file q =>
    cases hq : q.cls with
    | S => simp only [setParam_of_cls_S hq]
    | I => simp only [setParam_of_cls_I hq]

theorem exec_with_fifo {i : Instr} {s t : State} (h : exec i s = .next t) (f : List Word) :
    exec i { s with fifo := f } = .next { t with fifo := f } := by
  revert h
  cases i with
  | nop rsv => simp only [exec, execNop]; split <;> rintro ⟨⟩ <;> rfl
  | setp rsv pid value =>
    simp only [exec, execSetp, setParam_with_fifo]
    split
    · rintro ⟨⟩; rfl
    · split <;> rintro ⟨⟩ <;> rfl
  | noteOn rsv tech str slot =>
    simp only [exec, execNoteOn]
    split
    · rintro ⟨⟩; rfl
    · split
      · split <;> rintro ⟨⟩ <;> rfl
      · rintro ⟨⟩; rfl
  | release rsvHi bySlot rsvLo tgt =>
    simp only [exec, execRelease]
    split
    · rintro ⟨⟩; rfl
    · split <;> rintro ⟨⟩ <;> rfl
  | swap rsv mask => simp only [exec, execSwap]; split <;> rintro ⟨⟩ <;> rfl
  | wait rsv count => simp only [exec, execWait]; split <;> rintro ⟨⟩ <;> rfl
  | sync rsv lmask => simp only [exec, execSync]; split <;> rintro ⟨⟩ <;> rfl
  | illegal7 rest => rintro ⟨⟩; rfl
  | illegalHi rest => rintro ⟨⟩; rfl

theorem execAll_cons_of_exec {i : Instr} {s u : State} (h : exec i s = .next u) (is : List Instr) :
    execAll (i :: is) s = execAll is u := by
  rw [execAll, h]

theorem execAll_with_fifo {is : List Instr} {s t : State} (h : execAll is s = .next t) (f : List Word) :
    execAll is { s with fifo := f } = .next { t with fifo := f } := by
  induction is generalizing s with
  | nil => cases h; rfl
  | cons i is ih =>
    obtain ⟨u, hu, -⟩ := exec_cases i s
    rw [execAll_cons_of_exec hu] at h
    rw [execAll_cons_of_exec (exec_with_fifo hu f), ih h]

theorem exec_fifo {i : Instr} {s t : State} (h : exec i s = .next t) : t.fifo = s.fifo := by
  obtain ⟨hframe, -⟩ := commandFrame i s t h
  exact (congrArg State.fifo hframe :)

/-! ### The equations of the phase (R204, R450) -/

section Phase
variable {s u : State} {i : Instr} {rest : List Word}

theorem runCommands_succ_of_decode (hd : decode s.fifo = .ok (i, rest)) (he : exec i { s with fifo := rest } = .next u)
    (n : Nat) : runCommands (n + 1) s = if u.wait = 0 then runCommands n u else .next u := by
  simp only [runCommands, fetch, hd, he, ne_eq, ite_not]

theorem tickStrobe_of_run (hrun : s.run = true) (hrst : s.rst = false) : tickStrobe s = runTick s := by
  simp [tickStrobe, hrun, hrst]

/-- The commands of a tick and then the rest of it. -/
theorem runTick_of_commandPhase (h : commandPhase s = .next u) : runTick s = .next (finishTick u) := by
  rw [runTick, h]

theorem commandPhase_next (s : State) : ∃ t, commandPhase s = .next t := by
  obtain ⟨t, ht, -⟩ := commandPhase_keeps (P := fun _ => True) (fun _ _ _ => trivial) (fun _ _ _ _ _ => trivial)
    (fun _ _ _ _ _ => trivial) s trivial
  exact ⟨t, ht⟩

end Phase

/-- Settles O4: the first command of the phase is the decoded one, and what follows it is the rest of the phase. -/
theorem stepRunsDecodedCommand : Obligations.StepRunsDecodedCommand := by
  unfold Obligations.StepRunsDecodedCommand
  intro s s' i rest hnext hrun hrst hwait hdecode
  obtain ⟨u, hu, -⟩ := exec_cases i { s' with fifo := rest, wait := 0 }
  have hphase : commandPhase s' = if u.wait = 0 then runCommands 15 u else .next u :=
    (commandPhase_of_wait_le_one hwait).trans (runCommands_succ_of_decode (s := { s' with wait := 0 }) hdecode hu 15)
  have htick : handleEvent .tick s' = runTick s' := tickStrobe_of_run hrun hrst
  obtain ⟨v, hv⟩ := commandPhase_next s'
  have hrest : (if u.wait = 0 then runCommands 15 u else .next u) = .next v := hphase.symm.trans hv
  rw [step_of_nextEvent hnext, htick, runTick_of_commandPhase hv, hu]
  simp only [hrest]

/-- The words of an instruction of the table hold one command and nothing after it (log 14). -/
theorem decode_wordsOfTable {nbits w : Nat} {i : Instr} (h : decodeTableWord nbits w = some i) :
    decode (wordsOfTable nbits w) = .ok (i, []) := by
  unfold decodeTableWord at h
  split at h
  · rename_i j rest hd
    cases h
    rcases decode_eq_ok_cases hd with ⟨hdr, value, hw, ho, -⟩ | ⟨hdr, hw, ho, -⟩
    all_goals
      simp only [wordsOfTable] at hw
      split at hw <;> simp_all
  · cases h

/-- Settles O5: the placed words are a TICK's whole FIFO, so after their command the phase finds no word. -/
theorem placedInstructionRuns : Obligations.PlacedInstructionRuns := by
  unfold Obligations.PlacedInstructionRuns
  intro s nbits w i hw
  obtain ⟨u, hu, -⟩ := exec_cases i { s with fifo := [], wait := 0, run := true, rst := false }
  have hempty : decode u.fifo = .error .noWord := by
    rw [exec_fifo hu]
    rfl
  have hrest : (if u.wait = 0 then runCommands 15 u else .next u) = .next u := by
    rw [runCommands_of_decode_error hempty, ite_self]
  rw [stepRunsDecodedCommand (s.withFetchWord nbits w)
    { s with fifo := wordsOfTable nbits w, wait := 0, run := true, rst := false } i [] rfl rfl rfl (Nat.zero_le 1)
    (decode_wordsOfTable hw), hu]
  simp only [hrest]

/-! ### The order of the commands (R200, R204) -/

/-- A phase of at most `n` commands takes `s` to `t`: it executes `is`, whose words are what has left the FIFO, as the sequence
of commands that gives `u`; the counter is 0 before each of them, and the phase ends early for a reason. -/
structure RanInOrder (n : Nat) (s t u : State) (is : List Instr) : Prop where
  atMost : is.length ≤ n
  words : s.fifo = is.flatMap encode ++ t.fifo
  executed : execAll is s = .next u
  final : t = { u with fifo := t.fifo }
  noWait : ∀ (js ks : List Instr) (v : State), is = js ++ ks → ks ≠ [] → execAll js s = .next v → v.wait = 0
  reason : is.length = n ∨ t.wait ≠ 0 ∨ t.fifo = [] ∨ cmdPayload t = true

theorem RanInOrder.nil {n : Nat} {s : State} (h : n = 0 ∨ s.fifo = [] ∨ cmdPayload s = true) : RanInOrder n s s s [] where
  atMost := Nat.zero_le n
  words := rfl
  executed := rfl
  final := rfl
  noWait js ks _ hsplit hks _ := absurd (List.append_eq_nil_iff.1 hsplit.symm).2 hks
  reason := by
    rcases h with rfl | h
    · exact .inl rfl
    · exact .inr (.inr h)

/-- A command that leaves the counter nonzero is the last one. -/
theorem RanInOrder.last {n : Nat} {s u : State} {i : Instr} {rest : List Word} (hzero : s.wait = 0)
    (hd : decode s.fifo = .ok (i, rest)) (he : exec i s = .next u) (hwait : u.wait ≠ 0) :
    RanInOrder (n + 1) s { u with fifo := rest } u [i] where
  atMost := Nat.succ_le_succ (Nat.zero_le n)
  words := by simpa using (encode_append_of_decode hd).symm
  executed := execAll_cons_of_exec he []
  final := rfl
  noWait js ks v hsplit hks hjs := by
    cases js with
    | nil => cases hjs; exact hzero
    | cons j js =>
      injection hsplit with _ htail
      exact absurd (List.append_eq_nil_iff.1 htail.symm).2 hks
  reason := .inr (.inl hwait)

/-- A command that leaves the counter at 0, and the phase after it. -/
theorem RanInOrder.cons {n : Nat} {s t u v : State} {i : Instr} {is : List Instr} {rest : List Word} (hzero : s.wait = 0)
    (hd : decode s.fifo = .ok (i, rest)) (he : exec i s = .next u) (h : RanInOrder n { u with fifo := rest } t v is) :
    RanInOrder (n + 1) s t { v with fifo := u.fifo } (i :: is) where
  atMost := Nat.succ_le_succ h.atMost
  words := by rw [← encode_append_of_decode hd, List.flatMap_cons, List.append_assoc, ← h.words]
  executed := (execAll_cons_of_exec he is).trans (execAll_with_fifo h.executed u.fifo)
  final := h.final
  noWait js ks w hsplit hks hjs := by
    cases js with
    | nil => cases hjs; exact hzero
    | cons j js =>
      injection hsplit with hj htail
      subst hj
      rw [execAll_cons_of_exec he] at hjs
      exact h.noWait js ks { w with fifo := rest } htail hks (execAll_with_fifo hjs rest)
  reason := h.reason.imp_left (congrArg Nat.succ)

/-- Where no command can be read the FIFO is empty or holds a SETP header without its payload. -/
theorem fifo_of_decode_error {s : State} {e : DecodeError} (hd : decode s.fifo = .error e) :
    s.fifo = [] ∨ cmdPayload s = true := by
  match hf : s.fifo with
  | [] => exact .inl rfl
  | [h] =>
    by_cases ho : opcodeOf h = opcodeSetp
    · exact .inr (cmdPayload_of_lone_setp hf ho)
    · rw [hf, decode_of_opcode_ne_setp ho] at hd
      cases hd
  | h :: v :: ws =>
    rw [hf] at hd
    by_cases ho : opcodeOf h = opcodeSetp
    · rw [decode_of_opcodeSetp ho] at hd
      cases hd
    · rw [decode_of_opcode_ne_setp ho] at hd
      cases hd

theorem runCommands_ranInOrder (n : Nat) (s : State) (hzero : s.wait = 0) :
    ∃ t u is, runCommands n s = .next t ∧ RanInOrder n s t u is := by
  induction n generalizing s with
  | zero => exact ⟨s, s, [], rfl, .nil (.inl rfl)⟩
  | succ n ih =>
    cases hd : decode s.fifo with
    | error e => exact ⟨s, s, [], runCommands_of_decode_error hd _, .nil (.inr (fifo_of_decode_error hd))⟩
    | ok p =>
      obtain ⟨i, rest⟩ := p
      obtain ⟨u, hu, -⟩ := exec_cases i s
      have hrun := runCommands_succ_of_decode hd (exec_with_fifo hu rest) n
      by_cases hwait : u.wait = 0
      · obtain ⟨t, v, is, ht, hran⟩ := ih { u with fifo := rest } hwait
        exact ⟨t, _, i :: is, (hrun.trans (if_pos hwait)).trans ht, .cons hzero hd hu hran⟩
      · exact ⟨_, u, [i], hrun.trans (if_neg hwait), .last hzero hd hu hwait⟩

/-- Settles O6: a phase that is not waiting is a burst of sixteen from a counter of 0. -/
theorem commandsRunInOrder : Obligations.CommandsRunInOrder := by
  unfold Obligations.CommandsRunInOrder
  intro s hwait
  obtain ⟨t, u, is, ht, hran⟩ := runCommands_ranInOrder 16 { s with wait := 0 } rfl
  exact ⟨t, u, is, (commandPhase_of_wait_le_one hwait).trans ht, hran.atMost, hran.words, hran.executed, hran.final,
    hran.noWait, hran.reason⟩

/-! ### WAIT (R215) -/

theorem exec_asmWait (count : U24) (s : State) : exec (asmWait count) s = .next { s with wait := count } := rfl

/-- Settles O17: the command's only effect is the counter, and the counter alone decides whether the phase goes on. -/
theorem waitLoadsCounter : Obligations.WaitLoadsCounter := by
  unfold Obligations.WaitLoadsCounter
  refine ⟨fun count s => ⟨exec_asmWait count s, sameMemory_of_fields rfl rfl⟩, fun n count s rest hwait hfifo => ?_⟩
  have hdecode : decode s.fifo = .ok (asmWait count, rest) := hfifo ▸ decode_encode_append (asmWait count) rest
  rw [runCommands_succ_of_decode hdecode (exec_asmWait count _)]
  rcases eq_or_ne count 0 with rfl | hne
  · rw [if_pos rfl, if_pos rfl, ← hwait]
  · rw [if_neg hne, if_neg hne]

/-- Settles O51: by the event; the phases of a tick and every access give a next state. -/
theorem stepCompletes : Obligations.StepCompletes := by
  unfold Obligations.StepCompletes
  intro s
  have hstep : step s = handleEvent (nextEvent s).1 (nextEvent s).2 := rfl
  constructor
  · intro hne
    rw [stepsSafely, hstep]
    generalize (nextEvent s).2 = u
    cases he : (nextEvent s).1 with
    | tick =>
      obtain ⟨t, ht⟩ := commandPhase_next u
      show ∃ t, tickStrobe u = .next t
      unfold tickStrobe
      split
      · exact ⟨u, rfl⟩
      · exact ⟨_, runTick_of_commandPhase ht⟩
    | tickOverrun => exact absurd he hne
    | _ => exact ⟨_, rfl⟩
  · intro he
    rw [hstep, he]
    rfl

end Sys2Proof.Machine
end

section
/-! One pass of the chain (47_chain.md): every operation on a channel evaluates some sections, writes some lines and leaves the
rest alone, so that the whole chain evaluates each section and writes each line exactly once. -/

namespace Sys2Proof.Machine

/-! ### A section's evaluation (R361, R371) -/

theorem plainStep_evalBQ (s : State) (q : Sect) (c : ChanState) (x : Sample) :
    sectionStep (fun f => curInt s (.bq q f)) (c.sec.get q) x (evalBQ s q c x).2 ((evalBQ s q c x).1.sec.get q) := by
  refine ⟨?_, by rw [evalBQ_sec, SectMap.get_set_self]; rfl⟩
  rw [evalBQ_snd, toInt_biquadOut]
  rfl

theorem modStep_evalMBQ (s : State) (r : MSect) (m : U24) (c : ChanState) (x : Sample) :
    sectionStep (interpolated s r m) (c.msec.get r) x (evalMBQ s r m c x).2 ((evalMBQ s r m c x).1.msec.get r) := by
  refine ⟨?_, by rw [evalMBQ_msec, MSectMap.get_set_self]; rfl⟩
  rw [evalMBQ_snd, toInt_biquadOut]
  rfl

/-! ### Passes -/

/-- The way from the channel `c` to `d` evaluates each of the sections `qs` and `rs` once, writes each of the lines `ls` once
at its pointer, and leaves every other section and line alone. -/
structure Pass (s : State) (qs : List Sect) (rs : List MSect) (ls : List Line) (c d : ChanState) : Prop where
  sec : ∀ q ∈ qs, ∃ x y, sectionStep (fun f => curInt s (.bq q f)) (c.sec.get q) x y (d.sec.get q)
  secElse : ∀ q ∉ qs, d.sec.get q = c.sec.get q
  msec : ∀ r ∈ rs, ∃ x y, sectionStep (interpolated s r (sectionMod s r)) (c.msec.get r) x y (d.msec.get r)
  msecElse : ∀ r ∉ rs, d.msec.get r = c.msec.get r
  line : ∀ l ∈ ls, ∃ v, d.buf.get l = ramWrite (c.buf.get l) (s.wp.get l) v
  lineElse : ∀ l ∉ ls, d.buf.get l = c.buf.get l

namespace Pass
variable {s : State} {qs qs' : List Sect} {rs rs' : List MSect} {ls ls' : List Line} {c d e : ChanState}

/-- Two passes that share no section and no line make one pass. -/
theorem trans (h : Pass s qs rs ls c d) (h' : Pass s qs' rs' ls' d e) (hqs : ∀ q ∈ qs, q ∉ qs' := by decide)
    (hrs : ∀ r ∈ rs, r ∉ rs' := by decide) (hls : ∀ l ∈ ls, l ∉ ls' := by decide) :
    Pass s (qs ++ qs') (rs ++ rs') (ls ++ ls') c e where
  sec q hq := by
    by_cases hmem : q ∈ qs
    · rw [h'.secElse q (hqs q hmem)]
      exact h.sec q hmem
    · rw [← h.secElse q hmem]
      exact h'.sec q ((List.mem_append.1 hq).resolve_left hmem)
  secElse q hq := by
    rw [List.mem_append, not_or] at hq
    rw [h'.secElse q hq.2, h.secElse q hq.1]
  msec r hr := by
    by_cases hmem : r ∈ rs
    · rw [h'.msecElse r (hrs r hmem)]
      exact h.msec r hmem
    · rw [← h.msecElse r hmem]
      exact h'.msec r ((List.mem_append.1 hr).resolve_left hmem)
  msecElse r hr := by
    rw [List.mem_append, not_or] at hr
    rw [h'.msecElse r hr.2, h.msecElse r hr.1]
  line l hl := by
    by_cases hmem : l ∈ ls
    · rw [h'.lineElse l (hls l hmem)]
      exact h.line l hmem
    · rw [← h.lineElse l hmem]
      exact h'.line l ((List.mem_append.1 hl).resolve_left hmem)
  lineElse l hl := by
    rw [List.mem_append, not_or] at hl
    rw [h'.lineElse l hl.2, h.lineElse l hl.1]

/-- Where sections and lines are the same nothing has passed. -/
theorem of_eq (hsec : d.sec = c.sec) (hmsec : d.msec = c.msec) (hbuf : d.buf = c.buf) : Pass s [] [] [] c d where
  sec _ hq := absurd hq List.not_mem_nil
  secElse _ _ := by rw [hsec]
  msec _ hr := absurd hr List.not_mem_nil
  msecElse _ _ := by rw [hmsec]
  line _ hl := absurd hl List.not_mem_nil
  lineElse _ _ := by rw [hbuf]

end Pass

theorem evalBQ_pass (s : State) (q : Sect) (c : ChanState) (x : Sample) : Pass s [q] [] [] c (evalBQ s q c x).1 where
  sec p hp := by
    obtain rfl := List.mem_singleton.1 hp
    exact ⟨x, _, plainStep_evalBQ s p c x⟩
  secElse p hp := SectMap.get_set_ne _ _ (mt List.mem_singleton.2 hp)
  msec _ hr := absurd hr List.not_mem_nil
  msecElse _ _ := rfl
  line _ hl := absurd hl List.not_mem_nil
  lineElse _ _ := rfl

theorem evalMBQ_pass (s : State) (r : MSect) {m : U24} (hm : m = sectionMod s r) (c : ChanState) (x : Sample) :
    Pass s [] [r] [] c (evalMBQ s r m c x).1 where
  sec _ hq := absurd hq List.not_mem_nil
  secElse _ _ := rfl
  msec p hp := by
    obtain rfl := List.mem_singleton.1 hp
    subst hm
    exact ⟨x, _, modStep_evalMBQ s p _ c x⟩
  msecElse p hp := MSectMap.get_set_ne _ _ (mt List.mem_singleton.2 hp)
  line _ hl := absurd hl List.not_mem_nil
  lineElse _ _ := rfl

theorem delayWrite_pass (s : State) (l : Line) (v : Sample) (c : ChanState) : Pass s [] [] [l] c (delayWrite s l v c) where
  sec _ hq := absurd hq List.not_mem_nil
  secElse _ _ := rfl
  msec _ hr := absurd hr List.not_mem_nil
  msecElse _ _ := rfl
  line p hp := by
    obtain rfl := List.mem_singleton.1 hp
    exact ⟨v, delayWrite_buf_self s p v c⟩
  lineElse p hp := delayWrite_buf_ne s v c (mt List.mem_singleton.2 hp)

/-! ### The stages' passes (R454 to R464) -/

section StagePasses
variable (s : State) (ch : Chan) (c : ChanState) (x : Sample)

theorem stageAutowah_pass : Pass s [] [.wah] [] c (stageAutowah s c x).1 := evalMBQ_pass s .wah rfl c x

theorem stageFuzz_pass : Pass s [.fuzzTone] [] [] c (stageFuzz s c x).1 := evalBQ_pass s .fuzzTone c _

theorem stageOd_pass : Pass s [.odBass, .odTreble, .odTone] [] [] c (stageOd s c x).1 :=
  ((evalBQ_pass s .odBass c _).trans (evalBQ_pass s .odTreble _ _)).trans (evalBQ_pass s .odTone _ _)

theorem stageChorus_pass : Pass s [] [] [.chorus] c (stageChorus s c x).1 := delayWrite_pass s .chorus _ c

theorem stagePhaser_pass : Pass s [] [.ph1, .ph2, .ph3, .ph4] [] c (stagePhaser s c x).1 :=
  ((((evalMBQ_pass s .ph1 rfl c _).trans (evalMBQ_pass s .ph2 rfl _ _)).trans (evalMBQ_pass s .ph3 rfl _ _)).trans
    (evalMBQ_pass s .ph4 rfl _ _)).trans (.of_eq rfl rfl rfl)

theorem stageDelay_pass : Pass s [.delayDamp] [] [.delay] c (stageDelay s c x).1 :=
  (evalBQ_pass s .delayDamp c _).trans (delayWrite_pass s .delay _ _)

theorem stageReverb_pass : Pass s [] [] [.revpre] c (stageReverb s ch c x).1 :=
  (delayWrite_pass s .revpre x c).trans (.of_eq rfl rfl rfl)

theorem stageEq5_pass : Pass s [.eqLow, .eqMid1, .eqMid2, .eqHigh, .eqPres] [] [] c (stageEq5 s c x).1 :=
  ((((evalBQ_pass s .eqLow c _).trans (evalBQ_pass s .eqMid1 _ _)).trans (evalBQ_pass s .eqMid2 _ _)).trans
    (evalBQ_pass s .eqHigh _ _)).trans (evalBQ_pass s .eqPres _ _)

theorem stagePreamp_pass : Pass s [.preBass, .preMid, .preTreble, .prePres] [] [] c (stagePreamp s c x).1 :=
  (((evalBQ_pass s .preBass c _).trans (evalBQ_pass s .preMid _ _)).trans (evalBQ_pass s .preTreble _ _)).trans
    (evalBQ_pass s .prePres _ _)

theorem stageTape_pass : Pass s [.tapeDamp] [] [.tape] c (stageTape s c x).1 :=
  (evalBQ_pass s .tapeDamp c _).trans (delayWrite_pass s .tape _ _)

theorem stageAmp_pass :
    Pass s [.ampContour, .ampBass, .ampMid, .ampTreble, .ampPres, .ampCab] [] [] c (stageAmp s c x).1 :=
  (((((evalBQ_pass s .ampContour c _).trans (evalBQ_pass s .ampBass _ _)).trans (evalBQ_pass s .ampMid _ _)).trans
    (evalBQ_pass s .ampTreble _ _)).trans (evalBQ_pass s .ampPres _ _)).trans (evalBQ_pass s .ampCab _ _)

end StagePasses

/-! ### The stages in their order (R451) -/

/-- One stage on a channel and the stage's input. -/
def runStage (s : State) (ch : Chan) (g : Stage) (p : ChanState × Sample) : ChanState × Sample :=
  match g with
  | .autowah => stageAutowah s p.1 p.2
  | .fuzz => stageFuzz s p.1 p.2
  | .od => stageOd s p.1 p.2
  | .chorus => stageChorus s p.1 p.2
  | .phaser => stagePhaser s p.1 p.2
  | .delay => stageDelay s p.1 p.2
  | .reverb => stageReverb s ch p.1 p.2
  | .eq5 => stageEq5 s p.1 p.2
  | .preamp => stagePreamp s p.1 p.2
  | .tape => stageTape s p.1 p.2

/-- Stages one after the other. -/
def runStages (s : State) (ch : Chan) (gs : List Stage) (p : ChanState × Sample) : ChanState × Sample :=
  gs.foldl (fun p g => runStage s ch g p) p

/-- The plain sections of a stage (R454 to R463). -/
def stageSects : Stage → List Sect
  | .fuzz => [.fuzzTone]
  | .od => [.odBass, .odTreble, .odTone]
  | .delay => [.delayDamp]
  | .eq5 => [.eqLow, .eqMid1, .eqMid2, .eqHigh, .eqPres]
  | .preamp => [.preBass, .preMid, .preTreble, .prePres]
  | .tape => [.tapeDamp]
  | .autowah | .chorus | .phaser | .reverb => []

/-- The modulated sections of a stage (R454, R458). -/
def stageMSects : Stage → List MSect
  | .autowah => [.wah]
  | .phaser => [.ph1, .ph2, .ph3, .ph4]
  | .fuzz | .od | .chorus | .delay | .reverb | .eq5 | .preamp | .tape => []

/-- The line of a stage (R457, R459, R460, R463). -/
def stageLines : Stage → List Line
  | .chorus => [.chorus]
  | .delay => [.delay]
  | .reverb => [.revpre]
  | .tape => [.tape]
  | .autowah | .fuzz | .od | .phaser | .eq5 | .preamp => []

/-- The sections of the amplifier (R464). -/
def ampSects : List Sect := [.ampContour, .ampBass, .ampMid, .ampTreble, .ampPres, .ampCab]

/-- The chain is its ten stages and the amplifier. -/
theorem chain_eq_runStages (s : State) (ch : Chan) (c : ChanState) (x : Sample) :
    chain s ch c x = stageAmp s (runStages s ch Stage.all (c, x)).1 (runStages s ch Stage.all (c, x)).2 := rfl

theorem runStage_pass (s : State) (ch : Chan) (g : Stage) (p : ChanState × Sample) :
    Pass s (stageSects g) (stageMSects g) (stageLines g) p.1 (runStage s ch g p).1 := by
  cases g with
  | autowah => exact stageAutowah_pass s p.1 p.2
  | fuzz => exact stageFuzz_pass s p.1 p.2
  | od => exact stageOd_pass s p.1 p.2
  | chorus => exact stageChorus_pass s p.1 p.2
  | phaser => exact stagePhaser_pass s p.1 p.2
  | delay => exact stageDelay_pass s p.1 p.2
  | reverb => exact stageReverb_pass s ch p.1 p.2
  | eq5 => exact stageEq5_pass s p.1 p.2
  | preamp => exact stagePreamp_pass s p.1 p.2
  | tape => exact stageTape_pass s p.1 p.2

/-- Different stages share no section and no line. -/
theorem stages_disjoint {g g' : Stage} (h : g ≠ g') :
    (∀ q ∈ stageSects g, q ∉ stageSects g') ∧ (∀ r ∈ stageMSects g, r ∉ stageMSects g') ∧
    (∀ l ∈ stageLines g, l ∉ stageLines g') := by
  revert h
  cases g <;> cases g' <;> decide

theorem runStages_pass (s : State) (ch : Chan) {gs : List Stage} (hgs : gs.Nodup) (p : ChanState × Sample) :
    Pass s (gs.flatMap stageSects) (gs.flatMap stageMSects) (gs.flatMap stageLines) p.1 (runStages s ch gs p).1 := by
  induction gs generalizing p with
  | nil => exact .of_eq rfl rfl rfl
  | cons g gs ih =>
    obtain ⟨hg, hgs⟩ := List.nodup_cons.1 hgs
    refine (runStage_pass s ch g p).trans (ih hgs (runStage s ch g p)) (fun q hq hmem => ?_) (fun r hr hmem => ?_)
      (fun l hl hmem => ?_)
    all_goals
      obtain ⟨g', hg', hmem⟩ := List.mem_flatMap.1 hmem
      obtain ⟨hsects, hmsects, hlines⟩ := stages_disjoint fun e : g = g' => hg (e ▸ hg')
    · exact hsects q hq hmem
    · exact hmsects r hr hmem
    · exact hlines l hl hmem

/-- The whole chain passes every section and every line. -/
theorem chain_pass (s : State) (ch : Chan) (c : ChanState) (x : Sample) :
    Pass s (Stage.all.flatMap stageSects ++ ampSects) (Stage.all.flatMap stageMSects ++ [])
      (Stage.all.flatMap stageLines ++ []) c (chain s ch c x).1 :=
  (runStages_pass s ch (by decide) (c, x)).trans (stageAmp_pass s _ _)

theorem chain_sec (s : State) (ch : Chan) (c : ChanState) (x : Sample) (q : Sect) :
    ∃ x' y', sectionStep (fun f => curInt s (.bq q f)) (c.sec.get q) x' y' ((chain s ch c x).1.sec.get q) :=
  (chain_pass s ch c x).sec q (by cases q <;> decide)

theorem chain_msec (s : State) (ch : Chan) (c : ChanState) (x : Sample) (r : MSect) :
    ∃ x' y', sectionStep (interpolated s r (sectionMod s r)) (c.msec.get r) x' y' ((chain s ch c x).1.msec.get r) :=
  (chain_pass s ch c x).msec r (by cases r <;> decide)

theorem chain_buf (s : State) (ch : Chan) (c : ChanState) (x : Sample) (l : Line) :
    ∃ v, (chain s ch c x).1.buf.get l = ramWrite (c.buf.get l) (s.wp.get l) v :=
  (chain_pass s ch c x).line l (by cases l <;> decide)

/-! ### The history and the phaser's feedback -/

theorem runStage_hist_of_ne (s : State) (ch : Chan) {g : Stage} (h : g ≠ .reverb) (p : ChanState × Sample) :
    (runStage s ch g p).1.hist = p.1.hist := by
  cases g with
  | reverb => exact absurd rfl h
  | eq5 => simp [runStage, stageEq5]
  | preamp => simp [runStage, stagePreamp]
  | phaser => simp [runStage, stagePhaser]
  | _ => rfl

theorem runStage_phfb_of_ne (s : State) (ch : Chan) {g : Stage} (h : g ≠ .phaser) (p : ChanState × Sample) :
    (runStage s ch g p).1.phfb = p.1.phfb := by
  cases g with
  | phaser => exact absurd rfl h
  | eq5 => simp [runStage, stageEq5]
  | preamp => simp [runStage, stagePreamp]
  | _ => rfl

theorem runStage_reverb_hist (s : State) (ch : Chan) (p : ChanState × Sample) :
    (runStage s ch .reverb p).1.hist = histPush p.1.hist (delayTap s .revpre p.1) := rfl

theorem stageAmp_hist (s : State) (c : ChanState) (x : Sample) : (stageAmp s c x).1.hist = c.hist := by
  simp [stageAmp]

theorem stageAmp_phfb (s : State) (c : ChanState) (x : Sample) : (stageAmp s c x).1.phfb = c.phfb := by
  simp [stageAmp]

theorem runStages_hist_of_notMem (s : State) (ch : Chan) {gs : List Stage} (h : .reverb ∉ gs) (p : ChanState × Sample) :
    (runStages s ch gs p).1.hist = p.1.hist := by
  induction gs generalizing p with
  | nil => rfl
  | cons g gs ih =>
    obtain ⟨hg, hgs⟩ := not_or.1 (mt List.mem_cons.2 h)
    exact (ih hgs _).trans (runStage_hist_of_ne s ch (Ne.symm hg) p)

theorem runStages_phfb_of_notMem (s : State) (ch : Chan) {gs : List Stage} (h : .phaser ∉ gs) (p : ChanState × Sample) :
    (runStages s ch gs p).1.phfb = p.1.phfb := by
  induction gs generalizing p with
  | nil => rfl
  | cons g gs ih =>
    obtain ⟨hg, hgs⟩ := not_or.1 (mt List.mem_cons.2 h)
    exact (ih hgs _).trans (runStage_phfb_of_ne s ch (Ne.symm hg) p)

/-! ### The way to a stage and the way from it -/

/-- The channel and the signal that enter a stage. -/
def entering (s : State) (ch : Chan) (c : ChanState) (x : Sample) (g : Stage) : ChanState × Sample :=
  runStages s ch (Stage.all.take g.num) (c, x)

/-- The channel and the signal that leave a stage. -/
def leaving (s : State) (ch : Chan) (c : ChanState) (x : Sample) (g : Stage) : ChanState × Sample :=
  runStage s ch g (entering s ch c x g)

section Ways
variable (s : State) (ch : Chan) (c : ChanState) (x : Sample) (g : Stage)

theorem runStages_all_eq_after :
    runStages s ch Stage.all (c, x) = runStages s ch (Stage.all.drop (g.num + 1)) (leaving s ch c x g) := by
  have hsplit : Stage.all = Stage.all.take g.num ++ g :: Stage.all.drop (g.num + 1) := by cases g <;> rfl
  conv_lhs => rw [hsplit]
  exact List.foldl_append ..

theorem entering_pass :
    Pass s ((Stage.all.take g.num).flatMap stageSects) ((Stage.all.take g.num).flatMap stageMSects)
      ((Stage.all.take g.num).flatMap stageLines) c (entering s ch c x g).1 :=
  runStages_pass s ch (by cases g <;> decide) (c, x)

theorem leaving_pass :
    Pass s ((Stage.all.drop (g.num + 1)).flatMap stageSects ++ ampSects)
      ((Stage.all.drop (g.num + 1)).flatMap stageMSects ++ []) ((Stage.all.drop (g.num + 1)).flatMap stageLines ++ [])
      (leaving s ch c x g).1 (chain s ch c x).1 := by
  rw [chain_eq_runStages, runStages_all_eq_after s ch c x g]
  exact (runStages_pass s ch (by cases g <;> decide) _).trans (stageAmp_pass s _ _) (by cases g <;> decide)
    (by cases g <;> decide) (by cases g <;> decide)

theorem entering_reverb_hist : (entering s ch c x .reverb).1.hist = c.hist := runStages_hist_of_notMem s ch (by decide) _

theorem entering_phaser_phfb : (entering s ch c x .phaser).1.phfb = c.phfb := runStages_phfb_of_notMem s ch (by decide) _

theorem chain_hist_of_leaving : (chain s ch c x).1.hist = (leaving s ch c x .reverb).1.hist := by
  rw [chain_eq_runStages, runStages_all_eq_after s ch c x .reverb, stageAmp_hist]
  exact runStages_hist_of_notMem s ch (by decide) _

theorem chain_phfb_of_leaving : (chain s ch c x).1.phfb = (leaving s ch c x .phaser).1.phfb := by
  rw [chain_eq_runStages, runStages_all_eq_after s ch c x .phaser, stageAmp_phfb]
  exact runStages_phfb_of_notMem s ch (by decide) _

/-- The history is pushed once (R430). -/
theorem chain_hist : (chain s ch c x).1.hist = histPush c.hist (delayTap s .revpre (entering s ch c x .reverb).1) := by
  rw [chain_hist_of_leaving, leaving, runStage_reverb_hist, entering_reverb_hist]

end Ways

end Sys2Proof.Machine
end

section
/-! The rest of a tick (47_chain.md section 1): its frame, what it does to the channels and pointers, and what the two channels
keep in common. -/

namespace Sys2Proof.Machine

/-! ### The frame of a tick (R412, R430, R450) -/

theorem finishTick_eq_phases (s : State) :
    finishTick s =
      { dataPhase (modLfos (modWah (voiceAmp (modEnvelopes (smoothPhase s))))) with sampleCnt := s.sampleCnt + 1 } := by
  simp only [finishTick, modPhase, countTick, dataPhase_sampleCnt, modLfos_sampleCnt, modWah_sampleCnt,
    voiceAmp_sampleCnt, modEnvelopes_sampleCnt, smoothPhase_sampleCnt]

theorem finishTick_frame (s : State) :
    { finishTick s with
      irqPend := s.irqPend, sampleCnt := s.sampleCnt, done := s.done, cur := s.cur, slots := s.slots, wah := s.wah,
      ph := s.ph, wlfo := s.wlfo, mPh := s.mPh, chans := s.chans, wp := s.wp, egOut := s.egOut, egGain := s.egGain,
      outL := s.outL, outR := s.outR } = s := by
  simp [finishTick, modPhase]

@[simp] theorem finishTick_run (s : State) : (finishTick s).run = s.run := by
  simp [finishTick, modPhase]
@[simp] theorem finishTick_rst (s : State) : (finishTick s).rst = s.rst := by
  simp [finishTick, modPhase]
@[simp] theorem finishTick_env (s : State) : (finishTick s).env = s.env := by
  simp [finishTick, modPhase]
@[simp] theorem finishTick_fifo (s : State) : (finishTick s).fifo = s.fifo := by
  simp [finishTick, modPhase]
@[simp] theorem finishTick_wait (s : State) : (finishTick s).wait = s.wait := by
  simp [finishTick, modPhase]
@[simp] theorem finishTick_tgt (s : State) : (finishTick s).tgt = s.tgt := by
  simp [finishTick, modPhase]
@[simp] theorem finishTick_irLen0 (s : State) : (finishTick s).irLen0 = s.irLen0 := by
  simp [finishTick, modPhase]
@[simp] theorem finishTick_irLen1 (s : State) : (finishTick s).irLen1 = s.irLen1 := by
  simp [finishTick, modPhase]
@[simp] theorem finishTick_tables (s : State) : (finishTick s).tables = s.tables := by
  simp [finishTick, modPhase]
@[simp] theorem finishTick_cur (s : State) : (finishTick s).cur = ParamFile.tabulate (smoothedWord s) := by
  simp [finishTick, modPhase]
@[simp] theorem finishTick_slots (s : State) :
    (finishTick s).slots = SlotMap.tabulate fun k => stepSlot (s.slots.get k) := by
  simp [finishTick, modPhase]
@[simp] theorem finishTick_wah (s : State) : (finishTick s).wah = stepWah s.wah := by
  simp [finishTick, modPhase]
@[simp] theorem finishTick_wp (s : State) : (finishTick s).wp = advancePointers s.wp := by
  simp [finishTick, modPhase]
@[simp] theorem finishTick_done (s : State) : (finishTick s).done = s.done ||| doneBits s.slots := by
  simp [finishTick, modPhase]

/-- Each channel goes through the chain once, from the same chain input (R266, R450). -/
theorem dataPhase_chans_get (s : State) (ch : Chan) :
    (dataPhase s).chans.get ch = (chain s ch (s.chans.get ch) (chainInput s)).1 := by
  cases ch <;> rfl

theorem finishTick_chans_get (s : State) (ch : Chan) :
    (finishTick s).chans.get ch =
      (chain (modPhase (smoothPhase s)) ch (s.chans.get ch) (chainInput (modPhase (smoothPhase s)))).1 :=
  dataPhase_chans_get (modPhase (smoothPhase s)) ch

theorem advancePointers_get (wp : LineMap Nat) (l : Line) : (advancePointers wp).get l = (wp.get l + 1) % l.len :=
  LineMap.get_tabulate _ l

/-- Settles O44: the phases are the definition; the channels' part is that the chain passes every section and line once and
pushes the history once. -/
theorem tickFrame : Obligations.TickFrame := by
  unfold Obligations.TickFrame
  intro s
  refine ⟨finishTick_eq_phases s, finishTick_frame s, advancePointers_get s.wp, fun ch l a ha => ?line,
    fun ch k hk => ?hist, fun ch q => ?sec, fun ch r => ?msec⟩
  case line =>
    rw [finishTick_chans_get]
    obtain ⟨v, hv⟩ := chain_buf (modPhase (smoothPhase s)) ch (s.chans.get ch) (chainInput (modPhase (smoothPhase s))) l
    rw [hv, ramRead_write_ne]
    simpa [modPhase] using ha
  case hist =>
    rw [finishTick_chans_get, chain_hist, ramRead_histPush_succ _ _ hk]
  case sec =>
    rw [finishTick_chans_get]
    obtain ⟨x, y, -, h⟩ := chain_sec (modPhase (smoothPhase s)) ch (s.chans.get ch) (chainInput (modPhase (smoothPhase s))) q
    rw [h]
    exact ⟨rfl, rfl⟩
  case msec =>
    rw [finishTick_chans_get]
    obtain ⟨x, y, -, h⟩ := chain_msec (modPhase (smoothPhase s)) ch (s.chans.get ch) (chainInput (modPhase (smoothPhase s))) r
    rw [h]
    exact ⟨rfl, rfl⟩

/-! ### The channels' memories in canonical form (R67, R68) -/

theorem chain_wf {s : State} (hp : pointersInRange s) (ch : Chan) {c : ChanState} (x : Sample)
    (h : Memory.chanWf c = true) : Memory.chanWf (chain s ch c x).1 = true := by
  rw [chanWf_iff] at h ⊢
  obtain ⟨hbuf, hhist⟩ := h
  refine ⟨fun l => ?_, ?_⟩
  · obtain ⟨v, hv⟩ := chain_buf s ch c x l
    rw [hv]
    exact ramWrite_wf v (hbuf l) (hp l)
  · rw [chain_hist]
    exact histPush_wf _ hhist

theorem Line.len_pos (l : Line) : 0 < l.len := by
  cases l <;> decide

theorem finishTick_pointersInRange (s : State) : pointersInRange (finishTick s) := fun l => by
  rw [finishTick_wp, advancePointers_get]
  exact Nat.mod_lt _ l.len_pos

/-! ### The channels' common part (R468) -/

/-- Two channels agree in every state element of the stages before REVERB, and in the reverb's input line and history. -/
structure AgreeUpstream (c d : ChanState) : Prop where
  sec : ∀ q, beforeReverb q = true → c.sec.get q = d.sec.get q
  msec : c.msec = d.msec
  phfb : c.phfb = d.phfb
  buf : ∀ l, l ≠ .tape → c.buf.get l = d.buf.get l
  hist : c.hist = d.hist

theorem channelsAgree_iff {s : State} : channelsAgree s ↔ AgreeUpstream s.chans.left s.chans.right :=
  ⟨fun ⟨hsec, hmsec, hphfb, hbuf, hhist⟩ => ⟨hsec, hmsec, hphfb, hbuf, hhist⟩,
    fun h => ⟨h.sec, h.msec, h.phfb, h.buf, h.hist⟩⟩

namespace AgreeUpstream
variable {s : State} {c d e : ChanState}

theorem symm (h : AgreeUpstream c d) : AgreeUpstream d c :=
  ⟨fun q hq => (h.sec q hq).symm, h.msec.symm, h.phfb.symm, fun l hl => (h.buf l hl).symm, h.hist.symm⟩

theorem trans (h : AgreeUpstream c d) (h' : AgreeUpstream d e) : AgreeUpstream c e :=
  ⟨fun q hq => (h.sec q hq).trans (h'.sec q hq), h.msec.trans h'.msec, h.phfb.trans h'.phfb,
    fun l hl => (h.buf l hl).trans (h'.buf l hl), h.hist.trans h'.hist⟩

/-- A pass of later sections and of the tape's line changes nothing upstream. -/
theorem of_pass {qs : List Sect} {ls : List Line} (h : Pass s qs [] ls c d) (hqs : ∀ q ∈ qs, beforeReverb q = false)
    (hls : ∀ l ∈ ls, l = .tape) (hphfb : c.phfb = d.phfb) (hhist : c.hist = d.hist) : AgreeUpstream c d where
  sec q hq := (h.secElse q fun hmem => by simp [hqs q hmem] at hq).symm
  msec := MSectMap.ext_get fun r => (h.msecElse r List.not_mem_nil).symm
  phfb := hphfb
  buf l hl := (h.lineElse l fun hmem => hl (hls l hmem)).symm
  hist := hhist

theorem delayTap_eq (h : AgreeUpstream c d) {l : Line} (hl : l ≠ .tape) : delayTap s l c = delayTap s l d :=
  delayTap_of_buf s l (h.buf l hl)

theorem delayWrite (h : AgreeUpstream c d) (l : Line) (v : Sample) :
    AgreeUpstream (Machine.delayWrite s l v c) (Machine.delayWrite s l v d) where
  sec := h.sec
  msec := h.msec
  phfb := h.phfb
  buf l' hl' := by
    by_cases e : l' = l
    · subst e
      rw [delayWrite_buf_self, delayWrite_buf_self, h.buf l' hl']
    · rw [delayWrite_buf_ne s v c e, delayWrite_buf_ne s v d e, h.buf l' hl']
  hist := h.hist

/-- The two channels' convolutions have the same history, whatever their impulses. -/
theorem evalConv (h : AgreeUpstream c d) (ch ch' : Chan) (p : Sample) :
    AgreeUpstream (Machine.evalConv s ch c p).1 (Machine.evalConv s ch' d p).1 where
  sec := h.sec
  msec := h.msec
  phfb := h.phfb
  buf := h.buf
  hist := by rw [evalConv_hist, evalConv_hist, h.hist]

end AgreeUpstream

/-- Two channels that agree upstream carry the same signal. -/
structure AgreeAt (p p' : ChanState × Sample) : Prop where
  chan : AgreeUpstream p.1 p'.1
  signal : p.2 = p'.2

namespace AgreeAt
variable {s : State} {p p' : ChanState × Sample}

theorem map (h : AgreeAt p p') (f : Sample → Sample) : AgreeAt (p.1, f p.2) (p'.1, f p'.2) :=
  ⟨h.chan, congrArg f h.signal⟩

theorem evalBQ (h : AgreeAt p p') {q : Sect} (hq : beforeReverb q = true) :
    AgreeAt (Machine.evalBQ s q p.1 p.2) (Machine.evalBQ s q p'.1 p'.2) where
  chan := {
    sec := fun q' hq' => by
      by_cases e : q' = q
      · subst e
        simp only [evalBQ_sec, SectMap.get_set_self, h.chan.sec q' hq', h.signal]
      · simp only [evalBQ_sec, SectMap.get_set_ne _ _ e, h.chan.sec q' hq']
    msec := h.chan.msec
    phfb := h.chan.phfb
    buf := h.chan.buf
    hist := h.chan.hist }
  signal := by rw [evalBQ_snd, evalBQ_snd, h.chan.sec q hq, h.signal]

theorem evalMBQ (h : AgreeAt p p') (r : MSect) (m : U24) :
    AgreeAt (Machine.evalMBQ s r m p.1 p.2) (Machine.evalMBQ s r m p'.1 p'.2) where
  chan := {
    sec := h.chan.sec
    msec := by rw [evalMBQ_msec, evalMBQ_msec, h.chan.msec, h.signal]
    phfb := h.chan.phfb
    buf := h.chan.buf
    hist := h.chan.hist }
  signal := by rw [evalMBQ_snd, evalMBQ_snd, h.chan.msec, h.signal]

/-- A line write keeps the agreement where the signals written agree. -/
theorem delayWrite (h : AgreeAt p p') (l : Line) (v v' : Sample) (hv : v = v') :
    AgreeUpstream (Machine.delayWrite s l v p.1) (Machine.delayWrite s l v' p'.1) :=
  hv ▸ h.chan.delayWrite l v

end AgreeAt

/-- A stage before REVERB sees in both channels the same signal and the same state. -/
theorem runStage_agreeAt (s : State) (ch ch' : Chan) {g : Stage} (hg : g ∈ Stage.all.take 6) {p p' : ChanState × Sample}
    (h : AgreeAt p p') : AgreeAt (runStage s ch g p) (runStage s ch' g p') := by
  obtain ⟨hchan, hx⟩ := id h
  cases g with
  | autowah =>
    have hwah := h.evalMBQ (s := s) .wah s.wah.m
    exact ⟨hwah.chan, congrArg₂ (mixStage s .autowah) hx hwah.signal⟩
  | fuzz =>
    have htone := (h.map fun x => evalCurve s .fuzz (gainBy s .fuzzIn x)).evalBQ (s := s) (q := .fuzzTone) rfl
    exact ⟨htone.chan, congrArg₂ (mixStage s .fuzz) hx htone.signal⟩
  | od =>
    have htone := (((h.map (evalCurve s .od)).evalBQ (s := s) (q := .odBass) rfl).evalBQ (s := s) (q := .odTreble)
      rfl).evalBQ (s := s) (q := .odTone) rfl
    exact ⟨htone.chan, congrArg₂ (mixStage s .od) hx (congrArg (gainBy s .odLevel) htone.signal)⟩
  | chorus =>
    have htap := hchan.delayTap_eq (s := s) (l := .chorus) (by decide)
    exact ⟨h.delayWrite .chorus _ _ (congrArg₂ (fbSumBy s (.fb .chorus)) hx htap),
      congrArg₂ (mixStage s .chorus) hx htap⟩
  | phaser =>
    have hin : AgreeAt (p.1, fbSumBy s .phFb p.2 p.1.phfb) (p'.1, fbSumBy s .phFb p'.2 p'.1.phfb) :=
      ⟨hchan, congrArg₂ (fbSumBy s .phFb) hx hchan.phfb⟩
    have hout := (((hin.evalMBQ (s := s) .ph1 s.mPh).evalMBQ (s := s) .ph2 s.mPh).evalMBQ (s := s) .ph3 s.mPh).evalMBQ
      (s := s) .ph4 s.mPh
    exact ⟨⟨hout.chan.sec, hout.chan.msec, hout.signal, hout.chan.buf, hout.chan.hist⟩,
      congrArg₂ (mixStage s .phaser) hx hout.signal⟩
  | delay =>
    have htap := hchan.delayTap_eq (s := s) (l := .delay) (by decide)
    have hdamp := (AgreeAt.mk (p := (p.1, delayTap s .delay p.1)) (p' := (p'.1, delayTap s .delay p'.1)) hchan
      htap).evalBQ (s := s) (q := .delayDamp) rfl
    exact ⟨hdamp.delayWrite .delay _ _ (congrArg₂ (fbSumBy s (.fb .delay)) hx hdamp.signal),
      congrArg₂ (mixStage s .delay) hx htap⟩
  | _ => exact absurd hg (by decide)

theorem runStages_agreeAt (s : State) (ch ch' : Chan) {gs : List Stage} (hgs : gs ⊆ Stage.all.take 6)
    {p p' : ChanState × Sample} (h : AgreeAt p p') : AgreeAt (runStages s ch gs p) (runStages s ch' gs p') := by
  induction gs generalizing p p' with
  | nil => exact h
  | cons g gs ih =>
    obtain ⟨hg, hgs⟩ := List.cons_subset.1 hgs
    exact ih hgs (runStage_agreeAt s ch ch' hg h)

/-- REVERB hands the same state on, though not the same signal: the impulses differ. -/
theorem runStage_reverb_agree (s : State) (ch ch' : Chan) {p p' : ChanState × Sample} (h : AgreeAt p p') :
    AgreeUpstream (runStage s ch .reverb p).1 (runStage s ch' .reverb p').1 := by
  obtain ⟨hchan, hx⟩ := h
  have htap := hchan.delayTap_eq (s := s) (l := .revpre) (by decide)
  have hwrite := (hchan.delayWrite (s := s) .revpre p.2).evalConv (s := s) ch ch' (delayTap s .revpre p.1)
  simp only [runStage, stageReverb, ← hx, ← htap]
  exact hwrite

/-- After REVERB only the later sections and the tape's line are touched. -/
theorem leaving_reverb_agree (s : State) (ch : Chan) (c : ChanState) (x : Sample) :
    AgreeUpstream (leaving s ch c x .reverb).1 (chain s ch c x).1 := by
  refine .of_pass (leaving_pass s ch c x .reverb) (by decide) (by decide) ?_ (chain_hist_of_leaving s ch c x).symm
  rw [chain_eq_runStages, runStages_all_eq_after s ch c x .reverb, stageAmp_phfb]
  exact (runStages_phfb_of_notMem s ch (by decide) _).symm

theorem chain_agree (s : State) (ch ch' : Chan) {c d : ChanState} (h : AgreeUpstream c d) (x : Sample) :
    AgreeUpstream (chain s ch c x).1 (chain s ch' d x).1 := by
  have hentering : AgreeAt (entering s ch c x .reverb) (entering s ch' d x .reverb) :=
    runStages_agreeAt s ch ch' (List.Subset.refl _) ⟨h, rfl⟩
  have hleaving : AgreeUpstream (leaving s ch c x .reverb).1 (leaving s ch' d x .reverb).1 :=
    runStage_reverb_agree s ch ch' hentering
  exact (leaving_reverb_agree s ch c x).symm.trans (hleaving.trans (leaving_reverb_agree s ch' d x))

theorem finishTick_channelsAgree {s : State} (h : channelsAgree s) : channelsAgree (finishTick s) := by
  rw [channelsAgree_iff] at h ⊢
  have hleft := finishTick_chans_get s .left
  have hright := finishTick_chans_get s .right
  simp only [ChanMap.get] at hleft hright
  rw [hleft, hright]
  exact chain_agree _ _ _ h _

end Sys2Proof.Machine
end

section
/-! The steps' invariants (10_state.md, 42_envelope.md, 47_chain.md): which events touch the datapath and the tables, and what
every step keeps. -/

namespace Sys2Proof.Machine

/-! ### The datapath is the commands' and the tick's -/

/-- The two states have the same parameters, impulse lengths, slots, sweep, channels and pointers. -/
structure SameDatapath (s t : State) : Prop where
  tgt : t.tgt = s.tgt
  cur : t.cur = s.cur
  irLen0 : t.irLen0 = s.irLen0
  irLen1 : t.irLen1 = s.irLen1
  slots : t.slots = s.slots
  wah : t.wah = s.wah
  chans : t.chans = s.chans
  wp : t.wp = s.wp

theorem resetElements_sameDatapath (s : State) : SameDatapath State.reset (resetElements s) :=
  ⟨rfl, rfl, rfl, rfl, rfl, rfl, rfl, rfl⟩

theorem readTblData_sameDatapath (s : State) : SameDatapath s (readTblData s).2 := by
  rcases readTblData_cases s with ⟨-, e⟩ | ⟨t, -, e⟩ <;> rw [e] <;> exact ⟨rfl, rfl, rfl, rfl, rfl, rfl, rfl, rfl⟩

theorem writeTblData_sameDatapath (v : Word) (s : State) : SameDatapath s (writeTblData v s) := by
  rcases writeTblData_cases v s with ⟨-, e⟩ | ⟨t, -, -, -, e⟩ | ⟨t, -, -, e⟩ <;> rw [e] <;>
    exact ⟨rfl, rfl, rfl, rfl, rfl, rfl, rfl, rfl⟩

theorem pushCmd_sameDatapath (v : Word) (s : State) : SameDatapath s (pushCmd v s) := by
  rcases pushCmd_cases v s with ⟨-, e⟩ | ⟨-, e⟩ <;> rw [e] <;> exact ⟨rfl, rfl, rfl, rfl, rfl, rfl, rfl, rfl⟩

/-- Of the host's writes only SOFT_RESET touches the datapath. -/
theorem writeRegister_datapath (word : BitVec 6) (v : Word) (s : State) :
    SameDatapath s (writeRegister word v s) ∨ writeRegister word v s = resetElements s := by
  rcases writeRegister_cases word v s with ⟨-, e⟩ | ⟨-, e⟩ | ⟨-, e⟩ | ⟨-, e⟩ | ⟨-, e⟩ | ⟨-, e⟩ | ⟨-, e⟩ | ⟨-, e⟩ | ⟨e, -⟩
  case inl =>
    rcases writeCtrl_cases v s with ⟨-, e'⟩ | ⟨-, -, e'⟩ | ⟨-, -, e'⟩ <;> rw [e, e']
    · exact .inr rfl
    · exact .inl ⟨rfl, rfl, rfl, rfl, rfl, rfl, rfl, rfl⟩
    · exact .inl ⟨rfl, rfl, rfl, rfl, rfl, rfl, rfl, rfl⟩
  all_goals rw [e]; left
  case inr.inr.inr.inl => exact pushCmd_sameDatapath v s
  case inr.inr.inr.inr.inr.inl => exact writeTblData_sameDatapath v s
  all_goals exact ⟨rfl, rfl, rfl, rfl, rfl, rfl, rfl, rfl⟩

/-- A command that touches the datapath sets a parameter, starts a voice or releases some. -/
theorem exec_datapath {i : Instr} {s t : State} (h : exec i s = .next t) :
    SameDatapath s t ∨ (∃ p value, t = setParam p (payloadValue p value) s) ∨
    (∃ k n tech, (s.slots.get k).st = .idle ∧ t = startVoice k n tech s) ∨
    (∃ target, t = { s with slots := releaseTarget target s.slots }) := by
  obtain ⟨u, hu, hcases⟩ := exec_cases i s
  obtain rfl : u = t := Host.Outcome.next.inj (hu.symm.trans h)
  rcases hcases with rfl | ⟨code, hd, rfl⟩ | hset | hstart | hrelease | ⟨mask, rfl⟩ | ⟨count, rfl⟩ | ⟨lmask, rfl⟩
  case inr.inr.inl => exact .inr (.inl hset)
  case inr.inr.inr.inl => exact .inr (.inr (.inl hstart))
  case inr.inr.inr.inr.inl => exact .inr (.inr (.inr hrelease))
  all_goals exact .inl ⟨rfl, rfl, rfl, rfl, rfl, rfl, rfl, rfl⟩

/-- What the datapath decides, what holds after reset, and what the three kinds of commands and the rest of a tick keep, every
step keeps. -/
theorem step_keeps_of_datapath {P : State → Prop} (hsame : ∀ {s t : State}, P s → SameDatapath s t → P t)
    (hreset : P State.reset) (hset : ∀ (p : Param) (value : Word) (s : State), P s → P (setParam p (payloadValue p value) s))
    (hstart : ∀ (k : SlotId) (n : BitVec 2) (tech : Tech) (s : State), (s.slots.get k).st = .idle → P s →
      P (startVoice k n tech s))
    (hrelease : ∀ (target : ReleaseTarget) (s : State), P s → P { s with slots := releaseTarget target s.slots })
    (hfinish : ∀ s : State, P s → P (finishTick s)) {s t : State} (h : P s) (hstep : step s = .next t) : P t := by
  have hexec (i : Instr) (s t : State) (he : exec i s = .next t) (h : P s) : P t := by
    rcases exec_datapath he with hs | ⟨p, value, rfl⟩ | ⟨k, n, tech, hidle, rfl⟩ | ⟨target, rfl⟩
    · exact hsame h hs
    · exact hset p value s h
    · exact hstart k n tech s hidle h
    · exact hrelease target s h
  refine step_keeps (P := P) ?env ?tick ?write ?read ?voice ?chain ?rst s t h hstep
  case env => exact fun s es h => hsame h ⟨rfl, rfl, rfl, rfl, rfl, rfl, rfl, rfl⟩
  case tick =>
    exact tickStrobe_keeps (fun s w h => hsame h ⟨rfl, rfl, rfl, rfl, rfl, rfl, rfl, rfl⟩)
      (fun s i rest _ h => hsame h ⟨rfl, rfl, rfl, rfl, rfl, rfl, rfl, rfl⟩) hexec hfinish
  case write =>
    intro word v s h
    unfold busWrite
    split
    · exact h
    · rcases writeRegister_datapath word v s with hs | e
      · exact hsame h hs
      · rw [e]
        exact hsame hreset (resetElements_sameDatapath s)
  case read =>
    intro word s h
    rcases busRead_cases word s with ⟨-, e⟩ | ⟨-, -, e⟩ | ⟨-, -, e⟩ <;> rw [e]
    · exact hsame h ⟨rfl, rfl, rfl, rfl, rfl, rfl, rfl, rfl⟩
    · have hread := hsame h (readTblData_sameDatapath s)
      exact hsame hread ⟨rfl, rfl, rfl, rfl, rfl, rfl, rfl, rfl⟩
    · exact hsame h ⟨rfl, rfl, rfl, rfl, rfl, rfl, rfl, rfl⟩
  case voice => exact fun k v s h => hsame h ⟨rfl, rfl, rfl, rfl, rfl, rfl, rfl, rfl⟩
  case chain => exact fun v s h => hsame h ⟨rfl, rfl, rfl, rfl, rfl, rfl, rfl, rfl⟩
  case rst =>
    intro level s h
    rcases driveRst_cases level s with ⟨-, e⟩ | ⟨-, -, e⟩ <;> rw [e]
    · exact hsame hreset ⟨rfl, rfl, rfl, rfl, rfl, rfl, rfl, rfl⟩
    · exact h

/-! ### What only the tick changes: channels and pointers -/

/-- The commands leave channels and pointers alone, so there only the tick counts. -/
theorem step_keeps_of_chans {P : ChanMap ChanState → LineMap Nat → Prop} (hreset : P State.reset.chans State.reset.wp)
    (hfinish : ∀ s : State, P s.chans s.wp → P (finishTick s).chans (finishTick s).wp) {s t : State} (h : P s.chans s.wp)
    (hstep : step s = .next t) : P t.chans t.wp :=
  step_keeps_of_datapath (P := fun s => P s.chans s.wp) (fun h hs => by rw [hs.chans, hs.wp]; exact h) hreset
    (fun p value s h => by rw [setParam_chans, setParam_wp]; exact h) (fun _ _ _ _ _ h => h) (fun _ _ h => h) hfinish h hstep

theorem reset_channelsAgree : channelsAgree State.reset :=
  ⟨fun _ _ => rfl, rfl, rfl, fun _ _ => rfl, rfl⟩

/-- Settles O47: in a tick both channels carry the same signal up to REVERB, and after it the common part is not touched. -/
theorem stepKeepsChannelsEqual : Obligations.StepKeepsChannelsEqual := by
  unfold Obligations.StepKeepsChannelsEqual
  intro s t h hstep
  rw [channelsAgree_iff] at h ⊢
  refine step_keeps_of_chans (P := fun chans _ => AgreeUpstream chans.left chans.right)
    (channelsAgree_iff.1 reset_channelsAgree) (fun s h => ?_) h hstep
  exact channelsAgree_iff.1 (finishTick_channelsAgree (channelsAgree_iff.2 h))

/-! ### What only the host changes: the tables (R125) -/

theorem exec_tables {i : Instr} {s t : State} (h : exec i s = .next t) : t.tables = s.tables := by
  obtain ⟨hframe, -⟩ := commandFrame i s t h
  exact (congrArg State.tables hframe :)

theorem tickStrobe_tables (s : State) : ∃ t, tickStrobe s = .next t ∧ t.tables = s.tables :=
  tickStrobe_keeps (P := fun u => u.tables = s.tables) (fun _ _ h => h) (fun _ _ _ _ h => h)
    (fun _ _ _ he h => (exec_tables he).trans h) (fun u h => (finishTick_tables u).trans h) s rfl

theorem readTblData_tables (s : State) : (readTblData s).2.tables = s.tables := by
  rcases readTblData_cases s with ⟨-, e⟩ | ⟨t, -, e⟩ <;> rw [e] <;> rfl

/-- Every register but TBL_DATA leaves the tables alone. -/
theorem writeRegister_tables {word : BitVec 6} (hw : word ≠ tblDataWord) (v : Word) (s : State) :
    (writeRegister word v s).tables = s.tables := by
  rcases writeRegister_cases word v s with ⟨-, e⟩ | ⟨-, e⟩ | ⟨-, e⟩ | ⟨-, e⟩ | ⟨-, e⟩ | ⟨h9, e⟩ | ⟨-, e⟩ | ⟨-, e⟩ | ⟨e, -⟩
  case inl =>
    rcases writeCtrl_cases v s with ⟨-, e'⟩ | ⟨-, -, e'⟩ | ⟨-, -, e'⟩ <;> simp [e, e']
  case inr.inr.inr.inr.inr.inl => exact absurd h9 hw
  all_goals simp [e]

theorem handleEvent_tables {e : EnvEvent} {s t : State} (h : handleEvent e s = .next t) (hne : ∀ v, e ≠ hostW 0x24 v) :
    t.tables = s.tables := by
  cases e with
  | tick =>
    obtain ⟨u, hu, htables⟩ := tickStrobe_tables s
    obtain rfl : u = t := Host.Outcome.next.inj (hu.symm.trans h)
    exact htables
  | busWrite word v =>
    cases h
    have hw : word ≠ tblDataWord := fun e => hne v (congrArg (EnvEvent.busWrite · v) e)
    unfold busWrite
    split
    · rfl
    · exact writeRegister_tables hw v s
  | busRead word =>
    cases h
    rcases busRead_cases word s with ⟨-, e⟩ | ⟨-, -, e⟩ | ⟨-, -, e⟩ <;> rw [e]
    case inr.inl => exact readTblData_tables s
  | driveVoice k v => cases h; rfl
  | driveChain v => cases h; rfl
  | driveRst level =>
    cases h
    rcases driveRst_cases level s with ⟨-, e⟩ | ⟨-, -, e⟩
    · rw [e]
      rfl
    · rw [e]
  | tickOverrun => cases h

theorem advanceIndex_activeBank (s : State) (t : TableId) : activeBank (advanceIndex s) t = activeBank s t := by
  cases t <;> rfl

theorem tableWrite_activeBank (s : State) (u : TableId) (b : Bool) (i : Nat) (v : Sample) (t : TableId) :
    activeBank (tableWrite s u b i v) t = activeBank s t := by
  cases t <;> rfl

theorem tblError_activeBank (code : ErrCode) (a : Word) (s : State) (t : TableId) :
    activeBank (tblError code a s) t = activeBank s t := by
  cases t <;> rfl

/-- A TBL_DATA write changes no active bank and no entry of one: what may be written of a banked table is the other bank. -/
theorem writeTblData_keepsActive (v : Word) (s : State) {t : TableId} (ht : t ≠ .lfoWave) {i : Nat} (hi : i < t.len) :
    activeBank (writeTblData v s) t = activeBank s t ∧
    tableRead (writeTblData v s) t (activeBank s t) i = tableRead s t (activeBank s t) i := by
  rcases writeTblData_cases v s with ⟨-, e⟩ | ⟨u, -, -, -, e⟩ | ⟨u, hu, hfree, e⟩ <;> rw [e]
  · exact ⟨(advanceIndex_activeBank _ t).trans (tblError_activeBank _ _ s t), rfl⟩
  · exact ⟨(advanceIndex_activeBank _ t).trans (tblError_activeBank _ _ s t), rfl⟩
  · refine ⟨(advanceIndex_activeBank _ t).trans (tableWrite_activeBank s u _ _ _ t), ?_⟩
    have hidx := (selectedTable?_eq_some.1 hu).2
    rw [tableRead_advanceIndex]
    refine tableRead_write_ne s _ (hidx.trans_le u.len_le) (hi.trans_le t.len_le) ?_
    rintro ⟨rfl, hbank, -⟩
    have hsel : s.tblBankSel = false := by rwa [TableId.banked_iff.2 ht, Bool.true_and] at hfree
    rw [selectedBank_eq_ite, if_neg ht, hsel] at hbank
    simp at hbank

/-- Settles O55: every event but a TBL_DATA write leaves the tables alone, and such a write reaches shadow banks only. -/
theorem activeTablesAreStable : Obligations.ActiveTablesAreStable := by
  unfold Obligations.ActiveTablesAreStable
  constructor
  · intro s s' t e hnext hstep hne
    rw [step_of_nextEvent hnext] at hstep
    rw [handleEvent_tables hstep hne, eq_with_env_of_nextEvent hnext]
  · intro s u v h t i ht hi
    cases h
    show activeBank (busWrite tblDataWord v s) t = _ ∧ tableRead (busWrite tblDataWord v s) _ _ _ = _
    unfold busWrite
    split
    · exact ⟨rfl, rfl⟩
    · exact writeTblData_keepsActive v s ht hi

theorem step_keeps_tablesRising {s t : State} (h : cellsRising 0 tableSpace s.tables = true) (hstep : step s = .next t) :
    cellsRising 0 tableSpace t.tables = true := by
  obtain ⟨e, s', hnext⟩ : ∃ e s', nextEvent s = (e, s') := ⟨_, _, rfl⟩
  have hs' : s'.tables = s.tables := by rw [eq_with_env_of_nextEvent hnext]
  rw [step_of_nextEvent hnext] at hstep
  by_cases he : ∃ v, e = hostW 0x24 v
  · obtain ⟨v, rfl⟩ := he
    cases hstep
    show cellsRising 0 tableSpace (busWrite tblDataWord v s').tables = true
    unfold busWrite
    split
    · rwa [hs']
    · exact writeTblData_rising (by rwa [hs'])
  · rwa [handleEvent_tables hstep (not_exists.1 he), hs']

/-! ### Canonical memories (R67; log 3) -/

theorem memoryCanonical_iff {s : State} :
    memoryCanonical s ↔ cellsRising 0 tableSpace s.tables = true ∧ ∀ ch, Memory.chanWf (s.chans.get ch) = true := by
  simp only [memoryCanonical, Memory.wf, Bool.and_eq_true, and_assoc]
  refine and_congr_right' ⟨fun ⟨hleft, hright⟩ ch => ?_, fun h => ⟨h .left, h .right⟩⟩
  cases ch
  · exact hleft
  · exact hright

theorem reset_pointersInRange : pointersInRange State.reset := fun l => by
  cases l <;> decide

/-- Settles O46: the tables change by the host's writes alone, the channels and pointers by ticks alone. -/
theorem stepKeepsMemoryCanonical : Obligations.StepKeepsMemoryCanonical := by
  unfold Obligations.StepKeepsMemoryCanonical
  intro s t hmem hwp hstep
  obtain ⟨htables, hchans⟩ := memoryCanonical_iff.1 hmem
  have key := step_keeps_of_chans
    (P := fun chans wp => (∀ ch, Memory.chanWf (chans.get ch) = true) ∧ ∀ l : Line, wp.get l < l.len)
    ⟨(memoryCanonical_iff.1 reset_memory_wf).2, reset_pointersInRange⟩
    (fun s ⟨hchans, hwp⟩ => ⟨fun ch => ?_, finishTick_pointersInRange s⟩) ⟨hchans, hwp⟩ hstep
  · exact ⟨memoryCanonical_iff.2 ⟨step_keeps_tablesRising htables hstep, key.1⟩, key.2⟩
  · rw [finishTick_chans_get]
    exact chain_wf (s := modPhase (smoothPhase s)) (by simpa [pointersInRange, modPhase] using hwp) ch _ (hchans ch)

end Sys2Proof.Machine
end

section
/-! Gains, mixes and smoothing (41_arith.md): products with a fraction, the stored results, the smoothing step and its phase. -/

namespace Sys2Proof.Machine

/-! ### Products with a fraction (R277) -/

/-- A value times a fraction from 0 to 1 lies between 0 and the value, rounded too. -/
theorem rnd_fraction_between (d : Int) {m : Int} {n : Nat} (hm : 0 ≤ m) (hm' : m ≤ 2 ^ n) :
    min 0 d ≤ rnd (d * m) n ∧ rnd (d * m) n ≤ max 0 d := by
  have h := lerp_between 0 d hm hm'
  rwa [lerp, sub_zero, zero_add] at h

theorem rnd_zero_left (n : Nat) : rnd 0 n = 0 := by
  have h := rnd_mul_two_pow 0 n
  rwa [zero_mul] at h

/-- A feedback gain is a fraction, so the signal fed back is no greater than the signal (R276). -/
theorem abs_rnd_feedback_le {fb : Int} (hfb : 0 ≤ fb) (hfb' : fb ≤ Config.FB_MAX) (v : Int) : |rnd (fb * v) 23| ≤ |v| := by
  obtain ⟨hlo, hhi⟩ := rnd_fraction_between v hfb (hfb'.trans (by decide : Config.FB_MAX ≤ 2 ^ 23))
  have hcases := abs_cases v
  rw [mul_comm, abs_le]
  omega

/-! ### Stored results (R261, R263, R275, R276) -/

theorem sat24_eq_max_min (v : Int) : sat24 v = max (-2 ^ 23) (min v (2 ^ 23 - 1)) := by
  unfold sat24 clamp
  omega

theorem gain_special (x : Sample) :
    gain x.toInt (2 ^ 24) = x.toInt ∧ gain x.toInt 0 = 0 ∧ gain x.toInt (2 ^ 25) = sat24 (2 * x.toInt) := by
  refine ⟨sat24_rnd_toInt_mul_two_pow x 24, ?_, ?_⟩
  · rw [gain, mul_zero, rnd_zero_left]
    rfl
  · have hprod : x.toInt * 2 ^ 25 = 2 * x.toInt * 2 ^ 24 := by ring
    rw [gain, hprod, rnd_mul_two_pow]

theorem mulU23_range (x : Sample) {m : Int} (hm : 0 ≤ m) (hm' : m ≤ 2 ^ 23) :
    -2 ^ 23 ≤ mulU23 x.toInt m ∧ mulU23 x.toInt m < 2 ^ 23 := by
  obtain ⟨hlo, hhi⟩ := rnd_fraction_between x.toInt hm hm'
  have hx := sample_range x
  unfold mulU23
  omega

theorem fbSum_no_feedback (x v : Sample) : fbSum x.toInt v.toInt 0 = x.toInt := by
  rw [fbSum, zero_mul, rnd_zero_left, add_zero, sat24_toInt]

theorem abs_fbSum_sub_le {x v fb : Int} (hfb : 0 ≤ fb) (hfb' : fb ≤ Config.FB_MAX) (hlo : -8388608 ≤ x + rnd (fb * v) 23)
    (hhi : x + rnd (fb * v) 23 ≤ 8388607) : |fbSum x v fb - x| ≤ |v| := by
  rw [fbSum, sat24_of_range hlo hhi, add_sub_cancel_left]
  exact abs_rnd_feedback_le hfb hfb' v

theorem mix_dry (x w : Sample) : mix (2 ^ 23) 0 x.toInt w.toInt = x.toInt := by
  rw [mix, zero_mul, add_zero, mul_comm, sat24_rnd_toInt_mul_two_pow]

/-- Settles O23: the stored results are the saturated values; a gain of a power of two is exact, a fraction shrinks. -/
theorem gainMixAndFeedback : Obligations.GainMixAndFeedback := by
  unfold Obligations.GainMixAndFeedback
  exact ⟨sat24_eq_max_min, toInt_gainBy, toInt_mixStage, toInt_fbSumBy, fun _ _ => rfl, gain_special,
    fun x m hm hm' => ⟨rfl, mulU23_range x hm hm'⟩, fbSum_no_feedback, fun _ _ _ => abs_fbSum_sub_le, mix_dry⟩

/-! ### The smoothing step (R270, R272) -/

section Smoothing
variable {c t k : Int}

theorem smoothStep_up (hk : 0 ≤ k) (hk' : k ≤ 2 ^ 24) (h : c < t) : c < smoothStep c t k ∧ smoothStep c t k ≤ t := by
  have hs := rnd_fraction_between (t - c) hk hk'
  unfold smoothStep
  dsimp only
  split_ifs <;> omega

theorem smoothStep_down (hk : 0 ≤ k) (hk' : k ≤ 2 ^ 24) (h : t < c) : t ≤ smoothStep c t k ∧ smoothStep c t k < c := by
  have hs := rnd_fraction_between (t - c) hk hk'
  unfold smoothStep
  dsimp only
  split_ifs <;> omega

theorem smoothStep_self (t k : Int) : smoothStep t t k = t := by
  simp [smoothStep, rnd_zero_left]

theorem smoothStep_full (c t : Int) : smoothStep c t (2 ^ 24) = t := by
  simp only [smoothStep, rnd_mul_two_pow]
  split_ifs <;> omega

/-- A step leaves the interval between value and target only inward. -/
theorem smoothStep_range {lo hi : Int} (hk : 0 ≤ k) (hk' : k ≤ 2 ^ 24) (hc : lo ≤ c ∧ c ≤ hi) (ht : lo ≤ t ∧ t ≤ hi) :
    lo ≤ smoothStep c t k ∧ smoothStep c t k ≤ hi := by
  rcases lt_trichotomy c t with h | rfl | h
  · have := smoothStep_up hk hk' h
    omega
  · rwa [smoothStep_self]
  · have := smoothStep_down hk hk' h
    omega

/-- Every step that is not at the target is strictly nearer to it. -/
theorem smoothStep_iterate (hk : 0 ≤ k) (hk' : k ≤ 2 ^ 24) {n : Nat} (hn : (t - c).natAbs ≤ n) :
    (fun x => smoothStep x t k)^[n] c = t := by
  induction n generalizing c with
  | zero =>
    show c = t
    omega
  | succ n ih =>
    rw [Function.iterate_succ_apply]
    apply ih
    rcases lt_trichotomy c t with h | rfl | h
    · have := smoothStep_up hk hk' h
      omega
    · rw [smoothStep_self]
      omega
    · have := smoothStep_down hk hk' h
      omega

end Smoothing

/-- Settles O24: the rounded product with a coefficient of at most 1 lies between 0 and the distance, and where it is 0 the step
is one unit. -/
theorem smoothingStepLaws : Obligations.SmoothingStepLaws := by
  unfold Obligations.SmoothingStepLaws
  intro c t k hk hk'
  have hk0 : 0 ≤ k := by omega
  exact ⟨smoothStep_up hk0 hk', smoothStep_down hk0 hk', smoothStep_self t k, smoothStep_full c t,
    fun _ => smoothStep_iterate hk0 hk'⟩

/-! ### The smoothing phase (R56, R270, R271) -/

section Phase
variable {s : State} {p : FileParam} {g : Stage}

theorem effTarget_of_not_mix (h : ∀ g, p ≠ .wet g ∧ p ≠ .dry g) : effTarget s p = tgtInt s p := by
  cases p with
  | wet g => exact absurd rfl (h g).1
  | dry g => exact absurd rfl (h g).2
  | _ => rfl

theorem effTarget_of_enabled (h : tgtInt s (.en g) = 1) :
    effTarget s (.wet g) = tgtInt s (.wet g) ∧ effTarget s (.dry g) = tgtInt s (.dry g) :=
  ⟨if_pos h, if_pos h⟩

theorem effTarget_of_disabled (h : tgtInt s (.en g) ≠ 1) : effTarget s (.wet g) = 0 ∧ effTarget s (.dry g) = 2 ^ 23 :=
  ⟨if_neg h, if_neg h⟩

/-- The effective target is legal: a target, or an end of the range of WET and DRY. -/
theorem effTarget_range (h : paramsInRange s) (p : FileParam) : p.low ≤ effTarget s p ∧ effTarget s p ≤ p.high := by
  have htgt (q : FileParam) : q.low ≤ tgtInt s q ∧ tgtInt s q ≤ q.high := ⟨(h q).1, (h q).2.1⟩
  by_cases hp : ∀ g, p ≠ .wet g ∧ p ≠ .dry g
  · rw [effTarget_of_not_mix hp]
    exact htgt p
  · obtain ⟨g, hg⟩ : ∃ g, p = .wet g ∨ p = .dry g := by
      simpa only [not_forall, not_and_or, not_not] using hp
    by_cases hen : tgtInt s (.en g) = 1
    · obtain ⟨hwet, hdry⟩ := effTarget_of_enabled hen
      rcases hg with rfl | rfl
      · rw [hwet]
        exact htgt _
      · rw [hdry]
        exact htgt _
    · obtain ⟨hwet, hdry⟩ := effTarget_of_disabled hen
      rcases hg with rfl | rfl
      · rw [hwet]
        exact ⟨le_rfl, by norm_num [FileParam.high]⟩
      · rw [hdry]
        exact ⟨by norm_num [FileParam.low], le_rfl⟩

theorem smoothK_range (h : paramsInRange s) : 0 ≤ curInt s .smoothK ∧ curInt s .smoothK ≤ 2 ^ 24 := by
  obtain ⟨-, -, hlo, hhi⟩ := h .smoothK
  simp only [FileParam.low, FileParam.high] at hlo hhi
  omega

theorem smoothedValue_range (h : paramsInRange s) (p : FileParam) :
    p.low ≤ smoothStep (curInt s p) (effTarget s p) (curInt s .smoothK) ∧
    smoothStep (curInt s p) (effTarget s p) (curInt s .smoothK) ≤ p.high :=
  smoothStep_range (smoothK_range h).1 (smoothK_range h).2 (h p).2.2 (effTarget_range h p)

/-- A legal value is read back from the word it is stored as. -/
theorem curInt_smoothPhase_of_S (h : paramsInRange s) (hp : p.cls = .S) :
    curInt (smoothPhase s) p = smoothStep (curInt s p) (effTarget s p) (curInt s .smoothK) := by
  obtain ⟨hlo, hhi⟩ := smoothedValue_range h p
  rw [curInt, smoothPhase_cur, ParamFile.int, ParamFile.get_tabulate, smoothedWord, hp]
  exact read_paramWord hlo hhi

theorem smoothedWord_of_I (hp : p.cls = .I) : smoothedWord s p = s.cur.get p := by
  rw [smoothedWord, hp]

theorem curInt_smoothPhase_of_I (hp : p.cls = .I) : curInt (smoothPhase s) p = curInt s p := by
  rw [curInt, smoothPhase_cur, ParamFile.int, ParamFile.get_tabulate, smoothedWord_of_I hp]
  rfl

end Phase

/-- Settles O25: the words of the smoothed file by class, the effective targets by the enable. -/
theorem smoothingPhaseResult : Obligations.SmoothingPhaseResult := by
  unfold Obligations.SmoothingPhaseResult
  intro s h
  refine ⟨fun p => curInt_smoothPhase_of_S h, fun p => curInt_smoothPhase_of_I, fun g => effTarget_of_enabled,
    fun g hen => effTarget_of_disabled (by omega), fun p => effTarget_of_not_mix, rfl⟩

end Sys2Proof.Machine
end

section
/-! Envelope slots, voices and the sweep (42_envelope.md): what a slot's step can do, that every voice ends and reports it, the
voice amplifier, and the sweep's rise and fall. -/

namespace Sys2Proof.Machine

/-! ### Every voice ends (R312 (f)) -/

/-- The slot becomes IDLE after some steps. -/
def EndsIdle (k : Slot) : Prop := ∃ n : Nat, (stepSlot^[n] k).st = .idle

section Ends
variable {k : Slot}

theorem endsIdle_of_iterate (n : Nat) (h : EndsIdle (stepSlot^[n] k)) : EndsIdle k := by
  obtain ⟨m, hm⟩ := h
  exact ⟨m + n, by rwa [Function.iterate_add_apply]⟩

/-- A state that counts its steps up to a length is left, and then it matters what is entered. -/
theorem endsIdle_of_counts {st : EnvState} (len : Slot → U24)
    (hstep : ∀ k : Slot, k.st = st → EndsIdle (stepSlot k) ∨
      (k.i.toNat + 1 < (len k).toNat ∧ (stepSlot k).st = st ∧ (stepSlot k).i.toNat = k.i.toNat + 1 ∧
        len (stepSlot k) = len k)) (k : Slot) (hst : k.st = st) : EndsIdle k := by
  apply endsIdle_of_iterate 1
  rcases hstep k hst with hends | ⟨hlt, hst', hi', hlen⟩
  · exact hends
  · exact endsIdle_of_counts len hstep (stepSlot k) hst'
termination_by (len k).toNat - k.i.toNat
decreasing_by
  rw [hlen]
  omega

theorem endsIdle_of_tail (hst : k.st = .tail) : EndsIdle k := by
  refine endsIdle_of_counts (st := .tail) Slot.m (fun k hst => ?_) k hst
  by_cases h : k.i.toNat + 1 < k.m.toNat
  · rw [stepSlot_tail_of_lt hst h]
    exact .inr ⟨h, hst, u24_toNat_ofNat (h.trans k.m.isLt), rfl⟩
  · rw [stepSlot_tail_of_ge hst (not_lt.1 h)]
    exact .inl ⟨0, rfl⟩

theorem endsIdle_of_release (hst : k.st = .release) : EndsIdle k := by
  refine endsIdle_of_counts (st := .release) Slot.r (fun k hst => ?_) k hst
  by_cases h : k.i.toNat + 1 < k.r.toNat
  · rw [stepSlot_release_of_lt hst h]
    exact .inr ⟨h, hst, u24_toNat_ofNat (h.trans k.r.isLt), rfl⟩
  · rw [stepSlot_release_of_ge hst (not_lt.1 h)]
    exact .inl (endsIdle_of_tail rfl)

theorem endsIdle_of_natural (hst : k.st = .natural) : EndsIdle k := by
  obtain ⟨n, hn⟩ := natural_reaches_tail k hst
  apply endsIdle_of_iterate n
  rw [hn]
  exact endsIdle_of_tail rfl

theorem endsIdle_of_decay (hst : k.st = .decay) : EndsIdle k := by
  refine endsIdle_of_counts (st := .decay) Slot.d (fun k hst => ?_) k hst
  rw [stepSlot_decay hst]
  by_cases h : k.i.toNat + 1 < k.d.toNat
  · exact .inr ⟨h, if_neg h.not_ge, u24_toNat_ofNat (h.trans k.d.isLt), rfl⟩
  · exact .inl (endsIdle_of_natural (if_pos (not_lt.1 h)))

theorem endsIdle_of_attack (hst : k.st = .attack) : EndsIdle k := by
  refine endsIdle_of_counts (st := .attack) Slot.a (fun k hst => ?_) k hst
  by_cases h : k.i.toNat + 1 < k.a.toNat
  · rw [stepSlot_attack_of_lt hst h]
    exact .inr ⟨h, hst, u24_toNat_ofNat (h.trans k.a.isLt), rfl⟩
  · rw [stepSlot_attack_of_ge hst (not_lt.1 h)]
    exact .inl (endsIdle_of_decay rfl)

theorem stepSlot_idle (hst : k.st = .idle) : stepSlot k = { k with g := 0 } := by
  simp only [stepSlot, hst]

theorem stepSlot_iterate_idle (hst : k.st = .idle) (n : Nat) : stepSlot^[n + 1] k = { k with g := 0 } := by
  induction n with
  | zero => exact stepSlot_idle hst
  | succ n ih => rw [Function.iterate_succ_apply', ih, stepSlot_idle (k := { k with g := 0 }) hst]

end Ends

/-- Settles O29: each state is left for one that comes later in ATTACK, DECAY, NATURAL, RELEASE, TAIL, IDLE: the counted ones
at their length, NATURAL because its gain falls. -/
theorem everyVoiceEnds : Obligations.EveryVoiceEnds := by
  unfold Obligations.EveryVoiceEnds
  intro k
  refine ⟨?ends, fun hst n hn => ?stays⟩
  case ends =>
    show EndsIdle k
    cases hst : k.st with
    | idle => exact ⟨0, hst⟩
    | attack => exact endsIdle_of_attack hst
    | decay => exact endsIdle_of_decay hst
    | natural => exact endsIdle_of_natural hst
    | release => exact endsIdle_of_release hst
    | tail => exact endsIdle_of_tail hst
  case stays =>
    obtain ⟨m, rfl⟩ := Nat.exists_eq_add_of_le' hn
    exact stepSlot_iterate_idle hst m

/-! ### The end of a tail is reported (R308) -/

theorem finishes_iff {k : Slot} : finishes k = true ↔ k.st = .tail ∧ k.m.toNat ≤ k.i.toNat + 1 := by
  unfold finishes
  cases hst : k.st with
  | tail =>
    by_cases h : k.m.toNat ≤ k.i.toNat + 1
    · simp [stepTail, h]
    · simp [stepTail, h, hst]
  | _ => simp

theorem getLsbD_append_ofBool {n : Nat} (x : BitVec n) (b : Bool) (i : Nat) :
    (x ++ BitVec.ofBool b).getLsbD i = if i = 0 then b else x.getLsbD (i - 1) := by
  rw [BitVec.getLsbD_append]
  simp only [Nat.lt_one_iff]
  split
  · rename_i h
    subst h
    cases b <;> rfl
  · rfl

theorem getLsbD_doneBits (slots : SlotMap Slot) (k : SlotId) : (doneBits slots).getLsbD k.num = finishes (slots.get k) := by
  cases k <;> simp [doneBits, SlotId.num, SlotMap.get, getLsbD_append_ofBool, -BitVec.getLsbD_eq_getElem]

theorem SlotId.exists_num_eq {n : Nat} (h : n < 8) : ∃ k : SlotId, k.num = n := by
  interval_cases n
  exacts [⟨.s0, rfl⟩, ⟨.s1, rfl⟩, ⟨.s2, rfl⟩, ⟨.s3, rfl⟩, ⟨.s4, rfl⟩, ⟨.s5, rfl⟩, ⟨.s6, rfl⟩, ⟨.s7, rfl⟩]

theorem doneBits_eq_zero_iff {slots : SlotMap Slot} : doneBits slots = 0 ↔ ∀ k, finishes (slots.get k) = false := by
  constructor
  · intro h k
    rw [← getLsbD_doneBits, h]
    exact BitVec.getLsbD_zero
  · intro h
    refine BitVec.eq_of_getLsbD_eq fun i hi => ?_
    obtain ⟨k, rfl⟩ := SlotId.exists_num_eq hi
    rw [getLsbD_doneBits, h]
    exact BitVec.getLsbD_zero.symm

theorem getLsbD_irqVoiceDone (b : Nat) : irqVoiceDone.getLsbD b = decide (b = 2) := by
  have hbit : irqVoiceDone = BitVec.twoPow 5 2 := by decide
  rw [hbit, BitVec.getLsbD_twoPow, decide_eq_true (by decide), Bool.true_and]
  exact decide_eq_decide.2 eq_comm

theorem modEnvelopes_irqPend_getLsbD (s : State) (b : Nat) :
    (modEnvelopes s).irqPend.getLsbD b = (s.irqPend.getLsbD b || (decide (b = 2) && decide (doneBits s.slots ≠ 0))) := by
  rw [modEnvelopes_irqPend]
  by_cases h : doneBits s.slots = 0
  · rw [if_pos h, decide_eq_false (not_not_intro h), Bool.and_false, Bool.or_false]
  · rw [if_neg h, decide_eq_true h, Bool.and_true, BitVec.getLsbD_or, getLsbD_irqVoiceDone]

/-- Settles O30: DONE gains the bits of the slots that finish, and VOICE_DONE is set where one of them is not 0. -/
theorem tailEndSetsDone : Obligations.TailEndSetsDone := by
  unfold Obligations.TailEndSetsDone
  intro s
  refine ⟨fun k => ?slots, fun k => ?done, ?irq, fun b hb => ?others, rfl⟩
  case slots => rw [modEnvelopes_slots, SlotMap.get_tabulate]
  case done => rw [modEnvelopes_done, BitVec.getLsbD_or, Bool.or_eq_true, getLsbD_doneBits, finishes_iff]
  case irq =>
    have hex : doneBits s.slots ≠ 0 ↔ ∃ k, finishes (s.slots.get k) = true := by
      rw [Ne, doneBits_eq_zero_iff]
      simp
    simp only [modEnvelopes_irqPend_getLsbD, decide_true, Bool.true_and, Bool.or_eq_true, decide_eq_true_eq, hex,
      finishes_iff]
  case others => rw [modEnvelopes_irqPend_getLsbD, decide_eq_false hb, Bool.false_and, Bool.or_false]

/-! ### The voice amplifier (R310) -/

theorem voiceTerm_of_silent {s : State} {k : SlotId} (h : (s.slots.get k).g = 0) : voiceTerm s k = 0 := by
  have hzero : u24Int (0 : U24) = 0 := rfl
  rw [voiceTerm, mulU23, h, hzero, mul_zero, rnd_zero_left]

theorem slotInRange_silent {k : Slot} (h : slotInRange k) (hst : k.st = .idle ∨ k.st = .tail) : k.g = 0 := by
  obtain ⟨-, -, -, -, -, -, -, -, htail, hidle⟩ := h
  rcases hst with hst | hst
  · exact hidle hst
  · exact (htail hst).1

/-- Settles O31: a slot with gain 0 adds nothing to the sum, and IDLE and TAIL slots have gain 0. -/
theorem voiceAmplifierResult : Obligations.VoiceAmplifierResult := by
  unfold Obligations.VoiceAmplifierResult
  intro s
  refine ⟨fun k => by rw [voiceAmp_egGain, SlotMap.get_tabulate], toInt_sampleOf_sat24 _, fun hrange hst => ?silent, rfl⟩
  case silent =>
    have hterm (k : SlotId) : voiceTerm s k = 0 := voiceTerm_of_silent (slotInRange_silent (hrange k) (hst k))
    rw [voiceAmp_egOut, List.map_congr_left (g := fun _ => 0) fun k _ => hterm k]
    rfl

/-! ### The sweep's rise (R321) -/

section Rise
variable {w : Wah} {j : Nat}

/-- The value that R321 gives to step `j` of a rise. -/
def riseValue (w : Wah) (j : Nat) : U24 := u24Of (u24Int w.m0 + (8388608 - u24Int w.m0) * (j : Int) / u24Int w.u)

theorem riseValue_toNat (hm : w.m0.toNat ≤ 8388608) (hj : j ≤ w.u.toNat) :
    (riseValue w j).toNat = w.m0.toNat + (8388608 - w.m0.toNat) * j / w.u.toNat := by
  have hramp : (8388608 - w.m0.toNat) * j / w.u.toNat ≤ 8388608 - w.m0.toNat := ramp_le hj
  have hcast : u24Int w.m0 + (8388608 - u24Int w.m0) * (j : Int) / u24Int w.u =
      ((w.m0.toNat + (8388608 - w.m0.toNat) * j / w.u.toNat : Nat) : Int) := by
    simp only [u24Int]
    push_cast [hm]
    rfl
  rw [riseValue, hcast, u24Of, BitVec.ofInt_natCast]
  exact u24_toNat_ofNat (by omega)

theorem stepWah_up_of_lt (hst : w.wst = .up) (h : w.i.toNat + 1 < w.u.toNat) :
    stepWah w = { w with i := BitVec.ofNat 24 (w.i.toNat + 1), m := riseValue w (w.i.toNat + 1) } := by
  simp only [stepWah, hst, stepWahUp, ge_iff_le, if_neg h.not_ge, riseValue]

theorem stepWah_up_of_ge (hst : w.wst = .up) (h : w.u.toNat ≤ w.i.toNat + 1) :
    stepWah w =
      { w with wst := .down, i := BitVec.ofNat 24 (w.i.toNat + 1), m := riseValue w (w.i.toNat + 1) } := by
  simp only [stepWah, hst, stepWahUp, ge_iff_le, if_pos h, riseValue]

/-- Up to its last step the sweep's counter tells how many steps it has taken. -/
theorem stepWah_iterate_up (hst : w.wst = .up) (hi : w.i = 0) (hj : j < w.u.toNat) :
    ∃ i m : U24, stepWah^[j] w = { w with i := i, m := m } ∧ i.toNat = j ∧ (1 ≤ j → m = riseValue w j) := by
  induction j with
  | zero => exact ⟨w.i, w.m, rfl, congrArg BitVec.toNat hi, fun h => absurd h (by decide)⟩
  | succ j ih =>
    obtain ⟨i, m, heq, rfl, -⟩ := ih (Nat.lt_of_succ_lt hj)
    rw [Function.iterate_succ_apply', heq, stepWah_up_of_lt (w := { w with i := i, m := m }) hst hj]
    exact ⟨_, _, rfl, u24_toNat_ofNat (hj.trans w.u.isLt), fun _ => rfl⟩

theorem stepWah_iterate_top (hst : w.wst = .up) (hi : w.i = 0) (hu : 1 ≤ w.u.toNat) (hm : w.m0.toNat ≤ 8388608) :
    (stepWah^[w.u.toNat] w).wst = .down ∧ (stepWah^[w.u.toNat] w).m.toNat = 8388608 := by
  obtain ⟨j, hj⟩ := Nat.exists_eq_add_of_le' hu
  obtain ⟨i, m, heq, rfl, -⟩ := stepWah_iterate_up (j := j) hst hi (by omega)
  rw [hj, Function.iterate_succ_apply', heq, stepWah_up_of_ge (w := { w with i := i, m := m }) hst hj.le]
  refine ⟨rfl, (riseValue_toNat hm hj.ge).trans ?_⟩
  rw [hj, Nat.mul_div_cancel _ (Nat.succ_pos _)]
  omega

end Rise

/-! ### The sweep's fall (R322) -/

section Fall
variable {w : Wah}

/-- The value that R322 gives to a step of a fall. -/
def fallValue (w : Wah) : Int := asr (u24Int w.m * u24Int w.wk) 24

theorem stepWah_down (hst : w.wst = .down) :
    stepWah w = { w with m := u24Of (fallValue w), wst := if fallValue w = 0 then .idle else .down } := by
  simp only [stepWah, hst, stepWahDown, fallValue]
  split <;> simp [*]

theorem fallValue_range (w : Wah) : 0 ≤ fallValue w ∧ fallValue w ≤ u24Int w.m :=
  ⟨asr_mul_u24_nonneg (u24_range w.m).1 _, asr_mul_u24_le (u24_range w.m).1 _⟩

theorem u24Int_u24Of_fallValue (w : Wah) : u24Int (u24Of (fallValue w)) = fallValue w :=
  u24Int_u24Of (fallValue_range w).1 ((fallValue_range w).2.trans_lt (u24_range w.m).2)

theorem u24Of_fallValue_eq_zero_iff (w : Wah) : u24Of (fallValue w) = 0 ↔ fallValue w = 0 := by
  have hread : ((u24Of (fallValue w)).toNat : Int) = fallValue w := u24Int_u24Of_fallValue w
  have hzero : (0 : U24).toNat = 0 := rfl
  rw [← BitVec.toNat_inj, hzero]
  omega

/-- A fall ends because its value falls strictly until it is 0. -/
theorem stepWah_reaches_idle (w : Wah) (hst : w.wst = .down) :
    ∃ n : Nat, (stepWah^[n] w).wst = .idle ∧ (stepWah^[n] w).m = 0 := by
  by_cases hzero : fallValue w = 0
  · refine ⟨1, ?_⟩
    rw [Function.iterate_one, stepWah_down hst]
    exact ⟨if_pos hzero, (u24Of_fallValue_eq_zero_iff w).2 hzero⟩
  · have hpos : 1 ≤ u24Int w.m := by
      have := fallValue_range w
      omega
    have hfall : (stepWah w).m.toNat < w.m.toNat := by
      rw [stepWah_down hst]
      exact Int.ofNat_lt.1 ((u24Int_u24Of_fallValue w).trans_lt (asr_mul_u24_lt hpos w.wk))
    obtain ⟨n, hn⟩ := stepWah_reaches_idle (stepWah w) (by rw [stepWah_down hst]; exact if_neg hzero)
    exact ⟨n + 1, by rwa [Function.iterate_succ_apply]⟩
termination_by w.m.toNat

end Fall

/-- Settles O32: the rise counts its steps and follows the ramp of R321, the fall scales by a fraction. -/
theorem wahSweepRisesAndFalls : Obligations.WahSweepRisesAndFalls := by
  unfold Obligations.WahSweepRisesAndFalls
  refine ⟨fun w hst hi hu hm => ⟨fun j hpos hj => ?rise, stepWah_iterate_top hst hi hu hm⟩, fun w hst => ?fall⟩
  case rise =>
    obtain ⟨i, m, heq, hij, hmj⟩ := stepWah_iterate_up hst hi hj
    rw [heq, hmj hpos]
    exact ⟨hst, hij, riseValue_toNat hm hj.le⟩
  case fall =>
    refine ⟨?_, ?_, stepWah_reaches_idle w hst⟩
    · rw [stepWah_down hst]
      exact u24Int_u24Of_fallValue w
    · rw [stepWah_down hst, u24Of_fallValue_eq_zero_iff]
      simp

end Sys2Proof.Machine
end

section
/-! The datapath's invariants (10_state.md, 42_envelope.md): at most one voice of a string sounds, and parameters, slots and
sweep stay within their bounds. -/

namespace Sys2Proof.Machine

/-! ### What a slot undergoes -/

theorem releaseIf_of_sounding {cond : Bool} {k : Slot} (h : k.st.sounding = true) (hc : cond = true) :
    releaseIf cond k = releasedSlot k := by
  simp [releaseIf, h, hc]

theorem releaseIf_of_not {cond : Bool} {k : Slot} (h : ¬(k.st.sounding = true ∧ cond = true)) : releaseIf cond k = k := by
  simp only [releaseIf, Bool.and_eq_true, if_neg h]

/-- A release freezes the slot, or leaves it alone. -/
theorem releaseIf_cases (cond : Bool) (k : Slot) :
    (k.st.sounding = true ∧ cond = true ∧ releaseIf cond k = releasedSlot k) ∨
    (¬(k.st.sounding = true ∧ cond = true) ∧ releaseIf cond k = k) := by
  by_cases h : k.st.sounding = true ∧ cond = true
  · exact .inl ⟨h.1, h.2, releaseIf_of_sounding h.1 h.2⟩
  · exact .inr ⟨h, releaseIf_of_not h⟩

theorem releaseString_get (str : BitVec 2) (slots : SlotMap Slot) (k : SlotId) :
    (releaseString str slots).get k = releaseIf ((slots.get k).str == str) (slots.get k) :=
  SlotMap.get_tabulate _ k

theorem releaseSlot_get (j : SlotId) (slots : SlotMap Slot) (k : SlotId) :
    (releaseSlot j slots).get k = releaseIf (decide (k = j)) (slots.get k) :=
  SlotMap.get_tabulate _ k

/-- Every slot is released on some condition. -/
theorem releaseTarget_get (target : ReleaseTarget) (slots : SlotMap Slot) (k : SlotId) :
    ∃ cond, (releaseTarget target slots).get k = releaseIf cond (slots.get k) := by
  cases target with
  | string str => exact ⟨_, releaseString_get str slots k⟩
  | slot j => exact ⟨_, releaseSlot_get j slots k⟩

/-- A step of a slot moves its state, counter and gain only, and no voice starts to sound. -/
theorem stepSlot_cases (k : Slot) :
    ∃ st i g, stepSlot k = { k with st := st, i := i, g := g } ∧ (st.sounding = true → k.st.sounding = true) := by
  cases hst : k.st with
  | idle => exact ⟨.idle, k.i, 0, by rw [stepSlot_idle hst, ← hst], id⟩
  | attack =>
    by_cases h : k.i.toNat + 1 < k.a.toNat
    · exact ⟨.attack, _, _, by rw [stepSlot_attack_of_lt hst h, ← hst]; rfl, id⟩
    · exact ⟨.decay, _, _, stepSlot_attack_of_ge hst (not_lt.1 h), fun _ => rfl⟩
  | decay => exact ⟨_, _, _, stepSlot_decay hst, fun _ => rfl⟩
  | natural =>
    by_cases h : naturalGain k = 0
    · exact ⟨.tail, _, _, stepSlot_natural_of_eq_zero hst h, fun _ => rfl⟩
    · exact ⟨.natural, k.i, _, by rw [stepSlot_natural_of_ne_zero hst h, ← hst], fun _ => rfl⟩
  | release =>
    by_cases h : k.i.toNat + 1 < k.r.toNat
    · exact ⟨.release, _, _, by rw [stepSlot_release_of_lt hst h, ← hst]; rfl, id⟩
    · exact ⟨.tail, _, _, stepSlot_release_of_ge hst (not_lt.1 h), id⟩
  | tail =>
    by_cases h : k.i.toNat + 1 < k.m.toNat
    · exact ⟨.tail, _, _, by rw [stepSlot_tail_of_lt hst h, ← hst]; rfl, id⟩
    · exact ⟨.idle, _, _, stepSlot_tail_of_ge hst (not_lt.1 h), id⟩

/-! ### One voice per string (R313) -/

/-- Where no voice starts to sound or changes its string, there is still at most one per string. -/
theorem oneVoicePerString_of_quieter {s t : State}
    (hq : ∀ k, (t.slots.get k).st.sounding = true →
      (s.slots.get k).st.sounding = true ∧ (t.slots.get k).str = (s.slots.get k).str) (h : oneVoicePerString s) :
    oneVoicePerString t := by
  intro j k hj hk hstr
  obtain ⟨hj', hjstr⟩ := hq j hj
  obtain ⟨hk', hkstr⟩ := hq k hk
  exact h j k hj' hk' (by rw [← hjstr, ← hkstr, hstr])

theorem releaseIf_quieter {cond : Bool} {k : Slot} (h : (releaseIf cond k).st.sounding = true) :
    k.st.sounding = true ∧ (releaseIf cond k).str = k.str := by
  rcases releaseIf_cases cond k with ⟨-, -, e⟩ | ⟨-, e⟩ <;> rw [e] at h ⊢
  · cases h
  · exact ⟨h, rfl⟩

theorem startVoice_slots_get_self (k : SlotId) (n : BitVec 2) (tech : Tech) (s : State) :
    (startVoice k n tech s).slots.get k = triggeredSlot s n tech := by
  rw [startVoice_slots, SlotMap.get_set_self]

theorem startVoice_slots_get_ne {j k : SlotId} (h : j ≠ k) (n : BitVec 2) (tech : Tech) (s : State) :
    (startVoice k n tech s).slots.get j = releaseIf ((s.slots.get j).str == n) (s.slots.get j) := by
  rw [startVoice_slots, SlotMap.get_set_ne _ _ h, releaseString_get]

/-- The string of a new voice has no other sounding voice: those are released first. -/
theorem startVoice_other_string {j k : SlotId} (hjk : j ≠ k) {n : BitVec 2} {tech : Tech} {s : State}
    (h : ((startVoice k n tech s).slots.get j).st.sounding = true) : ((startVoice k n tech s).slots.get j).str ≠ n := by
  rw [startVoice_slots_get_ne hjk] at h ⊢
  rcases releaseIf_cases ((s.slots.get j).str == n) (s.slots.get j) with ⟨-, -, e⟩ | ⟨hnot, e⟩ <;> rw [e] at h ⊢
  · cases h
  · exact fun hstr => hnot ⟨h, beq_iff_eq.2 hstr⟩

theorem startVoice_oneVoicePerString (k : SlotId) (n : BitVec 2) (tech : Tech) {s : State} (h : oneVoicePerString s) :
    oneVoicePerString (startVoice k n tech s) := by
  intro j j' hj hj' hstr
  have hnew : ((startVoice k n tech s).slots.get k).str = n := by rw [startVoice_slots_get_self]; rfl
  by_cases e : j = k
  · by_contra hne
    subst e
    exact startVoice_other_string (Ne.symm hne) hj' (hstr.symm.trans hnew)
  · by_cases e' : j' = k
    · subst e'
      exact absurd (hstr.trans hnew) (startVoice_other_string e hj)
    · rw [startVoice_slots_get_ne e] at hj hstr
      rw [startVoice_slots_get_ne e'] at hj' hstr
      obtain ⟨hsound, hsame⟩ := releaseIf_quieter hj
      obtain ⟨hsound', hsame'⟩ := releaseIf_quieter hj'
      exact h j j' hsound hsound' (by rw [← hsame, ← hsame', hstr])

theorem reset_slots_get (k : SlotId) : State.reset.slots.get k = Slot.reset := SlotMap.get_tabulate _ k

theorem reset_oneVoicePerString : oneVoicePerString State.reset := fun j _ hj => by
  rw [reset_slots_get] at hj
  cases hj

/-- Settles O48: only NOTE_ON makes a voice sound, after it has released the others of the string. -/
theorem stepKeepsOneVoicePerString : Obligations.StepKeepsOneVoicePerString := by
  unfold Obligations.StepKeepsOneVoicePerString
  intro s t
  refine step_keeps_of_datapath (P := oneVoicePerString) (fun h hs => ?same) reset_oneVoicePerString (fun p value s h => ?set)
    (fun k n tech s _ h => startVoice_oneVoicePerString k n tech h) (fun target s h => ?release) (fun s h => ?finish)
  case same => exact oneVoicePerString_of_quieter (fun k hk => by rw [hs.slots] at hk ⊢; exact ⟨hk, rfl⟩) h
  case set => exact oneVoicePerString_of_quieter (fun k hk => by rw [setParam_slots] at hk ⊢; exact ⟨hk, rfl⟩) h
  case release =>
    refine oneVoicePerString_of_quieter (fun k hk => ?_) h
    obtain ⟨cond, e⟩ := releaseTarget_get target s.slots k
    rw [e] at hk ⊢
    exact releaseIf_quieter hk
  case finish =>
    refine oneVoicePerString_of_quieter (fun k hk => ?_) h
    rw [finishTick_slots, SlotMap.get_tabulate] at hk ⊢
    obtain ⟨st, i, g, e, hsound⟩ := stepSlot_cases (s.slots.get k)
    rw [e] at hk ⊢
    exact ⟨hsound hk, rfl⟩

/-! ### Parameters (R50, R53) -/

theorem paramsInRange_of_fields {s t : State} (htgt : t.tgt = s.tgt) (hcur : t.cur = s.cur) (h : paramsInRange s) :
    paramsInRange t := by
  intro p
  simp only [tgtInt, curInt, htgt, hcur]
  exact h p

theorem payloadValue_range (p : Param) (value : Word) :
    p.low ≤ payloadValue p value ∧ payloadValue p value ≤ p.high := clamp_range p.low_le_high

theorem int_set_range {m : ParamFile} {p q : FileParam} {v : Int} (hv : p.low ≤ v ∧ v ≤ p.high)
    (h : q.low ≤ m.int q ∧ m.int q ≤ q.high) :
    q.low ≤ (m.set p (paramWord v)).int q ∧ (m.set p (paramWord v)).int q ≤ q.high := by
  by_cases e : q = p
  · subst e
    rwa [int_set_self m hv.1 hv.2]
  · rwa [int_set_ne m _ e]

theorem setParam_paramsInRange (p : Param) (value : Word) {s : State} (h : paramsInRange s) :
    paramsInRange (setParam p (payloadValue p value) s) := by
  cases p with
  | irLen =>
    refine paramsInRange_of_fields ?_ ?_ h
    all_goals simp [setParam]
  | file q =>
    have hv := payloadValue_range (.file q) value
    intro p
    obtain ⟨htlo, hthi, hclo, hchi⟩ := h p
    have htgt := int_set_range (m := s.tgt) hv ⟨htlo, hthi⟩
    cases hq : q.cls with
    | S =>
      rw [setParam_of_cls_S hq]
      exact ⟨htgt.1, htgt.2, hclo, hchi⟩
    | I =>
      rw [setParam_of_cls_I hq]
      have hcur := int_set_range (m := s.cur) hv ⟨hclo, hchi⟩
      exact ⟨htgt.1, htgt.2, hcur.1, hcur.2⟩

theorem curInt_smoothPhase_range {s : State} (h : paramsInRange s) (p : FileParam) :
    p.low ≤ curInt (smoothPhase s) p ∧ curInt (smoothPhase s) p ≤ p.high := by
  cases hp : p.cls with
  | S =>
    rw [curInt_smoothPhase_of_S h hp]
    exact smoothedValue_range h p
  | I =>
    rw [curInt_smoothPhase_of_I hp]
    exact (h p).2.2

theorem finishTick_paramsInRange {s : State} (h : paramsInRange s) : paramsInRange (finishTick s) := by
  refine paramsInRange_of_fields (s := { s with cur := (smoothPhase s).cur }) ?_ ?_ fun p => ?_
  · rw [finishTick_tgt]
  · rw [finishTick_cur, smoothPhase_cur]
  · obtain ⟨htlo, hthi, -, -⟩ := h p
    obtain ⟨hclo, hchi⟩ := curInt_smoothPhase_range h p
    exact ⟨htlo, hthi, hclo, hchi⟩

theorem reset_paramsInRange : paramsInRange State.reset := by
  intro p
  have htgt : tgtInt State.reset p = p.resetValue := int_reset p
  have hcur : curInt State.reset p = p.resetValue := int_reset p
  rw [htgt, hcur]
  exact ⟨p.resetValue_range.1, p.resetValue_range.2, p.resetValue_range⟩

/-! ### Slots (R62, R312) -/

/-- The bounds of the counter and the gain in the slot's state. -/
def phaseInRange (k : Slot) : Prop :=
  match k.st with
  | .idle => k.g = 0
  | .attack => k.i.toNat < k.a.toNat
  | .decay => k.s.toNat ≤ k.g.toNat ∧ k.i.toNat < k.d.toNat
  | .natural => True
  | .release => k.i.toNat < k.r.toNat
  | .tail => k.g = 0 ∧ k.i.toNat < k.m.toNat

theorem slotInRange_iff {k : Slot} :
    slotInRange k ↔
      k.ceil.toNat ≤ 8388608 ∧ k.s.toNat ≤ k.ceil.toNat ∧ k.g.toNat ≤ k.ceil.toNat ∧ k.gf.toNat ≤ k.ceil.toNat ∧
      (k.st ≠ .idle → 1 ≤ k.a.toNat ∧ 1 ≤ k.d.toNat ∧ 1 ≤ k.r.toNat ∧ 1 ≤ k.m.toNat) ∧ phaseInRange k := by
  unfold slotInRange phaseInRange
  cases hst : k.st <;> simp

/-- A slot that moves on from a state other than IDLE keeps its bounds where the new gain and the new state's do. -/
theorem slotInRange_of_moved {k : Slot} (h : slotInRange k) (hst : k.st ≠ .idle) {st : EnvState} {i g : U24}
    (hg : g.toNat ≤ k.ceil.toNat) (hphase : phaseInRange { k with st := st, i := i, g := g }) :
    slotInRange { k with st := st, i := i, g := g } := by
  obtain ⟨hceil, hs, -, hgf, hlen, -⟩ := slotInRange_iff.1 h
  exact slotInRange_iff.2 ⟨hceil, hs, hg, hgf, fun _ => hlen hst, hphase⟩

section SlotSteps
variable {k : Slot} (h : slotInRange k)
include h

theorem stepSlot_attack_inRange (hst : k.st = .attack) : slotInRange (stepSlot k) := by
  obtain ⟨-, hs, -, -, hlen, hphase⟩ := slotInRange_iff.1 h
  have hne : k.st ≠ .idle := by simp [hst]
  obtain ⟨-, hd, -, -⟩ := hlen hne
  have hi : k.i.toNat < k.a.toNat := by simpa [phaseInRange, hst] using hphase
  by_cases hlt : k.i.toNat + 1 < k.a.toNat
  · have hgain : (attackGain k (k.i.toNat + 1)).toNat ≤ k.ceil.toNat := by
      rw [attackGain_toNat hlt.le]
      exact ramp_le hlt.le
    rw [stepSlot_attack_of_lt hst hlt]
    refine slotInRange_of_moved h hne (st := k.st) hgain ?_
    simp only [phaseInRange, hst]
    rwa [u24_toNat_ofNat (hlt.trans k.a.isLt)]
  · rw [stepSlot_attack_last hst (by omega)]
    exact slotInRange_of_moved h hne le_rfl ⟨hs, hd⟩

theorem stepSlot_decay_inRange (hst : k.st = .decay) : slotInRange (stepSlot k) := by
  obtain ⟨-, -, hg, -, -, hphase⟩ := slotInRange_iff.1 h
  have hne : k.st ≠ .idle := by simp [hst]
  obtain ⟨hs, hi⟩ : k.s.toNat ≤ k.g.toNat ∧ k.i.toNat < k.d.toNat := by simpa [phaseInRange, hst] using hphase
  obtain ⟨hlo, hhi⟩ := decayGain_range hs
  rw [← u24Int_u24Of_decayGain hs] at hlo hhi
  have hlo' : k.s.toNat ≤ (u24Of (decayGain k)).toNat := Int.ofNat_le.1 hlo
  have hhi' : (u24Of (decayGain k)).toNat ≤ k.g.toNat := Int.ofNat_le.1 hhi
  rw [stepSlot_decay hst]
  refine slotInRange_of_moved h hne (hhi'.trans hg) ?_
  by_cases hend : k.d.toNat ≤ k.i.toNat + 1
  · simp only [phaseInRange, if_pos hend]
  · simp only [phaseInRange, if_neg hend]
    exact ⟨hlo', (u24_toNat_ofNat ((not_le.1 hend).trans k.d.isLt)).trans_lt (not_le.1 hend)⟩

theorem stepSlot_natural_inRange (hst : k.st = .natural) : slotInRange (stepSlot k) := by
  obtain ⟨-, -, hg, -, hlen, -⟩ := slotInRange_iff.1 h
  have hne : k.st ≠ .idle := by simp [hst]
  obtain ⟨-, -, -, hm⟩ := hlen hne
  by_cases hzero : naturalGain k = 0
  · rw [stepSlot_natural_of_eq_zero hst hzero]
    exact slotInRange_of_moved h hne (Nat.zero_le _) ⟨rfl, hm⟩
  · have hread := u24Int_stepSlot_natural_g hst
    have hle : naturalGain k ≤ u24Int k.g := asr_mul_u24_le (u24_range k.g).1 _
    rw [stepSlot_natural_of_ne_zero hst hzero] at hread ⊢
    have hgain : (u24Of (naturalGain k)).toNat ≤ k.g.toNat := Int.ofNat_le.1 (hread.trans_le hle)
    refine slotInRange_of_moved h hne (st := k.st) (i := k.i) (hgain.trans hg) ?_
    simp only [phaseInRange, hst]

theorem stepSlot_release_inRange (hst : k.st = .release) : slotInRange (stepSlot k) := by
  obtain ⟨-, -, -, hgf, hlen, hphase⟩ := slotInRange_iff.1 h
  have hne : k.st ≠ .idle := by simp [hst]
  obtain ⟨-, -, -, hm⟩ := hlen hne
  have hi : k.i.toNat < k.r.toNat := by simpa [phaseInRange, hst] using hphase
  by_cases hlt : k.i.toNat + 1 < k.r.toNat
  · have hgain : (releaseGain k (k.i.toNat + 1)).toNat ≤ k.ceil.toNat := by
      rw [releaseGain_toNat hlt.le]
      exact (Nat.sub_le _ _).trans hgf
    rw [stepSlot_release_of_lt hst hlt]
    refine slotInRange_of_moved h hne (st := k.st) hgain ?_
    simp only [phaseInRange, hst]
    rwa [u24_toNat_ofNat (hlt.trans k.r.isLt)]
  · rw [stepSlot_release_last hst (by omega)]
    exact slotInRange_of_moved h hne (Nat.zero_le _) ⟨rfl, hm⟩

theorem stepSlot_tail_inRange (hst : k.st = .tail) : slotInRange (stepSlot k) := by
  have hne : k.st ≠ .idle := by simp [hst]
  by_cases hlt : k.i.toNat + 1 < k.m.toNat
  · rw [stepSlot_tail_of_lt hst hlt]
    refine slotInRange_of_moved h hne (st := k.st) (Nat.zero_le _) ?_
    simp only [phaseInRange, hst]
    exact ⟨trivial, by rwa [u24_toNat_ofNat (hlt.trans k.m.isLt)]⟩
  · rw [stepSlot_tail_of_ge hst (not_lt.1 hlt)]
    exact slotInRange_of_moved h hne (Nat.zero_le _) rfl

theorem stepSlot_idle_inRange (hst : k.st = .idle) : slotInRange (stepSlot k) := by
  have hg : k.g = 0 := slotInRange_silent h (.inl hst)
  rw [stepSlot_idle hst, ← hg]
  exact h

theorem stepSlot_inRange : slotInRange (stepSlot k) := by
  cases hst : k.st with
  | idle => exact stepSlot_idle_inRange h hst
  | attack => exact stepSlot_attack_inRange h hst
  | decay => exact stepSlot_decay_inRange h hst
  | natural => exact stepSlot_natural_inRange h hst
  | release => exact stepSlot_release_inRange h hst
  | tail => exact stepSlot_tail_inRange h hst

/-- A release starts from the gain, which is below the ceiling. -/
theorem releaseIf_inRange (cond : Bool) : slotInRange (releaseIf cond k) := by
  rcases releaseIf_cases cond k with ⟨hsound, -, e⟩ | ⟨-, e⟩ <;> rw [e]
  · obtain ⟨hceil, hs, hg, -, hlen, -⟩ := slotInRange_iff.1 h
    have hne : k.st ≠ .idle := fun hst => by
      rw [hst] at hsound
      cases hsound
    obtain ⟨ha, hd, hr, hm⟩ := hlen hne
    exact slotInRange_iff.2 ⟨hceil, hs, hg, hg, fun _ => ⟨ha, hd, hr, hm⟩, hr⟩
  · exact h

end SlotSteps

/-! ### A new voice (R302) -/

section Latched
variable {s : State} (h : paramsInRange s)
include h

/-- A legal value of a parameter with at most 24 bits is latched as it is. -/
theorem latched_of_range {p : FileParam} (hlo : 0 ≤ p.low) (hhi : p.high < 16777216) :
    u24Int (u24Of (curInt s p)) = curInt s p ∧ p.low ≤ curInt s p ∧ curInt s p ≤ p.high := by
  obtain ⟨-, -, hlo', hhi'⟩ := h p
  exact ⟨u24Int_u24Of (by omega) (by omega), hlo', hhi'⟩

theorem latched_ceil : u24Int (u24Of (curInt s .egCeil)) = curInt s .egCeil ∧ 0 ≤ curInt s .egCeil ∧
    curInt s .egCeil ≤ 8388608 :=
  latched_of_range h (p := .egCeil) (by norm_num [FileParam.low]) (by norm_num [FileParam.high])

/-- The sustain level is a fraction of the ceiling. -/
theorem sustain_range (tech : Tech) : 0 ≤ asr (curInt s .egCeil * curInt s (.tech tech .sus)) 23 ∧
    asr (curInt s .egCeil * curInt s (.tech tech .sus)) 23 ≤ curInt s .egCeil := by
  obtain ⟨-, hlo, -⟩ := latched_ceil h
  obtain ⟨-, -, hlo', hhi'⟩ := h (.tech tech .sus)
  simp only [FileParam.low, FileParam.high] at hlo' hhi'
  refine ⟨asr_nonneg 23 (mul_nonneg hlo hlo'), ?_⟩
  calc asr (curInt s .egCeil * curInt s (.tech tech .sus)) 23
    _ ≤ asr (curInt s .egCeil * ((2 ^ 23 : Nat) : Int)) 23 := asr_mono 23 (mul_le_mul_of_nonneg_left (by omega) hlo)
    _ = curInt s .egCeil := Int.mul_ediv_cancel _ (by decide)

theorem latched_sustain (tech : Tech) :
    u24Int (u24Of (asr (curInt s .egCeil * curInt s (.tech tech .sus)) 23)) =
      asr (curInt s .egCeil * curInt s (.tech tech .sus)) 23 := by
  obtain ⟨-, -, hceil⟩ := latched_ceil h
  obtain ⟨hlo, hhi⟩ := sustain_range h tech
  exact u24Int_u24Of hlo (by omega)

theorem triggeredSlot_inRange (n : BitVec 2) (tech : Tech) : slotInRange (triggeredSlot s n tech) := by
  obtain ⟨hceil, hceilLo, hceilHi⟩ := latched_ceil h
  obtain ⟨hsusLo, hsusHi⟩ := sustain_range h tech
  have hsus := latched_sustain h tech
  have hone {p : FileParam} (hlo : p.low = 1) (hhi : p.high < 16777216) : 1 ≤ (u24Of (curInt s p)).toNat := by
    have := latched_of_range h (p := p) (by omega) hhi
    simp only [u24Int] at this
    omega
  have ha := hone (p := .tech tech .aLen) rfl (by norm_num [FileParam.high])
  have hd := hone (p := .tech tech .dLen) rfl (by norm_num [FileParam.high])
  have hr := hone (p := .egRelLen) rfl (by norm_num [FileParam.high])
  have hm := hone (p := .egMarginLen) rfl (by norm_num [FileParam.high])
  simp only [u24Int] at hceil hsus
  refine slotInRange_iff.2 ⟨?_, ?_, Nat.zero_le _, Nat.zero_le _, fun _ => ⟨ha, hd, hr, hm⟩, ha⟩
  · show (u24Of (curInt s .egCeil)).toNat ≤ 8388608
    omega
  · show (u24Of (asr (curInt s .egCeil * curInt s (.tech tech .sus)) 23)).toNat ≤ (u24Of (curInt s .egCeil)).toNat
    omega

end Latched

theorem startVoice_slotsInRange {s : State} (hp : paramsInRange s) (h : slotsInRange s) (k : SlotId) (n : BitVec 2)
    (tech : Tech) : slotsInRange (startVoice k n tech s) := by
  intro j
  by_cases e : j = k
  · subst e
    rw [startVoice_slots_get_self]
    exact triggeredSlot_inRange hp n tech
  · rw [startVoice_slots_get_ne e]
    exact releaseIf_inRange (h j) _

theorem reset_slotsInRange : slotsInRange State.reset := fun k => by
  rw [reset_slots_get]
  exact slotInRange_iff.2 ⟨by decide, by decide, by decide, by decide, fun h => absurd rfl h, rfl⟩

/-! ### The sweep (R63, R320 to R322) -/

/-- The bounds of the sweep. -/
def sweepInRange (w : Wah) : Prop :=
  w.m.toNat ≤ 8388608 ∧ w.m0.toNat ≤ 8388608 ∧ (w.wst = .up → w.i.toNat < w.u.toNat) ∧ (w.wst = .idle → w.m = 0)

theorem riseValue_le {w : Wah} {j : Nat} (hm : w.m0.toNat ≤ 8388608) (hj : j ≤ w.u.toNat) :
    (riseValue w j).toNat ≤ 8388608 := by
  have hramp : (8388608 - w.m0.toNat) * j / w.u.toNat ≤ 8388608 - w.m0.toNat := ramp_le hj
  rw [riseValue_toNat hm hj]
  omega

theorem stepWah_inRange {w : Wah} (h : sweepInRange w) : sweepInRange (stepWah w) := by
  obtain ⟨hm, hm0, hup, hidle⟩ := h
  cases hst : w.wst with
  | up =>
    have hi := hup hst
    by_cases hlt : w.i.toNat + 1 < w.u.toNat
    · rw [stepWah_up_of_lt hst hlt]
      refine ⟨riseValue_le hm0 hi, hm0, fun _ => ?_, fun he => ?_⟩
      · rwa [u24_toNat_ofNat (hlt.trans w.u.isLt)]
      · rw [hst] at he
        cases he
    · rw [stepWah_up_of_ge hst (not_lt.1 hlt)]
      exact ⟨riseValue_le hm0 hi, hm0, nofun, nofun⟩
  | down =>
    have hread : ((u24Of (fallValue w)).toNat : Int) = fallValue w := u24Int_u24Of_fallValue w
    have hle : fallValue w ≤ (w.m.toNat : Int) := (fallValue_range w).2
    rw [stepWah_down hst]
    refine ⟨?_, hm0, fun he => ?_, fun he => ?_⟩
    · show (u24Of (fallValue w)).toNat ≤ 8388608
      omega
    · split at he <;> cases he
    · rw [u24Of_fallValue_eq_zero_iff]
      by_contra hne
      simp [hne] at he
  | idle =>
    have hstep : stepWah w = { w with m := 0 } := by simp only [stepWah, hst]
    rw [hstep]
    refine ⟨Nat.zero_le _, hm0, fun he => ?_, fun _ => rfl⟩
    rw [hst] at he
    cases he

theorem startVoice_wahInRange {s : State} (hp : paramsInRange s) (h : wahInRange s) (k : SlotId) (n : BitVec 2)
    (tech : Tech) : wahInRange (startVoice k n tech s) := by
  obtain ⟨hm, -⟩ := id h
  have hlen := latched_of_range hp (p := .wahUpLen) (by norm_num [FileParam.low]) (by norm_num [FileParam.high])
  simp only [u24Int, FileParam.low] at hlen
  have hpos : 0 < (u24Of (curInt s .wahUpLen)).toNat := by omega
  show sweepInRange (startVoice k n tech s).wah
  rw [startVoice_wah]
  split
  · exact ⟨hm, hm, fun _ => hpos, nofun⟩
  · exact h

/-! ### All of them -/

theorem reset_datapathInRange : datapathInRange State.reset :=
  ⟨reset_paramsInRange, reset_slotsInRange, Nat.zero_le _, Nat.zero_le _, nofun, fun _ => rfl⟩

/-- Settles O45: parameters are clamped and approach legal targets; slots and sweep latch legal values, and their steps stay
within what is latched. -/
theorem stepKeepsDatapathInRange : Obligations.StepKeepsDatapathInRange := by
  unfold Obligations.StepKeepsDatapathInRange
  intro s t
  refine step_keeps_of_datapath (P := datapathInRange) ?same reset_datapathInRange ?set ?start ?release ?finish
  case same =>
    rintro s t ⟨hp, hs, hw⟩ hsame
    refine ⟨paramsInRange_of_fields hsame.tgt hsame.cur hp, fun k => ?_, ?_⟩
    · rw [hsame.slots]
      exact hs k
    · show sweepInRange t.wah
      rw [hsame.wah]
      exact hw
  case set =>
    rintro p value s ⟨hp, hs, hw⟩
    refine ⟨setParam_paramsInRange p value hp, fun k => ?_, ?_⟩
    · rw [setParam_slots]
      exact hs k
    · show sweepInRange (setParam p (payloadValue p value) s).wah
      rw [setParam_wah]
      exact hw
  case start =>
    rintro k n tech s - ⟨hp, hs, hw⟩
    refine ⟨paramsInRange_of_fields (startVoice_tgt k n tech s) (startVoice_cur k n tech s) hp,
      startVoice_slotsInRange hp hs k n tech, startVoice_wahInRange hp hw k n tech⟩
  case release =>
    rintro target s ⟨hp, hs, hw⟩
    refine ⟨hp, fun k => ?_, hw⟩
    obtain ⟨cond, e⟩ := releaseTarget_get target s.slots k
    show slotInRange ((releaseTarget target s.slots).get k)
    rw [e]
    exact releaseIf_inRange (hs k) cond
  case finish =>
    rintro s ⟨hp, hs, hw⟩
    refine ⟨finishTick_paramsInRange hp, fun k => ?_, ?_⟩
    · rw [finishTick_slots, SlotMap.get_tabulate]
      exact stepSlot_inRange (hs k)
    · show sweepInRange (finishTick s).wah
      rw [finishTick_wah]
      exact stepWah_inRange hw

end Sys2Proof.Machine
end

section
/-! The commands' effects (40_commands.md section 2): SETP, NOTE_ON, RELEASE, SWAP and SYNC with legal operands. -/

namespace Sys2Proof.Machine

/-! ### SETP (R210) -/

theorem exec_setp (p : Param) (value : Word) (s : State) :
    exec (.setp 0 p.id value) s = .next (setParam p (payloadValue p value) s) := by
  rcases execSetp_cases 0 p.id value s with ⟨hne, -⟩ | ⟨-, hnone, -⟩ | ⟨q, -, hq, e⟩
  · exact absurd rfl hne
  · rw [Param.ofId?_id] at hnone
    cases hnone
  · rw [Param.ofId?_id] at hq
    cases hq
    exact e

theorem int_set_payload (m : ParamFile) (p : FileParam) (value : Word) :
    (m.set p (paramWord (payloadValue (.file p) value))).int p = clamp (p.format.read value) p.low p.high :=
  int_set_self m (payloadValue_range (.file p) value).1 (payloadValue_range (.file p) value).2

/-- Settles O12: by the parameter's class, which says whether the current file is set beside the target file. -/
theorem setpSetsParameter : Obligations.SetpSetsParameter := by
  unfold Obligations.SetpSetsParameter
  refine ⟨fun p value s hp => ?smoothed, fun p value s hp => ?immediate⟩
  case smoothed =>
    rw [exec_setp, setParam_of_cls_S hp]
    exact ⟨_, rfl, int_set_payload s.tgt p value, fun q hq => ParamFile.get_set_ne _ _ hq, rfl,
      sameMemory_of_fields rfl rfl⟩
  case immediate =>
    rw [exec_setp, setParam_of_cls_I hp]
    exact ⟨_, rfl, int_set_payload s.tgt p value, (int_set_payload s.cur p value).trans (int_set_payload s.tgt p value).symm,
      fun q hq => ⟨ParamFile.get_set_ne _ _ hq, ParamFile.get_set_ne _ _ hq⟩, rfl, sameMemory_of_fields rfl rfl⟩

theorem payloadValue_irLen (value : Word) : payloadValue .irLen value = ((min value.toNat 131072 : Nat) : Int) := by
  show min (max (value.toNat : Int) 0) (Config.IR_MAX_LEN : Int) = _
  simp only [Config.IR_MAX_LEN]
  omega

/-- Setting the length of one impulse bank leaves the other's. -/
theorem setIrLen_spec (b : Bool) (v : U24) (s : State) :
    irLenOf (setIrLen b v s) b = v ∧ irLenOf (setIrLen b v s) (!b) = irLenOf s (!b) ∧
    { setIrLen b v s with irLen0 := s.irLen0, irLen1 := s.irLen1 } = s := by
  cases b <;> exact ⟨rfl, rfl, rfl⟩

/-- Settles O13: id 7 is IR_LEN, whose payload is clamped to the history's length and stored for the shadow bank. -/
theorem setpSetsShadowImpulseLength : Obligations.SetpSetsShadowImpulseLength := by
  unfold Obligations.SetpSetsShadowImpulseLength
  intro value s
  obtain ⟨hshadow, hactive, hframe⟩ := setIrLen_spec (!(irBank s)) (u24Of (payloadValue .irLen value)) s
  rw [Bool.not_not] at hactive
  refine ⟨_, exec_setp .irLen value s, ?_, hactive, hframe,
    sameMemory_of_fields (setParam_tables _ _ s) (setParam_chans _ _ s)⟩
  refine (congrArg BitVec.toNat hshadow).trans ?_
  rw [payloadValue_irLen, u24Of, BitVec.ofInt_natCast]
  exact u24_toNat_ofNat (by omega)

/-! ### Operands as they are written (R162, R167) -/

theorem techOperand?_asm (tech : Tech) : techOperand? (BitVec.ofNat 4 tech.num) = some tech := by
  cases tech <;> rfl

theorem strOperand?_asm (str : BitVec 2) : strOperand? (str.zeroExtend 4) = some str := by
  decide +revert

theorem slotOperand?_asm (k : SlotId) : slotOperand? (BitVec.ofNat 4 k.num) = some k := by
  cases k <;> rfl

theorem sounding_iff_mayRelease {k : Slot} : k.st.sounding = true ↔ mayRelease k := by
  unfold mayRelease
  cases k.st <;> simp [EnvState.sounding]

/-- A release on a condition freezes the slot where it may be released, and only there. -/
theorem releaseIf_frozen {cond : Bool} {k : Slot} :
    (mayRelease k → cond = true → releaseIf cond k = frozen k) ∧
    (¬(mayRelease k ∧ cond = true) → releaseIf cond k = k) := by
  simp only [← sounding_iff_mayRelease]
  exact ⟨releaseIf_of_sounding, releaseIf_of_not⟩

/-! ### NOTE_ON (R212) -/

theorem exec_asmNoteOn {k : SlotId} {s : State} (hidle : (s.slots.get k).st = .idle) (str : BitVec 2) (tech : Tech) :
    exec (asmNoteOn k str tech) s = .next (startVoice k str tech s) := by
  rcases execNoteOn_cases 0 (BitVec.ofNat 4 tech.num) (str.zeroExtend 4) (BitVec.ofNat 4 k.num) s with
    ⟨hne, -⟩ | ⟨-, hnone, -⟩ | ⟨t, n, j, -, ht, hn, hj, hcases⟩
  · exact absurd rfl hne
  · simp [techOperand?_asm, strOperand?_asm, slotOperand?_asm] at hnone
  · obtain rfl : tech = t := Option.some.inj ((techOperand?_asm tech).symm.trans ht)
    obtain rfl : str = n := Option.some.inj ((strOperand?_asm str).symm.trans hn)
    obtain rfl : k = j := Option.some.inj ((slotOperand?_asm k).symm.trans hj)
    rcases hcases with ⟨hbusy, -⟩ | ⟨-, e⟩
    · exact absurd hidle hbusy
    · exact e

theorem startVoice_frame (k : SlotId) (str : BitVec 2) (tech : Tech) (s : State) :
    { startVoice k str tech s with slots := s.slots, wah := s.wah } = s := rfl

theorem startVoice_wah_enabled {s : State} (h : tgtInt s (.en .autowah) = 1) (k : SlotId) (str : BitVec 2) (tech : Tech) :
    (startVoice k str tech s).wah = triggeredWah s := if_pos h

theorem startVoice_wah_disabled {s : State} (h : tgtInt s (.en .autowah) ≠ 1) (k : SlotId) (str : BitVec 2) (tech : Tech) :
    (startVoice k str tech s).wah = s.wah := if_neg h

/-- Settles O14: the triggered slot latches legal values as they are; the others are the string's release, and the sweep is
triggered by the enable's target. -/
theorem noteOnStartsVoice : Obligations.NoteOnStartsVoice := by
  unfold Obligations.NoteOnStartsVoice
  intro tech str k s hp hidle
  have latched {p : FileParam} (hfits : 0 ≤ p.low ∧ p.high < 16777216 := by norm_num [FileParam.low, FileParam.high]) :
      u24Int (u24Of (curInt s p)) = curInt s p := (latched_of_range hp hfits.1 hfits.2).1
  have hother {j : SlotId} (hj : j ≠ k) := startVoice_slots_get_ne hj str tech s
  refine ⟨_, exec_asmNoteOn hidle str tech, ?slot, fun j hj hmay hstr => ?released, fun j hj hnot => ?kept,
    fun hen => ?swept, fun hen => startVoice_wah_disabled hen k str tech, startVoice_frame k str tech s,
    sameMemory_of_fields rfl rfl⟩
  case slot =>
    rw [startVoice_slots_get_self]
    exact ⟨rfl, rfl, rfl, rfl, rfl, rfl, latched, latched, latched, latched, latched_sustain hp tech, latched, latched,
      latched⟩
  case released =>
    rw [hother hj]
    exact releaseIf_frozen.1 hmay (beq_iff_eq.2 hstr)
  case kept =>
    rw [hother hj]
    exact releaseIf_frozen.2 (by rwa [beq_iff_eq])
  case swept =>
    rw [startVoice_wah_enabled hen]
    exact ⟨rfl, rfl, rfl, rfl, latched, latched⟩

/-! ### RELEASE (R214) -/

theorem exec_release {bySlot : BitVec 1} {tgt : BitVec 4} {t : ReleaseTarget} (h : releaseOperand? bySlot tgt = some t)
    (s : State) : exec (.release 0 bySlot 0 tgt) s = .next { s with slots := releaseTarget t s.slots } := by
  rcases execRelease_cases 0 bySlot 0 tgt s with ⟨hne, -⟩ | ⟨-, -, hnone, -⟩ | ⟨u, -, -, hu, e⟩
  · exact absurd (hne.resolve_left fun h => h rfl) fun h => h rfl
  · rw [h] at hnone
    cases hnone
  · rw [h] at hu
    cases hu
    exact e

theorem releaseOperand?_string (str : BitVec 2) : releaseOperand? 0 (str.zeroExtend 4) = some (.string str) := by
  rw [releaseOperand?, if_neg (by decide), strOperand?_asm, Option.map_some]

theorem releaseOperand?_slot (k : SlotId) : releaseOperand? 1 (BitVec.ofNat 4 k.num) = some (.slot k) := by
  rw [releaseOperand?, if_pos rfl, slotOperand?_asm, Option.map_some]

theorem exec_asmReleaseS (str : BitVec 2) (s : State) :
    exec (asmReleaseS str) s = .next { s with slots := releaseString str s.slots } :=
  exec_release (releaseOperand?_string str) s

theorem exec_asmReleaseV (k : SlotId) (s : State) :
    exec (asmReleaseV k) s = .next { s with slots := releaseSlot k s.slots } :=
  exec_release (releaseOperand?_slot k) s

/-- Settles O15: each slot is released on a condition, its string or its number. -/
theorem releaseFreezesGain : Obligations.ReleaseFreezesGain := by
  unfold Obligations.ReleaseFreezesGain
  refine ⟨fun str s => ⟨_, exec_asmReleaseS str s, fun j hmay hstr => ?_, fun j hnot => ?_, rfl,
    sameMemory_of_fields rfl rfl⟩, fun k s => ⟨_, exec_asmReleaseV k s, fun hmay => ?_, fun hnot => ?_, fun j hj => ?_, rfl,
    sameMemory_of_fields rfl rfl⟩⟩
  · exact (releaseString_get str s.slots j).trans (releaseIf_frozen.1 hmay (beq_iff_eq.2 hstr))
  · exact (releaseString_get str s.slots j).trans (releaseIf_frozen.2 (by rwa [beq_iff_eq]))
  · exact (releaseSlot_get k s.slots k).trans (releaseIf_frozen.1 hmay (decide_eq_true rfl))
  · exact (releaseSlot_get k s.slots k).trans (releaseIf_frozen.2 fun h => hnot h.1)
  · exact (releaseSlot_get k s.slots j).trans (releaseIf_frozen.2 fun h => hj (of_decide_eq_true h.2))

/-! ### SWAP (R213) -/

theorem exec_asmSwap (mask : BitVec 5) (s : State) :
    exec (asmSwap mask) s = .next { s with bank := swapBanks s.bank mask } := rfl

theorem swapBanks_getLsbD (bank mask : BitVec 5) (b : Nat) :
    (swapBanks bank mask).getLsbD b = (bank.getLsbD b ^^ mask.getLsbD b) := BitVec.getLsbD_xor

/-- Settles O16: a bank bit is the exclusive or of the old bit and the mask's, and the tables and lengths are read by it. -/
theorem swapInvertsBanks : Obligations.SwapInvertsBanks := by
  unfold Obligations.SwapInvertsBanks
  intro mask s
  have hbank := swapBanks_getLsbD s.bank mask
  refine ⟨_, exec_asmSwap mask s, fun b _ => hbank b, fun c i hmask => ?_, fun c i hmask => ?_, fun hmask => ?_, rfl,
    sameMemory_of_fields rfl rfl⟩
  · show (tableRead s (.curve c) ((swapBanks s.bank mask).getLsbD c.num) i).toInt = _
    rw [hbank, hmask, Bool.xor_true]
  · show (tableRead s (.curve c) ((swapBanks s.bank mask).getLsbD c.num) i).toInt =
      (tableRead s (.curve c) (s.bank.getLsbD c.num) i).toInt
    rw [hbank, hmask, Bool.xor_false]
  · have hir : irBank { s with bank := swapBanks s.bank mask } = !(irBank s) :=
      (hbank 4).trans (by rw [hmask, Bool.xor_true]; rfl)
    simp only [curWord, tgtWord, hir, Bool.not_not]
    exact ⟨rfl, rfl⟩

/-! ### SYNC (R216) -/

theorem exec_asmSync (lmask : BitVec 3) (s : State) :
    exec (asmSync lmask) s = .next { s with ph := syncPhases lmask s.ph } := rfl

theorem syncPhases_get (lmask : BitVec 3) (ph : LfoMap Word) (k : Lfo) :
    (syncPhases lmask ph).get k = if lmask.getLsbD k.num then 0 else ph.get k :=
  LfoMap.get_tabulate _ k

/-- At phase 0 the interpolation starts at entry 0 (R341). -/
theorem lfoOutput_zero (s : State) : lfoOutput s 0 = (tableRead s .lfoWave false 0).toInt := by
  show lerp (waveEntry s 0) (waveEntry s 1) 0 16 = _
  rw [lerp_zero]
  rfl

theorem modLfos_wlfo_get (s : State) (k : Lfo) : (modLfos s).wlfo.get k = sampleOf (lfoOutput s (s.ph.get k)) := by
  rw [modLfos_wlfo, LfoMap.get_tabulate]

/-- Settles O18: a cleared phase is 0, where the output is the wavetable's first entry. -/
theorem syncClearsPhases : Obligations.SyncClearsPhases := by
  unfold Obligations.SyncClearsPhases
  intro lmask s
  refine ⟨_, exec_asmSync lmask s, fun k hk => ?_, fun k hk => ?_, rfl, sameMemory_of_fields rfl rfl⟩
  · have hzero : (syncPhases lmask s.ph).get k = 0 := by rw [syncPhases_get, if_pos hk]
    refine ⟨hzero, ?_⟩
    rw [modLfos_wlfo_get, hzero, lfoOutput_zero, sampleOf_toInt]
    rfl
  · rw [syncPhases_get, hk, if_neg Bool.false_ne_true]

end Sys2Proof.Machine
end


section
/-! PROOF. The oscillators: the interpolated output (O33); and runs of TICK strobes from an empty event list: the wait (O8) and
the advance of the phases (O34). -/

namespace Sys2Proof.Machine

/-! ### The output (R341, R344) -/

/-- The interpolation stays between two samples, so its stored value is the value itself. -/
theorem toInt_sampleOf_lerp (a b : Sample) {f : Int} {n : Nat} (hf : 0 ≤ f) (hf' : f ≤ 2 ^ n) :
    (sampleOf (lerp a.toInt b.toInt f n)).toInt = lerp a.toInt b.toInt f n := by
  obtain ⟨hlo, hhi⟩ := lerp_between a.toInt b.toInt hf hf'
  have ha := sample_range a
  have hb := sample_range b
  exact toInt_sampleOf (by omega) (by omega)

/-- The rule's reading of the phase: the top byte is the index, the next sixteen bits are the fraction. -/
theorem lfoOutput_eq (s : State) (ph : Word) :
    lfoOutput s ph = lerp (tableRead s .lfoWave false (ph.toNat / 2 ^ 24)).toInt
      (tableRead s .lfoWave false ((ph.toNat / 2 ^ 24 + 1) % 256)).toInt ((ph.toNat / 2 ^ 8 % 2 ^ 16 : Nat) : Int) 16 := by
  have htop : (ph.extractLsb' 24 8).toNat = ph.toNat / 2 ^ 24 := by
    rw [field_toNat, Nat.mod_eq_of_lt]
    have := ph.isLt
    omega
  simp only [lfoOutput, htop, field_toNat]
  rfl

theorem u24Int_phaserMod (w : Sample) :
    u24Int (phaserMod w) = asr (w.toInt + 2 ^ 23) 1 ∧ u24Int (phaserMod w) < 2 ^ 23 := by
  obtain ⟨hlo, hhi⟩ := sample_range w
  obtain ⟨hasr, hasr'⟩ := asr_bounds (w.toInt + 8388608) 1
  have hval : u24Int (phaserMod w) = asr (w.toInt + 8388608) 1 := u24Int_u24Of (by omega) (by omega)
  exact ⟨hval, by omega⟩

/-- Settles O33: the model's index and fraction are the rule's, and interpolating stays between the entries. -/
theorem lfoOutputInterpolates : Obligations.LfoOutputInterpolates := by
  unfold Obligations.LfoOutputInterpolates
  rintro s k idx frac t0 t1 rfl rfl rfl rfl
  have hfrac : (((s.ph.get k).toNat / 2 ^ 8 % 2 ^ 16 : Nat) : Int) ≤ 2 ^ 16 := by omega
  have hout : ((modLfos s).wlfo.get k).toInt = lfoOutput s (s.ph.get k) := by
    rw [modLfos_wlfo_get, lfoOutput_eq]
    exact toInt_sampleOf_lerp _ _ (Int.natCast_nonneg _) hfrac
  obtain ⟨hlo, hhi⟩ := lerp_between (tableRead s .lfoWave false ((s.ph.get k).toNat / 2 ^ 24)).toInt
    (tableRead s .lfoWave false (((s.ph.get k).toNat / 2 ^ 24 + 1) % 256)).toInt (Int.natCast_nonneg _) hfrac
  rw [hout, lfoOutput_eq]
  refine ⟨rfl, hlo, hhi, ?_, u24Int_phaserMod ((modLfos s).wlfo.get .lfo1)⟩
  rw [modLfos_ph, LfoMap.get_tabulate]
  rfl

/-! ### Steps without a listed event (log 1) -/

section Ticks
variable {s t : State}

theorem core_run_succ (h : step s = .next t) (n : Nat) : Sys2Proof.core.run (n + 1) s = Sys2Proof.core.run n t := by
  have hcore : Sys2Proof.core.step s = .next t := h
  simp only [Host.Core.run, hcore]

/-- A step of a running machine with no listed event is a tick. -/
theorem step_of_idle_host (henv : s.env = []) (hrun : s.run = true) (hrst : s.rst = false) (hphase : commandPhase s = .next t) :
    step s = .next (finishTick t) := by
  have hnext : nextEvent s = (.tick, s) := by rw [nextEvent, henv]
  rw [step, worldStep, hnext]
  exact (tickStrobe_of_run hrun hrst).trans (runTick_of_commandPhase hphase)

/-- A waiting command phase only counts down. -/
theorem commandPhase_of_waiting (h : 1 < s.wait.toNat) : commandPhase s = .next { s with wait := s.wait - 1 } := if_pos h

end Ticks

/-- Settles O8: by induction on the number of ticks; every one but the last finds the counter above 1. -/
theorem waitHoldsCommands : Obligations.WaitHoldsCommands := by
  unfold Obligations.WaitHoldsCommands
  intro n
  induction n with
  | zero => exact fun s henv _ _ _ => ⟨s, rfl, rfl, rfl, henv⟩
  | succ n ih =>
    intro s henv hrun hrst hwait
    have hstep := step_of_idle_host henv hrun hrst (commandPhase_of_waiting (by omega))
    have hcount : (s.wait - 1).toNat = s.wait.toNat - 1 := by bv_omega
    obtain ⟨t, ht, hfifo, hleft, htenv⟩ :=
      ih (finishTick { s with wait := s.wait - 1 }) (by simpa using henv) (by simpa using hrun) (by simpa using hrst)
        (by rw [finishTick_wait, hcount]; omega)
    refine ⟨t, (core_run_succ hstep n).trans ht, by simpa using hfifo, ?_, htenv⟩
    rw [hleft, finishTick_wait, hcount]
    omega

/-- A command phase with no word and no wait does nothing. -/
theorem commandPhase_of_idle {s : State} (hfifo : s.fifo = []) (hwait : s.wait = 0) : commandPhase s = .next s := by
  have hzero : { s with wait := 0 } = s := by rw [← hwait]
  have hempty : decode s.fifo = .error .noWord := by rw [hfifo]; rfl
  rw [commandPhase_of_wait_le_one (by rw [hwait]; decide), hzero]
  exact runCommands_of_decode_error hempty 16

theorem finishTick_cur_lfoInc (s : State) (k : Lfo) : (finishTick s).cur.get (.lfoInc k) = s.cur.get (.lfoInc k) := by
  rw [finishTick_cur, ParamFile.get_tabulate]
  exact smoothedWord_of_I rfl

/-- A tick advances every phase by its increment, which no smoothing changes. -/
theorem finishTick_ph_get (s : State) (k : Lfo) : (finishTick s).ph.get k = s.ph.get k + s.cur.get (.lfoInc k) := by
  have hinc : (smoothPhase s).cur.get (.lfoInc k) = s.cur.get (.lfoInc k) := by
    rw [smoothPhase_cur, ParamFile.get_tabulate]
    exact smoothedWord_of_I rfl
  simp [finishTick, modPhase, lfoAdvance, -smoothPhase_cur, hinc]

/-- Settles O34: by induction on the number of ticks. -/
theorem lfoPhaseLaw : Obligations.LfoPhaseLaw := by
  unfold Obligations.LfoPhaseLaw
  intro n
  induction n with
  | zero =>
    refine fun s henv _ _ hfifo _ => ⟨s, rfl, fun k => ?_, fun _ => rfl, henv, hfifo⟩
    simp
  | succ n ih =>
    intro s henv hrun hrst hfifo hwait
    have hstep := step_of_idle_host henv hrun hrst (commandPhase_of_idle hfifo hwait)
    obtain ⟨t, ht, hph, hinc, htail⟩ := ih (finishTick s) (by simpa using henv) (by simpa using hrun) (by simpa using hrst)
      (by simpa using hfifo) (by simpa using hwait)
    refine ⟨t, (core_run_succ hstep n).trans ht, fun k => ?_, fun k => ?_, htail⟩
    · have hsucc : BitVec.ofNat 32 (n + 1) = BitVec.ofNat 32 n + 1 := BitVec.ofNat_add n 1
      rw [hph, finishTick_ph_get, finishTick_cur_lfoInc, hsucc]
      ring
    · rw [hinc, finishTick_cur_lfoInc]

end Sys2Proof.Machine
end


section
/-! PROOF. The operations of the chain on one sample: plain sections (O35), modulated sections (O36), curves (O37), delay lines
(O40) and the convolution (O41). -/

namespace Sys2Proof.Machine

/-! ### Sections (R361, R371) -/

theorem biquadOut_of_acc_high {f : CoefInts} {st : Biquad} {x : Sample} (h : (2 * 2 ^ 23 - 1) * 2 ^ 27 ≤ biquadAcc f st x) :
    (biquadOut f st x).toInt = 2 ^ 23 - 1 := by
  obtain ⟨hlo, -⟩ := rnd_bounds (biquadAcc f st x) 28
  rw [toInt_biquadOut, sat24_eq_max_min]
  omega

theorem biquadOut_of_acc_low {f : CoefInts} {st : Biquad} {x : Sample} (h : biquadAcc f st x < -(2 * 2 ^ 23 - 1) * 2 ^ 27) :
    (biquadOut f st x).toInt = -2 ^ 23 := by
  obtain ⟨-, hhi⟩ := rnd_bounds (biquadAcc f st x) 28
  rw [toInt_biquadOut, sat24_eq_max_min]
  omega

/-- Settles O35: an evaluation is the rule's equation, the chain makes one in every section, and the corner cases are cases of
its accumulator. -/
theorem sectionCornerCases : Obligations.SectionCornerCases := by
  unfold Obligations.SectionCornerCases
  refine ⟨fun s q c x => ⟨_, _, plainStep_evalBQ s q c x, ?_⟩, fun s ch q => ?_, fun s q c x hid => ?_,
    fun f st x ha1 ha2 => ?_, by decide, fun f st x => biquadOut_of_acc_high, fun f st x => biquadOut_of_acc_low⟩
  · rw [evalBQ_sec, SectMap.get_set_self]
    rfl
  · rw [dataPhase_chans_get]
    exact chain_sec s ch (s.chans.get ch) (chainInput s) q
  · simp only [evalBQ, biquadOut_of_sectionIdentity hid]
    rfl
  · rw [toInt_biquadOut, biquadAcc, ha1, ha2, zero_mul, zero_mul, sub_zero, sub_zero]

/-! ### Modulated sections (R370, R371, R372) -/

theorem lerp_self (a f : Int) (n : Nat) : lerp a a f n = a := by
  rw [lerp, sub_self, zero_mul, rnd_zero_left, add_zero]

theorem modCoefs_of_allPassSets {s : State} {r : MSect} (h : allPassSets s r) (m : Int) :
    (modCoefs s r m).b0 = (modCoefs s r m).a2 ∧ (modCoefs s r m).b1 = (modCoefs s r m).a1 ∧
    (modCoefs s r m).b2 = 2 ^ 28 := by
  obtain ⟨hlo0, hlo1, hlo2, hhi0, hhi1, hhi2⟩ := h
  simp only [modCoefs, modCoef, hlo0, hlo1, hlo2, hhi0, hhi1, hhi2, lerp_self]
  decide

/-- Settles O36: the coefficients are interpolations, and an evaluation with them is a plain section's. -/
theorem modulatedSectionInterpolates : Obligations.ModulatedSectionInterpolates := by
  unfold Obligations.ModulatedSectionInterpolates
  refine ⟨fun s r m c x => ⟨_, _, modStep_evalMBQ s r m c x, ?_⟩, fun s ch r => ?_, fun s r f m hm hm' => ?_⟩
  · rw [evalMBQ_msec, MSectMap.get_set_self]
    rfl
  · rw [dataPhase_chans_get]
    exact chain_msec s ch (s.chans.get ch) (chainInput s) r
  · obtain ⟨hlo, hhi⟩ := lerp_between (curInt s (.lo r f)) (curInt s (.hi r f)) hm hm'
    exact ⟨rfl, lerp_zero _ _ 23, lerp_two_pow _ _ 23, hlo, hhi, fun hap => modCoefs_of_allPassSets hap m⟩

/-! ### Curves (R391, R396) -/

/-- The segment and the offset of an input. -/
theorem exists_segment (x : Sample) : ∃ k f : Nat, k < 1024 ∧ f < 16384 ∧ x.toInt + 8388608 = k * 16384 + f := by
  obtain ⟨hlo, hhi⟩ := sample_range x
  exact ⟨(x.toInt + 8388608).toNat / 16384, (x.toInt + 8388608).toNat % 16384, by omega, by omega, by omega⟩

theorem curveEntry_mono {s : State} {t : Curve} (h : ∀ k, k < 1024 → curveEntry s t k ≤ curveEntry s t (k + 1)) {i j : Nat}
    (hij : i ≤ j) (hj : j ≤ 1024) : curveEntry s t i ≤ curveEntry s t j := by
  induction j, hij using Nat.le_induction with
  | base => exact le_rfl
  | succ j _ ih => exact (ih (by omega)).trans (h j (by omega))

/-- In one segment the offsets decide; otherwise an entry between the segments separates the two values. -/
theorem evalCurve_mono {s : State} {t : Curve} (h : ∀ k, k < 1024 → curveEntry s t k ≤ curveEntry s t (k + 1)) {x y : Sample}
    (hxy : x.toInt ≤ y.toInt) : (evalCurve s t x).toInt ≤ (evalCurve s t y).toInt := by
  obtain ⟨k, f, hk, hf, hx⟩ := exists_segment x
  obtain ⟨j, g, hj, hg, hy⟩ := exists_segment y
  rw [toInt_evalCurve_of_lt hf hx, toInt_evalCurve_of_lt hg hy]
  obtain rfl | hkj : k = j ∨ k < j := by omega
  · exact lerp_mono 14 (h k hk) (by omega)
  · have hbelow := (lerp_between (curveEntry s t k) (curveEntry s t (k + 1)) (f := f) (s := 14) (by omega) (by omega)).2
    have habove := (lerp_between (curveEntry s t j) (curveEntry s t (j + 1)) (f := g) (s := 14) (by omega) (by omega)).1
    rw [max_eq_right (h k hk)] at hbelow
    rw [min_eq_left (h j hj)] at habove
    exact hbelow.trans ((curveEntry_mono h hkj hj.le).trans habove)

/-- Settles O37: the lookup is the rule's interpolation, which stays between its entries. -/
theorem curveInterpolates : Obligations.CurveInterpolates := by
  unfold Obligations.CurveInterpolates
  refine fun s t => ⟨fun x k f hk hf hx => ?_, fun h x y => evalCurve_mono h⟩
  rw [toInt_evalCurve_of_lt hf hx]
  exact ⟨rfl, lerp_between _ _ (by omega) (by omega)⟩

/-! ### Delay lines (R345, R411, R412) -/

section Delay
variable {s : State} {l : Line}

theorem Line.maxBase_ge (l : Line) : 4096 ≤ l.maxBase := by cases l <;> decide

theorem delayOffset_of_modLine {m : ModLine} (h : m.line = l) : delayOffset s l = rnd (curInt s (.depth m) * lineMod s m) 23 := by
  subst h
  cases m <;> rfl

theorem Line.eq_revpre_or_modLine (l : Line) : l = .revpre ∨ ∃ m : ModLine, l.modLine? = some m ∧ m.line = l := by
  cases l with
  | chorus => exact .inr ⟨.chorus, rfl, rfl⟩
  | delay => exact .inr ⟨.delay, rfl, rfl⟩
  | revpre => exact .inl rfl
  | tape => exact .inr ⟨.tape, rfl, rfl⟩

theorem lineMod_of_modsrc_zero {m : ModLine} (h : curInt s (.modsrc m) = 0) : lineMod s m = 0 := by
  rw [lineMod, h]
  rfl

theorem delayOffset_of_unmodulated
    (h : ∀ m, l.modLine? = some m → curInt s (.depth m) = 0 ∨ curInt s (.modsrc m) = 0) : delayOffset s l = 0 := by
  obtain rfl | ⟨m, hm, hline⟩ := l.eq_revpre_or_modLine
  · rfl
  · have hprod : curInt s (.depth m) * lineMod s m = 0 := by
      rcases h m hm with h0 | h0
      · rw [h0, zero_mul]
      · rw [lineMod_of_modsrc_zero h0, mul_zero]
    rw [delayOffset_of_modLine hline, hprod]
    decide

/-- The entry the pointer has moved `j` places away from. -/
theorem tapIndex_eq {w j : Nat} (hw : w < l.len) (h : (w + j) % l.len = s.wp.get l) : tapIndex s l j = w := by
  have hback : (((w + j) % l.len : Nat) : Int) - j ≡ w [ZMOD l.len] := by
    have hmod : (((w + j) % l.len : Nat) : Int) ≡ (w + j : Int) [ZMOD l.len] := by
      push_cast
      exact Int.mod_modEq _ _
    simpa using hmod.sub_right (j : Int)
  rw [tapIndex, ← h, hback.eq, ← Int.natCast_mod, Int.toNat_natCast, Nat.mod_eq_of_lt hw]

/-- The tap for a delay of `di` samples and `f / 4096` of a sample. -/
theorem delayTap_eq {c : ChanState} {di f w0 w1 : Nat} (hf : f < 4096) (hd : delayTime s l = di * 4096 + f) (hw0 : w0 < l.len)
    (h0 : (w0 + di) % l.len = s.wp.get l) (hw1 : w1 < l.len) (h1 : (w1 + (di + 1)) % l.len = s.wp.get l) :
    delayTap s l c =
      sampleOf (lerp (ramRead (c.buf.get l) w0).toInt (ramRead (c.buf.get l) w1).toInt (f : Int) 12) := by
  have hdi : (delayTime s l).toNat / 4096 = di := by omega
  have hfr : (delayTime s l).toNat % 4096 = f := by omega
  simp only [delayTap, hdi, hfr, tapIndex_eq hw0 h0, tapIndex_eq hw1 h1]

theorem delayTime_eq (s : State) (l : Line) :
    delayTime s l = max 4096 (min (curInt s (.base l) + delayOffset s l) (((l.len : Int) - 2) * 4096)) := by
  have hmax : 4096 ≤ ((l.len : Int) - 2) * 4096 := l.maxBase_ge
  rw [delayTime, clamp, Line.maxBase]
  omega

end Delay

theorem delayWrite_frame (s : State) (l : Line) (v : Sample) (c : ChanState) : { delayWrite s l v c with buf := c.buf } = c := rfl

/-- An unmodulated delay of whole samples reads the entry itself. -/
theorem delayTap_of_unmodulated {s : State} {l : Line} (c : ChanState) {n w : Nat}
    (hmod : ∀ m, l.modLine? = some m → curInt s (.depth m) = 0 ∨ curInt s (.modsrc m) = 0) (hn : 1 ≤ n) (hn' : n + 2 ≤ l.len)
    (hbase : curInt s (.base l) = (n : Int) * 4096) (hw : w < l.len) (hwp : s.wp.get l = (w + n) % l.len) :
    delayTap s l c = ramRead (c.buf.get l) w := by
  have htime : delayTime s l = n * 4096 + (0 : Nat) := by
    rw [delayTime_eq, delayOffset_of_unmodulated hmod, hbase]
    omega
  -- the entry before it, which counts for nothing
  obtain ⟨w1, hw1, h1⟩ : ∃ w1, w1 < l.len ∧ (w1 + (n + 1)) % l.len = s.wp.get l := by
    refine ⟨(w + (l.len - 1)) % l.len, Nat.mod_lt _ (by omega), ?_⟩
    rw [hwp, Nat.mod_add_mod, show w + (l.len - 1) + (n + 1) = w + n + l.len by omega, Nat.add_mod_right]
  rw [delayTap_eq (by decide) htime hw hwp.symm hw1 h1, Nat.cast_zero, lerp_zero, sampleOf_toInt]

/-- Settles O40: the write is a memory's, the tap's two entries are where the pointer was, and its delay is the clamped one. -/
theorem delayLineReadsPast : Obligations.DelayLineReadsPast := by
  unfold Obligations.DelayLineReadsPast
  refine ⟨fun s l v c => ⟨?_, fun a ha => ?_, fun l' hl' => delayWrite_buf_ne s v c hl', delayWrite_frame s l v c⟩,
    fun s l c n w => delayTap_of_unmodulated c, ?_, fun s m => ?_, fun s l => clamp_range l.maxBase_ge, advancePointers_get⟩
  · rw [delayWrite_buf_self, ramRead_write_self]
  · rw [delayWrite_buf_self, ramRead_write_ne _ _ ha]
  · rintro s l c move di f w0 w1 s0 s1 hrev hline hf hd hw0 h0 hw1 h1 rfl rfl
    have hmove : delayOffset s l = move := by
      obtain rfl | ⟨m, -, hm⟩ := l.eq_revpre_or_modLine
      · exact (hrev rfl).symm
      · rw [delayOffset_of_modLine hm, hline m hm]
    rw [delayTap_eq hf (by rw [delayTime_eq, hmove, hd]) hw0 h0 hw1 h1, toInt_sampleOf_lerp _ _ (by omega) (by omega)]
    exact ⟨rfl, lerp_between _ _ (by omega) (by omega)⟩
  · refine ⟨lineMod_of_modsrc_zero, fun h => ?_, fun h => ?_, fun h => ?_⟩ <;>
    · rw [lineMod, h]
      rfl

/-! ### The convolution (R430, R431) -/

theorem convSum_eq_sum (s : State) (ch : Chan) (h : Cells) :
    convSum s ch h = ∑ k ∈ Finset.range (irLenOf s (s.bank.getLsbD 4)).toNat,
      (tableRead s (irTable ch) (s.bank.getLsbD 4) k).toInt * (ramRead h k).toInt := by
  rw [convSum, sumBelow_eq_sum]
  cases ch <;> rfl

/-- Settles O41: the history is pushed, and the model's sum is the mathematical one. -/
theorem convolutionResult : Obligations.ConvolutionResult := by
  unfold Obligations.ConvolutionResult
  intro s ch c p
  refine ⟨ramRead_histPush_zero c.hist p, fun k => ramRead_histPush_succ c.hist p, rfl, ?_, fun hlen => ?_⟩
  · rw [toInt_evalConv, convSum_eq_sum, evalConv_hist]
  · have hnone : (irLenOf s (s.bank.getLsbD 4)).toNat = 0 := congrArg BitVec.toNat hlen
    apply BitVec.eq_of_toInt_eq
    rw [toInt_evalConv, convSum_eq_sum, hnone, Finset.range_zero, Finset.sum_empty, rnd_zero_left]
    decide

end Sys2Proof.Machine
end


section
/-! PROOF. The data phase as equations (O43). Each stage's equations hold of the channel the stage leaves; the final channel
agrees with that one in the stage's own sections and line, and the channel the stage meets agrees with the initial one there,
since every other stage leaves them alone. -/

namespace Sys2Proof.Machine

/-! ### What a section records (R361, R371) -/

theorem evalBQ_x1 (s : State) (q : Sect) (c : ChanState) (x : Sample) : ((evalBQ s q c x).1.sec.get q).x1 = x := by
  rw [evalBQ_sec, SectMap.get_set_self]
  rfl

theorem evalBQ_y1 (s : State) (q : Sect) (c : ChanState) (x : Sample) :
    ((evalBQ s q c x).1.sec.get q).y1 = (evalBQ s q c x).2 := by
  rw [evalBQ_sec, SectMap.get_set_self]
  rfl

theorem evalBQ_sec_get_ne (s : State) {q q' : Sect} (h : q' ≠ q) (c : ChanState) (x : Sample) :
    (evalBQ s q c x).1.sec.get q' = c.sec.get q' := by
  rw [evalBQ_sec, SectMap.get_set_ne _ _ h]

theorem evalMBQ_x1 (s : State) (r : MSect) (m : U24) (c : ChanState) (x : Sample) :
    ((evalMBQ s r m c x).1.msec.get r).x1 = x := by
  rw [evalMBQ_msec, MSectMap.get_set_self]
  rfl

theorem evalMBQ_y1 (s : State) (r : MSect) (m : U24) (c : ChanState) (x : Sample) :
    ((evalMBQ s r m c x).1.msec.get r).y1 = (evalMBQ s r m c x).2 := by
  rw [evalMBQ_msec, MSectMap.get_set_self]
  rfl

theorem evalMBQ_msec_get_ne (s : State) {r r' : MSect} (h : r' ≠ r) (m : U24) (c : ChanState) (x : Sample) :
    (evalMBQ s r m c x).1.msec.get r' = c.msec.get r' := by
  rw [evalMBQ_msec, MSectMap.get_set_ne _ _ h]

/-! ### Agreement in a stage's own state -/

/-- `d` agrees with `c` in the sections `qs` and `rs` and the lines `ls`. -/
structure AgreesOn (qs : List Sect) (rs : List MSect) (ls : List Line) (c d : ChanState) : Prop where
  sec : ∀ q ∈ qs, d.sec.get q = c.sec.get q
  msec : ∀ r ∈ rs, d.msec.get r = c.msec.get r
  line : ∀ l ∈ ls, d.buf.get l = c.buf.get l

/-- A pass agrees in what it does not pass. -/
theorem Pass.agreesOn {s : State} {qs qs' : List Sect} {rs rs' : List MSect} {ls ls' : List Line} {c d : ChanState}
    (h : Pass s qs rs ls c d) (hqs : ∀ q ∈ qs', q ∉ qs) (hrs : ∀ r ∈ rs', r ∉ rs) (hls : ∀ l ∈ ls', l ∉ ls) :
    AgreesOn qs' rs' ls' c d :=
  ⟨fun q hq => h.secElse q (hqs q hq), fun r hr => h.msecElse r (hrs r hr), fun l hl => h.lineElse l (hls l hl)⟩

theorem AgreesOn.writtenTo_eq {s : State} {qs : List Sect} {rs : List MSect} {ls : List Line} {l : Line} {v : Sample}
    {c d : ChanState} (h : AgreesOn qs rs ls (delayWrite s l v c) d) (hl : l ∈ ls) : writtenTo s d l = v := by
  rw [writtenTo, h.line l hl, delayWrite_buf_self, ramRead_write_self]

section Stages
variable {s : State} {ch : Chan} {c₀ c d : ChanState} {x : Sample}

/-! ### The equations of one stage (R454 to R464)

`c₀` is the channel before the data phase, `c` the one that meets the stage and `d` the one after the data phase. -/

theorem stageAutowah_equations (hd : AgreesOn [] [.wah] [] (stageAutowah s c x).1 d) :
    autowahEquations s d x (stageAutowah s c x).2 := by
  simp only [autowahEquations, hd.msec .wah (by decide)]
  exact ⟨evalMBQ_x1 .., toInt_mixStage ..⟩

theorem stageFuzz_equations (hd : AgreesOn [.fuzzTone] [] [] (stageFuzz s c x).1 d) :
    fuzzEquations s d x (stageFuzz s c x).2 := by
  simp only [fuzzEquations, hd.sec .fuzzTone (by decide)]
  exact ⟨⟨_, toInt_gainBy .., evalBQ_x1 ..⟩, toInt_mixStage ..⟩

theorem stageOd_equations (hd : AgreesOn [.odBass, .odTreble, .odTone] [] [] (stageOd s c x).1 d) :
    odEquations s d x (stageOd s c x).2 := by
  simp only [odEquations, hd.sec .odBass (by decide), hd.sec .odTreble (by decide), hd.sec .odTone (by decide)]
  refine ⟨?_, ?_, ?_, _, toInt_gainBy .., toInt_mixStage ..⟩
  all_goals simp [stageOd, evalBQ_x1, evalBQ_y1, evalBQ_sec_get_ne, -evalBQ_sec, -evalBQ_snd]

theorem stageChorus_equations (hc : AgreesOn [] [] [.chorus] c₀ c) (hd : AgreesOn [] [] [.chorus] (stageChorus s c x).1 d) :
    chorusEquations s c₀ d x (stageChorus s c x).2 := by
  rw [chorusEquations, hd.writtenTo_eq (by decide), ← delayTap_of_buf s .chorus (hc.line .chorus (by decide))]
  exact ⟨toInt_fbSumBy .., toInt_mixStage ..⟩

theorem stagePhaser_equations (hc : c.phfb = c₀.phfb) (hd : AgreesOn [] [.ph1, .ph2, .ph3, .ph4] [] (stagePhaser s c x).1 d)
    (hphfb : d.phfb = (stagePhaser s c x).1.phfb) : phaserEquations s c₀ d x (stagePhaser s c x).2 := by
  simp only [phaserEquations, hd.msec .ph1 (by decide), hd.msec .ph2 (by decide), hd.msec .ph3 (by decide),
    hd.msec .ph4 (by decide), hphfb, ← hc]
  refine ⟨?_, ?_, ?_, ?_, ?_, ?_⟩
  case refine_1 =>
    have hx1 : ((stagePhaser s c x).1.msec.get .ph1).x1 = fbSumBy s .phFb x c.phfb := by
      simp [stagePhaser, evalMBQ_x1, evalMBQ_msec_get_ne, -evalMBQ_msec, -evalMBQ_snd]
    rw [hx1]
    exact toInt_fbSumBy ..
  case refine_6 => exact toInt_mixStage ..
  all_goals simp [stagePhaser, evalMBQ_x1, evalMBQ_y1, evalMBQ_msec_get_ne, -evalMBQ_msec, -evalMBQ_snd]

theorem stageDelay_equations (hc : AgreesOn [.delayDamp] [] [.delay] c₀ c)
    (hd : AgreesOn [.delayDamp] [] [.delay] (stageDelay s c x).1 d) : delayEquations s c₀ d x (stageDelay s c x).2 := by
  rw [delayEquations, hd.writtenTo_eq (by decide), ← delayTap_of_buf s .delay (hc.line .delay (by decide)),
    hd.sec .delayDamp (by decide)]
  exact ⟨evalBQ_x1 s .delayDamp c _, toInt_fbSumBy .., toInt_mixStage ..⟩

theorem stageReverb_equations (hc : AgreesOn [] [] [.revpre] c₀ c) (hd : AgreesOn [] [] [.revpre] (stageReverb s ch c x).1 d)
    (hhist : d.hist = (stageReverb s ch c x).1.hist) : reverbEquations s ch c₀ d x (stageReverb s ch c x).2 := by
  unfold reverbEquations
  rw [← delayTap_of_buf s .revpre (hc.line .revpre (by decide))]
  have hline : (stageReverb s ch c x).1.buf = (delayWrite s .revpre x c).buf := rfl
  have hpush : d.hist = histPush c.hist (delayTap s .revpre c) := hhist
  have hwritten : writtenTo s d .revpre = x := by
    rw [writtenTo, hd.line .revpre (by decide), hline, delayWrite_buf_self, ramRead_write_self]
  refine ⟨hwritten, ?_, (evalConv s ch (delayWrite s .revpre x c) (delayTap s .revpre c)).2, ?_, toInt_mixStage ..⟩
  · rw [hpush, ramRead_histPush_zero]
  · rw [toInt_evalConv, convSum_eq_sum, hpush]
    cases ch <;> rfl

theorem stageEq5_equations (hd : AgreesOn [.eqLow, .eqMid1, .eqMid2, .eqHigh, .eqPres] [] [] (stageEq5 s c x).1 d) :
    eq5Equations s d x (stageEq5 s c x).2 := by
  simp only [eq5Equations, hd.sec .eqLow (by decide), hd.sec .eqMid1 (by decide), hd.sec .eqMid2 (by decide),
    hd.sec .eqHigh (by decide), hd.sec .eqPres (by decide)]
  refine ⟨?_, ?_, ?_, ?_, ?_, toInt_mixStage ..⟩
  all_goals simp [stageEq5, evalBQ_x1, evalBQ_y1, evalBQ_sec_get_ne, -evalBQ_sec, -evalBQ_snd]

theorem stagePreamp_equations (hd : AgreesOn [.preBass, .preMid, .preTreble, .prePres] [] [] (stagePreamp s c x).1 d) :
    preampEquations s d x (stagePreamp s c x).2 := by
  simp only [preampEquations, hd.sec .preBass (by decide), hd.sec .preMid (by decide), hd.sec .preTreble (by decide),
    hd.sec .prePres (by decide)]
  refine ⟨⟨_, toInt_gainBy .., ?_⟩, ?_, ?_, ?_, toInt_mixStage ..⟩
  all_goals simp [stagePreamp, evalBQ_x1, evalBQ_y1, evalBQ_sec_get_ne, -evalBQ_sec, -evalBQ_snd]

theorem stageTape_equations (hc : AgreesOn [.tapeDamp] [] [.tape] c₀ c)
    (hd : AgreesOn [.tapeDamp] [] [.tape] (stageTape s c x).1 d) : tapeEquations s c₀ d x (stageTape s c x).2 := by
  rw [tapeEquations, hd.writtenTo_eq (by decide), ← delayTap_of_buf s .tape (hc.line .tape (by decide)),
    hd.sec .tapeDamp (by decide)]
  exact ⟨evalBQ_x1 s .tapeDamp c _, toInt_fbSumBy .., toInt_mixStage ..⟩

theorem stageAmp_equations (s : State) (c : ChanState) (x : Sample) : ampEquations s (stageAmp s c x).1 x (stageAmp s c x).2 := by
  have hfirst : ((stageAmp s c x).1.sec.get .ampContour).x1 = gainBy s .ampIn x := by
    simp [stageAmp, evalBQ_x1, evalBQ_sec_get_ne, -evalBQ_sec, -evalBQ_snd]
  have hlast : (stageAmp s c x).2 = gainBy s .ampMaster ((stageAmp s c x).1.sec.get .ampCab).y1 := by
    simp [stageAmp, evalBQ_y1, -evalBQ_sec, -evalBQ_snd]
  rw [ampEquations, hfirst, hlast]
  refine ⟨toInt_gainBy .., ?_, ?_, ?_, ?_, ?_, toInt_gainBy ..⟩
  all_goals simp [stageAmp, evalBQ_x1, evalBQ_y1, evalBQ_sec_get_ne, -evalBQ_sec, -evalBQ_snd]

end Stages

/-! ### The chain (R451) -/

section Chain
variable (s : State) (ch : Chan) (c : ChanState) (x : Sample)

/-- The equations of a stage with the input `x` and the output `y`, between the channel `c` before the chain and `d` after it. -/
def stageEquations (s : State) (ch : Chan) (c d : ChanState) (g : Stage) (x y : Sample) : Prop :=
  match g with
  | .autowah => autowahEquations s d x y
  | .fuzz => fuzzEquations s d x y
  | .od => odEquations s d x y
  | .chorus => chorusEquations s c d x y
  | .phaser => phaserEquations s c d x y
  | .delay => delayEquations s c d x y
  | .reverb => reverbEquations s ch c d x y
  | .eq5 => eq5Equations s d x y
  | .preamp => preampEquations s d x y
  | .tape => tapeEquations s c d x y

theorem entering_agreesOn (g : Stage) :
    AgreesOn (stageSects g) (stageMSects g) (stageLines g) c (entering s ch c x g).1 :=
  (entering_pass s ch c x g).agreesOn (by cases g <;> decide) (by cases g <;> decide) (by cases g <;> decide)

theorem leaving_agreesOn (g : Stage) :
    AgreesOn (stageSects g) (stageMSects g) (stageLines g) (leaving s ch c x g).1 (chain s ch c x).1 :=
  (leaving_pass s ch c x g).agreesOn (by cases g <;> decide) (by cases g <;> decide) (by cases g <;> decide)

theorem chain_stageEquations (g : Stage) :
    stageEquations s ch c (chain s ch c x).1 g (entering s ch c x g).2 (leaving s ch c x g).2 := by
  have hc := entering_agreesOn s ch c x g
  have hd := leaving_agreesOn s ch c x g
  cases g with
  | autowah => exact stageAutowah_equations hd
  | fuzz => exact stageFuzz_equations hd
  | od => exact stageOd_equations hd
  | chorus => exact stageChorus_equations hc hd
  | phaser => exact stagePhaser_equations (entering_phaser_phfb s ch c x) hd (chain_phfb_of_leaving s ch c x)
  | delay => exact stageDelay_equations hc hd
  | reverb => exact stageReverb_equations hc hd (chain_hist_of_leaving s ch c x)
  | eq5 => exact stageEq5_equations hd
  | preamp => exact stagePreamp_equations hd
  | tape => exact stageTape_equations hc hd

theorem chain_ampEquations : ampEquations s (chain s ch c x).1 (leaving s ch c x .tape).2 (chain s ch c x).2 := by
  rw [chain_eq_runStages, runStages_all_eq_after s ch c x .tape]
  exact stageAmp_equations s _ _

end Chain

/-! ### The outputs and CLIP (R465) -/

theorem toInt_dataPhase_outL (s : State) :
    (dataPhase s).outL.toInt = sat24 (masterSum s (chain s .left s.chans.left (chainInput s)).2) := by
  rw [dataPhase_outL, toInt_sampleOf_sat24]

theorem toInt_dataPhase_outR (s : State) :
    (dataPhase s).outR.toInt = sat24 (masterSum s (chain s .right s.chans.right (chainInput s)).2) := by
  rw [dataPhase_outR, toInt_sampleOf_sat24]

theorem getLsbD_irqClip (b : Nat) : irqClip.getLsbD b = decide (b = 4) := by
  have hbit : irqClip = BitVec.twoPow 5 4 := by decide
  rw [hbit, BitVec.getLsbD_twoPow, decide_eq_true (by decide), Bool.true_and]
  exact decide_eq_decide.2 eq_comm

theorem clips_iff (o : Int) : clips o = true ↔ sat24 o ≠ o := bne_iff_ne

theorem getLsbD_clipped (pend : BitVec 5) (clip : Bool) (b : Nat) :
    (if clip then pend ||| irqClip else pend).getLsbD b = (pend.getLsbD b || (decide (b = 4) && clip)) := by
  cases clip with
  | false => rw [if_neg Bool.false_ne_true, Bool.and_false, Bool.or_false]
  | true => rw [if_pos rfl, BitVec.getLsbD_or, getLsbD_irqClip, Bool.and_true]

theorem portValue_of_run {s : State} (hrun : s.run = true) (held : Sample) : portValue s held = held := if_pos hrun

/-- Settles O43: each stage's input is the signal that enters it, and the next stage's is the one that leaves it. -/
theorem chainEquationsAndMaster : Obligations.ChainEquationsAndMaster := by
  unfold Obligations.ChainEquationsAndMaster
  constructor
  · intro s ch
    have heq := chain_stageEquations s ch (s.chans.get ch) (chainInput s)
    rw [dataPhase_chans_get]
    refine ⟨StageMap.tabulate fun g => (entering s ch (s.chans.get ch) (chainInput s) g).2,
      (leaving s ch (s.chans.get ch) (chainInput s) .tape).2, (chain s ch (s.chans.get ch) (chainInput s)).2, ?_⟩
    simp only [StageMap.get_tabulate]
    refine ⟨rfl, heq .autowah, heq .fuzz, heq .od, heq .chorus, heq .phaser, heq .delay, heq .reverb, heq .eq5, heq .preamp,
      heq .tape, chain_ampEquations s ch _ _, ?_, ?_⟩
    · rintro rfl
      exact toInt_dataPhase_outL s
    · rintro rfl
      exact toInt_dataPhase_outR s
  · rintro s x yL yR oL oR hx rfl rfl rfl rfl
    obtain rfl : x = chainInput s := hx
    refine ⟨toInt_dataPhase_outL s, toInt_dataPhase_outR s, fun hrun => ?_, ?_, fun b hb => ?_⟩
    · have hrun' : (dataPhase s).run = true := by rw [dataPhase_run, hrun]
      exact ⟨portValue_of_run hrun' _, portValue_of_run hrun' _⟩
    · rw [dataPhase_irqPend, getLsbD_clipped, decide_eq_true rfl, Bool.true_and, Bool.or_eq_true, Bool.or_eq_true, clips_iff,
        clips_iff]
      rfl
    · rw [dataPhase_irqPend, getLsbD_clipped, decide_eq_false hb, Bool.false_and, Bool.or_false]

end Sys2Proof.Machine
end


section
/-! PROOF. The control state: what every step keeps of it (O49), what a reset makes of it (O50, O56, O58), and the reset line
(O57). -/

namespace Sys2Proof.Machine

/-! ### Immediate parameters (R53) -/

theorem reset_immediateSettled : immediateSettled State.reset := fun _ _ => rfl

theorem setParam_immediateSettled (p : Param) (v : Int) {s : State} (h : immediateSettled s) :
    immediateSettled (setParam p v s) := by
  intro q hq
  cases p with
  | irLen => rw [setParam, setIrLen_cur, setIrLen_tgt, h q hq]
  | file r =>
    cases hr : r.cls with
    | S =>
      have hne : q ≠ r := by
        rintro rfl
        rw [hq] at hr
        cases hr
      rw [setParam_of_cls_S hr]
      show s.cur.get q = (s.tgt.set r (paramWord v)).get q
      rw [ParamFile.get_set_ne _ _ hne, h q hq]
    | I =>
      rw [setParam_of_cls_I hr]
      show (s.cur.set r (paramWord v)).get q = (s.tgt.set r (paramWord v)).get q
      by_cases hqr : q = r
      · rw [hqr, ParamFile.get_set_self, ParamFile.get_set_self]
      · rw [ParamFile.get_set_ne _ _ hqr, ParamFile.get_set_ne _ _ hqr, h q hq]

theorem step_keeps_immediateSettled {s t : State} (hstep : step s = .next t) (h : immediateSettled s) :
    immediateSettled t := by
  refine step_keeps_of_datapath (P := immediateSettled) (fun h hs q hq => ?_) reset_immediateSettled
    (fun p value s h => setParam_immediateSettled p _ h) (fun _ _ _ _ _ h => h) (fun _ _ h => h) (fun s h q hq => ?_) h hstep
  · rw [hs.cur, hs.tgt, h q hq]
  · rw [finishTick_cur, finishTick_tgt, ParamFile.get_tabulate, smoothedWord_of_I hq, h q hq]

/-! ### The impulse lengths (R68) -/

theorem reset_irLenInRange : irLenInRange State.reset := ⟨Nat.zero_le _, Nat.zero_le _⟩

theorem setParam_irLenInRange (p : Param) (value : Word) {s : State} (h : irLenInRange s) :
    irLenInRange (setParam p (payloadValue p value) s) := by
  obtain ⟨h0, h1⟩ := h
  cases p with
  | irLen =>
    have hlen : (u24Of (payloadValue .irLen value)).toNat ≤ 131072 := by
      have hread := u24Int_u24Of (v := payloadValue .irLen value) (by rw [payloadValue_irLen]; omega)
        (by rw [payloadValue_irLen]; omega)
      rw [payloadValue_irLen, u24Int] at hread
      rw [payloadValue_irLen]
      omega
    rw [setParam, setIrLen]
    split
    · exact ⟨h0, hlen⟩
    · exact ⟨hlen, h1⟩
  | file q =>
    cases hq : q.cls with
    | S =>
      rw [setParam_of_cls_S hq]
      exact ⟨h0, h1⟩
    | I =>
      rw [setParam_of_cls_I hq]
      exact ⟨h0, h1⟩

theorem step_keeps_irLenInRange {s t : State} (hstep : step s = .next t) (h : irLenInRange s) : irLenInRange t := by
  refine step_keeps_of_datapath (P := irLenInRange) (fun h hs => ?_) reset_irLenInRange
    (fun p value s h => setParam_irLenInRange p value h) (fun _ _ _ _ _ h => h) (fun _ _ h => h) (fun s h => ?_) h hstep
  · rw [irLenInRange, hs.irLen0, hs.irLen1]
    exact h
  · rw [irLenInRange, finishTick_irLen0, finishTick_irLen1]
    exact h

/-! ### The FIFO (R60, R201) -/

theorem reset_fifoInRange : fifoInRange State.reset := Nat.zero_le _

theorem fifoInRange_of_fifo {s t : State} (ht : t.fifo = s.fifo) (h : fifoInRange s) : fifoInRange t := by
  rw [fifoInRange, ht]
  exact h

theorem pushCmd_fifoInRange (v : Word) {s : State} (h : fifoInRange s) : fifoInRange (pushCmd v s) := by
  rcases pushCmd_cases v s with ⟨hroom, e⟩ | ⟨-, e⟩ <;> rw [e]
  · show (s.fifo ++ [v]).length ≤ 256
    rw [List.length_append]
    exact hroom
  · exact h

theorem readTblData_fifo (s : State) : (readTblData s).2.fifo = s.fifo := by
  rcases readTblData_cases s with ⟨-, e⟩ | ⟨t, -, e⟩ <;> rw [e] <;> rfl

theorem writeTblData_fifo (v : Word) (s : State) : (writeTblData v s).fifo = s.fifo := by
  rcases writeTblData_cases v s with ⟨-, e⟩ | ⟨t, -, -, -, e⟩ | ⟨t, -, -, e⟩ <;> rw [e] <;> rfl

theorem writeRegister_fifoInRange (word : BitVec 6) (v : Word) {s : State} (h : fifoInRange s) :
    fifoInRange (writeRegister word v s) := by
  rcases writeRegister_cases word v s with ⟨-, e⟩ | ⟨-, e⟩ | ⟨-, e⟩ | ⟨-, e⟩ | ⟨-, e⟩ | ⟨-, e⟩ | ⟨-, e⟩ | ⟨-, e⟩ | ⟨e, -⟩ <;>
    rw [e]
  case inl =>
    rcases writeCtrl_cases v s with ⟨-, e'⟩ | ⟨-, -, e'⟩ | ⟨-, -, e'⟩ <;> rw [e']
    · exact reset_fifoInRange
    · exact Nat.zero_le _
    · exact h
  case inr.inr.inr.inl => exact pushCmd_fifoInRange v h
  case inr.inr.inr.inr.inr.inl => exact fifoInRange_of_fifo (writeTblData_fifo v s) h
  all_goals exact h

/-- Reading a command off the FIFO shortens it. -/
theorem decode_rest_length {ws rest : List Word} {i : Instr} (h : decode ws = .ok (i, rest)) : rest.length ≤ ws.length := by
  rw [← encode_append_of_decode h, List.length_append]
  exact Nat.le_add_left _ _

theorem step_keeps_fifoInRange {s t : State} (hstep : step s = .next t) (h : fifoInRange s) : fifoInRange t := by
  refine step_keeps (P := fifoInRange) (fun _ _ h => h) ?tick (fun word v s h => ?write) (fun word s h => ?read)
    (fun _ _ _ h => h) (fun _ _ h => h) (fun level s h => ?rst) s t h hstep
  case tick =>
    exact tickStrobe_keeps (fun _ _ h => h) (fun _ _ _ hd h => (decode_rest_length hd).trans h)
      (fun _ _ _ he h => fifoInRange_of_fifo (exec_fifo he) h) (fun s h => fifoInRange_of_fifo (finishTick_fifo s) h)
  case write =>
    unfold busWrite
    split
    · exact h
    · exact writeRegister_fifoInRange word v h
  case read =>
    rcases busRead_cases word s with ⟨-, e⟩ | ⟨-, -, e⟩ | ⟨-, -, e⟩ <;> rw [e]
    · exact h
    · exact fifoInRange_of_fifo (readTblData_fifo s) h
    · exact h
  case rst =>
    rcases driveRst_cases level s with ⟨-, e⟩ | ⟨-, -, e⟩ <;> rw [e]
    · exact reset_fifoInRange
    · exact h

/-- Settles O49: SETP clamps the impulse length and writes both values of class I; only a push lengthens the FIFO. -/
theorem stepKeepsControlState : Obligations.StepKeepsControlState := by
  unfold Obligations.StepKeepsControlState
  exact fun s t hstep => ⟨step_keeps_immediateSettled hstep, step_keeps_fifoInRange hstep, step_keeps_irLenInRange hstep⟩

/-- Settles O50: each invariant's own reset lemma; RST is released after reset. -/
theorem resetMeetsInvariants : Obligations.ResetMeetsInvariants := by
  unfold Obligations.ResetMeetsInvariants
  exact ⟨reset_datapathInRange, reset_memory_wf, reset_pointersInRange, reset_channelsAgree, reset_oneVoicePerString,
    reset_immediateSettled, reset_fifoInRange, reset_irLenInRange, nofun⟩

/-! ### SOFT_RESET (R542) -/

/-- Settles O56: with bit 31 a CTRL write resets every element. -/
theorem softResetKeepsTables : Obligations.SoftResetKeepsTables := by
  unfold Obligations.SoftResetKeepsTables
  intro s v hrst hv
  have hctrl : writeCtrl v s = resetElements s := by rw [writeCtrl, if_pos hv]
  exact ⟨resetElements s, by rw [handleEvent_hostW_ctrl hrst, hctrl], rfl, rfl, rfl⟩

/-! ### The reset line (R540, R541) -/

theorem atReset_driven (s : State) (level : Bool) : atReset { resetElements s with rst := level } := rfl

theorem handleEvent_driveRst_of_active {s : State} {level : Bool} (h : s.rst = true ∨ level = true) :
    handleEvent (.driveRst level) s = .next { resetElements s with rst := level } := by
  rcases driveRst_cases level s with ⟨-, e⟩ | ⟨hs, hlevel, -⟩
  · exact congrArg _ e
  · rw [hs, hlevel] at h
    simp at h

theorem handleEvent_driveRst_of_idle {s : State} (h : s.rst = false) : handleEvent (.driveRst false) s = .next s := by
  rcases driveRst_cases false s with ⟨hor, -⟩ | ⟨-, -, e⟩
  · rw [h] at hor
    simp at hor
  · exact congrArg _ e

theorem tickStrobe_of_rst {s : State} (h : s.rst = true) : tickStrobe s = .next s := by
  rw [tickStrobe, h]
  rfl

theorem exec_rst {i : Instr} {s t : State} (h : exec i s = .next t) : t.rst = s.rst := by
  obtain ⟨hframe, -⟩ := commandFrame i s t h
  exact (congrArg State.rst hframe :)

theorem tickStrobe_rst (s : State) : ∃ t, tickStrobe s = .next t ∧ t.rst = s.rst :=
  tickStrobe_keeps (P := fun u => u.rst = s.rst) (fun _ _ h => h) (fun _ _ _ _ h => h)
    (fun _ _ _ he h => (exec_rst he).trans h) (fun u h => (finishTick_rst u).trans h) s rfl

theorem readTblData_rst (s : State) : (readTblData s).2.rst = s.rst := by
  rcases readTblData_cases s with ⟨-, e⟩ | ⟨t, -, e⟩ <;> rw [e] <;> rfl

theorem writeTblData_rst (v : Word) (s : State) : (writeTblData v s).rst = s.rst := by
  rcases writeTblData_cases v s with ⟨-, e⟩ | ⟨t, -, -, -, e⟩ | ⟨t, -, -, e⟩ <;> rw [e] <;> rfl

theorem writeRegister_rst (word : BitVec 6) (v : Word) (s : State) : (writeRegister word v s).rst = s.rst := by
  rcases writeRegister_cases word v s with ⟨-, e⟩ | ⟨-, e⟩ | ⟨-, e⟩ | ⟨-, e⟩ | ⟨-, e⟩ | ⟨-, e⟩ | ⟨-, e⟩ | ⟨-, e⟩ | ⟨e, -⟩ <;>
    rw [e]
  case inl =>
    rcases writeCtrl_cases v s with ⟨-, e'⟩ | ⟨-, -, e'⟩ | ⟨-, -, e'⟩ <;> rw [e']
    exact resetElements_rst s
  case inr.inr.inr.inl => rcases pushCmd_cases v s with ⟨-, e'⟩ | ⟨-, e'⟩ <;> rw [e']
  case inr.inr.inr.inr.inr.inl => exact writeTblData_rst v s
  all_goals rfl

theorem resetHeld_of_released {s : State} (h : s.rst = false) : resetHeld s := fun hrst => by
  rw [h] at hrst
  cases hrst

/-- While RST is asserted only the ports, the read data and the level change; with RST released only its level asserts it. -/
theorem step_keeps_resetHeld {s t : State} (h : resetHeld s) (hstep : step s = .next t) : resetHeld t := by
  refine step_keeps (P := resetHeld) (fun _ _ h => h) (fun s h => ?tick) (fun word v s h => ?write) (fun word s h => ?read)
    (fun _ _ _ h => h) (fun _ _ h => h) (fun level s h => ?rst) s t h hstep
  case tick =>
    cases hs : s.rst with
    | true => exact ⟨s, tickStrobe_of_rst hs, h⟩
    | false =>
      obtain ⟨u, hu, hrst⟩ := tickStrobe_rst s
      exact ⟨u, hu, resetHeld_of_released (hrst.trans hs)⟩
  case write =>
    cases hs : s.rst with
    | true =>
      rw [busWrite, hs]
      exact h
    | false =>
      rw [busWrite, hs]
      exact resetHeld_of_released ((writeRegister_rst word v s).trans hs)
  case read =>
    rcases busRead_cases word s with ⟨-, e⟩ | ⟨hs, -, e⟩ | ⟨hs, -, e⟩ <;> rw [e]
    · exact h
    · exact resetHeld_of_released ((readTblData_rst s).trans hs)
    · exact resetHeld_of_released hs
  case rst =>
    rcases driveRst_cases level s with ⟨-, e⟩ | ⟨-, -, e⟩ <;> rw [e]
    · exact fun _ => atReset_driven s level
    · exact h

/-- Settles O57: an asserted level and the release after it reset every element, and between them nothing else happens. -/
theorem resetLineHoldsReset : Obligations.ResetLineHoldsReset := by
  unfold Obligations.ResetLineHoldsReset
  exact ⟨fun s => ⟨_, handleEvent_driveRst_of_active (.inr rfl), rfl, rfl, atReset_driven s true⟩,
    fun s hs => ⟨_, handleEvent_driveRst_of_active (.inl hs), rfl, rfl, atReset_driven s false⟩,
    fun s => handleEvent_driveRst_of_idle, fun s => tickStrobe_of_rst, fun s t => step_keeps_resetHeld⟩

/-! ### The registers after reset (R30, R54) -/

/-- After reset a read of the register at the offset gives the value; the register is not TBL_DATA. -/
def ReadsAtReset (p : Nat × Word) : Prop :=
  BitVec.ofNat 6 (p.1 / 4) ≠ tblDataWord ∧ registerWord State.reset (BitVec.ofNat 6 (p.1 / 4)) = p.2

theorem handleEvent_hostR_reset {off : Nat} {v : Word} (h : ReadsAtReset (off, v)) :
    handleEvent (hostR off) State.reset = .next { State.reset with rdata := v } := by
  obtain ⟨hne, hword⟩ := h
  rw [hostR, handleEvent_busRead rfl hne, hword]

/-- Settles O58: every read but TBL_DATA's shows the register's word, which the reset state determines. -/
theorem registersAfterReset : Obligations.RegistersAfterReset := by
  unfold Obligations.RegistersAfterReset
  refine ⟨fun off v hmem => handleEvent_hostR_reset ((show ∀ p ∈ _, ReadsAtReset p from ?_) (off, v) hmem),
    fun p => ⟨int_reset p, int_reset p⟩, ⟨by decide, by decide, by decide⟩, rfl, rfl, rfl, by decide,
    fun k => SlotMap.get_tabulate _ k⟩
  unfold ReadsAtReset
  decide

end Sys2Proof.Machine
end


section
/-! PROOF. The pending bits (O53): every event but a reset and an acknowledgement only sets bits of IRQ_PEND and DONE. -/

namespace Sys2Proof.Machine

/-! ### Bits that are only set (R505) -/

/-- Every pending and every done bit of `s` is also set in `t`. -/
structure KeepsBits (s t : State) : Prop where
  irqPend : ∀ b, s.irqPend.getLsbD b = true → t.irqPend.getLsbD b = true
  done : ∀ b, s.done.getLsbD b = true → t.done.getLsbD b = true

namespace KeepsBits
variable {s t u : State}

theorem of_eq (hirq : t.irqPend = s.irqPend) (hdone : t.done = s.done) : KeepsBits s t :=
  ⟨fun b h => by rwa [hirq], fun b h => by rwa [hdone]⟩

theorem of_or {bits : BitVec 5} (hirq : t.irqPend = s.irqPend ||| bits) (hdone : t.done = s.done) : KeepsBits s t :=
  ⟨fun b h => by rw [hirq, BitVec.getLsbD_or, h, Bool.true_or], fun b h => by rwa [hdone]⟩

theorem trans (h : KeepsBits s t) (h' : KeepsBits t u) : KeepsBits s u :=
  ⟨fun b hb => h'.irqPend b (h.irqPend b hb), fun b hb => h'.done b (h.done b hb)⟩

end KeepsBits

/-! ### The ticks -/

theorem exec_keepsBits {i : Instr} {s t : State} (h : exec i s = .next t) : KeepsBits s t := by
  obtain ⟨u, hu, hcases⟩ := exec_cases i s
  obtain rfl : u = t := Host.Outcome.next.inj (hu.symm.trans h)
  rcases hcases with rfl | ⟨code, hd, rfl⟩ | ⟨p, value, rfl⟩ | ⟨k, n, tech, -, rfl⟩ | ⟨target, rfl⟩ | ⟨mask, rfl⟩ |
    ⟨count, rfl⟩ | ⟨lmask, rfl⟩
  case inr.inl => exact .of_or (cmdError_irqPend code hd s) (cmdError_done code hd s)
  case inr.inr.inl => exact .of_eq (setParam_irqPend p _ s) (setParam_done p _ s)
  all_goals exact .of_eq rfl rfl

theorem finishTick_irqPend (s : State) :
    (finishTick s).irqPend = (dataPhase (modLfos (modWah (voiceAmp (modEnvelopes (smoothPhase s)))))).irqPend := by
  rw [finishTick, countTick_irqPend, modPhase]

theorem finishTick_keepsBits (s : State) : KeepsBits s (finishTick s) where
  irqPend b h := by
    rw [finishTick_irqPend, dataPhase_irqPend, getLsbD_clipped]
    simp [-modEnvelopes_irqPend, modEnvelopes_irqPend_getLsbD, h]
  done b h := by rw [finishTick_done, BitVec.getLsbD_or, h, Bool.true_or]

theorem tickStrobe_keepsBits (s : State) : ∃ t, tickStrobe s = .next t ∧ KeepsBits s t :=
  tickStrobe_keeps (P := KeepsBits s) (fun _ _ h => h.trans (.of_eq rfl rfl)) (fun _ _ _ _ h => h.trans (.of_eq rfl rfl))
    (fun _ _ _ he h => h.trans (exec_keepsBits he)) (fun u h => h.trans (finishTick_keepsBits u)) s (.of_eq rfl rfl)

/-! ### The accesses -/

theorem readTblData_keepsBits (s : State) : KeepsBits s (readTblData s).2 := by
  rcases readTblData_cases s with ⟨-, e⟩ | ⟨t, -, e⟩ <;> rw [e]
  · exact .of_or (tblError_irqPend .tblBadAddr (tblAddrWord s) s) rfl
  · exact .of_eq rfl rfl

theorem writeTblData_keepsBits (v : Word) (s : State) : KeepsBits s (writeTblData v s) := by
  rcases writeTblData_cases v s with ⟨-, e⟩ | ⟨t, -, -, -, e⟩ | ⟨t, -, -, e⟩ <;> rw [e]
  · exact .of_or (tblError_irqPend .tblBadAddr (tblAddrWord s) s) rfl
  · exact .of_or (tblError_irqPend .tblActiveWrite (tblAddrWord s) s) rfl
  · exact .of_eq rfl rfl

theorem busRead_keepsBits (word : BitVec 6) (s : State) : KeepsBits s (busRead word s) := by
  rcases busRead_cases word s with ⟨-, e⟩ | ⟨-, -, e⟩ | ⟨-, -, e⟩ <;> rw [e]
  · exact .of_eq rfl rfl
  · exact (readTblData_keepsBits s).trans (.of_eq rfl rfl)
  · exact .of_eq rfl rfl

/-- Of the host's writes only SOFT_RESET and the two acknowledgements clear bits. -/
theorem writeRegister_keepsBits {word : BitVec 6} {v : Word} (s : State) (hreset : ¬resetEvent (.busWrite word v))
    (hirq : word ≠ 3#6) (hdone : word ≠ 15#6) : KeepsBits s (writeRegister word v s) := by
  rcases writeRegister_cases word v s with ⟨h1, e⟩ | ⟨h3, e⟩ | ⟨-, e⟩ | ⟨-, e⟩ | ⟨-, e⟩ | ⟨-, e⟩ | ⟨-, e⟩ | ⟨h15, e⟩ | ⟨e, -⟩ <;>
    rw [e]
  case inl =>
    rcases writeCtrl_cases v s with ⟨h31, -⟩ | ⟨-, -, e'⟩ | ⟨-, -, e'⟩
    · exact absurd ⟨h1, h31⟩ hreset
    all_goals
      rw [e']
      exact .of_eq rfl rfl
  case inr.inl => exact absurd h3 hirq
  case inr.inr.inr.inl =>
    rcases pushCmd_cases v s with ⟨-, e'⟩ | ⟨-, e'⟩ <;> rw [e']
    · exact .of_eq rfl rfl
    · exact .of_or rfl rfl
  case inr.inr.inr.inr.inr.inl => exact writeTblData_keepsBits v s
  case inr.inr.inr.inr.inr.inr.inr.inl => exact absurd h15 hdone
  all_goals exact .of_eq rfl rfl

/-- An acknowledgement clears exactly the bits written 1. -/
theorem getLsbD_ack {n : Nat} (x : BitVec n) (v : Word) {b : Nat} (hb : b < n) :
    (x &&& ~~~v.extractLsb' 0 n).getLsbD b = (x.getLsbD b && !v.getLsbD b) := by
  rw [BitVec.getLsbD_and, BitVec.getLsbD_not, BitVec.getLsbD_extractLsb', decide_eq_true hb, Bool.true_and, Bool.true_and,
    Nat.zero_add]

theorem getLsbD_ack_of_false {n : Nat} {x : BitVec n} {v : Word} {b : Nat} (hx : x.getLsbD b = true)
    (hv : v.getLsbD b = false) : (x &&& ~~~v.extractLsb' 0 n).getLsbD b = true := by
  rw [getLsbD_ack x v (BitVec.lt_of_getLsbD hx), hx, hv]
  rfl

theorem busWrite_keepsBits {word : BitVec 6} {v : Word} (s : State) (hreset : ¬resetEvent (.busWrite word v)) (b : Nat) :
    (s.irqPend.getLsbD b = true → (word = 3#6 → v.getLsbD b = false) → (busWrite word v s).irqPend.getLsbD b = true) ∧
    (s.done.getLsbD b = true → (word = 15#6 → v.getLsbD b = false) → (busWrite word v s).done.getLsbD b = true) := by
  unfold busWrite
  split
  · exact ⟨fun h _ => h, fun h _ => h⟩
  · by_cases h3 : word = 3#6
    · subst h3
      exact ⟨fun h hv => getLsbD_ack_of_false h (hv rfl), fun h _ => h⟩
    · by_cases h15 : word = 15#6
      · subst h15
        exact ⟨fun h _ => h, fun h hv => getLsbD_ack_of_false h (hv rfl)⟩
      · have hkeeps := writeRegister_keepsBits s hreset h3 h15
        exact ⟨fun h _ => hkeeps.irqPend b h, fun h _ => hkeeps.done b h⟩

/-- What an event other than a reset does to the two registers. -/
theorem handleEvent_keepsBits {e : EnvEvent} {s t : State} (h : handleEvent e s = .next t) (hreset : ¬resetEvent e) (b : Nat) :
    (s.irqPend.getLsbD b = true → (∀ v : Word, e = hostW 0x0C v → v.getLsbD b = false) → t.irqPend.getLsbD b = true) ∧
    (s.done.getLsbD b = true → (∀ v : Word, e = hostW 0x3C v → v.getLsbD b = false) → t.done.getLsbD b = true) := by
  have of_keeps (hk : KeepsBits s t) :
      (s.irqPend.getLsbD b = true → (∀ v : Word, e = hostW 0x0C v → v.getLsbD b = false) → t.irqPend.getLsbD b = true) ∧
      (s.done.getLsbD b = true → (∀ v : Word, e = hostW 0x3C v → v.getLsbD b = false) → t.done.getLsbD b = true) :=
    ⟨fun h _ => hk.irqPend b h, fun h _ => hk.done b h⟩
  cases e with
  | tick =>
    obtain ⟨u, hu, hk⟩ := tickStrobe_keepsBits s
    obtain rfl : u = t := Host.Outcome.next.inj (hu.symm.trans h)
    exact of_keeps hk
  | busWrite word v =>
    cases h
    obtain ⟨hirq, hdone⟩ := busWrite_keepsBits s hreset b
    exact ⟨fun h hv => hirq h fun hw => hv v (congrArg (EnvEvent.busWrite · v) hw),
      fun h hv => hdone h fun hw => hv v (congrArg (EnvEvent.busWrite · v) hw)⟩
  | busRead word =>
    cases h
    exact of_keeps (busRead_keepsBits word s)
  | driveVoice k v => cases h; exact of_keeps (.of_eq rfl rfl)
  | driveChain v => cases h; exact of_keeps (.of_eq rfl rfl)
  | driveRst level => exact absurd trivial hreset
  | tickOverrun => cases h

/-- IRQ is the level of the enabled pending bits (R35). -/
theorem irqOut_iff (s : State) :
    irqOut s = true ↔ ∃ b, b < 5 ∧ s.irqPend.getLsbD b = true ∧ s.irqEn.getLsbD b = true := by
  rw [irqOut, bne_iff_ne, ne_eq, BitVec.eq_of_getLsbD_eq_iff]
  simp [BitVec.getLsbD_and]

/-- Settles O53: by the event; the acknowledgements clear what the host writes 1. -/
theorem pendingBitsAreSticky : Obligations.PendingBitsAreSticky := by
  unfold Obligations.PendingBitsAreSticky
  refine ⟨fun s s' t e b hnext hstep hreset => ?_, fun s v hrst => ⟨⟨_, handleEvent_busWrite hrst 3#6 v, rfl, fun b hb => ?_⟩,
    ⟨_, handleEvent_busWrite hrst 15#6 v, rfl, fun b hb => ?_⟩, ⟨_, handleEvent_busWrite hrst 4#6 v, rfl, fun b hb => ?_⟩⟩,
    irqOut_iff⟩
  · rw [step_of_nextEvent hnext] at hstep
    have hkeeps := handleEvent_keepsBits hstep hreset b
    rw [eq_with_env_of_nextEvent hnext] at hkeeps
    exact hkeeps
  · exact getLsbD_ack s.irqPend v hb
  · exact getLsbD_ack s.done v hb
  · show (v.extractLsb' 0 5).getLsbD b = _
    rw [BitVec.getLsbD_extractLsb', decide_eq_true hb, Bool.true_and, Nat.zero_add]

end Sys2Proof.Machine
end


section
/-! PROOF. The register file on the bus (O60): the words of STATUS, SLOT_STATE, CTRL and TBL_ADDR field by field, the parameter
views, and the writes that store fields or nothing. -/

namespace Sys2Proof.Machine

/-! ### Words of fields

The words are stated here as concatenations of arbitrary fields, of which the model's words are cases. -/

section Status
variable (z : BitVec 5) (code : BitVec 3) (z' : BitVec 8) (idle payload waiting run : Bool) (z'' : BitVec 3) (level : BitVec 9)

/-- STATUS above its three reserved bits and FIFO_LEVEL (R33). -/
def statusFlags : BitVec (5 + 3 + 8 + 1 + 1 + 1 + 1) :=
  z ++ code ++ z' ++ BitVec.ofBool idle ++ BitVec.ofBool payload ++ BitVec.ofBool waiting ++ BitVec.ofBool run

theorem statusFlags_getLsbD :
    (statusFlags z code z' idle payload waiting run).getLsbD 0 = run ∧
    (statusFlags z code z' idle payload waiting run).getLsbD 1 = waiting ∧
    (statusFlags z code z' idle payload waiting run).getLsbD 2 = payload ∧
    (statusFlags z code z' idle payload waiting run).getLsbD 3 = idle := by
  simp [statusFlags, getLsbD_append_ofBool, -BitVec.getLsbD_eq_getElem]

theorem getLsbD_status (i : Nat) :
    (statusFlags z code z' idle payload waiting run ++ z'' ++ level).getLsbD (12 + i) =
      (statusFlags z code z' idle payload waiting run).getLsbD i := by
  rw [BitVec.getLsbD_append, if_neg (by omega), BitVec.getLsbD_append, if_neg (by omega)]
  congr 1
  omega

theorem extractLsb'_status_code :
    (statusFlags z code z' idle payload waiting run ++ z'' ++ level).extractLsb' 24 3 = code := by
  unfold statusFlags
  repeat rw [BitVec.extractLsb'_append_eq_of_le (by decide)]
  exact BitVec.extractLsb'_append_eq_right

theorem status_and_reserved :
    (statusFlags 0#5 code 0#8 idle payload waiting run ++ 0#3 ++ level) &&&
      (31#5 ++ 0#3 ++ 255#8 ++ 0#1 ++ 0#1 ++ 0#1 ++ 0#1 ++ 7#3 ++ 0#9) = 0#(5 + 3 + 8 + 1 + 1 + 1 + 1 + 3 + 9) := by
  unfold statusFlags
  simp only [BitVec.and_append, BitVec.and_zero, BitVec.zero_and]
  rfl

end Status

theorem extractLsb'_slotFields (z : BitVec 8) (e : SlotMap (BitVec 3)) (k : SlotId) :
    (z ++ e.s7 ++ e.s6 ++ e.s5 ++ e.s4 ++ e.s3 ++ e.s2 ++ e.s1 ++ e.s0).extractLsb' (3 * k.num) 3 = e.get k := by
  cases k
  all_goals
    repeat rw [BitVec.extractLsb'_append_eq_of_le (by decide)]
    exact BitVec.extractLsb'_append_eq_right

theorem extractLsb'_slotFields_reserved (z : BitVec 8) (e : SlotMap (BitVec 3)) :
    (z ++ e.s7 ++ e.s6 ++ e.s5 ++ e.s4 ++ e.s3 ++ e.s2 ++ e.s1 ++ e.s0).extractLsb' 24 8 = z := by
  iterate 7 rw [BitVec.extractLsb'_append_eq_of_le (by decide)]
  exact BitVec.extractLsb'_append_eq_left

section TblAddr
variable (z : BitVec 1) (table : BitVec 3) (sel : Bool) (z' : BitVec 7) (index : BitVec 20)

theorem tblAddrFields_read :
    (z ++ table ++ BitVec.ofBool sel ++ z' ++ index).extractLsb' 0 20 = index ∧
    (z ++ table ++ BitVec.ofBool sel ++ z' ++ index).getLsbD 27 = sel ∧
    (z ++ table ++ BitVec.ofBool sel ++ z' ++ index).extractLsb' 28 3 = table := by
  refine ⟨BitVec.extractLsb'_append_eq_right, ?_, ?_⟩
  · rw [BitVec.getLsbD_append, if_neg (by decide), BitVec.getLsbD_append, if_neg (by decide), getLsbD_append_ofBool,
      if_pos rfl]
  · repeat rw [BitVec.extractLsb'_append_eq_of_le (by decide)]
    exact BitVec.extractLsb'_append_eq_right

theorem tblAddrFields_and_reserved :
    (0#1 ++ table ++ BitVec.ofBool sel ++ 0#7 ++ index) &&& (1#1 ++ 0#3 ++ 0#1 ++ 127#7 ++ 0#20) = 0#(1 + 3 + 1 + 7 + 20) := by
  simp only [BitVec.and_append, BitVec.and_zero, BitVec.zero_and]
  rfl

end TblAddr

/-! ### The live words (R31, R33, R39, R44) -/

theorem cmdPayload_iff (s : State) : cmdPayload s = true ↔ ∃ h, s.fifo = [h] ∧ opcodeOf h = 0x1#4 := by
  constructor
  · intro hp
    unfold cmdPayload at hp
    split at hp
    next h hf => exact ⟨h, hf, beq_iff_eq.1 hp⟩
    next => cases hp
  · rintro ⟨h, hf, ho⟩
    exact cmdPayload_of_lone_setp hf ho

theorem cmdWaiting_iff (s : State) : cmdWaiting s = true ↔ s.wait ≠ 0 := bne_iff_ne

theorem cmdIdle_iff (s : State) : cmdIdle s = true ↔ s.fifo = [] ∧ s.wait = 0 := by
  rw [cmdIdle, Bool.and_eq_true, List.isEmpty_iff, beq_iff_eq]

theorem statusWord_level {s : State} (h : fifoInRange s) : ((statusWord s).extractLsb' 0 9).toNat = s.fifo.length := by
  have hlevel : (statusWord s).extractLsb' 0 9 = BitVec.ofNat 9 s.fifo.length := BitVec.extractLsb'_append_eq_right
  have hlen : s.fifo.length ≤ 256 := h
  rw [hlevel, BitVec.toNat_ofNat]
  omega

theorem statusWord_flags (s : State) :
    (statusWord s).getLsbD 12 = s.run ∧ (statusWord s).getLsbD 13 = cmdWaiting s ∧ (statusWord s).getLsbD 14 = cmdPayload s ∧
    (statusWord s).getLsbD 15 = cmdIdle s := by
  obtain ⟨hrun, hwaiting, hpayload, hidle⟩ :=
    statusFlags_getLsbD 0#5 (errCodeBits s.errCode) 0#8 (cmdIdle s) (cmdPayload s) (cmdWaiting s) s.run
  have hbit (i : Nat) : (statusWord s).getLsbD (12 + i) =
      (statusFlags 0#5 (errCodeBits s.errCode) 0#8 (cmdIdle s) (cmdPayload s) (cmdWaiting s) s.run).getLsbD i :=
    getLsbD_status ..
  exact ⟨(hbit 0).trans hrun, (hbit 1).trans hwaiting, (hbit 2).trans hpayload, (hbit 3).trans hidle⟩

theorem slotStateWord_fields (s : State) :
    (slotStateWord s).extractLsb' 24 8 = 0 ∧
    ∀ k : SlotId, (slotStateWord s).extractLsb' (3 * k.num) 3 = envStateBits (s.slots.get k).st :=
  ⟨extractLsb'_slotFields_reserved 0#8 (SlotMap.tabulate fun k => envStateBits (s.slots.get k).st), fun k =>
    (extractLsb'_slotFields 0#8 (SlotMap.tabulate fun k => envStateBits (s.slots.get k).st) k).trans (SlotMap.get_tabulate _ k)⟩

theorem ctrlWord_fields (s : State) :
    (ctrlWord s).getLsbD 0 = s.run ∧ (ctrlWord s).getLsbD 1 = s.extInsert ∧ ctrlWord s &&& 0xFFFFFFFC#32 = 0 := by
  refine ⟨?_, ?_, ?_⟩
  · exact (getLsbD_append_ofBool (0#30 ++ BitVec.ofBool s.extInsert) s.run 0).trans (if_pos rfl)
  · exact (getLsbD_append_ofBool (0#30 ++ BitVec.ofBool s.extInsert) s.run 1).trans
      ((if_neg one_ne_zero).trans ((getLsbD_append_ofBool 0#30 s.extInsert 0).trans (if_pos rfl)))
  · rw [ctrlWord]
    cases s.extInsert <;> cases s.run <;> rfl

theorem tblAddrWord_fields (s : State) :
    (tblAddrWord s).extractLsb' 0 20 = s.tblIndex ∧ (tblAddrWord s).getLsbD 27 = s.tblBankSel ∧
    (tblAddrWord s).extractLsb' 28 3 = s.tblTable ∧ tblAddrWord s &&& 0x87F00000#32 = 0 := by
  obtain ⟨hindex, hsel, htable⟩ := tblAddrFields_read 0#1 s.tblTable s.tblBankSel 0#7 s.tblIndex
  exact ⟨hindex, hsel, htable, tblAddrFields_and_reserved s.tblTable s.tblBankSel s.tblIndex⟩

theorem and_low_eq_zeroExtend (v : Word) : (v.extractLsb' 0 12).zeroExtend 32 = v &&& 0x00000FFF#32 := by
  apply BitVec.eq_of_toNat_eq
  have hmask : v.toNat &&& (2 ^ 12 - 1) = v.toNat % 2 ^ 12 := Nat.and_two_pow_sub_one_eq_mod _ _
  rw [BitVec.toNat_and, BitVec.toNat_setWidth, field_toNat]
  exact (show _ = v.toNat % 2 ^ 12 by omega).trans hmask.symm

/-- What TBL_ADDR stores of a word is the word without its reserved bits. -/
theorem tblAddrFields_of_word (v : BitVec (1 + 3 + 1 + 7 + 20)) :
    0#1 ++ v.extractLsb' 28 3 ++ BitVec.ofBool (v.getLsbD 27) ++ 0#7 ++ v.extractLsb' 0 20 =
      v &&& (0#1 ++ BitVec.allOnes 3 ++ BitVec.allOnes 1 ++ 0#7 ++ BitVec.allOnes 20) := by
  have hbit : v.extractLsb' 27 1 = BitVec.ofBool (v.getLsbD 27) := by
    apply BitVec.eq_of_getLsbD_eq
    simp
  have hparts : v = v.extractLsb' 31 1 ++ v.extractLsb' 28 3 ++ v.extractLsb' 27 1 ++ v.extractLsb' 20 7 ++
      v.extractLsb' 0 20 := by
    rw [BitVec.extractLsb'_append_extractLsb'_eq_extractLsb' (show 31 = 28 + 3 from rfl),
      BitVec.extractLsb'_append_extractLsb'_eq_extractLsb' (show 28 = 27 + 1 from rfl),
      BitVec.extractLsb'_append_extractLsb'_eq_extractLsb' (show 27 = 20 + 7 from rfl),
      BitVec.extractLsb'_append_extractLsb'_eq_extractLsb' (show 20 = 0 + 20 from rfl)]
    exact BitVec.extractLsb'_eq_self.symm
  conv_rhs => rw [hparts]
  simp only [BitVec.and_append, BitVec.and_zero, BitVec.and_allOnes, hbit]

theorem tblAddrWord_writeTblAddr (v : Word) (s : State) : tblAddrWord (writeTblAddr v s) = v &&& 0x780FFFFF#32 :=
  tblAddrFields_of_word v

/-! ### The accesses on the bus (R30, R42, R43, R128) -/

section Bus
variable {s : State} (hrst : s.rst = false)
include hrst

theorem handleEvent_hostR {off : Nat} (hoff : BitVec.ofNat 6 (off / 4) ≠ tblDataWord) :
    handleEvent (hostR off) s = .next { s with rdata := registerWord s (BitVec.ofNat 6 (off / 4)) } :=
  handleEvent_busRead hrst hoff

theorem handleEvent_hostR_par {p : Param} (hp : s.parSel = p.id) :
    handleEvent (hostR 0x2C) s = .next { s with rdata := tgtWord s p } ∧
    handleEvent (hostR 0x30) s = .next { s with rdata := curWord s p } := by
  have hview (view : State → Param → Word) : selectedParamWord s view = view s p := by
    rw [selectedParamWord, hp, Param.ofId?_id]
  rw [← hview tgtWord, ← hview curWord]
  exact ⟨handleEvent_hostR hrst (by decide), handleEvent_hostR hrst (by decide)⟩

theorem handleEvent_hostR_par_invalid (hp : ∀ p : Param, p.id ≠ s.parSel) :
    handleEvent (hostR 0x2C) s = .next { s with rdata := 0 } ∧
    handleEvent (hostR 0x30) s = .next { s with rdata := 0 } := by
  have hview (view : State → Param → Word) : selectedParamWord s view = 0 := by
    rw [selectedParamWord, (Param.ofId?_none_iff _).2 hp]
  have hread (w : Word) (hw : w = 0) : Host.Outcome.next (φ := Fault) (ρ := Refusal) { s with rdata := w } =
      .next { s with rdata := 0 } := by rw [hw]
  exact ⟨(handleEvent_hostR hrst (by decide)).trans (hread _ (hview tgtWord)),
    (handleEvent_hostR hrst (by decide)).trans (hread _ (hview curWord))⟩

end Bus

/-- The registers that a host write reaches (R30). -/
def writableWords : List (BitVec 6) := [1#6, 3#6, 4#6, 5#6, 8#6, 9#6, 10#6, 15#6]

theorem writeRegister_of_readOnly {word : BitVec 6} (h : word ∉ writableWords) (v : Word) (s : State) :
    writeRegister word v s = s := by
  rcases writeRegister_cases word v s with ⟨e, -⟩ | ⟨e, -⟩ | ⟨e, -⟩ | ⟨e, -⟩ | ⟨e, -⟩ | ⟨e, -⟩ | ⟨e, -⟩ | ⟨e, -⟩ | ⟨e, -⟩
  case inr.inr.inr.inr.inr.inr.inr.inr => exact e
  all_goals
    subst e
    exact absurd (by decide) h

theorem handleEvent_hostW_readOnly {s : State} (hrst : s.rst = false) (v : Word) :
    ∀ off ∈ [0x00, 0x08, 0x18, 0x1C, 0x2C, 0x30, 0x34, 0x38, 0x40], handleEvent (hostW off v) s = .next s := by
  have hwords : ∀ off ∈ [0x00, 0x08, 0x18, 0x1C, 0x2C, 0x30, 0x34, 0x38, 0x40],
      BitVec.ofNat 6 (off / 4) ∉ writableWords := by
    decide
  intro off hoff
  rw [hostW, handleEvent_busWrite hrst, writeRegister_of_readOnly (hwords off hoff)]

/-- Settles O60: every read shows the register's word, and every write is the register's. -/
theorem registerReadsAndWrites : Obligations.RegisterReadsAndWrites := by
  unfold Obligations.RegisterReadsAndWrites
  refine ⟨fun s hrst hfifo => ⟨statusWord s, handleEvent_hostR hrst (by decide), statusWord_level hfifo, ?_⟩,
    fun s hrst => ⟨slotStateWord s, handleEvent_hostR hrst (by decide), slotStateWord_fields s⟩, fun s hrst => ?_,
    fun s hrst => ⟨fun p => handleEvent_hostR_par hrst (p := .file p), handleEvent_hostR_par hrst (p := .irLen),
      handleEvent_hostR_par_invalid hrst⟩, fun s v hrst => ?_⟩
  · obtain ⟨hrun, hwaiting, hpayload, hidle⟩ := statusWord_flags s
    rw [hwaiting, hpayload, hidle, cmdWaiting_iff, cmdPayload_iff, cmdIdle_iff]
    exact ⟨hrun, .rfl, .rfl, .rfl, extractLsb'_status_code .., status_and_reserved ..⟩
  · have read {off : Nat} (hoff : BitVec.ofNat 6 (off / 4) ≠ tblDataWord) := handleEvent_hostR hrst hoff
    exact ⟨read (by decide), ⟨ctrlWord s, read (by decide), ctrlWord_fields s⟩, read (by decide), read (by decide),
      read (by decide), read (by decide), read (by decide), ⟨tblAddrWord s, read (by decide), tblAddrWord_fields s⟩,
      read (by decide), read (by decide), read (by decide), read (by decide)⟩
  · refine ⟨fun hreset hflush => ?_, ⟨writeTblAddr v s, handleEvent_busWrite hrst 8#6 v, rfl, ?_⟩,
      ⟨{ s with parSel := v.extractLsb' 0 12 }, handleEvent_busWrite hrst 10#6 v, rfl, ?_⟩, handleEvent_hostW_readOnly hrst v⟩
    · rw [handleEvent_hostW_ctrl hrst, writeCtrl, if_neg (by rw [hreset]; decide), if_neg (by rw [hflush]; decide)]
    · rw [← tblAddrWord_writeTblAddr v s]
      exact handleEvent_hostR (s := writeTblAddr v s) hrst (by decide)
    · rw [← and_low_eq_zeroExtend]
      exact handleEvent_hostR (s := { s with parSel := v.extractLsb' 0 12 }) hrst (by decide)

end Sys2Proof.Machine
end
